-- ==== Sys2Proof/Word.lean ====
section
/-! DEFINITION. The word types of the model. Registers, addresses and CSR values are `BitVec 64`; on a hart with `XLEN` = 32 (spec/00_scope.md R8) they hold 32-bit values zero-extended (assumption log 2). -/

namespace Sys2Proof

/-- A register, address or CSR value: `XLEN` bits, held in 64 (R11, log 2). -/
abbrev Word := BitVec 64

/-- One byte of memory (R51: byte addresses). -/
abbrev Byte := BitVec 8

/-- A CSR address in the separate 12-bit space of R27. -/
abbrev CsrAddr := BitVec 12

end Sys2Proof
end

