-- ==== Sys2Proof/Config.lean ====
section
/-! DEFINITION. The implementation parameters of spec/00_scope.md R8 as plain data, their constraints (R9, R241), the configuration `State.reset` stands in, and the free values whose type names no machine state. -/

namespace Sys2Proof

/-- MXLEN of the hart (R8: 32 or 64). SXLEN, VSXLEN and UXLEN equal it (D5). -/
inductive Xlen where
  | rv32
  | rv64
  deriving DecidableEq, Repr

/-- What the platform may do on an unmasked `critical-error`: a step of `PLATFORM_CERR_ACTION` (R199, D17). -/
inductive PlatformAction where
  /-- It does nothing. -/
  | nothing
  /-- It resets the hart. -/
  | resetHart
  /-- It resets every hart. -/
  | resetAll
  /-- It does something else, which the spec does not name: a free value (assumption log 21). -/
  | other
  deriving DecidableEq, Repr

/-- The parameters of R8, and after them what the spec leaves to `BaseISA` or the platform as a fixed fact.
A configuration is a field of `State` that no step changes, so a statement about every state quantifies over every configuration (assumption log 1). -/
structure Config where
  /-- `XLEN`. -/
  xlen : Xlen
  /-- `HAS_S`. -/
  hasS : Bool
  /-- `HAS_U`. -/
  hasU : Bool
  /-- `HAS_H`. -/
  hasH : Bool
  /-- `HAS_SSDBLTRP`. -/
  hasSsdbltrp : Bool
  /-- `HAS_SMDBLTRP`. -/
  hasSmdbltrp : Bool
  /-- `HAS_SDDBLTRP`. -/
  hasSddbltrp : Bool
  /-- `HAS_SMRNMI`. -/
  hasSmrnmi : Bool
  /-- `HAS_DEBUG`. -/
  hasDebug : Bool
  /-- `HAS_SCERR`. -/
  hasScerr : Bool
  /-- `HAS_ANYCERR`. -/
  hasAnycerr : Bool
  /-- `NHARTS`. -/
  nharts : Nat
  /-- `RNMI_DBLTRP_HANDLER` (D14, open). -/
  rnmiDbltrpHandler : Word
  /-- `PLATFORM_CERR_ACTION` (D17, open): the actions the platform may take on an unmasked `critical-error`. -/
  platformCerrActions : List PlatformAction
  /-- `NMI_CHECKS_MDT` (D13, open). -/
  nmiChecksMdt : Bool
  /-- `CERR_HELD_IN_DEBUG` (D18, open). -/
  cerrHeldInDebug : Bool
  /-- `RESET_SDT` (D24, open). -/
  resetSdt : Bool
  /-- `RESET_VSSDT` (D24, open). -/
  resetVssdt : Bool
  /-- `RESET_MENVCFG_DTE` (D24, open). -/
  resetMenvcfgDte : Bool
  /-- `RESET_HENVCFG_DTE` (D24, open). -/
  resetHenvcfgDte : Bool
  /-- `BaseISA` has the C extension: instructions are 2-byte aligned (R83). -/
  hasC : Bool
  /-- The reset vector (R54: implementation-defined; U10). -/
  resetVector : Word
  /-- The reset cause `mcause` holds after reset (R54; 0 if causes are not distinguished): one value for every reset of the configuration, a DESIGN CHOICE (assumption log 27). -/
  resetCause : Word
  /-- The RNMI interrupt handler address (R44, R201: implementation-defined). -/
  rnmiIntHandler : Word
  /-- The RNMI exception handler address (R181, last paragraph: implementation-defined). -/
  rnmiExcHandler : Word
  /-- The handler address of a non-resumable NMI (R202: implementation-defined). -/
  nmiHandler : Word
  /-- `tval` of an illegal-instruction or virtual-instruction exception is the instruction word, else 0 (U15: fixed per implementation). -/
  illegalTvalWord : Bool
  /-- The addresses of the CSRs outside R27's table that `BaseISA` implements (D1; assumption log 13). -/
  baseCsrs : List CsrAddr
  /-- Those of them that are instruction-retired counters (R221; assumption log 26). -/
  retiredCounters : List CsrAddr
  /-- The interrupt codes `BaseISA` has beside the eleven of R189, in its order (assumption log 16). -/
  customInterrupts : List Nat
  deriving DecidableEq, Repr

/-- The constraints between parameters: R9 (D31), R241, and `NHARTS` ≥ 1 (R8). -/
def Config.wf (cfg : Config) : Bool :=
  (!cfg.hasSsdbltrp || cfg.hasS) && (!cfg.hasSddbltrp || cfg.hasDebug) && (!cfg.hasH || cfg.hasS)
    && decide (1 ≤ cfg.nharts)
    && (!cfg.resetMenvcfgDte || cfg.hasSsdbltrp)
    && (!cfg.resetHenvcfgDte || (cfg.resetMenvcfgDte && cfg.hasH))
    && (!cfg.resetSdt || cfg.resetMenvcfgDte)
    && (!cfg.resetVssdt || cfg.resetHenvcfgDte)

/-- The configuration of `State.reset`: RV64 with every extension of the spec present, no C extension, the open reset parameters 0, an NMI that does not test `MDT` (D13), `critical-error` not held in Debug Mode (D18), and `tval` of an illegal instruction its word (U15).
Each value is a DESIGN CHOICE (assumption log 1), unsafe only for a statement about `State.reset` itself. -/
def Config.full : Config :=
  { xlen := .rv64, hasS := true, hasU := true, hasH := true
    hasSsdbltrp := true, hasSmdbltrp := true, hasSddbltrp := true, hasSmrnmi := true
    hasDebug := true, hasScerr := true, hasAnycerr := true, nharts := 1
    rnmiDbltrpHandler := 0x80004000#64, platformCerrActions := [.nothing, .resetHart, .resetAll, .other]
    nmiChecksMdt := false, cerrHeldInDebug := false
    resetSdt := false, resetVssdt := false, resetMenvcfgDte := false, resetHenvcfgDte := false
    hasC := false, resetVector := 0x80000000#64, resetCause := 0#64
    rnmiIntHandler := 0x80005000#64, rnmiExcHandler := 0x80006000#64, nmiHandler := 0x80007000#64
    illegalTvalWord := true, baseCsrs := [], customInterrupts := [], retiredCounters := [] }

/-- FREE VALUE (assumption log 8). The privilege number a WARL field ends with when software writes `written`, which names no implemented mode, over `old`: BaseISA's choice (R127).
The operation that uses it keeps the limit that the result names an implemented mode. -/
opaque Config.warlPrivilege (old written : BitVec 2) : BitVec 2

/-- FREE VALUE (assumption log 9). The handler address of an interrupt under a trap vector `tvec` whose MODE is 2 or 3, which the base reserves (U22). -/
opaque Config.reservedVector (tvec code : Word) : Word

end Sys2Proof
end

