-- ==== Sys2Proof/Machine/Bits.lean ====
section
/-! DEFINITION. Bit fields of words (spec/00_scope.md R10), and values of `XLEN` bits held in 64 (R11, assumption log 2). -/

namespace Sys2Proof.Machine

/-- Bit `i` of `w`, bit 0 the least significant (R10). -/
def bit (w : Word) (i : Nat) : Bool := w.getLsbD i

/-- `w` with bit `i` set to `b`. -/
def setBit (w : Word) (i : Nat) (b : Bool) : Word :=
  (w &&& ~~~(BitVec.twoPow 64 i)) ||| (if b then BitVec.twoPow 64 i else 0#64)

/-- The two-bit field of `w` whose lower bit is bit `lo`. -/
def field2 (w : Word) (lo : Nat) : BitVec 2 := w.extractLsb' lo 2

/-- `w` with the two-bit field at `lo` set to `v`. -/
def setField2 (w : Word) (lo : Nat) (v : BitVec 2) : Word :=
  setBit (setBit w lo (v.getLsbD 0)) (lo + 1) (v.getLsbD 1)

/-- The word with exactly the listed bits set. -/
def maskOf (bits : List Nat) : Word := bits.foldr (fun i m => BitVec.twoPow 64 i ||| m) 0#64

/-- `v` where `mask` has a 1, `old` elsewhere: a write that reaches only the masked bits (R107: the rest of the write proceeds). -/
def merge (mask old v : Word) : Word := (old &&& ~~~mask) ||| (v &&& mask)

/-- `XLEN` as a number. -/
def xlenBits (cfg : Config) : Nat :=
  match cfg.xlen with
  | .rv32 => 32
  | .rv64 => 64

/-- The low 32 bits. -/
def lowHalf (w : Word) : Word := w &&& 0xFFFFFFFF#64

/-- The bits 63:32, moved down: what the `h` CSR of a 64-bit CSR reads on RV32 (R34, R36, D5). -/
def highHalf (w : Word) : Word := w >>> 32

/-- `w` as an `XLEN`-bit value. -/
def trunc (cfg : Config) (w : Word) : Word :=
  match cfg.xlen with
  | .rv32 => lowHalf w
  | .rv64 => w

/-- The number of bytes of the memory address space (R51c). -/
def addressCount (cfg : Config) : Nat := 2 ^ xlenBits cfg

/-- `w` as the address of an instruction: bit 0 cleared, and bit 1 too where instructions are 4-byte aligned (R83; assumption log 12). -/
def alignPc (cfg : Config) (w : Word) : Word :=
  trunc cfg (if cfg.hasC then w &&& ~~~1#64 else w &&& ~~~3#64)

end Sys2Proof.Machine
end

