-- ==== Sys2Proof/Machine/Hart.lean ====
section
/-! DEFINITION. The architectural state of one hart (spec/10_state.md R20 to R47), grouped by the level that owns a register. -/

namespace Sys2Proof.Machine

/-- The privilege modes of R22. -/
inductive Priv where
  | u
  | s
  | m
  deriving DecidableEq, Repr

/-- `hart_state` (R23). -/
inductive RunState where
  /-- The hart executes instructions and takes traps. -/
  | running
  /-- The critical-error state of R197 and R198. -/
  | criticalError
  /-- Halted under control of the external debugger. -/
  | debugMode
  deriving DecidableEq, Repr

/-- The M-level CSRs of R28 to R39. `status` is `mstatus`, with `mstatush` in bits 63:32 on RV32 (R34: the same architectural bit); `edeleg` and `envcfg` hold 64 bits on RV32 too (R36). -/
structure MRegs where
  status : Word
  edeleg : Word
  ideleg : Word
  tvec : Word
  envcfg : Word
  epc : Word
  cause : Word
  tval : Word
  tval2 : Word
  tinst : Word
  deriving DecidableEq, Repr

/-- The S-level trap CSRs of R40. `sstatus` is a view of `mstatus` (R35). -/
structure SRegs where
  tvec : Word
  epc : Word
  cause : Word
  tval : Word
  deriving DecidableEq, Repr

/-- The VS-level CSRs of R40 and R41. -/
structure VsRegs where
  status : Word
  tvec : Word
  epc : Word
  cause : Word
  tval : Word
  deriving DecidableEq, Repr

/-- The hypervisor CSRs of R40, R42 and R43. -/
structure HsRegs where
  status : Word
  edeleg : Word
  ideleg : Word
  envcfg : Word
  tval : Word
  tinst : Word
  deriving DecidableEq, Repr

/-- The Smrnmi CSRs of R44. -/
structure NmRegs where
  scratch : Word
  epc : Word
  cause : Word
  status : Word
  deriving DecidableEq, Repr

/-- The debug CSRs of R45 to R47. -/
structure DbgRegs where
  dcsr : BitVec 32
  dpc : Word
  deriving DecidableEq, Repr

/-- One hart. -/
structure Hart where
  /-- Which hart this is (R219). -/
  hartId : Nat
  /-- The integer registers (R20); read and written through `readReg` and `writeReg`. -/
  x : Vector Word 32
  /-- R21. -/
  pc : Word
  /-- R22. -/
  priv : Priv
  /-- `V` of R22. -/
  virt : Bool
  /-- R23. -/
  run : RunState
  /-- The `critical-error` output signal (R24). -/
  cerr : Bool
  /-- The halt request input (R25). -/
  haltreq : Bool
  /-- Bit `c`: interrupt `c` is pending and enabled in `BaseISA` (R203). -/
  irq : Word
  m : MRegs
  s : SRegs
  vs : VsRegs
  hs : HsRegs
  nm : NmRegs
  dbg : DbgRegs
  /-- The CSRs of `BaseISA` outside R27's table, by address; an unlisted one holds 0 (assumption log 13). -/
  baseCsrs : List (Nat × Word)
  /-- How many instructions the hart has retired since its reset, the count an instruction-retired counter shows (R221; assumption log 26). -/
  retired : Nat
  deriving DecidableEq, Repr

/-- The encoding of a privilege mode in `MPP`, `MNPP` and `dcsr.prv` (R22: U 0, S 1, M 3). -/
def Priv.code : Priv → BitVec 2
  | .u => 0x0#2
  | .s => 0x1#2
  | .m => 0x3#2

/-- The mode a stored two-bit field names. The value 2 names none and no write stores it (assumption log 8); it is read as M. -/
def Priv.ofCode (c : BitVec 2) : Priv :=
  if c = 0x0#2 then .u else if c = 0x1#2 then .s else .m

end Sys2Proof.Machine
end

