-- ==== Sys2Proof/Machine/Fields.lean ====
section
/-! DEFINITION. The named fields of the CSRs (spec/10_state.md R28 to R46) as the rules read them: a field that is read-only zero in a configuration reads 0 (R31, R41, R42, R46). -/

namespace Sys2Proof.Machine

/-- Bit numbers of R28, R31, R33, R35. -/
def bitSIE : Nat := 1
def bitMIE : Nat := 3
def bitSPIE : Nat := 5
def bitMPIE : Nat := 7
def bitSPP : Nat := 8
def loMPP : Nat := 11
def bitMPRV : Nat := 17
def bitTSR : Nat := 22
def bitSDT : Nat := 24
def bitGVA : Nat := 38
def bitMPV : Nat := 39
def bitMDT : Nat := 45
/-- `menvcfg.DTE`, `henvcfg.DTE` (R36, R42). -/
def bitDTE : Nat := 59
/-- `hstatus` (R40). -/
def bitHGVA : Nat := 6
def bitSPV : Nat := 7
def bitSPVP : Nat := 8
def bitVTSR : Nat := 22
/-- `mnstatus` (R44). -/
def bitNMIE : Nat := 3
def bitMNPV : Nat := 7
def loMNPP : Nat := 11
/-- `dcsr` (R45, R46). -/
def bitPcerr : Nat := 19
def bitDcsrV : Nat := 5

/-- `SsActive` (R175): also what `menvcfg.DTE` reads, since without Ssdbltrp bit 59 reads 0 (R36). -/
def ssActive (cfg : Config) (h : Hart) : Bool := cfg.hasSsdbltrp && bit h.m.envcfg bitDTE

/-- `SsActiveVS` (R175): also what `henvcfg.DTE` reads (R42). -/
def ssActiveVS (cfg : Config) (h : Hart) : Bool :=
  ssActive cfg h && cfg.hasH && bit h.hs.envcfg bitDTE

/-- `mstatus.SDT` (R31), 0 while read-only zero. -/
def sdt (cfg : Config) (h : Hart) : Bool := ssActive cfg h && bit h.m.status bitSDT

/-- `vsstatus.SDT` (R41), 0 while read-only zero. -/
def vsSdt (cfg : Config) (h : Hart) : Bool := ssActiveVS cfg h && bit h.vs.status bitSDT

/-- `MDT` (R33, R34), 0 without Smdbltrp. -/
def mdt (cfg : Config) (h : Hart) : Bool := cfg.hasSmdbltrp && bit h.m.status bitMDT

def sie (h : Hart) : Bool := bit h.m.status bitSIE
def mie (h : Hart) : Bool := bit h.m.status bitMIE
def spie (h : Hart) : Bool := bit h.m.status bitSPIE
def mpie (h : Hart) : Bool := bit h.m.status bitMPIE
def spp (h : Hart) : Bool := bit h.m.status bitSPP
def mpp (h : Hart) : BitVec 2 := field2 h.m.status loMPP
def mprv (h : Hart) : Bool := bit h.m.status bitMPRV
def tsr (h : Hart) : Bool := bit h.m.status bitTSR
def mpv (h : Hart) : Bool := bit h.m.status bitMPV
def gva (h : Hart) : Bool := bit h.m.status bitGVA
def vsSie (h : Hart) : Bool := bit h.vs.status bitSIE
def vsSpie (h : Hart) : Bool := bit h.vs.status bitSPIE
def vsSpp (h : Hart) : Bool := bit h.vs.status bitSPP
def hGva (h : Hart) : Bool := bit h.hs.status bitHGVA
def spv (h : Hart) : Bool := bit h.hs.status bitSPV
def spvp (h : Hart) : Bool := bit h.hs.status bitSPVP
def vtsr (h : Hart) : Bool := bit h.hs.status bitVTSR
def nmie (h : Hart) : Bool := bit h.nm.status bitNMIE
def mnpv (h : Hart) : Bool := bit h.nm.status bitMNPV
def mnpp (h : Hart) : BitVec 2 := field2 h.nm.status loMNPP

/-- `dcsr.pcerr` (R46), 0 without Sddbltrp. -/
def pcerr (cfg : Config) (h : Hart) : Bool := cfg.hasSddbltrp && h.dbg.dcsr.getLsbD bitPcerr

/-- `dcsr.cause` (R45). -/
def dcsrCause (h : Hart) : BitVec 3 := h.dbg.dcsr.extractLsb' 6 3
/-- `dcsr.prv` (R45). -/
def dcsrPrv (h : Hart) : BitVec 2 := h.dbg.dcsr.extractLsb' 0 2
/-- `dcsr.v` (R45). -/
def dcsrV (h : Hart) : Bool := h.dbg.dcsr.getLsbD bitDcsrV

/-- `medeleg` and `hedeleg` as read: bit 16 is 0 in every configuration (R37, R43, D8). -/
def delegView (w : Word) : Word := setBit w 16 false

/-- Whether `mtval2` exists (R39: with H, or because Ssdbltrp requires it). -/
def hasMtval2 (cfg : Config) : Bool := cfg.hasH || cfg.hasSsdbltrp

end Sys2Proof.Machine
end

