-- ==== Sys2Proof/Machine/Flags.lean ====
section
/-! DEFINITION. The computed status bits. The spec has no arithmetic flag (spec/10_state.md R26): what is computed is an interrupt-enable bit next to its disable-trap bit (R32, R33, spec/40_csr_access.md R128 to R132), the dirty summary `SD`, and a legal privilege field. -/

namespace Sys2Proof.Machine

/-- The one formula of R32 and R33: the enable bit after a write is 0 if the disable-trap bit is 1 after it, else what the write gives it (C4 of spec/90_conflicts.md). -/
def coupledEnable (disableAfter enableWritten : Bool) : Bool := !disableAfter && enableWritten

/-- `SDT` after an explicit write of `v` to a register whose `SDT` is active or not (R128, R131: `sdt'`). -/
def sdtWritten (active : Bool) (v : Word) : Bool := active && bit v bitSDT

/-- `SIE` after that write (R128, R131: `sie'`). -/
def sieWritten (active : Bool) (v : Word) : Bool := coupledEnable (sdtWritten active v) (bit v bitSIE)

/-- `SD`: some of `FS`, `VS`, `XS` is dirty (the family's rule for the field R28 places; assumption log 7). -/
def dirtySummary (w : Word) : Bool :=
  field2 w 13 == 0x3#2 || field2 w 9 == 0x3#2 || field2 w 15 == 0x3#2

/-- A two-bit privilege field names an implemented mode (R22, R8). -/
def legalPrivilege (cfg : Config) (c : BitVec 2) : Bool :=
  c == 0x3#2 || (c == 0x1#2 && cfg.hasS) || (c == 0x0#2 && cfg.hasU)

/-- What a WARL privilege field holds after `written`: a legal value as written; for an illegal one BaseISA's choice, a free value within the implemented modes (assumption log 8). -/
def privilegeStored (cfg : Config) (old written : BitVec 2) : BitVec 2 :=
  if legalPrivilege cfg written then written
  else if legalPrivilege cfg (Config.warlPrivilege old written) then Config.warlPrivilege old written
  else 0x3#2

end Sys2Proof.Machine
end

