-- ==== Sys2Proof/Syntax.lean ====
section
/-! DEFINITION. The instructions: one constructor per row of spec/opcode_table.json (spec/30_encoding.md R100). -/

namespace Sys2Proof

/-- The eleven instructions of R100. `rd` and `rs1` are register numbers, `uimm` a 5-bit unsigned immediate, `csr` a 12-bit CSR address (R105). -/
inductive Instr where
  /-- `csrrw rd, csr, rs1` (R120). -/
  | csrrw (rd : Nat) (csr : CsrAddr) (rs1 : Nat)
  /-- `csrrs rd, csr, rs1` (R121). -/
  | csrrs (rd : Nat) (csr : CsrAddr) (rs1 : Nat)
  /-- `csrrc rd, csr, rs1` (R122). -/
  | csrrc (rd : Nat) (csr : CsrAddr) (rs1 : Nat)
  /-- `csrrwi rd, csr, uimm` (R123). -/
  | csrrwi (rd : Nat) (csr : CsrAddr) (uimm : Nat)
  /-- `csrrsi rd, csr, uimm` (R124). -/
  | csrrsi (rd : Nat) (csr : CsrAddr) (uimm : Nat)
  /-- `csrrci rd, csr, uimm` (R125). -/
  | csrrci (rd : Nat) (csr : CsrAddr) (uimm : Nat)
  /-- `ecall` (R154). -/
  | ecall
  /-- `sret` (R151). -/
  | sret
  /-- `mret` (R150). -/
  | mret
  /-- `mnret` (R152). -/
  | mnret
  /-- `dret` (R153). -/
  | dret
  deriving DecidableEq, Repr

end Sys2Proof
end

