-- ==== Sys2Proof/WellFormed.lean ====
section
/-! DEFINITION. Which instruction terms an encoding can hold (spec/30_encoding.md R105): register numbers and immediates below 32. The CSR address is 12 bits by its type. -/

namespace Sys2Proof

/-- A 5-bit operand field (R105: register numbers 0 to 31, `uimm` 0 to 31). -/
def fitsFive (n : Nat) : Bool := decide (n < 32)

/-- Every operand of `i` fits its field (R105). -/
def Instr.wellFormed : Instr → Bool
  | .csrrw rd _ rs1 => fitsFive rd && fitsFive rs1
  | .csrrs rd _ rs1 => fitsFive rd && fitsFive rs1
  | .csrrc rd _ rs1 => fitsFive rd && fitsFive rs1
  | .csrrwi rd _ uimm => fitsFive rd && fitsFive uimm
  | .csrrsi rd _ uimm => fitsFive rd && fitsFive uimm
  | .csrrci rd _ uimm => fitsFive rd && fitsFive uimm
  | .ecall => true
  | .sret => true
  | .mret => true
  | .mnret => true
  | .dret => true

end Sys2Proof
end

