-- ==== Sys2Proof/Decode.lean ====
section
/-! DEFINITION. The decoder and the encoder of spec/30_encoding.md R101 to R106: total on any bytes, rejecting by name. -/

namespace Sys2Proof

/-- Why a word is none of the eleven instructions. Each such word belongs to `BaseISA` (R106). -/
inductive DecodeError where
  /-- Fewer than the bytes of the instruction. -/
  | tooShort
  /-- Bits 1:0 are not `11`: a 16-bit compressed instruction (R101). -/
  | compressed
  /-- The major opcode is not SYSTEM (R106). -/
  | otherOpcode
  /-- SYSTEM, `funct3` = 000 and none of the five words of R104 (EBREAK, WFI, the fences). -/
  | otherPrivileged
  /-- SYSTEM, `funct3` = 100 (the hypervisor loads and stores, R106). -/
  | funct3Four
  deriving DecidableEq, Repr

/-- The major opcode SYSTEM (R102). -/
def opSystem : BitVec 7 := 0x73#7

/-- The words of R104. -/
def wordEcall : BitVec 32 := 0x00000073#32
def wordSret : BitVec 32 := 0x10200073#32
def wordMret : BitVec 32 := 0x30200073#32
def wordMnret : BitVec 32 := 0x70200073#32
def wordDret : BitVec 32 := 0x7B200073#32

/-- The I-type fields of R102 and R105. -/
def fieldOpcode (w : BitVec 32) : BitVec 7 := w.extractLsb' 0 7
def fieldRd (w : BitVec 32) : Nat := (w.extractLsb' 7 5).toNat
def fieldFunct3 (w : BitVec 32) : BitVec 3 := w.extractLsb' 12 3
def fieldRs1 (w : BitVec 32) : Nat := (w.extractLsb' 15 5).toNat
def fieldCsr (w : BitVec 32) : CsrAddr := w.extractLsb' 20 12

/-- A SYSTEM word with `funct3` = 000: the whole word selects (R104, R106). -/
def decodePrivileged (w : BitVec 32) : Except DecodeError Instr :=
  if w = wordEcall then .ok .ecall
  else if w = wordSret then .ok .sret
  else if w = wordMret then .ok .mret
  else if w = wordMnret then .ok .mnret
  else if w = wordDret then .ok .dret
  else .error .otherPrivileged

/-- The instruction a 32-bit word stands for, in R106's order. -/
def decodeWord (w : BitVec 32) : Except DecodeError Instr :=
  if w.extractLsb' 0 2 ≠ 0x3#2 then .error .compressed
  else if fieldOpcode w ≠ opSystem then .error .otherOpcode
  else
    match (fieldFunct3 w).toNat with
    | 0 => decodePrivileged w
    | 1 => .ok (.csrrw (fieldRd w) (fieldCsr w) (fieldRs1 w))
    | 2 => .ok (.csrrs (fieldRd w) (fieldCsr w) (fieldRs1 w))
    | 3 => .ok (.csrrc (fieldRd w) (fieldCsr w) (fieldRs1 w))
    | 5 => .ok (.csrrwi (fieldRd w) (fieldCsr w) (fieldRs1 w))
    | 6 => .ok (.csrrsi (fieldRd w) (fieldCsr w) (fieldRs1 w))
    | 7 => .ok (.csrrci (fieldRd w) (fieldCsr w) (fieldRs1 w))
    | _ => .error .funct3Four

/-- Four bytes as a word, little-endian: the byte at the lowest address holds bits 7:0 (R101). -/
def joinBytes (b0 b1 b2 b3 : Byte) : BitVec 32 := b3 ++ b2 ++ b1 ++ b0

/-- A word as four bytes, the lowest address first (R101). -/
def wordBytes (w : BitVec 32) : List Byte :=
  [w.extractLsb' 0 8, w.extractLsb' 8 8, w.extractLsb' 16 8, w.extractLsb' 24 8]

/-- The instruction that some bytes begin with, and the bytes after it. -/
def decode : List Byte → Except DecodeError (Instr × List Byte)
  | b0 :: b1 :: b2 :: b3 :: rest =>
    match decodeWord (joinBytes b0 b1 b2 b3) with
    | .ok i => .ok (i, rest)
    | .error e => .error e
  | _ => .error .tooShort

/-- An I-type SYSTEM word from its fields (R102). -/
def encodeFields (csr : CsrAddr) (rs1 : Nat) (funct3 : BitVec 3) (rd : Nat) : BitVec 32 :=
  csr ++ BitVec.ofNat 5 rs1 ++ funct3 ++ BitVec.ofNat 5 rd ++ opSystem

/-- The word of an instruction (R103, R104). -/
def encode : Instr → BitVec 32
  | .csrrw rd csr rs1 => encodeFields csr rs1 0x1#3 rd
  | .csrrs rd csr rs1 => encodeFields csr rs1 0x2#3 rd
  | .csrrc rd csr rs1 => encodeFields csr rs1 0x3#3 rd
  | .csrrwi rd csr uimm => encodeFields csr uimm 0x5#3 rd
  | .csrrsi rd csr uimm => encodeFields csr uimm 0x6#3 rd
  | .csrrci rd csr uimm => encodeFields csr uimm 0x7#3 rd
  | .ecall => wordEcall
  | .sret => wordSret
  | .mret => wordMret
  | .mnret => wordMnret
  | .dret => wordDret

/-- The word that the low `nbits` bits of `w` make, every bit above them 0. -/
def tableWord (nbits w : Nat) : BitVec 32 := BitVec.ofNat 32 (w % 2 ^ nbits)

/-- What the decoder reads from an opcode-table word laid out as the hardware stores it. -/
def decodeTableWord (nbits w : Nat) : Option Instr :=
  match decode (wordBytes (tableWord nbits w)) with
  | .ok (i, _) => some i
  | .error _ => none

end Sys2Proof
end

