-- ==== Sys2Proof/Machine/Memory.lean ====
section
/-! DEFINITION. The byte memory (spec/10_state.md R51c): a list of (address, byte) in one canonical form. What an unlisted address reads as is said once, in `Memory.unlisted`. -/

namespace Sys2Proof.Machine

/-- Memory: the bytes something has written, by address. -/
abbrev Memory := List Host.Cell

/-- The canonical form: addresses strictly rising. No entry can equal what an unlisted address reads as, since that is no value. -/
abbrev Memory.wf (m : Memory) : Prop := m.Pairwise (fun p q => p.1 < q.1)

/-- What an address that nothing has written reads as: no value. The spec gives memory no reset contents (assumption log 5). -/
def Memory.unlisted : Option Byte := none

/-- The byte at an address, if one has been written. -/
def readByte : Memory → Nat → Option Byte
  | [], _ => Memory.unlisted
  | (b, v) :: rest, a => if b = a then some v else readByte rest a

/-- Memory with the byte at `a` set to `v`. -/
def writeByte : Memory → Nat → Byte → Memory
  | [], a, v => [(a, v)]
  | (b, w) :: rest, a, v =>
    if a < b then (a, v) :: (b, w) :: rest
    else if a = b then (a, v) :: rest
    else (b, w) :: writeByte rest a v

/-- Memory with a list of bytes written in order, each address taken in the `XLEN`-bit space (R51c). -/
def writeCells (cfg : Config) : Memory → List Host.Cell → Memory
  | m, [] => m
  | m, (a, v) :: rest => writeCells cfg (writeByte m (a % addressCount cfg) v) rest

/-- `n` bytes from consecutive addresses, wrapping at the top of the space, or the first address that holds none. -/
def readBytes (cfg : Config) (m : Memory) : Nat → Nat → Except Nat (List Byte)
  | _, 0 => .ok []
  | a, n + 1 =>
    match readByte m (a % addressCount cfg) with
    | none => .error (a % addressCount cfg)
    | some b =>
      match readBytes cfg m (a + 1) n with
      | .error e => .error e
      | .ok bs => .ok (b :: bs)

/-- Memory with consecutive bytes written from `a`, wrapping at the top of the space. -/
def writeBytes (cfg : Config) : Memory → Nat → List Byte → Memory
  | m, _, [] => m
  | m, a, b :: bs => writeBytes cfg (writeByte m (a % addressCount cfg) b) (a + 1) bs

end Sys2Proof.Machine
end

