-- ==== Sys2Proof/Machine/Reset.lean ====
section
/-! DEFINITION. The reset of a hart (spec/70_reset_and_hazards.md R240, R241; values of 10_state.md R54). -/

namespace Sys2Proof.Machine

/-- The least privileged mode `MPP` and `MNPP` are reset to, a DESIGN CHOICE where R54 says unspecified (assumption log 3). -/
def resetPrevious (cfg : Config) : BitVec 2 := if cfg.hasU then Priv.u.code else Priv.m.code

/-- `UXL` or `SXL` for a 64-bit mode that exists, PRESUMED (assumption log 4): 2, on RV64 only (R28, D5). -/
def resetXl (cfg : Config) (present : Bool) : BitVec 2 :=
  if present && cfg.xlen == .rv64 then 0x2#2 else 0x0#2

/-- `menvcfg.DTE` after reset (R241: 0 without Ssdbltrp). -/
def resetDte (cfg : Config) : Bool := cfg.hasSsdbltrp && cfg.resetMenvcfgDte

/-- `henvcfg.DTE` after reset (R241). -/
def resetHdte (cfg : Config) : Bool := resetDte cfg && cfg.hasH && cfg.resetHenvcfgDte

/-- `mstatus` after reset: `MDT` 1 with Smdbltrp, `MIE` and `MPRV` 0, `SDT` the parameter (R54, R240, R241). -/
def resetMstatus (cfg : Config) : Word :=
  setBit
    (setBit
      (setField2
        (setField2 (setField2 0#64 loMPP (resetPrevious cfg)) 32 (resetXl cfg cfg.hasU))
        34 (resetXl cfg cfg.hasS))
      bitSDT (resetDte cfg && cfg.resetSdt))
    bitMDT cfg.hasSmdbltrp

/-- `vsstatus` after reset: `SDT` the parameter (R241). -/
def resetVsstatus (cfg : Config) : Word :=
  setBit (setField2 0#64 32 (resetXl cfg cfg.hasH)) bitSDT (resetHdte cfg && cfg.resetVssdt)

/-- `dcsr` after reset: `pcerr` 0 (R242); `debugver` 4 and `prv` 3 PRESUMED (assumption log 4). -/
def resetDcsr : BitVec 32 := 0x40000003#32

/-- A hart right after reset, its inputs as given: the DM drives `haltreq` (R25) and the interrupt sources drive `irq`, so a reset of the hart keeps them (assumption log 21).
`mcause` holds the one constant `resetCause` of the configuration, whichever reset it is: the reset of the machine, of the hart, of all harts, or by the platform. Whether and how resets differ in their cause R38, R54 and R243 leave open: a DESIGN CHOICE (assumption log 27), unsafe for a claim that two resets leave the same cause. -/
def resetHart (cfg : Config) (id : Nat) (haltreq : Bool) (irq : Word) : Hart :=
  { hartId := id, x := Vector.replicate 32 0#64, pc := alignPc cfg cfg.resetVector
    priv := .m, virt := false, run := .running, cerr := false, haltreq := haltreq, irq := irq
    m := { status := resetMstatus cfg, edeleg := 0#64, ideleg := 0#64, tvec := 0#64
           envcfg := setBit 0#64 bitDTE (resetDte cfg), epc := 0#64, cause := trunc cfg cfg.resetCause
           tval := 0#64, tval2 := 0#64, tinst := 0#64 }
    s := { tvec := 0#64, epc := 0#64, cause := 0#64, tval := 0#64 }
    vs := { status := resetVsstatus cfg, tvec := 0#64, epc := 0#64, cause := 0#64, tval := 0#64 }
    hs := { status := 0#64, edeleg := 0#64, ideleg := 0#64
            envcfg := setBit 0#64 bitDTE (resetHdte cfg), tval := 0#64, tinst := 0#64 }
    nm := { scratch := 0#64, epc := 0#64, cause := 0#64
            status := setField2 0#64 loMNPP (resetPrevious cfg) }
    dbg := { dcsr := resetDcsr, dpc := 0#64 }
    baseCsrs := []
    retired := 0 }

/-- Reset applied to a hart in any `hart_state` (R240). -/
def hartAfterReset (cfg : Config) (h : Hart) : Hart := resetHart cfg h.hartId h.haltreq h.irq

end Sys2Proof.Machine
end

