-- ==== Sys2Proof/Machine/State.lean ====
section
/-! DEFINITION. The whole machine as plain data: the harts of one Debug Module, memory, the DM, the schedule of the other agents (spec/00_scope.md R14), the two reason types, and the state after reset. -/

namespace Sys2Proof.Machine

/-- Why the machine stops. -/
inductive Fault where
  /-- Raised by a fetch from an address that nothing has written: the spec gives memory no contents (assumption log 5). Safe: the hardware goes on with some byte. -/
  | unwrittenByte (address : Nat)
  deriving DecidableEq, Repr

/-- Why an instruction has no meaning. No arm of `exec` answers so. -/
inductive Refusal where
  /-- Raised by an arm of `exec` whose instruction has no meaning yet. Safe. -/
  | notModelled (mnemonic : String)
  deriving DecidableEq, Repr

/-- A step of an agent other than the active hart, or `hart`, the active hart's own step (R14; assumption log 14). Every event but `select` and the resets of everything concerns the active hart. -/
inductive Event where
  /-- The active hart takes its own step. -/
  | hart
  /-- The parked hart at position `n` becomes the active one, the two change places. -/
  | select (n : Nat)
  /-- An interrupt source drives line `code` (R203). -/
  | irqLine (code : Nat) (level : Bool)
  /-- A resumable NMI arrives; `cause` is what `mncause` receives (R201). -/
  | rnmi (cause : Word)
  /-- A non-resumable NMI arrives; `cause` is what `mcause` receives (R202). -/
  | nmi (cause : Word)
  /-- The active hart's turn, in which `BaseISA` finds that the instruction at `pc` raises an exception (R170, R171); `tval2` counts for a guest-page fault only. -/
  | baseException (code tval tval2 tinst : Word) (guestVa : Bool)
  /-- The DM raises or drops the halt request (R25). -/
  | haltRequest (level : Bool)
  /-- Debug Mode is entered for another reason, `cause` (R211: ebreak, trigger, step, reset-halt, halt group). -/
  | debugEntry (cause : BitVec 3)
  /-- The DM resumes the hart (R214, R215). -/
  | resume
  /-- The debugger has the halted hart execute one instruction (R136, R153). -/
  | debugExec (w : BitVec 32)
  /-- The debugger reads a CSR by an abstract command. -/
  | debugCsrRead (a : CsrAddr)
  /-- The debugger writes a CSR by an abstract command: an explicit write (R127, D28). -/
  | debugCsrWrite (a : CsrAddr) (v : Word)
  /-- The debugger reads an integer register (R212). -/
  | debugRegRead (r : Nat)
  /-- The debugger writes an integer register (R214). -/
  | debugRegWrite (r : Nat) (v : Word)
  /-- A loader, the debugger or another bus agent writes a byte of memory (R214). -/
  | memWrite (a : Nat) (b : Byte)
  /-- The debugger reads the DM register `number` through the Debug Module Interface (R51b). -/
  | dmRead (number : Nat)
  /-- The debugger writes the DM register `number` (R51b). -/
  | dmWrite (number : Nat) (v : BitVec 32)
  /-- Reset of the active hart (R240, R242). -/
  | resetHart
  /-- Reset of every hart (R199, R242). -/
  | resetAll
  /-- Reset of the Debug Module (R242). That it leaves `haltreq` of every hart as it was is the model's choice (assumption log 21). -/
  | resetDm
  /-- The platform reacts to the active hart's masked `critical-error` (R199, R217). -/
  | platform (action : PlatformAction)
  deriving DecidableEq, Repr

/-- The state of the Debug Module (R48, R49) and the answer of the debugger's last read command (assumption log 19). -/
structure DebugModule where
  dmcs2 : BitVec 32
  hartsel : BitVec 20
  data : Word
  deriving DecidableEq, Repr

/-- The machine. -/
structure State where
  /-- The parameters of R8; no step changes them (assumption log 1). -/
  cfg : Config
  /-- The active hart, whose own step comes next where no event does. -/
  hart : Hart
  /-- The other harts associated with the Debug Module (R219). -/
  parked : List Hart
  /-- Memory, shared by the harts. -/
  mem : Memory
  dm : DebugModule
  /-- The steps of the other agents still to come; empty: the active hart steps (assumption log 14). -/
  events : List Event
  /-- How many steps have been taken: the model's own field, a part of what the free values read (assumption log 14). -/
  ticks : Nat
  deriving DecidableEq, Repr

/-- The Debug Module after its reset: `scerr` 0 (R242, D23). -/
def DebugModule.reset : DebugModule := { dmcs2 := 0#32, hartsel := 0#20, data := 0#64 }

/-- The machine right after reset in configuration `cfg` (R240): `NHARTS` harts, memory with nothing listed.
That hart 0 is the active one and the schedule is empty, so that a run from here has no step of another agent, is the model's choice: the schedule is no state of the spec (R14), and a run with other agents starts from this state with their events listed (assumption log 14). -/
def State.resetIn (cfg : Config) : State :=
  { cfg := cfg, hart := resetHart cfg 0 false 0#64
    parked := (List.range (cfg.nharts - 1)).map (fun k => resetHart cfg (k + 1) false 0#64)
    mem := [], dm := DebugModule.reset, events := [], ticks := 0 }

/-- The machine right after reset (R240), in the configuration `Config.full` (assumption log 1). -/
def State.reset : State := State.resetIn Config.full

/-- What `BaseISA` answers for an instruction outside the opcode table (R8, R81, R171; assumption log 6). -/
inductive BaseResult where
  /-- It completes: the next `pc`, integer registers written, bytes stored, CSRs of `BaseISA` set, and the extension-state fields (`VS`, `FS`, `XS`) that `mstatus` and `vsstatus` end with. -/
  | retire (pc : Word) (regs : List (Nat × Word)) (stores : List Host.Cell) (csrs : List (CsrAddr × Word))
      (status vsstatus : Word)
  /-- It raises an exception (R171); code 2 where `BaseISA` does not define the word (U14). Code 16 is raised by no instruction (R189, `baseCode`); `tval2` counts for a guest-page fault only (`baseRequest`). -/
  | exception (code tval tval2 tinst : Word) (guestVa : Bool)
  /-- It enters Debug Mode (an `EBREAK` that `dcsr` sends there, R211). -/
  | debugEntry (cause : BitVec 3)
  deriving DecidableEq, Repr, Inhabited

end Sys2Proof.Machine

namespace Sys2Proof

/-- FREE VALUE (assumption log 6). `BaseISA` (R8): what it answers for the word `w` fetched in state `s`. -/
opaque Config.baseISA (s : Machine.State) (w : BitVec 32) : Machine.BaseResult

/-- FREE VALUE (assumption log 13). What a read of the `BaseISA` CSR at `a` gives in state `s`. -/
opaque Config.baseCsrRead (s : Machine.State) (a : CsrAddr) : Word

/-- FREE VALUE (assumption log 26). What a read of the instruction-retired counter at `a` gives, from the number of instructions the hart has retired and what software stored in the CSRs of `BaseISA`, and from nothing else that changes: without a retired instruction it does not advance (R221). -/
opaque Config.retiredCounterRead (cfg : Config) (hartId : Nat) (a : CsrAddr) (retired : Nat)
    (stored : List (Nat × Word)) : Word

/-- FREE VALUE (assumption log 13). What the `BaseISA` CSR at `a` holds after software writes `v` in state `s` (its WARL rule, R127). -/
opaque Config.baseCsrStored (s : Machine.State) (a : CsrAddr) (v : Word) : Word

/-- FREE VALUE (assumption log 20). What the DM register `number` reads in state `s` where this spec does not define it: other fields (U18), other registers. -/
opaque Config.dmRegisterRest (s : Machine.State) (number : Nat) : BitVec 32

/-- FREE VALUE (assumption log 21). The steps of agents that a platform action the spec does not name consists of, taken in state `s` (D17: `or other`). -/
opaque Config.platformOther (s : Machine.State) : List Machine.Event

end Sys2Proof
end

