-- ==== Sys2Proof/Machine/Operands.lean ====
section
/-! DEFINITION. The operand forms of the CSR instructions (spec/30_encoding.md R105, spec/40_csr_access.md R120 to R125, R139) and the integer register file (spec/10_state.md R20). -/

namespace Sys2Proof.Machine

/-- `x[r]`: `x[0]` reads 0 (R11, R20). -/
def readReg (cfg : Config) (h : Hart) (r : Nat) : Word :=
  if r = 0 then 0#64 else trunc cfg (h.x[r]?.getD 0#64)

/-- `x[r] <- v`: a write to `x[0]` is discarded (R11, R20). -/
def writeReg (cfg : Config) (r : Nat) (v : Word) (h : Hart) : Hart :=
  if r = 0 then h else { h with x := h.x.setIfInBounds r (trunc cfg v) }

/-- The immediate operand: `zext_XLEN(uimm)` (R105). -/
def immediate (uimm : Nat) : Word := (BitVec.ofNat 5 uimm).setWidth 64

/-- What a CSR instruction does with its operand (R120 to R125). -/
inductive CsrForm where
  /-- Write the operand. -/
  | write
  /-- Set the operand's bits. -/
  | set
  /-- Clear the operand's bits. -/
  | clear
  deriving DecidableEq, Repr

/-- The value written, `t` the value read and `m` the operand (R139: bit by bit). -/
def csrNewValue (form : CsrForm) (t m : Word) : Word :=
  match form with
  | .write => m
  | .set => t ||| m
  | .clear => t &&& ~~~m

/-- Whether an explicit write happens: always for `write`; for the others only if the register NUMBER or the immediate field is not 0 (R121, R124, R127). -/
def csrWrites (form : CsrForm) (field : Nat) : Bool :=
  match form with
  | .write => true
  | .set => field != 0
  | .clear => field != 0

end Sys2Proof.Machine
end

