-- ==== Sys2Proof/Machine/Ops.lean ====
section
/-! DEFINITION. Taking a trap as one shared operation, `takeTrap` (spec/60_exceptions.md R170 to R197), and beside it the returns from one (spec/41_system.md R150 to R152). -/

namespace Sys2Proof.Machine

/-- A trap request (R171). -/
structure TrapRequest where
  intr : Bool
  code : Word
  epc : Word
  tval : Word
  tval2 : Word
  tinst : Word
  gva : Bool
  deriving DecidableEq, Repr

/-- An M-level trap image (R174): what a trap into M-mode writes. -/
structure TrapImage where
  intr : Bool
  code : Word
  cause : Word
  epc : Word
  tval : Word
  tval2 : Word
  tinst : Word
  gva : Bool
  deriving DecidableEq, Repr

/-- The destination mode of a trap (R173). -/
inductive Dest where
  | m
  | hs
  | vs
  deriving DecidableEq, Repr

/-- `mcause_of` (R171): the cause code with the `Interrupt` bit at `XLEN`-1. -/
def mcauseOf (cfg : Config) (intr : Bool) (code : Word) : Word :=
  trunc cfg ((if intr then BitVec.twoPow 64 (xlenBits cfg - 1) else 0#64) ||| code)

/-- Bit `code` of a delegation register (R173); a code past the register is not delegated. -/
def delegated (w code : Word) : Bool := bit w code.toNat

/-- `dest(t)` (R173). `hedeleg` and `hideleg` count as 0 without H. -/
def dest (cfg : Config) (h : Hart) (intr : Bool) (code : Word) : Dest :=
  let dm := if intr then delegated h.m.ideleg code else delegated (delegView h.m.edeleg) code
  let dh := cfg.hasH && (if intr then delegated h.hs.ideleg code else delegated (delegView h.hs.edeleg) code)
  if h.priv = .m ∨ dm = false ∨ cfg.hasS = false then .m
  else if h.virt && dh then .vs
  else .hs

/-- The handler address (R178). MODE 2 and 3 are reserved (U22): an interrupt then goes to a free address, an exception to the base (assumption log 9). -/
def vector (cfg : Config) (tvec : Word) (intr : Bool) (code : Word) : Word :=
  if intr then
    if field2 tvec 0 = 0x1#2 then trunc cfg ((tvec &&& ~~~3#64) + 4#64 * code)
    else if field2 tvec 0 = 0x0#2 then trunc cfg (tvec &&& ~~~3#64)
    else trunc cfg (Config.reservedVector tvec code &&& ~~~3#64)
  else trunc cfg (tvec &&& ~~~3#64)

/-- The image of an ordinary trap (R174). -/
def img (cfg : Config) (t : TrapRequest) : TrapImage :=
  { intr := t.intr, code := t.code, cause := mcauseOf cfg t.intr t.code, epc := t.epc
    tval := t.tval, tval2 := t.tval2, tinst := t.tinst, gva := t.gva }

/-- The double trap exception code (R189). -/
def doubleTrapCode : Word := 16#64

/-- The image of a double trap (R182): cause 16, and in `tval2` the unexpected trap's would-be `mcause`. -/
def dbl (cfg : Config) (t : TrapRequest) : TrapImage :=
  { intr := false, code := doubleTrapCode, cause := doubleTrapCode, epc := t.epc
    tval := t.tval, tval2 := mcauseOf cfg t.intr t.code, tinst := t.tinst, gva := t.gva }

/-- `mstatus` after a delivery into S/HS-mode (R179). -/
def statusOnHs (cfg : Config) (h : Hart) : Word :=
  let w := setBit h.m.status bitSPP (h.priv == .s)
  let w := setBit w bitSPIE (sie h)
  let w := setBit w bitSIE false
  if ssActive cfg h then setBit w bitSDT true else w

/-- `hstatus` after a delivery into HS-mode (R179). -/
def hstatusOnHs (t : TrapRequest) (h : Hart) : Word :=
  let w := setBit (setBit h.hs.status bitHGVA t.gva) bitSPV h.virt
  if h.virt then setBit w bitSPVP (h.priv == .s) else w

/-- `DeliverHS(t)` (R179). -/
def deliverHs (cfg : Config) (t : TrapRequest) (h : Hart) : Hart :=
  { h with
    s := { h.s with epc := t.epc, cause := mcauseOf cfg t.intr t.code, tval := t.tval }
    hs := if cfg.hasH then { h.hs with tval := t.tval2, tinst := t.tinst, status := hstatusOnHs t h } else h.hs
    m := { h.m with status := statusOnHs cfg h }
    priv := .s
    virt := false
    pc := vector cfg h.s.tvec t.intr t.code }

/-- The cause code a VS-mode handler sees: interrupt codes 2, 6, 10 are written 1, 5, 9 (R180). -/
def vsCode (intr : Bool) (code : Word) : Word :=
  if intr && (code == 2#64 || code == 6#64 || code == 10#64) then code - 1#64 else code

/-- `vsstatus` after a delivery into VS-mode (R180). -/
def vsstatusOnVs (cfg : Config) (h : Hart) : Word :=
  let w := setBit h.vs.status bitSPP (h.priv == .s)
  let w := setBit w bitSPIE (vsSie h)
  let w := setBit w bitSIE false
  if ssActiveVS cfg h then setBit w bitSDT true else w

/-- `DeliverVS(t)` (R180). -/
def deliverVs (cfg : Config) (t : TrapRequest) (h : Hart) : Hart :=
  { h with
    vs := { h.vs with
      epc := t.epc, tval := t.tval, cause := mcauseOf cfg t.intr (vsCode t.intr t.code)
      status := vsstatusOnVs cfg h }
    priv := .s
    virt := true
    pc := vector cfg h.vs.tvec t.intr (vsCode t.intr t.code) }

/-- `mstatus` after a delivery into M-mode (R181). -/
def statusOnM (cfg : Config) (m : TrapImage) (h : Hart) : Word :=
  let w := if cfg.hasH then setBit (setBit h.m.status bitGVA m.gva) bitMPV h.virt else h.m.status
  let w := setField2 w loMPP h.priv.code
  let w := setBit w bitMPIE (mie h)
  let w := setBit w bitMIE false
  if cfg.hasSmdbltrp then setBit w bitMDT true else w

/-- Where a delivery into M-mode goes (R181): the vector of `mtvec`, except that with Smrnmi and without Smdbltrp an exception in M-mode with `NMIE` = 0 goes to the RNMI exception handler. -/
def pcOnM (cfg : Config) (m : TrapImage) (h : Hart) : Word :=
  if cfg.hasSmrnmi && !cfg.hasSmdbltrp && !nmie h && h.priv == .m && !m.intr then
    alignPc cfg cfg.rnmiExcHandler
  else vector cfg h.m.tvec m.intr m.code

/-- `DeliverM(m)` (R181). -/
def deliverM (cfg : Config) (m : TrapImage) (h : Hart) : Hart :=
  { h with
    m := { h.m with
      epc := m.epc, cause := m.cause, tval := m.tval
      tval2 := if hasMtval2 cfg then m.tval2 else h.m.tval2
      tinst := if cfg.hasH then m.tinst else h.m.tinst
      status := statusOnM cfg m h }
    priv := .m
    virt := false
    pc := pcOnM cfg m h }

/-- `mnstatus` when the RNMI handler is entered from mode `p`, `v` (R44, R194): the previous mode, and `NMIE` 0. -/
def mnstatusOn (p : Priv) (v : Bool) (w : Word) : Word :=
  setBit (setBit (setField2 w loMNPP p.code) bitMNPV v) bitNMIE false

/-- `InvokeRNMI(m)` (R194): `MNPP` and `MNPV` indicate M-mode whatever mode the trap arose in (D16). -/
def invokeRnmi (cfg : Config) (m : TrapImage) (h : Hart) : Hart :=
  { h with
    nm := { h.nm with epc := m.epc, cause := m.cause, status := mnstatusOn .m false h.nm.status }
    priv := .m
    virt := false
    pc := alignPc cfg cfg.rnmiDbltrpHandler }

/-- `EnterCriticalErrorState()` (R197). -/
def enterCriticalError (h : Hart) : Hart := { h with run := .criticalError, cerr := true }

/-- `CriticalError(m)` (R192). -/
def criticalErrorCondition (cfg : Config) (m : TrapImage) (h : Hart) : Hart :=
  if cfg.hasSmrnmi && nmie h then invokeRnmi cfg m h else enterCriticalError h

/-- A trap that is to be taken into M-mode meets a critical error condition (R190, R191). -/
def mLevelCritical (cfg : Config) (intr : Bool) (h : Hart) : Bool :=
  cfg.hasSmdbltrp && (mdt cfg h || (cfg.hasSmrnmi && !nmie h && h.priv == .m && !intr))

/-- `TakeTrapM(m)` (R172). -/
def takeTrapM (cfg : Config) (m : TrapImage) (h : Hart) : Hart :=
  if mLevelCritical cfg m.intr h then criticalErrorCondition cfg m h else deliverM cfg m h

/-- `TakeTrap(t)` (R172). -/
def takeTrap (cfg : Config) (t : TrapRequest) (h : Hart) : Hart :=
  match dest cfg h t.intr t.code with
  | .vs => if vsSdt cfg h then takeTrapM cfg (dbl cfg t) h else deliverVs cfg t h
  | .hs => if sdt cfg h then takeTrapM cfg (dbl cfg t) h else deliverHs cfg t h
  | .m => takeTrapM cfg (img cfg t) h

/-- An exception or interrupt arises on a hart: taken while it runs (R170), without effect in the critical-error state (R198), and in Debug Mode only the end of the debugger's command (R216). -/
def raise (cfg : Config) (t : TrapRequest) (h : Hart) : Hart :=
  match h.run with
  | .running => takeTrap cfg t h
  | .criticalError => h
  | .debugMode => h

/-- An exception of the instruction at `pc` that carries no guest address and no transformed instruction.
For `ECALL` R154 says that `tinst` is 0; for the illegal-instruction and virtual-instruction exceptions of the table's instructions R171 allows the transformed instruction or 0, and 0 is a DESIGN CHOICE (assumption log 29), unsafe for a claim about `mtinst` or `htinst` there. -/
def exceptionAt (h : Hart) (code tval : Word) : TrapRequest :=
  { intr := false, code := code, epc := h.pc, tval := tval, tval2 := 0#64, tinst := 0#64, gva := false }

/-- `tval` of an illegal-instruction or virtual-instruction exception of instruction `i`: its word or 0, fixed per implementation (U15). -/
def illegalTval (cfg : Config) (i : Instr) : Word :=
  if cfg.illegalTvalWord then (encode i).setWidth 64 else 0#64

/-- Illegal-instruction, code 2, of instruction `i` (R108). -/
def raiseIllegal (cfg : Config) (i : Instr) (h : Hart) : Hart :=
  raise cfg (exceptionAt h 2#64 (illegalTval cfg i)) h

/-- Virtual-instruction, code 22, of instruction `i` (R108). -/
def raiseVirtual (cfg : Config) (i : Instr) (h : Hart) : Hart :=
  raise cfg (exceptionAt h 22#64 (illegalTval cfg i)) h

/-- `mstatus` after `MRET` (R150). -/
def statusAfterMret (cfg : Config) (h : Hart) : Word :=
  let w := setBit h.m.status bitMIE (mpie h)
  let w := setBit w bitMPIE true
  let w := setField2 w loMPP (if cfg.hasU then Priv.u.code else Priv.m.code)
  let w := setBit w bitMPV false
  let w := if Priv.ofCode (mpp h) = .m then w else setBit w bitMPRV false
  if cfg.hasSmdbltrp then setBit w bitMDT false else w

/-- The return from an M-mode trap (R150). -/
def returnM (cfg : Config) (h : Hart) : Hart :=
  { h with
    m := { h.m with status := statusAfterMret cfg h }
    priv := Priv.ofCode (mpp h)
    virt := cfg.hasH && mpv h && Priv.ofCode (mpp h) != .m
    pc := h.m.epc }

/-- `mstatus` after an `SRET` with `V` = 0 (R151). -/
def statusAfterSret (h : Hart) : Word :=
  let w := setBit h.m.status bitSIE (spie h)
  let w := setBit w bitSPIE true
  let w := setBit w bitSPP false
  let w := setBit w bitMPRV false
  setBit w bitSDT false

/-- The return from an S/HS-level trap, executed with `V` = 0 (R151). -/
def returnHs (cfg : Config) (h : Hart) : Hart :=
  { h with
    m := { h.m with status := statusAfterSret h }
    hs := if cfg.hasH then { h.hs with status := setBit h.hs.status bitSPV false } else h.hs
    priv := if spp h then .s else .u
    virt := cfg.hasH && spv h
    pc := h.s.epc }

/-- `vsstatus` after an `SRET` with `V` = 1 (R151). -/
def vsstatusAfterSret (h : Hart) : Word :=
  let w := setBit h.vs.status bitSIE (vsSpie h)
  let w := setBit w bitSPIE true
  let w := setBit w bitSPP false
  setBit w bitSDT false

/-- The return from a VS-level trap, executed with `V` = 1 (R151). -/
def returnVs (h : Hart) : Hart :=
  { h with
    vs := { h.vs with status := vsstatusAfterSret h }
    priv := if vsSpp h then .s else .u
    virt := true
    pc := h.vs.epc }

/-- The return from the RNMI handler (R152). -/
def returnNm (cfg : Config) (h : Hart) : Hart :=
  { h with
    nm := { h.nm with status := setBit h.nm.status bitNMIE true }
    m := { h.m with
      status := if Priv.ofCode (mnpp h) = .m then h.m.status else setBit h.m.status bitMPRV false }
    priv := Priv.ofCode (mnpp h)
    virt := cfg.hasH && mnpv h && Priv.ofCode (mnpp h) != .m
    pc := h.nm.epc }

/-- `pc <- pc + 4` in the `XLEN`-bit space (R21). -/
def advancePc (cfg : Config) (h : Hart) : Hart := { h with pc := trunc cfg (h.pc + 4#64) }

/-- An instruction completes: one more has retired (R221; assumption log 26). -/
def retire (h : Hart) : Hart := { h with retired := h.retired + 1 }

/-- The state with another active hart. -/
def State.setHart (s : State) (h : Hart) : State := { s with hart := h }

/-- The state with the active hart changed by `f`. -/
def State.onHart (s : State) (f : Hart → Hart) : State := s.setHart (f s.hart)

end Sys2Proof.Machine
end

