-- ==== Sys2Proof/Machine/Csr.lean ====
section
/-! DEFINITION. The CSRs of spec/10_state.md R27: names and addresses, existence, the access check (spec/40_csr_access.md R138), reading (R126) and the explicit write (R127 to R137). -/

namespace Sys2Proof.Machine

/-- The CSRs of R27's table. -/
inductive Csr where
  | sstatus | stvec | sepc | scause | stval
  | vsstatus | vstvec | vsepc | vscause | vstval
  | mstatus | medeleg | mideleg | mtvec | menvcfg | mstatush | medelegh | menvcfgh
  | mepc | mcause | mtval | mtinst | mtval2
  | mnscratch | mnepc | mncause | mnstatus
  | dcsr | dpc
  | hstatus | hedeleg | hideleg | henvcfg | hedelegh | henvcfgh | htval | htinst
  deriving DecidableEq, Repr

/-- R27's table. -/
def Csr.address : Csr → CsrAddr
  | .sstatus => 0x100#12 | .stvec => 0x105#12 | .sepc => 0x141#12 | .scause => 0x142#12 | .stval => 0x143#12
  | .vsstatus => 0x200#12 | .vstvec => 0x205#12 | .vsepc => 0x241#12 | .vscause => 0x242#12 | .vstval => 0x243#12
  | .mstatus => 0x300#12 | .medeleg => 0x302#12 | .mideleg => 0x303#12 | .mtvec => 0x305#12
  | .menvcfg => 0x30A#12 | .mstatush => 0x310#12 | .medelegh => 0x312#12 | .menvcfgh => 0x31A#12
  | .mepc => 0x341#12 | .mcause => 0x342#12 | .mtval => 0x343#12 | .mtinst => 0x34A#12 | .mtval2 => 0x34B#12
  | .mnscratch => 0x740#12 | .mnepc => 0x741#12 | .mncause => 0x742#12 | .mnstatus => 0x744#12
  | .dcsr => 0x7B0#12 | .dpc => 0x7B1#12
  | .hstatus => 0x600#12 | .hedeleg => 0x602#12 | .hideleg => 0x603#12 | .henvcfg => 0x60A#12
  | .hedelegh => 0x612#12 | .henvcfgh => 0x61A#12 | .htval => 0x643#12 | .htinst => 0x64A#12

/-- Every CSR of R27's table. -/
def Csr.all : List Csr :=
  [.sstatus, .stvec, .sepc, .scause, .stval, .vsstatus, .vstvec, .vsepc, .vscause, .vstval,
   .mstatus, .medeleg, .mideleg, .mtvec, .menvcfg, .mstatush, .medelegh, .menvcfgh,
   .mepc, .mcause, .mtval, .mtinst, .mtval2, .mnscratch, .mnepc, .mncause, .mnstatus, .dcsr, .dpc,
   .hstatus, .hedeleg, .hideleg, .henvcfg, .hedelegh, .henvcfgh, .htval, .htinst]

/-- The CSR at an address, if R27's table has one. -/
def Csr.ofAddress (a : CsrAddr) : Option Csr := Csr.all.find? (fun c => c.address == a)

/-- Which CSRs a configuration has (R108's examples, R31 to R47; assumption log 10). -/
def Csr.present (cfg : Config) : Csr → Bool
  | .sstatus | .stvec | .sepc | .scause | .stval => cfg.hasS
  | .vsstatus | .vstvec | .vsepc | .vscause | .vstval => cfg.hasH
  | .mstatus | .mtvec | .mepc | .mcause | .mtval => true
  | .medeleg | .mideleg => cfg.hasS
  | .medelegh => cfg.hasS && cfg.xlen == .rv32
  | .menvcfg => cfg.hasS || cfg.hasU
  | .menvcfgh => (cfg.hasS || cfg.hasU) && cfg.xlen == .rv32
  | .mstatush => cfg.xlen == .rv32
  | .mtinst => cfg.hasH
  | .mtval2 => hasMtval2 cfg
  | .mnscratch | .mnepc | .mncause | .mnstatus => cfg.hasSmrnmi
  | .dcsr | .dpc => cfg.hasDebug
  | .hstatus | .hedeleg | .hideleg | .henvcfg | .htval | .htinst => cfg.hasH
  | .hedelegh | .henvcfgh => cfg.hasH && cfg.xlen == .rv32

/-- The register an access reaches: where `v`, the `vs` register in place of the `s` register (R35, R40). -/
def Csr.redirect (v : Bool) (c : Csr) : Csr :=
  if v then
    match c with
    | .sstatus => .vsstatus
    | .stvec => .vstvec
    | .sepc => .vsepc
    | .scause => .vscause
    | .stval => .vstval
    | c => c
  else c

/-- The register a debugger's abstract command reaches: `sstatus` is the view that `V` gives (R126, R130); each trap register has its own address, so that every CSR can be read (R212; assumption log 11). -/
def Csr.redirectDebugger (v : Bool) (c : Csr) : Csr :=
  match c with
  | .sstatus => Csr.redirect v .sstatus
  | c => c

/-- The outcome of the access check (R138). -/
inductive Access where
  | granted
  /-- Illegal-instruction, code 2. -/
  | illegal
  /-- Virtual-instruction, code 22. -/
  | virtualInstruction
  deriving DecidableEq, Repr

/-- The address names a CSR of this configuration: one of R27's, or one of `BaseISA`'s own (assumption log 13). -/
def csrExists (cfg : Config) (a : CsrAddr) : Bool :=
  match Csr.ofAddress a with
  | some c => Csr.present cfg c
  | none => cfg.baseCsrs.contains a

/-- The level of R27's address bits 9:8 that a mode reaches: U 0, S and VS 1, HS 2, M 3. -/
def accessLevel (cfg : Config) (h : Hart) : Nat :=
  match h.priv with
  | .m => 3
  | .s => if cfg.hasH && !h.virt then 2 else 1
  | .u => 0

/-- `csr[9:8]`. -/
def requiredLevel (a : CsrAddr) : Nat := (a.extractLsb' 8 2).toNat

/-- `csr[11:10]` = 11: a read-only CSR. -/
def readOnlyCsr (a : CsrAddr) : Bool := a.extractLsb' 10 2 == 0x3#2

/-- `dcsr` and `dpc`: accessible only in Debug Mode (R27, R45, R47). -/
def debugOnlyCsr (a : CsrAddr) : Bool := a == Csr.address .dcsr || a == Csr.address .dpc

/-- The check before any read or write, in R138's order: existence, privilege (Debug Mode above M), no write to a read-only CSR (assumption log 11). -/
def csrAccess (cfg : Config) (h : Hart) (a : CsrAddr) (writes : Bool) : Access :=
  if !csrExists cfg a then .illegal
  else if h.run != .debugMode && (decide (accessLevel cfg h < requiredLevel a) || debugOnlyCsr a) then
    if h.virt && requiredLevel a == 2 then .virtualInstruction else .illegal
  else if writes && readOnlyCsr a then .illegal
  else .granted

/-- Bits of `mstatus` that a write stores as written (R28; assumption log 7): in the low word, and in the high word of RV64 or `mstatush`. -/
def statusPlainLow : List Nat := [5, 6, 7, 8, 9, 10, 13, 14, 17, 18, 19, 20, 21, 22]
def statusPlainHigh : List Nat := [36, 37, 38, 39]

/-- Those of them visible in `sstatus`, and in `vsstatus` (R35, R41). -/
def sstatusPlain : List Nat := [5, 6, 8, 9, 10, 13, 14, 18, 19]

/-- The bits of `mstatus` that `sstatus` shows, `SD` apart (R35). -/
def sstatusVisible : List Nat := [1, 5, 6, 8, 9, 10, 13, 14, 15, 16, 18, 19, 24, 32, 33]

/-- The fields of `menvcfg`, `DTE` apart, in its low and high half (R36), taken for `henvcfg` too (assumption log 7). -/
def envcfgPlainLow : List Nat := [0, 4, 5, 6, 7]
def envcfgPlainHigh : List Nat := [61, 62, 63]

/-- The fields of `hstatus` that R40 names. -/
def hstatusPlain : List Nat := [6, 7, 8, 22]

/-- The fields of `dcsr` a debugger writes (R45; assumption log 7): `ebreak*`, `stepie`, `stopcount`, `stoptime`, `mprven`, `step`. -/
def dcsrPlain : List Nat := [17, 16, 15, 13, 12, 11, 10, 9, 4, 2]

/-- `mstatus` as read, both halves (R126): `SDT` and `MDT` 0 while read-only zero, `SD` computed. -/
def statusView (cfg : Config) (h : Hart) : Word :=
  setBit (setBit (setBit h.m.status bitSDT (sdt cfg h)) bitMDT (mdt cfg h))
    (xlenBits cfg - 1) (dirtySummary h.m.status)

/-- `vsstatus` as read (R126, R41). -/
def vsstatusView (cfg : Config) (h : Hart) : Word :=
  setBit (setBit h.vs.status bitSDT (vsSdt cfg h)) (xlenBits cfg - 1) (dirtySummary h.vs.status)

/-- `menvcfg` as read, both halves: `DTE` 0 without Ssdbltrp (R36). -/
def menvcfgView (cfg : Config) (h : Hart) : Word := setBit h.m.envcfg bitDTE (ssActive cfg h)

/-- `henvcfg` as read, both halves: `DTE` 0 while read-only zero (R42). -/
def henvcfgView (cfg : Config) (h : Hart) : Word := setBit h.hs.envcfg bitDTE (ssActiveVS cfg h)

/-- `dcsr` as read: 32 bits zero-extended, `pcerr` 0 without Sddbltrp (R126). -/
def dcsrView (cfg : Config) (h : Hart) : Word :=
  setBit (h.dbg.dcsr.setWidth 64) bitPcerr (pcerr cfg h)

/-- `csr_read` of a CSR of R27's table, redirection done (R126). -/
def Csr.read (cfg : Config) (h : Hart) : Csr → Word
  | .sstatus => trunc cfg (statusView cfg h &&& maskOf ((xlenBits cfg - 1) :: sstatusVisible))
  | .stvec => trunc cfg h.s.tvec
  | .sepc => trunc cfg h.s.epc
  | .scause => trunc cfg h.s.cause
  | .stval => trunc cfg h.s.tval
  | .vsstatus => trunc cfg (vsstatusView cfg h)
  | .vstvec => trunc cfg h.vs.tvec
  | .vsepc => trunc cfg h.vs.epc
  | .vscause => trunc cfg h.vs.cause
  | .vstval => trunc cfg h.vs.tval
  | .mstatus => trunc cfg (statusView cfg h)
  | .medeleg => trunc cfg (delegView h.m.edeleg)
  | .mideleg => trunc cfg h.m.ideleg
  | .mtvec => trunc cfg h.m.tvec
  | .menvcfg => trunc cfg (menvcfgView cfg h)
  | .mstatush => highHalf (statusView cfg h)
  | .medelegh => highHalf h.m.edeleg
  | .menvcfgh => highHalf (menvcfgView cfg h)
  | .mepc => trunc cfg h.m.epc
  | .mcause => trunc cfg h.m.cause
  | .mtval => trunc cfg h.m.tval
  | .mtinst => trunc cfg h.m.tinst
  | .mtval2 => trunc cfg h.m.tval2
  | .mnscratch => trunc cfg h.nm.scratch
  | .mnepc => trunc cfg h.nm.epc
  | .mncause => trunc cfg h.nm.cause
  | .mnstatus => trunc cfg h.nm.status
  | .dcsr => dcsrView cfg h
  | .dpc => trunc cfg h.dbg.dpc
  | .hstatus => trunc cfg h.hs.status
  | .hedeleg => trunc cfg (delegView h.hs.edeleg)
  | .hideleg => trunc cfg h.hs.ideleg
  | .henvcfg => trunc cfg (henvcfgView cfg h)
  | .hedelegh => highHalf h.hs.edeleg
  | .henvcfgh => highHalf (henvcfgView cfg h)
  | .htval => trunc cfg h.hs.tval
  | .htinst => trunc cfg h.hs.tinst

/-- `MPP` of a status word written with `v`: WARL (assumption log 8). -/
def storeMpp (cfg : Config) (old v w : Word) : Word :=
  setField2 w loMPP (privilegeStored cfg (field2 old loMPP) (field2 v loMPP))

/-- `mstatus` after a write on RV64 (R128). -/
def statusWritten64 (cfg : Config) (h : Hart) (v : Word) : Word :=
  let w := merge (maskOf (statusPlainLow ++ statusPlainHigh)) h.m.status v
  let w := storeMpp cfg h.m.status v w
  let w := setBit w bitSDT (sdtWritten (ssActive cfg h) v)
  let w := setBit w bitSIE (sieWritten (ssActive cfg h) v)
  let w := setBit w bitMDT (cfg.hasSmdbltrp && bit v bitMDT)
  setBit w bitMIE (coupledEnable (cfg.hasSmdbltrp && bit v bitMDT) (bit v bitMIE))

/-- `mstatus` after a write on RV32 (R129): `MIE` can be set only while `MDT`, in `mstatush`, is 0. -/
def statusWritten32 (cfg : Config) (h : Hart) (v : Word) : Word :=
  let w := merge (maskOf statusPlainLow) h.m.status v
  let w := storeMpp cfg h.m.status v w
  let w := setBit w bitSDT (sdtWritten (ssActive cfg h) v)
  let w := setBit w bitSIE (sieWritten (ssActive cfg h) v)
  setBit w bitMIE (coupledEnable (mdt cfg h) (bit v bitMIE))

/-- The status word after a write of `v` to `mstatush`, RV32 (R132): `MDT` from bit 13, `MIE` cleared across registers when `MDT` is left 1. -/
def statushWritten (cfg : Config) (h : Hart) (v : Word) : Word :=
  let w := merge (maskOf statusPlainHigh) h.m.status (v <<< 32)
  let w := setBit w bitMDT (cfg.hasSmdbltrp && bit v (bitMDT - 32))
  setBit w bitMIE (coupledEnable (cfg.hasSmdbltrp && bit v (bitMDT - 32)) (mie h))

/-- A status word after a write through `sstatus` or `vsstatus` (R130, R131): only the S-visible fields, with the `SDT` that `active` governs. -/
def sstatusWritten (active : Bool) (old v : Word) : Word :=
  let w := merge (maskOf sstatusPlain) old v
  let w := setBit w bitSDT (sdtWritten active v)
  setBit w bitSIE (sieWritten active v)

/-- What `menvcfg.DTE` = 0 forces (R133): both `SDT`s and `henvcfg.DTE` to 0. -/
def forceDteOff (h : Hart) : Hart :=
  { h with
    m := { h.m with status := setBit h.m.status bitSDT false }
    hs := { h.hs with envcfg := setBit h.hs.envcfg bitDTE false }
    vs := { h.vs with status := setBit h.vs.status bitSDT false } }

/-- A write that covers `menvcfg.DTE` (R133): the fields in `mask` from `v`, and `DTE` from `v`'s bit 59. -/
def writeMenvcfgDte (cfg : Config) (mask v : Word) (h : Hart) : Hart :=
  let dte := cfg.hasSsdbltrp && bit v bitDTE
  let h' := { h with m := { h.m with envcfg := setBit (merge mask h.m.envcfg v) bitDTE dte } }
  if dte then h' else forceDteOff h'

/-- A write that covers `henvcfg.DTE` (R134). -/
def writeHenvcfgDte (cfg : Config) (mask v : Word) (h : Hart) : Hart :=
  let hdte := ssActive cfg h && cfg.hasH && bit v bitDTE
  let h' := { h with hs := { h.hs with envcfg := setBit (merge mask h.hs.envcfg v) bitDTE hdte } }
  if hdte then h' else { h' with vs := { h'.vs with status := setBit h'.vs.status bitSDT false } }

/-- `mnstatus` after a write: `NMIE` can be set but not cleared (R137), `MNPP` is WARL (assumption log 8). -/
def mnstatusWritten (cfg : Config) (old v : Word) : Word :=
  let w := merge (maskOf [bitMNPV]) old v
  let w := setField2 w loMNPP (privilegeStored cfg (field2 old loMNPP) (field2 v loMNPP))
  setBit w bitNMIE (bit old bitNMIE || bit v bitNMIE)

/-- `dcsr` after a write (R136): `pcerr` keeps its value; `prv` is WARL (assumption log 8); `v` can be 1 only with H and beside a `prv` below M, where R22 has a `V` = 1 for it (assumption log 18); the rest as log 7 says. -/
def dcsrWritten (cfg : Config) (old : BitVec 32) (v : Word) : BitVec 32 :=
  let prv := privilegeStored cfg (old.extractLsb' 0 2) (field2 v 0)
  let w := merge (maskOf dcsrPlain) (old.setWidth 64) v
  let w := setBit w bitDcsrV (cfg.hasH && bit v bitDcsrV && Priv.ofCode prv != .m)
  let w := setField2 w 0 prv
  w.setWidth 32

/-- A delegation register after a write of all bits but 16 (R135). -/
def delegWritten (v : Word) : Word := setBit v 16 false

/-- `csr_write` of a CSR of R27's table, redirection done, `v` an `XLEN`-bit value (R127 to R137). -/
def Csr.write (cfg : Config) (h : Hart) (v : Word) : Csr → Hart
  | .sstatus => { h with m := { h.m with status := sstatusWritten (ssActive cfg h) h.m.status v } }
  | .stvec => { h with s := { h.s with tvec := v } }
  | .sepc => { h with s := { h.s with epc := alignPc cfg v } }
  | .scause => { h with s := { h.s with cause := v } }
  | .stval => { h with s := { h.s with tval := v } }
  | .vsstatus => { h with vs := { h.vs with status := sstatusWritten (ssActiveVS cfg h) h.vs.status v } }
  | .vstvec => { h with vs := { h.vs with tvec := v } }
  | .vsepc => { h with vs := { h.vs with epc := alignPc cfg v } }
  | .vscause => { h with vs := { h.vs with cause := v } }
  | .vstval => { h with vs := { h.vs with tval := v } }
  | .mstatus =>
    match cfg.xlen with
    | .rv64 => { h with m := { h.m with status := statusWritten64 cfg h v } }
    | .rv32 => { h with m := { h.m with status := statusWritten32 cfg h v } }
  | .medeleg =>
    match cfg.xlen with
    | .rv64 => { h with m := { h.m with edeleg := delegWritten v } }
    | .rv32 => { h with m := { h.m with edeleg := delegWritten (merge 0xFFFFFFFF#64 h.m.edeleg v) } }
  | .mideleg => { h with m := { h.m with ideleg := v } }
  | .mtvec => { h with m := { h.m with tvec := v } }
  | .menvcfg =>
    match cfg.xlen with
    | .rv64 => writeMenvcfgDte cfg (maskOf (envcfgPlainLow ++ envcfgPlainHigh)) v h
    | .rv32 => { h with m := { h.m with envcfg := merge (maskOf envcfgPlainLow) h.m.envcfg v } }
  | .mstatush => { h with m := { h.m with status := statushWritten cfg h v } }
  | .medelegh => { h with m := { h.m with edeleg := merge 0xFFFFFFFF00000000#64 h.m.edeleg (v <<< 32) } }
  | .menvcfgh => writeMenvcfgDte cfg (maskOf envcfgPlainHigh) (v <<< 32) h
  | .mepc => { h with m := { h.m with epc := alignPc cfg v } }
  | .mcause => { h with m := { h.m with cause := v } }
  | .mtval => { h with m := { h.m with tval := v } }
  | .mtinst => { h with m := { h.m with tinst := v } }
  | .mtval2 => { h with m := { h.m with tval2 := v } }
  | .mnscratch => { h with nm := { h.nm with scratch := v } }
  | .mnepc => { h with nm := { h.nm with epc := alignPc cfg v } }
  | .mncause => { h with nm := { h.nm with cause := v } }
  | .mnstatus => { h with nm := { h.nm with status := mnstatusWritten cfg h.nm.status v } }
  | .dcsr => { h with dbg := { h.dbg with dcsr := dcsrWritten cfg h.dbg.dcsr v } }
  | .dpc => { h with dbg := { h.dbg with dpc := alignPc cfg v } }
  | .hstatus => { h with hs := { h.hs with status := merge (maskOf hstatusPlain) h.hs.status v } }
  | .hedeleg =>
    match cfg.xlen with
    | .rv64 => { h with hs := { h.hs with edeleg := delegWritten v } }
    | .rv32 => { h with hs := { h.hs with edeleg := delegWritten (merge 0xFFFFFFFF#64 h.hs.edeleg v) } }
  | .hideleg => { h with hs := { h.hs with ideleg := v } }
  | .henvcfg =>
    match cfg.xlen with
    | .rv64 => writeHenvcfgDte cfg (maskOf (envcfgPlainLow ++ envcfgPlainHigh)) v h
    | .rv32 => { h with hs := { h.hs with envcfg := merge (maskOf envcfgPlainLow) h.hs.envcfg v } }
  | .hedelegh => { h with hs := { h.hs with edeleg := merge 0xFFFFFFFF00000000#64 h.hs.edeleg (v <<< 32) } }
  | .henvcfgh => writeHenvcfgDte cfg (maskOf envcfgPlainHigh) (v <<< 32) h
  | .htval => { h with hs := { h.hs with tval := v } }
  | .htinst => { h with hs := { h.hs with tinst := v } }

/-- The list of `BaseISA` CSRs with the one at `a` set to `v`. -/
def setBaseCsr : List (Nat × Word) → Nat → Word → List (Nat × Word)
  | [], a, v => [(a, v)]
  | (b, w) :: rest, a, v => if b = a then (a, v) :: rest else (b, w) :: setBaseCsr rest a v

/-- A read of a CSR of `BaseISA`: a free value (assumption log 13), and of an instruction-retired counter one that only a retired instruction or a write changes (R221; assumption log 26). -/
def baseCsrValue (s : State) (a : CsrAddr) : Word :=
  if s.cfg.retiredCounters.contains a then
    Config.retiredCounterRead s.cfg s.hart.hartId a s.hart.retired s.hart.baseCsrs
  else Config.baseCsrRead s a

/-- The value of the CSR at `a`, `reach` giving the register an access reaches. -/
def csrReadVia (reach : Csr → Csr) (s : State) (a : CsrAddr) : Word :=
  match Csr.ofAddress a with
  | some c => Csr.read s.cfg s.hart (reach c)
  | none => trunc s.cfg (baseCsrValue s a)

/-- The active hart after an explicit write to the CSR at `a`, `reach` giving the register an access reaches. -/
def csrWriteVia (reach : Csr → Csr) (s : State) (a : CsrAddr) (v : Word) : Hart :=
  match Csr.ofAddress a with
  | some c => Csr.write s.cfg s.hart (trunc s.cfg v) (reach c)
  | none =>
    { s.hart with
      baseCsrs := setBaseCsr s.hart.baseCsrs a.toNat (trunc s.cfg (Config.baseCsrStored s a (trunc s.cfg v))) }

/-- `csr_read(a)` (R126). -/
def csrRead (s : State) (a : CsrAddr) : Word := csrReadVia (Csr.redirect s.hart.virt) s a

/-- `csr_write(a, v)` (R127): the active hart after an explicit write. -/
def csrWrite (s : State) (a : CsrAddr) (v : Word) : Hart := csrWriteVia (Csr.redirect s.hart.virt) s a v

/-- What a debugger's abstract command reads (R212). -/
def debuggerRead (s : State) (a : CsrAddr) : Word := csrReadVia (Csr.redirectDebugger s.hart.virt) s a

/-- The active hart after a debugger's abstract write: an explicit write to the same register (R127, D28). -/
def debuggerWrite (s : State) (a : CsrAddr) (v : Word) : Hart := csrWriteVia (Csr.redirectDebugger s.hart.virt) s a v

/-- A CSR instruction `i` with operand value `m` and operand field `field` (R120 to R125): check, read, write, then `x[rd]`, then `pc`; the instruction has then retired. -/
def csrInstr (i : Instr) (rd : Nat) (a : CsrAddr) (form : CsrForm) (field : Nat) (m : Word) (s : State) : State :=
  match csrAccess s.cfg s.hart a (csrWrites form field) with
  | .illegal => s.onHart (raiseIllegal s.cfg i)
  | .virtualInstruction => s.onHart (raiseVirtual s.cfg i)
  | .granted =>
    let t := csrRead s a
    let h := if csrWrites form field then csrWrite s a (csrNewValue form t m) else s.hart
    s.setHart (retire (advancePc s.cfg (writeReg s.cfg rd t h)))

end Sys2Proof.Machine
end

