-- ==== Sys2Proof/Machine/Debug.lean ====
section
/-! DEFINITION. Debug Mode entry and resume (spec/60_exceptions.md R211 to R216), the Debug Module (R217 to R219, spec/10_state.md R48 to R50) and reset as a transition of the platform (spec/70_reset_and_hazards.md R240, R242). -/

namespace Sys2Proof.Machine

/-- `dcsr` at a Debug Mode entry: `cause`, `prv`, `v`, and with Sddbltrp `pcerr` (R211, R212, D19). -/
def dcsrOnEntry (cfg : Config) (cause : BitVec 3) (critical : Bool) (h : Hart) : BitVec 32 :=
  let w := h.dbg.dcsr.setWidth 64
  let w := setField2 (setBit w 8 (cause.getLsbD 2)) 6 (cause.extractLsb' 0 2)
  let w := setBit (setField2 w 0 h.priv.code) bitDcsrV h.virt
  let w := if cfg.hasSddbltrp then setBit w bitPcerr critical else w
  w.setWidth 32

/-- Debug Mode entry (R211 from `Running`, R212 from the critical-error state). -/
def enterDebug (cfg : Config) (cause : BitVec 3) (h : Hart) : Hart :=
  { h with
    dbg := { dcsr := dcsrOnEntry cfg cause (h.run == .criticalError) h, dpc := h.pc }
    run := .debugMode
    cerr := h.run == .criticalError && cfg.cerrHeldInDebug }

/-- `Resume()`: back to the critical-error state with `pcerr` = 1 (R214), to `Running` with 0 (R215). -/
def resume (cfg : Config) (h : Hart) : Hart :=
  let h' := { h with pc := h.dbg.dpc, priv := Priv.ofCode (dcsrPrv h), virt := dcsrV h }
  if pcerr cfg h then { h' with run := .criticalError, cerr := true }
  else
    { h' with
      m := { h'.m with
        status := if Priv.ofCode (dcsrPrv h) = .m then h'.m.status else setBit h'.m.status bitMPRV false }
      run := .running
      cerr := false }

/-- `dmcs2.scerr` (R48): 0 where the DM does not implement it. -/
def scerr (s : State) : Bool := s.cfg.hasScerr && s.dm.dmcs2.getLsbD 12

/-- What the platform acts on for hart `h` (R50). -/
def platformCerr (s : State) (h : Hart) : Bool := h.cerr && !scerr s

/-- `dmstatus.anycerr` (R49): some hart of the DM asserts `critical-error`, whatever `hartsel` and `scerr` hold. -/
def anycerr (s : State) : Bool := s.cfg.hasAnycerr && (s.hart.cerr || s.parked.any (fun h => h.cerr))

/-- The DM registers this spec names (R51b). -/
inductive DmRegister where
  | dmcontrol
  | dmstatus
  | dmcs2
  deriving DecidableEq, Repr

/-- Their numbers in the DM's register space (R48, R49). -/
def DmRegister.number : DmRegister → Nat
  | .dmcontrol => 0x10
  | .dmstatus => 0x11
  | .dmcs2 => 0x32

/-- The register of a number, if this spec names it. -/
def DmRegister.ofNumber (n : Nat) : Option DmRegister :=
  [DmRegister.dmcontrol, .dmstatus, .dmcs2].find? (fun r => r.number == n)

/-- `dmstatus` as read: `anycerr` at bit 25, bits 31:26 zero (R49), the rest a free value (U18; assumption log 20). -/
def dmstatusView (s : State) : Word :=
  setBit ((Config.dmRegisterRest s (DmRegister.number .dmstatus) &&& 0x01FFFFFF#32).setWidth 64) 25 (anycerr s)

/-- The place of `hartsel` in `dmcontrol`: its low ten bits at 25:16, its high ten at 15:6. PRESUMED, Debug specification 1.0 (assumption log 20). -/
def hartselMask : BitVec 32 := 0x03FFFFC0#32

/-- `dmcontrol` as read: `hartsel` (R49), the rest a free value (assumption log 20). -/
def dmcontrolView (s : State) : Word :=
  ((Config.dmRegisterRest s (DmRegister.number .dmcontrol) &&& ~~~hartselMask)
    ||| (0#6 ++ s.dm.hartsel.extractLsb' 0 10 ++ s.dm.hartsel.extractLsb' 10 10 ++ 0#6)).setWidth 64

/-- `hartsel` as a write of `v` to `dmcontrol` leaves it. -/
def hartselWritten (v : BitVec 32) : BitVec 20 := v.extractLsb' 6 10 ++ v.extractLsb' 16 10

/-- `dmcs2` as read (R48). -/
def dmcs2View (s : State) : Word := setBit (s.dm.dmcs2.setWidth 64) 12 (scerr s)

/-- `dmcs2` after the debugger writes `v`: `scerr` where it exists, the base fields 11:0 as written, bits 31:13 zero (R48; assumption log 20). -/
def dmcs2Written (s : State) (v : BitVec 32) : BitVec 32 :=
  if s.cfg.hasScerr then v &&& 0x1FFF#32 else v &&& 0xFFF#32

/-- What the debugger reads from the DM register of a number, with no side effect (R84); of a register this spec does not name, a free value (assumption log 20). -/
def dmRegisterRead (s : State) (number : Nat) : Word :=
  match DmRegister.ofNumber number with
  | some .dmcontrol => dmcontrolView s
  | some .dmstatus => dmstatusView s
  | some .dmcs2 => dmcs2View s
  | none => (Config.dmRegisterRest s number).setWidth 64

/-- A debugger's write to the DM register of a number: `dmstatus` is read-only and the write is ignored (R49, R107, U12); a register this spec does not name holds nothing of this spec. -/
def dmRegisterWrite (s : State) (number : Nat) (v : BitVec 32) : State :=
  match DmRegister.ofNumber number with
  | some .dmcontrol => { s with dm := { s.dm with hartsel := hartselWritten v } }
  | some .dmstatus => s
  | some .dmcs2 => { s with dm := { s.dm with dmcs2 := dmcs2Written s v } }
  | none => s

/-- Reset of the Debug Module: `scerr` 0 (R242, D23). The halt requests it drives are inputs of the harts and stay as they were: DESIGN CHOICE (assumption log 21). -/
def resetDebugModule (s : State) : State := { s with dm := DebugModule.reset }

/-- Reset of the active hart (R240): the DM's own state is not touched (R242). -/
def resetActive (s : State) : State := s.onHart (hartAfterReset s.cfg)

/-- Reset of every hart (R199, R242). -/
def resetHarts (s : State) : State :=
  { s with hart := hartAfterReset s.cfg s.hart, parked := s.parked.map (hartAfterReset s.cfg) }

/-- The platform's action (R199). One the spec does not name is a free list of agents' steps, taken next (assumption log 21). -/
def platformAct (s : State) : PlatformAction → State
  | .nothing => s
  | .resetHart => resetActive s
  | .resetAll => resetHarts s
  | .other => { s with events := Config.platformOther s ++ s.events }

/-- The platform reacts only to an unmasked `critical-error` of the active hart, by an action `PLATFORM_CERR_ACTION` allows (R199, R217). -/
def platformReact (s : State) (a : PlatformAction) : State :=
  if platformCerr s s.hart && s.cfg.platformCerrActions.contains a then platformAct s a else s

/-- Parked hart `n` becomes active, the two change places (assumption log 14). -/
def selectHart (s : State) (n : Nat) : State :=
  match s.parked[n]? with
  | none => s
  | some h => { s with hart := h, parked := s.parked.set n s.hart }

/-- The debugger's answer register holds `v` (assumption log 19). -/
def answer (s : State) (v : Word) : State := { s with dm := { s.dm with data := v } }

/-- An abstract read of a CSR (R212): only in Debug Mode, and only of a CSR that exists. -/
def debugCsrRead (s : State) (a : CsrAddr) : State :=
  if s.hart.run = .debugMode ∧ csrAccess s.cfg s.hart a false = .granted then answer s (debuggerRead s a) else s

/-- An abstract write of a CSR: an explicit write (R127, D28). -/
def debugCsrWrite (s : State) (a : CsrAddr) (v : Word) : State :=
  if s.hart.run = .debugMode ∧ csrAccess s.cfg s.hart a true = .granted then s.setHart (debuggerWrite s a v) else s

/-- An abstract read of an integer register. -/
def debugRegRead (s : State) (r : Nat) : State :=
  if s.hart.run = .debugMode then answer s (readReg s.cfg s.hart r) else s

/-- An abstract write of an integer register. -/
def debugRegWrite (s : State) (r : Nat) (v : Word) : State :=
  if s.hart.run = .debugMode then s.onHart (writeReg s.cfg r v) else s

/-- Debug Mode entry for a reason other than a halt request: only a running hart with Debug Mode (R211). -/
def otherDebugEntry (s : State) (cause : BitVec 3) : State :=
  if s.hart.run = .running ∧ s.cfg.hasDebug then s.onHart (enterDebug s.cfg cause) else s

/-- The DM's resume of the active hart (R214, R215). -/
def resumeHart (s : State) : State :=
  if s.hart.run = .debugMode then s.onHart (resume s.cfg) else s

end Sys2Proof.Machine
end

