-- ==== Sys2Proof/Machine/System.lean ====
section
/-! DEFINITION. The meanings of the trap returns, the debug return and the environment call (spec/41_system.md R150 to R154). A return that completes has retired; `ECALL` never does (assumption log 26). -/

namespace Sys2Proof.Machine

/-- `ECALL`'s exception code (R154). -/
def ecallCode (h : Hart) : Word :=
  match h.priv with
  | .u => 8#64
  | .s => if h.virt then 10#64 else 9#64
  | .m => 11#64

/-- `ECALL` (R154): it takes the environment-call exception. -/
def execEcall (s : State) : Host.Outcome State Fault Refusal :=
  .next (s.onHart (raise s.cfg (exceptionAt s.hart (ecallCode s.hart) 0#64)))

/-- `SRET` (R151): illegal in U-mode and, with `TSR`, in S/HS-mode; virtual-instruction in VS-mode with `VTSR`. -/
def execSret (s : State) : Host.Outcome State Fault Refusal :=
  if s.hart.priv = .u then .next (s.onHart (raiseIllegal s.cfg .sret))
  else if s.hart.priv = .s ∧ s.hart.virt = false ∧ tsr s.hart then .next (s.onHart (raiseIllegal s.cfg .sret))
  else if s.hart.virt ∧ vtsr s.hart then .next (s.onHart (raiseVirtual s.cfg .sret))
  else if s.hart.virt then .next (s.onHart (fun h => retire (returnVs h)))
  else .next (s.onHart (fun h => retire (returnHs s.cfg h)))

/-- `MRET` (R150): illegal below M-mode. -/
def execMret (s : State) : Host.Outcome State Fault Refusal :=
  if s.hart.priv = .m then .next (s.onHart (fun h => retire (returnM s.cfg h)))
  else .next (s.onHart (raiseIllegal s.cfg .mret))

/-- `MNRET` (R152): illegal below M-mode and without Smrnmi. -/
def execMnret (s : State) : Host.Outcome State Fault Refusal :=
  if s.hart.priv = .m ∧ s.cfg.hasSmrnmi then .next (s.onHart (fun h => retire (returnNm s.cfg h)))
  else .next (s.onHart (raiseIllegal s.cfg .mnret))

/-- `DRET` (R153): illegal outside Debug Mode, in it a resume. -/
def execDret (s : State) : Host.Outcome State Fault Refusal :=
  if s.hart.run = .debugMode then .next (s.onHart (fun h => retire (resume s.cfg h)))
  else .next (s.onHart (raiseIllegal s.cfg .dret))

end Sys2Proof.Machine
end

