-- ==== Sys2Proof/Machine/Zicsr.lean ====
section
/-! DEFINITION. The meanings of the six CSR instructions (spec/40_csr_access.md R120 to R125). -/

namespace Sys2Proof.Machine

/-- `CSRRW rd, csr, rs1` (R120): always an explicit write. When `rd` = 0 the value read is discarded, and a read has no side effect (R84, R126). -/
def execCsrrw (rd : Nat) (csr : CsrAddr) (rs1 : Nat) (s : State) : Host.Outcome State Fault Refusal :=
  .next (csrInstr (.csrrw rd csr rs1) rd csr .write rs1 (readReg s.cfg s.hart rs1) s)

/-- `CSRRS rd, csr, rs1` (R121): writes only if the register number `rs1` is not 0. -/
def execCsrrs (rd : Nat) (csr : CsrAddr) (rs1 : Nat) (s : State) : Host.Outcome State Fault Refusal :=
  .next (csrInstr (.csrrs rd csr rs1) rd csr .set rs1 (readReg s.cfg s.hart rs1) s)

/-- `CSRRC rd, csr, rs1` (R122). -/
def execCsrrc (rd : Nat) (csr : CsrAddr) (rs1 : Nat) (s : State) : Host.Outcome State Fault Refusal :=
  .next (csrInstr (.csrrc rd csr rs1) rd csr .clear rs1 (readReg s.cfg s.hart rs1) s)

/-- `CSRRWI rd, csr, uimm` (R123). -/
def execCsrrwi (rd : Nat) (csr : CsrAddr) (uimm : Nat) (s : State) : Host.Outcome State Fault Refusal :=
  .next (csrInstr (.csrrwi rd csr uimm) rd csr .write uimm (immediate uimm) s)

/-- `CSRRSI rd, csr, uimm` (R124): writes only if `uimm` is not 0. -/
def execCsrrsi (rd : Nat) (csr : CsrAddr) (uimm : Nat) (s : State) : Host.Outcome State Fault Refusal :=
  .next (csrInstr (.csrrsi rd csr uimm) rd csr .set uimm (immediate uimm) s)

/-- `CSRRCI rd, csr, uimm` (R125). -/
def execCsrrci (rd : Nat) (csr : CsrAddr) (uimm : Nat) (s : State) : Host.Outcome State Fault Refusal :=
  .next (csrInstr (.csrrci rd csr uimm) rd csr .clear uimm (immediate uimm) s)

end Sys2Proof.Machine
end

