-- ==== Sys2Proof/Machine/Interrupts.lean ====
section
/-! DEFINITION. Interrupts as trap requests (spec/60_exceptions.md R203, R204) and the two kinds of NMI (R201, R202). -/

namespace Sys2Proof.Machine

/-- An interrupt whose destination is `d` is globally enabled (R203, R30): the destination is more privileged than the current mode, or equal to it with that mode's enable set. -/
def enabledFor (h : Hart) : Dest → Bool
  | .m => h.priv != .m || mie h
  | .hs =>
    match h.priv with
    | .m => false
    | .s => h.virt || sie h
    | .u => true
  | .vs => h.virt && (h.priv == .u || (h.priv == .s && vsSie h))

/-- The interrupt codes in the order they are looked at: R204's eleven, then those of `BaseISA` beside them (assumption log 16). -/
def interruptOrder (cfg : Config) : List Nat := [11, 3, 7, 9, 1, 5, 12, 10, 2, 6, 13] ++ cfg.customInterrupts

/-- Interrupt `c` is pending with destination `d`, and can be taken now (R203). -/
def takeable (cfg : Config) (h : Hart) (d : Dest) (c : Nat) : Bool :=
  bit h.irq c && dest cfg h true (BitVec.ofNat 64 c) == d && enabledFor h d

/-- The interrupt a running hart takes, if any: none while `mnstatus.NMIE` = 0 (R44, R203); those destined for M-mode first, then S/HS-mode, then VS-mode (R204). -/
def selectedInterrupt (cfg : Config) (h : Hart) : Option Nat :=
  if cfg.hasSmrnmi && !nmie h then none
  else
    match (interruptOrder cfg).find? (takeable cfg h .m) with
    | some c => some c
    | none =>
      match (interruptOrder cfg).find? (takeable cfg h .hs) with
      | some c => some c
      | none => (interruptOrder cfg).find? (takeable cfg h .vs)

/-- The trap request of interrupt `c`: `epc` is the next instruction to execute (R171). That `tinst` is 0 is a DESIGN CHOICE (assumption log 29). -/
def interruptRequest (h : Hart) (c : Nat) : TrapRequest :=
  { intr := true, code := BitVec.ofNat 64 c, epc := h.pc, tval := 0#64, tval2 := 0#64, tinst := 0#64, gva := false }

/-- An RNMI (R201): taken by a running hart with `NMIE` = 1; it neither tests nor sets `MDT`. -/
def takeRnmi (cfg : Config) (cause : Word) (h : Hart) : Hart :=
  if h.run = .running ∧ cfg.hasSmrnmi ∧ nmie h then
    { h with
      nm := { h.nm with epc := h.pc, cause := trunc cfg cause, status := mnstatusOn h.priv h.virt h.nm.status }
      priv := .m
      virt := false
      pc := alignPc cfg cfg.rnmiIntHandler }
  else h

/-- The cause an NMI writes to `mcause`. Code 16 is written by a double trap only (R189), so an NMI presented with it is reported as 0 (assumption log 17). -/
def nmiCause (cfg : Config) (cause : Word) : Word :=
  if trunc cfg cause = doubleTrapCode then 0#64 else trunc cfg cause

/-- The delivery of a non-resumable NMI (R202): `mepc`, `mcause`, M-mode, the NMI handler. Where NMIs count as traps into M-mode it sets `MDT`, and then clears `MIE` to keep R52 (assumption log 17). -/
def deliverNmi (cfg : Config) (cause : Word) (h : Hart) : Hart :=
  { h with
    m := { h.m with
      epc := h.pc
      cause := nmiCause cfg cause
      status :=
        if cfg.hasSmdbltrp && cfg.nmiChecksMdt then setBit (setBit h.m.status bitMDT true) bitMIE false
        else h.m.status }
    priv := .m
    virt := false
    pc := alignPc cfg cfg.nmiHandler }

/-- A non-resumable NMI, on a running hart without Smrnmi (R202, D13). -/
def takeNmi (cfg : Config) (cause : Word) (h : Hart) : Hart :=
  if h.run = .running ∧ cfg.hasSmrnmi = false then
    if cfg.nmiChecksMdt && mdt cfg h then enterCriticalError h else deliverNmi cfg cause h
  else h

/-- The code of an exception of `BaseISA`: `XLEN`-1 bits (R38). Code 16 is raised by no instruction (R189); presented, it counts as an instruction `BaseISA` does not define, code 2 (U14; assumption log 6). -/
def baseCode (cfg : Config) (code : Word) : Word :=
  let c := setBit (trunc cfg code) (xlenBits cfg - 1) false
  if c = doubleTrapCode then 2#64 else c

/-- A guest-page fault: exception code 20, 21 or 23 (R189). -/
def isGuestPageFault (code : Word) : Bool := code == 20#64 || code == 21#64 || code == 23#64

/-- An exception `BaseISA` raises for the instruction at `pc` (R171), its values taken in `XLEN` bits. `tval2` is what `BaseISA` gives (the guest physical address shifted right by 2) for a guest-page fault, else 0. -/
def baseRequest (cfg : Config) (h : Hart) (code tval tval2 tinst : Word) (guestVa : Bool) : TrapRequest :=
  { intr := false, code := baseCode cfg code, epc := h.pc, tval := trunc cfg tval
    tval2 := if isGuestPageFault (baseCode cfg code) then trunc cfg tval2 else 0#64
    tinst := trunc cfg tinst, gva := guestVa }

end Sys2Proof.Machine
end

