-- ==== Sys2Proof/Machine/Agents.lean ====
section
/-! DEFINITION. The agents' steps (spec/00_scope.md R14): fetching, the active hart's own step, the instructions of `BaseISA`, and what each event does. -/

namespace Sys2Proof.Machine

/-- The instruction word at `pc`, little-endian (R101); a 16-bit parcel whose bits 1:0 are not 11 stands alone, zero-extended. `error` names an address that holds no byte.
Two DESIGN CHOICES (assumption log 28), both unsafe: the bytes are those at `pc` itself in every mode, where R86 leaves translation to `BaseISA`; and the fetch sees every earlier store of the same hart with no `FENCE.I` between, which R88 calls the only guarantee. -/
def fetch (s : State) : Except Nat (BitVec 32) :=
  match readBytes s.cfg s.mem s.hart.pc.toNat 2 with
  | .error a => .error a
  | .ok [b0, b1] =>
    if b0.extractLsb' 0 2 ≠ 0x3#2 then .ok (joinBytes b0 b1 0#8 0#8)
    else
      match readBytes s.cfg s.mem (s.hart.pc.toNat + 2) 2 with
      | .error a => .error a
      | .ok [b2, b3] => .ok (joinBytes b0 b1 b2 b3)
      | .ok _ => .error s.hart.pc.toNat
  | .ok _ => .error s.hart.pc.toNat

/-- The integer registers after `BaseISA` writes some of them. -/
def writeRegs (cfg : Config) : List (Nat × Word) → Hart → Hart
  | [], h => h
  | (r, v) :: rest, h => writeRegs cfg rest (writeReg cfg r v h)

/-- The CSRs after `BaseISA` sets some of its own; those of R27's table it does not set this way. -/
def setBaseCsrs : List (CsrAddr × Word) → List (Nat × Word) → List (Nat × Word)
  | [], l => l
  | (a, v) :: rest, l => setBaseCsrs rest (if (Csr.ofAddress a).isNone then setBaseCsr l a.toNat v else l)

/-- `VS`, `FS` and `XS` of a status word (R28). -/
def extensionMask : Word := maskOf [9, 10, 13, 14, 15, 16]

/-- A hart whose extension-state fields are those of the two words. -/
def setExtensionState (status vsstatus : Word) (h : Hart) : Hart :=
  { h with
    m := { h.m with status := merge extensionMask h.m.status status }
    vs := { h.vs with status := merge extensionMask h.vs.status vsstatus } }

/-- What `BaseISA`'s answer does to the machine (assumption log 6): its exceptions go through `TakeTrap` (R81, R171), and an instruction that completes has retired (assumption log 26). -/
def applyBase (s : State) : BaseResult → State
  | .retire pc regs stores csrs status vsstatus =>
    { s with
      hart := retire (setExtensionState status vsstatus
        { writeRegs s.cfg regs s.hart with pc := alignPc s.cfg pc, baseCsrs := setBaseCsrs csrs s.hart.baseCsrs })
      mem := writeCells s.cfg s.mem stores }
  | .exception code tval tval2 tinst guestVa =>
    s.onHart (raise s.cfg (baseRequest s.cfg s.hart code tval tval2 tinst guestVa))
  | .debugEntry cause => otherDebugEntry s cause

/-- The word `w` is executed: by `exec` if it is one of the eleven (R106), else by `BaseISA`. -/
def execWord (w : BitVec 32) (s : State) : Host.Outcome State Fault Refusal :=
  match decodeWord w with
  | .ok i => exec i s
  | .error _ => .next (applyBase s (Config.baseISA s w))

/-- The instruction at `pc` is fetched and executed. -/
def fetchExec (s : State) : Host.Outcome State Fault Refusal :=
  match fetch s with
  | .error a => .fault (.unwrittenByte a)
  | .ok w => execWord w s

/-- A running hart's turn, `instr` what its instruction does: the halt request first (R211), then an interrupt that can be taken (R203, R204), else the instruction (assumption log 16). -/
def boundaryStep (s : State) (instr : Host.Outcome State Fault Refusal) : Host.Outcome State Fault Refusal :=
  if s.hart.haltreq && s.cfg.hasDebug then .next (s.onHart (enterDebug s.cfg 0x3#3))
  else
    match selectedInterrupt s.cfg s.hart with
    | some c => .next (s.onHart (raise s.cfg (interruptRequest s.hart c)))
    | none => instr

/-- A running hart's own step. -/
def runningStep (s : State) : Host.Outcome State Fault Refusal := boundaryStep s (fetchExec s)

/-- A running hart's turn in which the instruction at `pc` raises an exception of `BaseISA`: an interrupt comes before it (R204). A hart that does not run has no such turn (R198, R216). -/
def exceptionStep (s : State) (t : TrapRequest) : Host.Outcome State Fault Refusal :=
  if s.hart.run = .running then boundaryStep s (.next (s.onHart (raise s.cfg t))) else .next s

/-- The step of a hart in the critical-error state: nothing (R198), unless a halt request finds Sddbltrp (R212, R213). -/
def criticalStep (s : State) : State :=
  if s.hart.haltreq && s.cfg.hasSddbltrp then s.onHart (enterDebug s.cfg 0x3#3) else s

/-- The active hart's own step (R14a). In Debug Mode it waits for the debugger. -/
def hartStep (s : State) : Host.Outcome State Fault Refusal :=
  match s.hart.run with
  | .running => runningStep s
  | .criticalError => .next (criticalStep s)
  | .debugMode => .next s

/-- The debugger has the active hart execute `w`: only in Debug Mode. -/
def debugExec (w : BitVec 32) (s : State) : Host.Outcome State Fault Refusal :=
  if s.hart.run = .debugMode then execWord w s else .next s

/-- What an event does. -/
def eventStep (e : Event) (s : State) : Host.Outcome State Fault Refusal :=
  match e with
  | .hart => hartStep s
  | .select n => .next (selectHart s n)
  | .irqLine code level => .next (s.onHart (fun h => { h with irq := setBit h.irq code level }))
  | .rnmi cause => .next (s.onHart (takeRnmi s.cfg cause))
  | .nmi cause => .next (s.onHart (takeNmi s.cfg cause))
  | .baseException code tval tval2 tinst guestVa =>
    exceptionStep s (baseRequest s.cfg s.hart code tval tval2 tinst guestVa)
  | .haltRequest level => .next (s.onHart (fun h => { h with haltreq := level }))
  | .debugEntry cause => .next (otherDebugEntry s cause)
  | .resume => .next (resumeHart s)
  | .debugExec w => debugExec w s
  | .debugCsrRead a => .next (debugCsrRead s a)
  | .debugCsrWrite a v => .next (debugCsrWrite s a v)
  | .debugRegRead r => .next (debugRegRead s r)
  | .debugRegWrite r v => .next (debugRegWrite s r v)
  | .memWrite a b => .next { s with mem := writeByte s.mem (a % addressCount s.cfg) b }
  | .dmRead number => .next (answer s (dmRegisterRead s number))
  | .dmWrite number v => .next (dmRegisterWrite s number v)
  | .resetHart => .next (resetActive s)
  | .resetAll => .next (resetHarts s)
  | .resetDm => .next (resetDebugModule s)
  | .platform action => .next (platformReact s action)

/-- One step of the agent whose turn it is: the first event's, or the active hart's where no event is listed. -/
def agentStep (s : State) : Host.Outcome State Fault Refusal :=
  match s.events with
  | [] => hartStep s
  | e :: rest => eventStep e { s with events := rest }

/-- The state a step starts from: one more step counted. -/
def State.tick (s : State) : State := { s with ticks := s.ticks + 1 }

/-- `s` with the instruction word `w` stored at `pc`, and nothing left that would come before its fetch: no event, halt request or interrupt, and the hart running. -/
def placeWord (s : State) (w : BitVec 32) : State :=
  { s with
    mem := writeBytes s.cfg s.mem s.hart.pc.toNat (wordBytes w)
    hart := { s.hart with run := .running, haltreq := false, irq := 0#64 }
    events := [] }

end Sys2Proof.Machine
end

