-- ==== Sys2Proof/Machine/Step.lean ====
section
/-! DEFINITION. One step of the machine, and the state whose next step runs a given word. -/

namespace Sys2Proof.Machine

/-- One step (R14): the step is counted, then the agent whose turn it is moves. -/
def step (s : State) : Host.Outcome State Fault Refusal := agentStep s.tick

/-- `s` with an opcode-table word stored where `step` fetches its next instruction. It stands for the load of a program from outside the machine (assumption log 5). -/
def State.withFetchWord (s : State) (nbits w : Nat) : State := placeWord s (tableWord nbits w)

end Sys2Proof.Machine
end

