-- ==== Sys2Proof/Safety.lean ====
section
/-! DEFINITION. The terms the statements use: what a step must keep (invariants of the spec), what it must leave alone (frames), and which events are whose. -/

namespace Sys2Proof.Safety

open Sys2Proof.Machine

/-- A property of every hart of the machine, the active one and the parked ones. -/
def allHarts (P : Config → Hart → Prop) (s : State) : Prop :=
  P s.cfg s.hart ∧ ∀ h ∈ s.parked, P s.cfg h

/-- R52: `MDT` = 1 implies `MIE` = 0. -/
def mdtMasksMie (cfg : Config) (h : Hart) : Prop := mdt cfg h = true → mie h = false

/-- R53: `SDT` = 1 implies `SIE` = 0, for `mstatus` and for `vsstatus` separately. -/
def sdtMasksSie (cfg : Config) (h : Hart) : Prop :=
  (sdt cfg h = true → sie h = false) ∧ (vsSdt cfg h = true → vsSie h = false)

/-- R22: `V` is 0 without H and in M-mode, and so is the `V` that `dcsr` keeps for a resume. -/
def modeConsistent (cfg : Config) (h : Hart) : Prop :=
  (cfg.hasH = false → h.virt = false) ∧ (h.priv = .m → h.virt = false)
    ∧ (dcsrV h = true → cfg.hasH = true ∧ Priv.ofCode (dcsrPrv h) ≠ .m)

/-- R24: `cerr` in each `hart_state`. -/
def cerrTracksRun (cfg : Config) (h : Hart) : Prop :=
  match h.run with
  | .running => h.cerr = false
  | .criticalError => h.cerr = true
  | .debugMode => h.cerr = (pcerr cfg h && cfg.cerrHeldInDebug)

/-- R31, R36, R37, R41, R42, R43, R46: a bit that is read-only zero is stored 0. -/
def readOnlyZeroHeld (cfg : Config) (h : Hart) : Prop :=
  bit h.m.edeleg 16 = false ∧ bit h.hs.edeleg 16 = false
    ∧ (ssActive cfg h = false →
        bit h.m.status bitSDT = false ∧ bit h.vs.status bitSDT = false ∧ bit h.hs.envcfg bitDTE = false)
    ∧ (ssActiveVS cfg h = false → bit h.vs.status bitSDT = false)
    ∧ (cfg.hasSsdbltrp = false → bit h.m.envcfg bitDTE = false)
    ∧ (cfg.hasSmdbltrp = false → bit h.m.status bitMDT = false)
    ∧ (cfg.hasSddbltrp = false → h.dbg.dcsr.getLsbD bitPcerr = false)

/-- R83: `pc` and the registers a return or resume takes it from hold instruction addresses. -/
def pcAligned (cfg : Config) (h : Hart) : Prop :=
  alignPc cfg h.pc = h.pc ∧ alignPc cfg h.m.epc = h.m.epc ∧ alignPc cfg h.s.epc = h.s.epc
    ∧ alignPc cfg h.vs.epc = h.vs.epc ∧ alignPc cfg h.nm.epc = h.nm.epc ∧ alignPc cfg h.dbg.dpc = h.dbg.dpc

/-- `w` is an `XLEN`-bit value. -/
def xlenWide (cfg : Config) (w : Word) : Prop := trunc cfg w = w

/-- R20, R21, R38 to R40, R44, R47: the `XLEN`-bit registers hold `XLEN`-bit values. -/
def registersXlenWide (cfg : Config) (h : Hart) : Prop :=
  (∀ (r : Nat) (v : Word), h.x[r]? = some v → xlenWide cfg v) ∧ xlenWide cfg h.pc
    ∧ xlenWide cfg h.m.ideleg ∧ xlenWide cfg h.m.tvec ∧ xlenWide cfg h.m.epc ∧ xlenWide cfg h.m.cause
    ∧ xlenWide cfg h.m.tval ∧ xlenWide cfg h.m.tval2 ∧ xlenWide cfg h.m.tinst
    ∧ xlenWide cfg h.s.tvec ∧ xlenWide cfg h.s.epc ∧ xlenWide cfg h.s.cause ∧ xlenWide cfg h.s.tval
    ∧ xlenWide cfg h.vs.status ∧ xlenWide cfg h.vs.tvec ∧ xlenWide cfg h.vs.epc ∧ xlenWide cfg h.vs.cause
    ∧ xlenWide cfg h.vs.tval
    ∧ xlenWide cfg h.hs.status ∧ xlenWide cfg h.hs.ideleg ∧ xlenWide cfg h.hs.tval ∧ xlenWide cfg h.hs.tinst
    ∧ xlenWide cfg h.nm.scratch ∧ xlenWide cfg h.nm.epc ∧ xlenWide cfg h.nm.cause ∧ xlenWide cfg h.nm.status
    ∧ xlenWide cfg h.dbg.dpc

/-- R22: no privilege field names the mode number 2, which no mode has. -/
def storedModesNamed (_cfg : Config) (h : Hart) : Prop :=
  mpp h ≠ 0x2#2 ∧ mnpp h ≠ 0x2#2 ∧ dcsrPrv h ≠ 0x2#2

/-- R198, R214: the hart is in the critical-error state, or halted out of it. -/
def condemned (cfg : Config) (h : Hart) : Prop :=
  h.run = .criticalError ∨ (h.run = .debugMode ∧ pcerr cfg h = true)

/-- Everything but the active hart is as it was: the configuration, the other harts, the DM, the schedule, and every byte of memory. -/
def hartOnly (s t : State) : Prop :=
  t.cfg = s.cfg ∧ t.parked = s.parked ∧ t.dm = s.dm ∧ t.events = s.events ∧ t.ticks = s.ticks
    ∧ ∀ a, readByte t.mem a = readByte s.mem a

/-- The bits of `w'` outside the listed ones are those of `w`. -/
def bitsKept (changed : List Nat) (w w' : Word) : Prop := ∀ j, j ∉ changed → bit w' j = bit w j

/-- The listed bits of `w'` are those of the value `v` written. -/
def bitsStored (stored : List Nat) (v w' : Word) : Prop := ∀ j ∈ stored, bit w' j = bit v j

/-- The head of the schedule resets a hart (R240, R199). -/
def resets : Event → Bool
  | .resetHart => true
  | .resetAll => true
  | .platform .resetHart => true
  | .platform .resetAll => true
  | _ => false

/-- The event makes another hart the active one. -/
def selects : Event → Bool
  | .select _ => true
  | _ => false

/-- The next step is the active hart's own. -/
def hartMoves (s : State) : Prop := s.events = [] ∨ ∃ rest, s.events = .hart :: rest

/-- The next step is a turn of the active hart: its own, or one in which its instruction raises an exception of `BaseISA`. -/
def hartTurns (s : State) : Prop :=
  hartMoves s ∨ ∃ code tval tval2 tinst g rest, s.events = .baseException code tval tval2 tinst g :: rest

/-- The state a hart's own step starts from: one more step counted, and the event that gave it the turn taken off. -/
def hartTurn (s : State) : State := { s with ticks := s.ticks + 1, events := s.events.tail }

/-- What a granted CSR instruction `i` does (R120 to R125): `x[rd]` receives the value read, `pc` advances, the explicit write happens if `writes` says so, with the value `f` of the one read; and nothing else changes, the count of retired instructions left out (assumption log 26). -/
def csrEffect (i : Instr) (rd : Nat) (a : CsrAddr) (writes : Bool) (f : Word → Word) (s : State) : Prop :=
  csrAccess s.cfg s.hart a writes = .granted →
    ∃ t, exec i s = .next t ∧ hartOnly s t
      ∧ t.hart.pc = trunc s.cfg (s.hart.pc + 4#64)
      ∧ (∀ r, readReg s.cfg t.hart r = if r = rd ∧ rd ≠ 0 then csrRead s a else readReg s.cfg s.hart r)
      ∧ { t.hart with x := s.hart.x, pc := s.hart.pc, retired := s.hart.retired }
          = if writes then csrWrite s a (f (csrRead s a)) else s.hart

/-- How privileged a mode is: U and VU 0, VS 1, S/HS 2, M 3 (R22, R173). -/
def modeRank (h : Hart) : Nat :=
  match h.priv with
  | .m => 3
  | .s => if h.virt then 1 else 2
  | .u => 0

/-- The exception a table instruction raises in place of its effect (R138, R108): its word or 0 in `tval` (U15), and `tinst` 0, the model's choice (assumption log 29). -/
def raised (i : Instr) (code : Word) (s : State) : Host.Outcome State Fault Refusal :=
  .next (s.onHart (raise s.cfg
    { intr := false, code := code, epc := s.hart.pc
      tval := if s.cfg.illegalTvalWord then (encode i).setWidth 64 else 0#64
      tval2 := 0#64, tinst := 0#64, gva := false }))

/-- A CSR instruction whose access check fails raises the exception and does nothing else (R138; its `tinst` 0: assumption log 29). -/
def csrTurnedAway (i : Instr) (a : CsrAddr) (writes : Bool) (s : State) : Prop :=
  (csrAccess s.cfg s.hart a writes = .illegal → exec i s = raised i 2#64 s)
    ∧ (csrAccess s.cfg s.hart a writes = .virtualInstruction → exec i s = raised i 22#64 s)

/-- The six CSR instructions. -/
def isCsrInstr : Instr → Bool
  | .csrrw _ _ _ => true
  | .csrrs _ _ _ => true
  | .csrrc _ _ _ => true
  | .csrrwi _ _ _ => true
  | .csrrsi _ _ _ => true
  | .csrrci _ _ _ => true
  | .ecall => false
  | .sret => false
  | .mret => false
  | .mnret => false
  | .dret => false

/-- Instruction `i` has its effect in state `s`, with no exception in its place (R138, R150 to R154). -/
def completes (i : Instr) (s : State) : Bool :=
  let granted := fun (a : CsrAddr) (writes : Bool) => csrAccess s.cfg s.hart a writes == .granted
  match i with
  | .csrrw _ a _ => granted a true
  | .csrrs _ a rs1 => granted a (rs1 != 0)
  | .csrrc _ a rs1 => granted a (rs1 != 0)
  | .csrrwi _ a _ => granted a true
  | .csrrsi _ a uimm => granted a (uimm != 0)
  | .csrrci _ a uimm => granted a (uimm != 0)
  | .ecall => false
  | .sret =>
    s.hart.priv != .u && !(s.hart.priv == .s && !s.hart.virt && tsr s.hart) && !(s.hart.virt && vtsr s.hart)
  | .mret => s.hart.priv == .m
  | .mnret => s.hart.priv == .m && s.cfg.hasSmrnmi
  | .dret => s.hart.run == .debugMode

/-- The bits of `dcsr` outside the listed ones are as they were. -/
def dcsrKept (changed : List Nat) (h h' : Hart) : Prop :=
  ∀ j, j ∉ changed → h'.dbg.dcsr.getLsbD j = h.dbg.dcsr.getLsbD j

/-- `h'` is the running hart `h` halted for `cause` (R211): `dpc`, the cause, `prv`, `v` and `pcerr` are written, and nothing else changes. -/
def debugEntered (cfg : Config) (cause : BitVec 3) (h h' : Hart) : Prop :=
  h'.dbg.dpc = h.pc ∧ dcsrCause h' = cause ∧ dcsrPrv h' = h.priv.code ∧ dcsrV h' = h.virt
    ∧ (cfg.hasSddbltrp = true → pcerr cfg h' = false)
    ∧ dcsrKept [0, 1, 5, 6, 7, 8, 19] h h'
    ∧ h' = { h with dbg := h'.dbg, run := .debugMode, cerr := false }

/-- `h'` is `h` after a set or clear form on `mstatus` with operand `m`, `f` what the form does with an old bit and a bit of `m` (R127: a field the mask does not touch is written with its old value): `SDT` and `MDT`, then `SIE` and `MIE` next to them, every plain field, and an untouched legal `MPP`. -/
def statusCombined (cfg : Config) (f : Bool → Bool → Bool) (m : Word) (h h' : Hart) : Prop :=
  sdt cfg h' = (ssActive cfg h && f (sdt cfg h) (bit m 24))
    ∧ mdt cfg h' = (cfg.hasSmdbltrp && f (mdt cfg h) (bit m 45))
    ∧ sie h' = (!sdt cfg h' && f (sie h) (bit m 1))
    ∧ mie h' = (!mdt cfg h' && f (mie h) (bit m 3))
    ∧ (∀ j ∈ [5, 6, 7, 8, 9, 10, 13, 14, 17, 18, 19, 20, 21, 22, 36, 37, 38, 39],
        bit h'.m.status j = f (bit h.m.status j) (bit m j))
    ∧ (field2 m 11 = 0x0#2 → legalPrivilege cfg (mpp h) = true → mpp h' = mpp h)

/-- `h'` is `h` resumed from Debug Mode (R214, R215); the count of retired instructions is left out (assumption log 26). -/
def resumed (cfg : Config) (h h' : Hart) : Prop :=
  h'.pc = h.dbg.dpc ∧ h'.priv = Priv.ofCode (dcsrPrv h)
    ∧ h'.virt = dcsrV h
    ∧ (pcerr cfg h = true → h'.run = .criticalError ∧ h'.cerr = true ∧ h'.m = h.m)
    ∧ (pcerr cfg h = false → h'.run = .running ∧ h'.cerr = false
        ∧ (Priv.ofCode (dcsrPrv h) = .m → h'.m = h.m)
        ∧ (Priv.ofCode (dcsrPrv h) ≠ .m → mprv h' = false ∧ bitsKept [17] h.m.status h'.m.status
            ∧ h'.m = { h.m with status := h'.m.status }))
    ∧ h' = { h with pc := h'.pc, priv := h'.priv, virt := h'.virt, run := h'.run, cerr := h'.cerr, m := h'.m
                    retired := h'.retired }

/-- How privileged the destination of a trap is, on the scale of `modeRank`. -/
def destRank : Dest → Nat
  | .m => 3
  | .hs => 2
  | .vs => 1

/-- The global interrupt enable of the mode `d` (R30, R203). -/
def globalEnable (h : Hart) : Dest → Bool
  | .m => mie h
  | .hs => sie h
  | .vs => vsSie h

/-- Interrupt `c` is pending and enabled, and its destination is more privileged than the current mode, or equal to it with that mode's global enable (R203). -/
def canInterrupt (cfg : Config) (h : Hart) (c : Nat) : Prop :=
  bit h.irq c = true ∧ c ∈ interruptOrder cfg
    ∧ (modeRank h < destRank (dest cfg h true (BitVec.ofNat 64 c))
        ∨ (modeRank h = destRank (dest cfg h true (BitVec.ofNat 64 c))
            ∧ globalEnable h (dest cfg h true (BitVec.ofNat 64 c)) = true))

/-- The trap is a double trap: its destination's `SDT` is already 1 (R176, R177). -/
def doubleTrap (cfg : Config) (t : TrapRequest) (h : Hart) : Prop :=
  (dest cfg h t.intr t.code = .hs ∧ sdt cfg h = true) ∨ (dest cfg h t.intr t.code = .vs ∧ vsSdt cfg h = true)

end Sys2Proof.Safety
end

