-- ==== Sys2Proof/Certificates/Slice0/Obligations.lean ====
section
/-! DEFINITION. The statements for the provers. A rule R<n> is one of spec/; a log entry is a row of notes/assumptions. -/

section

open Sys2Proof Sys2Proof.Machine Sys2Proof.Safety

/-! ### Decoding and encoding -/

/-- R101 to R105: the bytes of every well-formed instruction, whatever follows them, decode to it. -/
def Obligations.DecodeEncode : Prop :=
  ∀ (i : Instr) (rest : List Byte), i.wellFormed = true → decode (wordBytes (encode i) ++ rest) = .ok (i, rest)

/-- R102 to R105: a word that decodes is the encoding of the one instruction it decodes to, and that one is well formed. -/
def Obligations.EncodeDecode : Prop :=
  ∀ (w : BitVec 32) (i : Instr), decodeWord w = .ok i → encode i = w ∧ i.wellFormed = true

/-- R103: match and mask of the six CSR instructions, with their operands. -/
def Obligations.CsrWordsDecode : Prop :=
  ∀ w : BitVec 32,
    let csr := w.extractLsb' 20 12
    let rs1 := (w.extractLsb' 15 5).toNat
    let rd := (w.extractLsb' 7 5).toNat
    (w &&& 0x0000707F#32 = 0x00001073#32 ↔ decodeWord w = .ok (.csrrw rd csr rs1))
      ∧ (w &&& 0x0000707F#32 = 0x00002073#32 ↔ decodeWord w = .ok (.csrrs rd csr rs1))
      ∧ (w &&& 0x0000707F#32 = 0x00003073#32 ↔ decodeWord w = .ok (.csrrc rd csr rs1))
      ∧ (w &&& 0x0000707F#32 = 0x00005073#32 ↔ decodeWord w = .ok (.csrrwi rd csr rs1))
      ∧ (w &&& 0x0000707F#32 = 0x00006073#32 ↔ decodeWord w = .ok (.csrrsi rd csr rs1))
      ∧ (w &&& 0x0000707F#32 = 0x00007073#32 ↔ decodeWord w = .ok (.csrrci rd csr rs1))

/-- R104: the five fixed words. -/
def Obligations.PrivilegedWordsDecode : Prop :=
  ∀ w : BitVec 32,
    (w = 0x00000073#32 ↔ decodeWord w = .ok .ecall)
      ∧ (w = 0x10200073#32 ↔ decodeWord w = .ok .sret)
      ∧ (w = 0x30200073#32 ↔ decodeWord w = .ok .mret)
      ∧ (w = 0x70200073#32 ↔ decodeWord w = .ok .mnret)
      ∧ (w = 0x7B200073#32 ↔ decodeWord w = .ok .dret)

/-- R106: every other word is handed to `BaseISA`, in particular another major opcode, `funct3` = 100, and a `funct3` = 000 word that is none of the five. What `BaseISA` answers is free; what an answer may touch is the model's bound (assumption log 6), that it counts as a retired instruction is DEDUCED (assumption log 26), and that the `pc` it gives has its low bits cleared is PRESUMED (assumption log 12). The last store it lists to an address and the last value it gives a register are what the address and the register hold. R81, R170, R171: an exception of `BaseISA`, answered for a word or found in a turn of the hart, is taken by `takeTrap` with `epc` = `pc` on a running hart, and on no other; its `tval2` is 0 unless it is a guest-page fault. R211: an answer that enters Debug Mode halts a running hart as a halt request does, with its own cause (the model's choice, assumption log 24), and changes nothing else. -/
def Obligations.OtherWordsGoToBaseISA : Prop :=
  (∀ (w : BitVec 32) (s : State),
    (w.extractLsb' 0 7 ≠ 0x73#7 ∨ w.extractLsb' 12 3 = 0x4#3
      ∨ (w.extractLsb' 12 3 = 0x0#3
          ∧ w ∉ [0x00000073#32, 0x10200073#32, 0x30200073#32, 0x70200073#32, 0x7B200073#32]) →
        execWord w s = .next (applyBase s (Config.baseISA s w)))
      ∧ (¬(w.extractLsb' 0 7 ≠ 0x73#7 ∨ w.extractLsb' 12 3 = 0x4#3
          ∨ (w.extractLsb' 12 3 = 0x0#3
              ∧ w ∉ [0x00000073#32, 0x10200073#32, 0x30200073#32, 0x70200073#32, 0x7B200073#32])) →
        ∃ i, decodeWord w = .ok i ∧ execWord w s = exec i s))
    ∧ (∀ (s : State) (code tval tval2 tinst : Word) (guestVa : Bool) (rest : List Event),
        let request : TrapRequest :=
          { intr := false, code := code, epc := s.hart.pc, tval := trunc s.cfg tval
            tval2 := if code ∈ [20#64, 21#64, 23#64] then trunc s.cfg tval2 else 0#64
            tinst := trunc s.cfg tinst, gva := guestVa }
        (s.hart.run = .running → code.toNat < 2 ^ (xlenBits s.cfg - 1) → code ≠ 16#64 →
            applyBase s (.exception code tval tval2 tinst guestVa) = s.onHart (takeTrap s.cfg request)
            ∧ (s.events = .baseException code tval tval2 tinst guestVa :: rest →
                (s.hart.haltreq && s.cfg.hasDebug) = false → selectedInterrupt s.cfg s.hart = none →
                step s = .next ((hartTurn s).onHart (takeTrap s.cfg request))))
          ∧ (s.hart.run ≠ .running →
              applyBase s (.exception code tval tval2 tinst guestVa) = s
              ∧ (s.events = .baseException code tval tval2 tinst guestVa :: rest → step s = .next (hartTurn s))))
    ∧ (∀ (s : State) (cause : BitVec 3),
        (s.hart.run = .running → s.cfg.hasDebug = true →
            hartOnly s (applyBase s (.debugEntry cause))
              ∧ debugEntered s.cfg cause s.hart (applyBase s (.debugEntry cause)).hart)
          ∧ (s.hart.run ≠ .running ∨ s.cfg.hasDebug = false → applyBase s (.debugEntry cause) = s))
    ∧ ∀ (s : State) (pc : Word) (regs : List (Nat × Word)) (stores : List Host.Cell) (csrs : List (CsrAddr × Word))
        (status vsstatus : Word),
        let t := applyBase s (.retire pc regs stores csrs status vsstatus)
        t = { s with hart := t.hart, mem := t.mem } ∧ t.hart.pc = alignPc s.cfg pc
          ∧ (∀ a, (∀ p ∈ stores, p.1 % addressCount s.cfg ≠ a) → readByte t.mem a = readByte s.mem a)
          ∧ (∀ k a v l, stores = k ++ (a, v) :: l →
              (∀ p ∈ l, p.1 % addressCount s.cfg ≠ a % addressCount s.cfg) →
              readByte t.mem (a % addressCount s.cfg) = some v)
          ∧ (∀ n, (∀ p ∈ regs, p.1 ≠ n) → readReg s.cfg t.hart n = readReg s.cfg s.hart n)
          ∧ (∀ k n v l, regs = k ++ (n, v) :: l → n ≠ 0 → n < 32 → (∀ p ∈ l, p.1 ≠ n) →
              readReg s.cfg t.hart n = trunc s.cfg v)
          ∧ bitsStored [9, 10, 13, 14, 15, 16] status t.hart.m.status
          ∧ bitsStored [9, 10, 13, 14, 15, 16] vsstatus t.hart.vs.status
          ∧ bitsKept [9, 10, 13, 14, 15, 16] s.hart.m.status t.hart.m.status
          ∧ bitsKept [9, 10, 13, 14, 15, 16] s.hart.vs.status t.hart.vs.status
          ∧ t.hart = { s.hart with x := t.hart.x, pc := t.hart.pc, baseCsrs := t.hart.baseCsrs
                                   retired := s.hart.retired + 1
                                   m := { s.hart.m with status := t.hart.m.status }
                                   vs := { s.hart.vs with status := t.hart.vs.status } }

/-- R111: the worked encodings, each decoded and each encoded. -/
def Obligations.WorkedEncodings : Prop :=
  ∀ p ∈ [(0x30029073#32, Instr.csrrw 0 0x300#12 5), (0x3002A073#32, .csrrs 0 0x300#12 5),
      (0x3002B073#32, .csrrc 0 0x300#12 5), (0x30002373#32, .csrrs 6 0x300#12 0),
      (0x1002B073#32, .csrrc 0 0x100#12 5), (0x1002A073#32, .csrrs 0 0x100#12 5),
      (0x30046073#32, .csrrsi 0 0x300#12 8), (0x10016073#32, .csrrsi 0 0x100#12 2),
      (0x30A2A073#32, .csrrs 0 0x30A#12 5), (0x3102B073#32, .csrrc 0 0x310#12 5),
      (0x34B02373#32, .csrrs 6 0x34B#12 0), (0x342023F3#32, .csrrs 7 0x342#12 0)],
    decodeWord p.1 = .ok p.2 ∧ encode p.2 = p.1

/-! ### The step -/

/-- R14(a), R101: where the four bytes at `pc` decode to an instruction, the hart runs, and no halt request and no interrupt comes first, the hart's step is that instruction's `exec`; the step is counted and the event that gave the hart its turn is taken off. That the bytes fetched are those at `pc`, untranslated, with every earlier store of the hart in them, is the model's choice (assumption log 28). R106, R81: a word at `pc` that is no instruction of the table steps to what `BaseISA` answers for it, and so does a 16-bit parcel, handed over with zeros above it (assumption log 6). R136, R153: a word the debugger gives a hart in Debug Mode is executed by the same rule, and on a hart that is not in Debug Mode nothing happens; that such a command exists in this form is the model's choice (assumption log 19). -/
def Obligations.StepRunsInstruction : Prop :=
  (∀ (s : State) (bytes : List Byte) (i : Instr),
    hartMoves s → s.hart.run = .running → (s.hart.haltreq && s.cfg.hasDebug) = false →
    selectedInterrupt s.cfg s.hart = none →
    readBytes s.cfg s.mem s.hart.pc.toNat 4 = .ok bytes → decode bytes = .ok (i, []) →
      step s = exec i (hartTurn s))
    ∧ (∀ (s : State) (b0 b1 : Byte),
        hartMoves s → s.hart.run = .running → (s.hart.haltreq && s.cfg.hasDebug) = false →
        selectedInterrupt s.cfg s.hart = none →
          (readBytes s.cfg s.mem s.hart.pc.toNat 2 = .ok [b0, b1] → b0.extractLsb' 0 2 ≠ 0x3#2 →
              step s = .next (applyBase (hartTurn s) (Config.baseISA (hartTurn s) (joinBytes b0 b1 0#8 0#8))))
            ∧ ∀ b2 b3, readBytes s.cfg s.mem s.hart.pc.toNat 4 = .ok [b0, b1, b2, b3] → b0.extractLsb' 0 2 = 0x3#2 →
              step s = execWord (joinBytes b0 b1 b2 b3) (hartTurn s)
                ∧ ((∀ i, decodeWord (joinBytes b0 b1 b2 b3) ≠ .ok i) →
                    step s = .next (applyBase (hartTurn s) (Config.baseISA (hartTurn s) (joinBytes b0 b1 b2 b3)))))
    ∧ ∀ (s : State) (w : BitVec 32) (rest : List Event), s.events = .debugExec w :: rest →
        (s.hart.run = .debugMode → step s = execWord w (hartTurn s))
          ∧ (s.hart.run = .debugMode → ∀ i, decodeWord w = .ok i → step s = exec i (hartTurn s))
          ∧ (s.hart.run ≠ .debugMode → step s = .next (hartTurn s))

/-- R100, R108: no step refuses; the one fault is a running hart's fetch from an address that holds no byte (assumption log 5). That an interrupt under a trap vector of MODE 2 or 3 goes on, to a free address, where U22's treatment is to refuse, is the model's choice (assumption log 9). -/
def Obligations.StepStopsOnlyOnUnwrittenBytes : Prop :=
  ∀ s : State, (∀ r, step s ≠ .refused r)
    ∧ ∀ f, step s = .fault f →
        hartMoves s ∧ s.hart.run = .running ∧ ∃ a, f = .unwrittenByte a ∧ readByte s.mem a = none

/-! ### The CSR instructions -/

/-- R120: `CSRRW`, with its failures and the corner case of `mstatus` bit 24. That the exception of a failed check has `tinst` 0 is the model's choice (assumption log 29). -/
def Obligations.Csrrw : Prop :=
  ∀ (s : State) (rd rs1 : Nat) (a : CsrAddr), rd < 32 → rs1 < 32 →
    csrEffect (.csrrw rd a rs1) rd a true (fun _ => readReg s.cfg s.hart rs1) s
      ∧ csrTurnedAway (.csrrw rd a rs1) a true s
      ∧ readReg s.cfg s.hart 0 = 0#64
      ∧ (csrAccess s.cfg s.hart 0x300#12 true = .granted → ssActive s.cfg s.hart = true →
          bit (readReg s.cfg s.hart rs1) 24 = true →
          ∃ t, exec (.csrrw rd 0x300#12 rs1) s = .next t ∧ sdt t.cfg t.hart = true ∧ sie t.hart = false)

/-- R121: `CSRRS`: the test is on the register number. Corner cases: setting `SIE` while `SDT` = 1, and setting `SDT`. That the exception of a failed check has `tinst` 0 is the model's choice (assumption log 29). R127: what a set or clear form leaves in `mstatus` where its mask does not touch a field is the old value (that a plain field stores what is written is assumption log 7, a legal `MPP` log 8). -/
def Obligations.Csrrs : Prop :=
  ∀ (s : State) (rd rs1 : Nat) (a : CsrAddr), rd < 32 → rs1 < 32 →
    csrEffect (.csrrs rd a rs1) rd a (rs1 != 0) (fun t => t ||| readReg s.cfg s.hart rs1) s
      ∧ csrTurnedAway (.csrrs rd a rs1) a (rs1 != 0) s
      ∧ (csrAccess s.cfg s.hart 0x300#12 true = .granted → rs1 ≠ 0 → ssActive s.cfg s.hart = true →
          (sdt s.cfg s.hart = true ∨ bit (readReg s.cfg s.hart rs1) 24 = true) →
          ∃ t, exec (.csrrs rd 0x300#12 rs1) s = .next t ∧ sdt t.cfg t.hart = true ∧ sie t.hart = false)
      ∧ (csrAccess s.cfg s.hart 0x300#12 true = .granted → rs1 ≠ 0 →
          ∃ t, exec (.csrrs rd 0x300#12 rs1) s = .next t
            ∧ statusCombined s.cfg (fun b c => b || c) (readReg s.cfg s.hart rs1) s.hart t.hart)

/-- R122: `CSRRC`. Corner case: clearing `SDT` through `sstatus` with `V` = 0 sets no `SIE`; `SIE` stays as it was where its own bit is not cleared. That the exception of a failed check has `tinst` 0 is the model's choice (assumption log 29). R127: what a set or clear form leaves in `mstatus` where its mask does not touch a field is the old value (that a plain field stores what is written is assumption log 7, a legal `MPP` log 8). -/
def Obligations.Csrrc : Prop :=
  ∀ (s : State) (rd rs1 : Nat) (a : CsrAddr), rd < 32 → rs1 < 32 →
    csrEffect (.csrrc rd a rs1) rd a (rs1 != 0) (fun t => t &&& ~~~(readReg s.cfg s.hart rs1)) s
      ∧ csrTurnedAway (.csrrc rd a rs1) a (rs1 != 0) s
      ∧ (csrAccess s.cfg s.hart 0x100#12 true = .granted → rs1 ≠ 0 → s.hart.virt = false →
          bit (readReg s.cfg s.hart rs1) 24 = true →
          ∃ t, exec (.csrrc rd 0x100#12 rs1) s = .next t ∧ sdt t.cfg t.hart = false
            ∧ sie t.hart = (sie s.hart && !bit (readReg s.cfg s.hart rs1) 1))
      ∧ (csrAccess s.cfg s.hart 0x300#12 true = .granted → rs1 ≠ 0 →
          ∃ t, exec (.csrrc rd 0x300#12 rs1) s = .next t
            ∧ statusCombined s.cfg (fun b c => b && !c) (readReg s.cfg s.hart rs1) s.hart t.hart)

/-- R123: `CSRRWI`: always a write. Corner case: on `mstatus` it clears `SDT` and, on RV64, `MDT`, and takes `SIE` and `MIE` from the immediate. That the exception of a failed check has `tinst` 0 is the model's choice (assumption log 29). -/
def Obligations.Csrrwi : Prop :=
  ∀ (s : State) (rd uimm : Nat) (a : CsrAddr), rd < 32 → uimm < 32 →
    csrEffect (.csrrwi rd a uimm) rd a true (fun _ => BitVec.ofNat 64 uimm) s
      ∧ csrTurnedAway (.csrrwi rd a uimm) a true s
      ∧ (csrAccess s.cfg s.hart 0x300#12 true = .granted → s.cfg.xlen = .rv64 →
          ∃ t, exec (.csrrwi rd 0x300#12 uimm) s = .next t
            ∧ sdt t.cfg t.hart = false ∧ mdt t.cfg t.hart = false
            ∧ sie t.hart = uimm.testBit 1 ∧ mie t.hart = uimm.testBit 3)

/-- R124: `CSRRSI`: the test is on the immediate field. Corner cases: `MIE` while `MDT` = 1, and `SIE` through `sstatus` while the applicable `SDT` = 1. That the exception of a failed check has `tinst` 0 is the model's choice (assumption log 29). R127: what a set or clear form leaves in `mstatus` where its mask does not touch a field is the old value (that a plain field stores what is written is assumption log 7, a legal `MPP` log 8). -/
def Obligations.Csrrsi : Prop :=
  ∀ (s : State) (rd uimm : Nat) (a : CsrAddr), rd < 32 → uimm < 32 →
    csrEffect (.csrrsi rd a uimm) rd a (uimm != 0) (fun t => t ||| BitVec.ofNat 64 uimm) s
      ∧ csrTurnedAway (.csrrsi rd a uimm) a (uimm != 0) s
      ∧ (csrAccess s.cfg s.hart 0x300#12 true = .granted → uimm ≠ 0 → mdt s.cfg s.hart = true →
          ∃ t, exec (.csrrsi rd 0x300#12 uimm) s = .next t ∧ mdt t.cfg t.hart = true ∧ mie t.hart = false)
      ∧ (csrAccess s.cfg s.hart 0x100#12 true = .granted → uimm ≠ 0 → s.hart.virt = false → sdt s.cfg s.hart = true →
          ∃ t, exec (.csrrsi rd 0x100#12 uimm) s = .next t ∧ sdt t.cfg t.hart = true ∧ sie t.hart = false)
      ∧ (csrAccess s.cfg s.hart 0x100#12 true = .granted → uimm ≠ 0 →
          s.hart.virt = true → vsSdt s.cfg s.hart = true →
          ∃ t, exec (.csrrsi rd 0x100#12 uimm) s = .next t ∧ vsSdt t.cfg t.hart = true ∧ vsSie t.hart = false)
      ∧ (csrAccess s.cfg s.hart 0x300#12 true = .granted → uimm ≠ 0 →
          ∃ t, exec (.csrrsi rd 0x300#12 uimm) s = .next t
            ∧ statusCombined s.cfg (fun b c => b || c) (BitVec.ofNat 64 uimm) s.hart t.hart)

/-- R125: `CSRRCI`. Corner cases: it can clear `SIE` and `MIE`, and at no CSR address changes an `SDT`, `MDT` or `DTE`. That the exception of a failed check has `tinst` 0 is the model's choice (assumption log 29). R127: what a set or clear form leaves in `mstatus` where its mask does not touch a field is the old value (that a plain field stores what is written is assumption log 7, a legal `MPP` log 8). -/
def Obligations.Csrrci : Prop :=
  ∀ (s : State) (rd uimm : Nat) (a : CsrAddr), rd < 32 → uimm < 32 →
    csrEffect (.csrrci rd a uimm) rd a (uimm != 0) (fun t => t &&& ~~~(BitVec.ofNat 64 uimm)) s
      ∧ csrTurnedAway (.csrrci rd a uimm) a (uimm != 0) s
      ∧ (csrAccess s.cfg s.hart 0x300#12 true = .granted → uimm ≠ 0 →
          ∃ t, exec (.csrrci rd 0x300#12 uimm) s = .next t
            ∧ sdt t.cfg t.hart = sdt s.cfg s.hart ∧ mdt t.cfg t.hart = mdt s.cfg s.hart
            ∧ (uimm.testBit 1 = true → sie t.hart = false) ∧ (uimm.testBit 3 = true → mie t.hart = false))
      ∧ (csrAccess s.cfg s.hart a (uimm != 0) = .granted →
          ∃ t, exec (.csrrci rd a uimm) s = .next t
            ∧ sdt t.cfg t.hart = sdt s.cfg s.hart ∧ vsSdt t.cfg t.hart = vsSdt s.cfg s.hart
            ∧ mdt t.cfg t.hart = mdt s.cfg s.hart
            ∧ ssActive t.cfg t.hart = ssActive s.cfg s.hart ∧ ssActiveVS t.cfg t.hart = ssActiveVS s.cfg s.hart)
      ∧ (csrAccess s.cfg s.hart 0x300#12 true = .granted → uimm ≠ 0 →
          ∃ t, exec (.csrrci rd 0x300#12 uimm) s = .next t
            ∧ statusCombined s.cfg (fun b c => b && !c) (BitVec.ofNat 64 uimm) s.hart t.hart)

/-- R138 with R27 and R108: the check, in its order, the levels it compares, and four of the CSRs that only some configurations have. The level 2 of HS-mode and the exclusion of `dcsr` and `dpc` are DEDUCED (assumption log 11). -/
def Obligations.CsrAccessCheck : Prop :=
  ∀ (cfg : Config) (h : Hart) (a : CsrAddr) (writes : Bool),
    (csrExists cfg a = false → csrAccess cfg h a writes = .illegal)
      ∧ (csrExists cfg a = true → h.run ≠ .debugMode →
          (accessLevel cfg h < requiredLevel a ∨ a = 0x7B0#12 ∨ a = 0x7B1#12) →
          csrAccess cfg h a writes
            = if h.virt = true ∧ requiredLevel a = 2 then .virtualInstruction else .illegal)
      ∧ (csrExists cfg a = true →
          (h.run = .debugMode ∨ (requiredLevel a ≤ accessLevel cfg h ∧ a ≠ 0x7B0#12 ∧ a ≠ 0x7B1#12)) →
          csrAccess cfg h a writes
            = if writes = true ∧ a.extractLsb' 10 2 = 0x3#2 then .illegal else .granted)
      ∧ requiredLevel a = (a.extractLsb' 8 2).toNat
      ∧ (h.priv = .m → accessLevel cfg h = 3)
      ∧ (h.priv = .s → accessLevel cfg h = if cfg.hasH = true ∧ h.virt = false then 2 else 1)
      ∧ (h.priv = .u → accessLevel cfg h = 0)
      ∧ (csrExists cfg 0x310#12 = true ↔ cfg.xlen = .rv32)
      ∧ (csrExists cfg 0x34B#12 = true ↔ cfg.hasH = true ∨ cfg.hasSsdbltrp = true)
      ∧ (csrExists cfg 0x744#12 = true ↔ cfg.hasSmrnmi = true)
      ∧ (csrExists cfg 0x200#12 = true ↔ cfg.hasH = true)

/-- R126 (with R35, R38 and R40): what a CSR read returns: the fields of the extensions, the stored trap registers, and of `sstatus` nothing outside its view; with `V` = 1 the `s` addresses read the `vs` registers. Every other bit of every CSR of R27's table reads as it is stored (R44, R45), but for `SD`, which is 1 exactly if `FS`, `VS` or `XS` is 3 (PRESUMED, assumption log 7). -/
def Obligations.CsrReads : Prop :=
  ∀ s : State,
    let c := s.cfg
    let h := s.hart
    let guest := h.virt = true
    let dirty := fun w : Word => field2 w 13 = 0x3#2 ∨ field2 w 9 = 0x3#2 ∨ field2 w 15 = 0x3#2
    bit (csrRead s 0x300#12) 24 = sdt c h
      ∧ (¬guest → bit (csrRead s 0x100#12) 24 = sdt c h
          ∧ (∀ j ∈ [1, 5, 6, 8, 9, 10, 13, 14, 15, 16, 18, 19], bit (csrRead s 0x100#12) j = bit h.m.status j)
          ∧ (∀ j, j ∉ [1, 5, 6, 8, 9, 10, 13, 14, 15, 16, 18, 19, 24, 32, 33, xlenBits c - 1] →
              bit (csrRead s 0x100#12) j = false)
          ∧ csrRead s 0x105#12 = trunc c h.s.tvec ∧ csrRead s 0x141#12 = trunc c h.s.epc
          ∧ csrRead s 0x142#12 = trunc c h.s.cause ∧ csrRead s 0x143#12 = trunc c h.s.tval)
      ∧ (guest → csrRead s 0x100#12 = csrRead s 0x200#12 ∧ bit (csrRead s 0x100#12) 24 = vsSdt c h
          ∧ csrRead s 0x105#12 = trunc c h.vs.tvec ∧ csrRead s 0x141#12 = trunc c h.vs.epc
          ∧ csrRead s 0x142#12 = trunc c h.vs.cause ∧ csrRead s 0x143#12 = trunc c h.vs.tval)
      ∧ csrRead s 0x205#12 = trunc c h.vs.tvec ∧ csrRead s 0x241#12 = trunc c h.vs.epc
      ∧ csrRead s 0x242#12 = trunc c h.vs.cause ∧ csrRead s 0x243#12 = trunc c h.vs.tval
      ∧ csrRead s 0x305#12 = trunc c h.m.tvec ∧ csrRead s 0x341#12 = trunc c h.m.epc
      ∧ csrRead s 0x343#12 = trunc c h.m.tval ∧ csrRead s 0x34A#12 = trunc c h.m.tinst
      ∧ csrRead s 0x643#12 = trunc c h.hs.tval ∧ csrRead s 0x64A#12 = trunc c h.hs.tinst
      ∧ bit (csrRead s 0x200#12) 24 = vsSdt c h
      ∧ (ssActive c h = false → sdt c h = false) ∧ (ssActiveVS c h = false → vsSdt c h = false)
      ∧ (c.xlen = .rv64 → bit (csrRead s 0x300#12) 45 = mdt c h
          ∧ bit (csrRead s 0x30A#12) 59 = ssActive c h ∧ bit (csrRead s 0x60A#12) 59 = ssActiveVS c h)
      ∧ (c.xlen = .rv32 → bit (csrRead s 0x310#12) 13 = mdt c h
          ∧ bit (csrRead s 0x31A#12) 27 = ssActive c h ∧ bit (csrRead s 0x61A#12) 27 = ssActiveVS c h)
      ∧ (c.hasSmdbltrp = false → mdt c h = false)
      ∧ bit (csrRead s 0x302#12) 16 = false ∧ bit (csrRead s 0x602#12) 16 = false
      ∧ csrRead s 0x342#12 = trunc c h.m.cause ∧ csrRead s 0x34B#12 = trunc c h.m.tval2
      ∧ csrRead s 0x741#12 = trunc c h.nm.epc ∧ csrRead s 0x742#12 = trunc c h.nm.cause
      ∧ csrRead s 0x744#12 = trunc c h.nm.status ∧ csrRead s 0x7B1#12 = trunc c h.dbg.dpc
      ∧ bit (csrRead s 0x7B0#12) 19 = pcerr c h
      ∧ (∀ j, 32 ≤ j → bit (csrRead s 0x7B0#12) j = false)
      ∧ (∀ j, j < xlenBits c → j ∉ [24, 45, xlenBits c - 1] → bit (csrRead s 0x300#12) j = bit h.m.status j)
      ∧ (∀ j, j < xlenBits c → j ∉ [24, xlenBits c - 1] → bit (csrRead s 0x200#12) j = bit h.vs.status j)
      ∧ (¬guest → c.xlen = .rv64 → ∀ j ∈ [32, 33], bit (csrRead s 0x100#12) j = bit h.m.status j)
      ∧ (bit (csrRead s 0x300#12) (xlenBits c - 1) = true ↔ dirty h.m.status)
      ∧ (bit (csrRead s 0x200#12) (xlenBits c - 1) = true ↔ dirty h.vs.status)
      ∧ (¬guest → (bit (csrRead s 0x100#12) (xlenBits c - 1) = true ↔ dirty h.m.status))
      ∧ (∀ j, j < xlenBits c → j ≠ 59 → bit (csrRead s 0x30A#12) j = bit h.m.envcfg j
          ∧ bit (csrRead s 0x60A#12) j = bit h.hs.envcfg j)
      ∧ (∀ j, j < xlenBits c → j ≠ 16 → bit (csrRead s 0x302#12) j = bit h.m.edeleg j
          ∧ bit (csrRead s 0x602#12) j = bit h.hs.edeleg j)
      ∧ (c.xlen = .rv32 → ∀ j, j < 32 → (j ≠ 13 → bit (csrRead s 0x310#12) j = bit h.m.status (32 + j))
          ∧ (j ≠ 27 → bit (csrRead s 0x31A#12) j = bit h.m.envcfg (32 + j)
              ∧ bit (csrRead s 0x61A#12) j = bit h.hs.envcfg (32 + j))
          ∧ bit (csrRead s 0x312#12) j = bit h.m.edeleg (32 + j)
          ∧ bit (csrRead s 0x612#12) j = bit h.hs.edeleg (32 + j))
      ∧ csrRead s 0x303#12 = trunc c h.m.ideleg ∧ csrRead s 0x603#12 = trunc c h.hs.ideleg
      ∧ csrRead s 0x740#12 = trunc c h.nm.scratch ∧ csrRead s 0x600#12 = trunc c h.hs.status
      ∧ (∀ j, j < 32 → j ≠ 19 → bit (csrRead s 0x7B0#12) j = h.dbg.dcsr.getLsbD j)
      ∧ ∀ a, trunc c (csrRead s a) = csrRead s a

/-- R128: an explicit write of `v` to `mstatus` on RV64. -/
def Obligations.WriteMstatusRv64 : Prop :=
  ∀ (s : State) (v : Word), s.cfg.xlen = .rv64 →
    let h' := csrWrite s 0x300#12 v
    let sdt' := ssActive s.cfg s.hart && bit v 24
    let mdt' := s.cfg.hasSmdbltrp && bit v 45
    bit h'.m.status 24 = sdt' ∧ bit h'.m.status 1 = (!sdt' && bit v 1)
      ∧ bit h'.m.status 45 = mdt' ∧ bit h'.m.status 3 = (!mdt' && bit v 3)
      ∧ h' = { s.hart with m := { s.hart.m with status := h'.m.status } }

/-- R129, R132: the two registers of RV32: a write to `mstatus` sets `MIE` only while `MDT` is 0, and a write to `mstatush` that leaves `MDT` 1 clears `MIE` across registers; but for that, a write to one keeps the other. -/
def Obligations.WriteMstatusRv32 : Prop :=
  ∀ (s : State) (v : Word), s.cfg.xlen = .rv32 →
    let h' := csrWrite s 0x300#12 v
    let h'' := csrWrite s 0x310#12 v
    let sdt' := ssActive s.cfg s.hart && bit v 24
    let mdt' := s.cfg.hasSmdbltrp && bit v 13
    bit h'.m.status 24 = sdt' ∧ bit h'.m.status 1 = (!sdt' && bit v 1)
      ∧ bit h'.m.status 3 = (!mdt s.cfg s.hart && bit v 3)
      ∧ bit h'.m.status 45 = bit s.hart.m.status 45
      ∧ (∀ j, 32 ≤ j → bit h'.m.status j = bit s.hart.m.status j)
      ∧ h' = { s.hart with m := { s.hart.m with status := h'.m.status } }
      ∧ bit h''.m.status 45 = mdt' ∧ bit h''.m.status 3 = (!mdt' && mie s.hart)
      ∧ (∀ j, j < 32 → j ≠ 3 → bit h''.m.status j = bit s.hart.m.status j)
      ∧ h'' = { s.hart with m := { s.hart.m with status := h''.m.status } }

/-- R130: an explicit write of `v` to `sstatus`: with `V` = 1 it is a write to `vsstatus`; with `V` = 0 no field that `sstatus` does not show changes, `MIE` and `MDT` among them. -/
def Obligations.WriteSstatus : Prop :=
  ∀ (s : State) (v : Word),
    (s.hart.virt = true → csrWrite s 0x100#12 v = csrWrite s 0x200#12 v)
      ∧ (s.hart.virt = false →
          let h' := csrWrite s 0x100#12 v
          let sdt' := ssActive s.cfg s.hart && bit v 24
          bit h'.m.status 24 = sdt' ∧ bit h'.m.status 1 = (!sdt' && bit v 1)
            ∧ bitsKept [1, 5, 6, 8, 9, 10, 13, 14, 15, 16, 18, 19, 24, 32, 33] s.hart.m.status h'.m.status
            ∧ mdt s.cfg h' = mdt s.cfg s.hart ∧ mie h' = mie s.hart
            ∧ h' = { s.hart with m := { s.hart.m with status := h'.m.status } })

/-- R131: an explicit write of `v` to `vsstatus`, by its own address or from VS-mode as `sstatus`. -/
def Obligations.WriteVsstatus : Prop :=
  ∀ (s : State) (v : Word) (a : CsrAddr), (a = 0x200#12 ∨ (a = 0x100#12 ∧ s.hart.virt = true)) →
    let h' := csrWrite s a v
    let active := s.cfg.hasSsdbltrp && s.cfg.hasH && bit s.hart.m.envcfg 59 && bit s.hart.hs.envcfg 59
    let sdt' := active && bit v 24
    bit h'.vs.status 24 = sdt' ∧ bit h'.vs.status 1 = (!sdt' && bit v 1)
      ∧ h' = { s.hart with vs := { s.hart.vs with status := h'.vs.status } }

/-- R133, R134: an explicit write of `v` that covers `menvcfg.DTE` or `henvcfg.DTE`, on RV64 and on RV32, where the half that is not written is kept. -/
def Obligations.WriteDte : Prop :=
  ∀ (s : State) (v : Word),
    let c := s.cfg
    let h := s.hart
    (∀ (a : CsrAddr) (b : Nat), ((c.xlen = .rv64 ∧ a = 0x30A#12 ∧ b = 59) ∨ (c.xlen = .rv32 ∧ a = 0x31A#12 ∧ b = 27)) →
        let h' := csrWrite s a v
        let dte' := c.hasSsdbltrp && bit v b
        bit h'.m.envcfg 59 = dte' ∧ sie h' = sie h ∧ vsSie h' = vsSie h
          ∧ (dte' = false → bit h'.m.status 24 = false ∧ bit h'.hs.envcfg 59 = false ∧ bit h'.vs.status 24 = false
              ∧ bitsKept [24] h.m.status h'.m.status ∧ bitsKept [59] h.hs.envcfg h'.hs.envcfg
              ∧ bitsKept [24] h.vs.status h'.vs.status
              ∧ h' = { h with m := { h.m with envcfg := h'.m.envcfg, status := h'.m.status }
                              hs := { h.hs with envcfg := h'.hs.envcfg }
                              vs := { h.vs with status := h'.vs.status } })
          ∧ (dte' = true → h' = { h with m := { h.m with envcfg := h'.m.envcfg } })
          ∧ (c.xlen = .rv32 → ∀ j, j < 32 → bit h'.m.envcfg j = bit h.m.envcfg j))
      ∧ (c.xlen = .rv32 →
          let h' := csrWrite s 0x30A#12 v
          (∀ j, 32 ≤ j → bit h'.m.envcfg j = bit h.m.envcfg j)
            ∧ h' = { h with m := { h.m with envcfg := h'.m.envcfg } })
      ∧ (∀ (a : CsrAddr) (b : Nat), ((c.xlen = .rv64 ∧ a = 0x60A#12 ∧ b = 59) ∨ (c.xlen = .rv32 ∧ a = 0x61A#12 ∧ b = 27)) →
          let h' := csrWrite s a v
          let hdte' := c.hasSsdbltrp && c.hasH && bit h.m.envcfg 59 && bit v b
          bit h'.hs.envcfg 59 = hdte'
            ∧ (hdte' = false → bit h'.vs.status 24 = false ∧ bitsKept [24] h.vs.status h'.vs.status)
            ∧ (hdte' = true → h'.vs = h.vs)
            ∧ (c.xlen = .rv32 → ∀ j, j < 32 → bit h'.hs.envcfg j = bit h.hs.envcfg j)
            ∧ h' = { h with hs := { h.hs with envcfg := h'.hs.envcfg }, vs := { h.vs with status := h'.vs.status } })
      ∧ (c.xlen = .rv32 →
          let h' := csrWrite s 0x60A#12 v
          (∀ j, 32 ≤ j → bit h'.hs.envcfg j = bit h.hs.envcfg j)
            ∧ h' = { h with hs := { h.hs with envcfg := h'.hs.envcfg } })

/-- R37, R43, R135: bit 16 of `medeleg` and of `hedeleg` reads 0 and stays 0 under every explicit write, in every configuration, and the write does nothing to another register; on RV32 it keeps the half in `medelegh` or `hedelegh`, as a write there keeps the low half. -/
def Obligations.DelegationOfDoubleTrap : Prop :=
  ∀ (s : State) (v : Word),
    let h' := csrWrite s 0x302#12 v
    let h'' := csrWrite s 0x602#12 v
    bit h'.m.edeleg 16 = false ∧ h' = { s.hart with m := { s.hart.m with edeleg := h'.m.edeleg } }
      ∧ bit h''.hs.edeleg 16 = false ∧ h'' = { s.hart with hs := { s.hart.hs with edeleg := h''.hs.edeleg } }
      ∧ bit (csrRead s 0x302#12) 16 = false ∧ bit (csrRead s 0x602#12) 16 = false
      ∧ (s.cfg.xlen = .rv32 →
          let g := csrWrite s 0x312#12 v
          let g' := csrWrite s 0x612#12 v
          (∀ j, 32 ≤ j → bit h'.m.edeleg j = bit s.hart.m.edeleg j)
            ∧ (∀ j, 32 ≤ j → bit h''.hs.edeleg j = bit s.hart.hs.edeleg j)
            ∧ (∀ j, j < 32 → bit g.m.edeleg j = bit s.hart.m.edeleg j)
            ∧ g = { s.hart with m := { s.hart.m with edeleg := g.m.edeleg } }
            ∧ (∀ j, j < 32 → bit g'.hs.edeleg j = bit s.hart.hs.edeleg j)
            ∧ g' = { s.hart with hs := { s.hart.hs with edeleg := g'.hs.edeleg } })
      ∧ ∀ t : TrapRequest, t.intr = false → t.code = 16#64 → dest s.cfg s.hart t.intr t.code = .m

/-- R136, R137 with the WARL choices of assumption logs 7, 8 and 12: `pcerr` keeps its value, `NMIE` can be set and not cleared, a legal `MPP` is stored, the trap registers and the interrupt delegation registers hold what is written (the address registers as an instruction address), of `hstatus` and `mstatush` only the named fields change, and nothing else changes; with `V` = 1 the `s` addresses write the `vs` registers. The other named fields of `mstatus`, `sstatus`, `vsstatus`, `menvcfg`, `henvcfg`, `mnstatus` and `dcsr` store what is written, and their unnamed bits stay (assumption log 7); a legal `MNPP` or `prv` is stored (assumption log 8), and `dcsr.v` = 1 only with H and beside a `prv` below M (assumption log 18). -/
def Obligations.PlainCsrWrites : Prop :=
  ∀ (s : State) (v : Word),
    let h := s.hart
    let w := trunc s.cfg v
    let guest := h.virt = true
    bit (csrRead { s with hart := csrWrite s 0x7B0#12 v } 0x7B0#12) 19 = pcerr s.cfg h
      ∧ csrWrite s 0x7B0#12 v = { h with dbg := { h.dbg with dcsr := (csrWrite s 0x7B0#12 v).dbg.dcsr } }
      ∧ csrWrite s 0x7B1#12 v = { h with dbg := { h.dbg with dpc := alignPc s.cfg w } }
      ∧ nmie (csrWrite s 0x744#12 v) = (nmie h || bit v 3)
      ∧ csrWrite s 0x744#12 v = { h with nm := { h.nm with status := (csrWrite s 0x744#12 v).nm.status } }
      ∧ (legalPrivilege s.cfg (field2 v 11) = true → mpp (csrWrite s 0x300#12 v) = field2 v 11)
      ∧ bitsKept [3, 36, 37, 38, 39, 45] h.m.status (csrWrite s 0x310#12 v).m.status
      ∧ csrWrite s 0x305#12 v = { h with m := { h.m with tvec := w } }
      ∧ csrWrite s 0x303#12 v = { h with m := { h.m with ideleg := w } }
      ∧ csrWrite s 0x342#12 v = { h with m := { h.m with cause := w } }
      ∧ csrWrite s 0x34B#12 v = { h with m := { h.m with tval2 := w } }
      ∧ csrWrite s 0x34A#12 v = { h with m := { h.m with tinst := w } }
      ∧ csrWrite s 0x343#12 v = { h with m := { h.m with tval := w } }
      ∧ csrWrite s 0x341#12 v = { h with m := { h.m with epc := alignPc s.cfg w } }
      ∧ csrWrite s 0x742#12 v = { h with nm := { h.nm with cause := w } }
      ∧ csrWrite s 0x741#12 v = { h with nm := { h.nm with epc := alignPc s.cfg w } }
      ∧ csrWrite s 0x740#12 v = { h with nm := { h.nm with scratch := w } }
      ∧ (¬guest → csrWrite s 0x105#12 v = { h with s := { h.s with tvec := w } }
          ∧ csrWrite s 0x141#12 v = { h with s := { h.s with epc := alignPc s.cfg w } }
          ∧ csrWrite s 0x142#12 v = { h with s := { h.s with cause := w } }
          ∧ csrWrite s 0x143#12 v = { h with s := { h.s with tval := w } })
      ∧ (guest → csrWrite s 0x105#12 v = csrWrite s 0x205#12 v ∧ csrWrite s 0x141#12 v = csrWrite s 0x241#12 v
          ∧ csrWrite s 0x142#12 v = csrWrite s 0x242#12 v ∧ csrWrite s 0x143#12 v = csrWrite s 0x243#12 v)
      ∧ csrWrite s 0x205#12 v = { h with vs := { h.vs with tvec := w } }
      ∧ csrWrite s 0x241#12 v = { h with vs := { h.vs with epc := alignPc s.cfg w } }
      ∧ csrWrite s 0x242#12 v = { h with vs := { h.vs with cause := w } }
      ∧ csrWrite s 0x243#12 v = { h with vs := { h.vs with tval := w } }
      ∧ csrWrite s 0x603#12 v = { h with hs := { h.hs with ideleg := w } }
      ∧ csrWrite s 0x643#12 v = { h with hs := { h.hs with tval := w } }
      ∧ csrWrite s 0x64A#12 v = { h with hs := { h.hs with tinst := w } }
      ∧ (∀ j ∈ [6, 7, 8, 22], bit (csrWrite s 0x600#12 v).hs.status j = bit v j)
      ∧ bitsKept [6, 7, 8, 22] h.hs.status (csrWrite s 0x600#12 v).hs.status
      ∧ csrWrite s 0x600#12 v = { h with hs := { h.hs with status := (csrWrite s 0x600#12 v).hs.status } }
      ∧ bitsStored [5, 6, 7, 8, 9, 10, 13, 14, 17, 18, 19, 20, 21, 22] v (csrWrite s 0x300#12 v).m.status
      ∧ (s.cfg.xlen = .rv64 → bitsStored [36, 37, 38, 39] v (csrWrite s 0x300#12 v).m.status)
      ∧ (s.cfg.xlen = .rv32 → bitsStored [36, 37, 38, 39] (v <<< 32) (csrWrite s 0x310#12 v).m.status)
      ∧ bitsKept [1, 3, 5, 6, 7, 8, 9, 10, 11, 12, 13, 14, 17, 18, 19, 20, 21, 22, 24, 36, 37, 38, 39, 45]
          h.m.status (csrWrite s 0x300#12 v).m.status
      ∧ (¬guest → bitsStored [5, 6, 8, 9, 10, 13, 14, 18, 19] v (csrWrite s 0x100#12 v).m.status)
      ∧ bitsStored [5, 6, 8, 9, 10, 13, 14, 18, 19] v (csrWrite s 0x200#12 v).vs.status
      ∧ bitsKept [1, 5, 6, 8, 9, 10, 13, 14, 18, 19, 24] h.vs.status (csrWrite s 0x200#12 v).vs.status
      ∧ bitsStored [0, 4, 5, 6, 7] v (csrWrite s 0x30A#12 v).m.envcfg
      ∧ bitsStored [0, 4, 5, 6, 7] v (csrWrite s 0x60A#12 v).hs.envcfg
      ∧ (s.cfg.xlen = .rv64 → bitsStored [61, 62, 63] v (csrWrite s 0x30A#12 v).m.envcfg
          ∧ bitsStored [61, 62, 63] v (csrWrite s 0x60A#12 v).hs.envcfg)
      ∧ (s.cfg.xlen = .rv32 → bitsStored [61, 62, 63] (v <<< 32) (csrWrite s 0x31A#12 v).m.envcfg
          ∧ bitsStored [61, 62, 63] (v <<< 32) (csrWrite s 0x61A#12 v).hs.envcfg)
      ∧ bitsKept [0, 4, 5, 6, 7, 59, 61, 62, 63] h.m.envcfg (csrWrite s 0x30A#12 v).m.envcfg
      ∧ bitsKept [0, 4, 5, 6, 7, 59, 61, 62, 63] h.hs.envcfg (csrWrite s 0x60A#12 v).hs.envcfg
      ∧ mnpv (csrWrite s 0x744#12 v) = bit v 7
      ∧ (legalPrivilege s.cfg (field2 v 11) = true → mnpp (csrWrite s 0x744#12 v) = field2 v 11)
      ∧ bitsKept [3, 7, 11, 12] h.nm.status (csrWrite s 0x744#12 v).nm.status
      ∧ (∀ j ∈ [2, 4, 9, 10, 11, 12, 13, 15, 16, 17], (csrWrite s 0x7B0#12 v).dbg.dcsr.getLsbD j = bit v j)
      ∧ (legalPrivilege s.cfg (field2 v 0) = true → dcsrPrv (csrWrite s 0x7B0#12 v) = field2 v 0)
      ∧ dcsrV (csrWrite s 0x7B0#12 v)
          = (s.cfg.hasH && bit v 5 && Priv.ofCode (dcsrPrv (csrWrite s 0x7B0#12 v)) != .m)
      ∧ dcsrKept [0, 1, 2, 4, 5, 9, 10, 11, 12, 13, 15, 16, 17] h (csrWrite s 0x7B0#12 v)

/-! ### Taking a trap -/

/-- R173: the destination of a trap, and that a trap never goes to a less privileged mode. -/
def Obligations.TrapDestination : Prop :=
  ∀ (cfg : Config) (h : Hart) (t : TrapRequest),
    let n := t.code.toNat
    let dm := if t.intr then bit h.m.ideleg n else bit h.m.edeleg n && n != 16
    let dh := cfg.hasH && (if t.intr then bit h.hs.ideleg n else bit h.hs.edeleg n && n != 16)
    (dest cfg h t.intr t.code = .m ↔ h.priv = .m ∨ dm = false ∨ cfg.hasS = false)
      ∧ (dest cfg h t.intr t.code = .vs ↔
          h.priv ≠ .m ∧ dm = true ∧ cfg.hasS = true ∧ h.virt = true ∧ dh = true)
      ∧ modeRank h ≤ modeRank (takeTrap cfg t h)

/-- R178: the handler address where MODE is 0 or 1, and of every exception. (An interrupt under a reserved MODE is free: assumption log 9.) -/
def Obligations.HandlerAddress : Prop :=
  ∀ (cfg : Config) (tvec code : Word) (intr : Bool),
    ((field2 tvec 0 = 0x0#2 ∨ field2 tvec 0 = 0x1#2 ∨ intr = false) →
        vector cfg tvec intr code
          = trunc cfg (((tvec >>> 2) <<< 2) + (if field2 tvec 0 = 0x1#2 ∧ intr = true then 4#64 * code else 0#64)))
      ∧ bit (vector cfg tvec intr code) 0 = false ∧ bit (vector cfg tvec intr code) 1 = false

/-- R179 (with R175, R176): a trap whose destination is S/HS-mode and that finds `SDT` 0 is delivered there and sets it; `x` registers and all else are left. -/
def Obligations.TrapIntoHs : Prop :=
  ∀ (cfg : Config) (h : Hart) (t : TrapRequest),
    dest cfg h t.intr t.code = .hs → sdt cfg h = false →
    let h' := takeTrap cfg t h
    h'.s = { h.s with epc := t.epc, cause := mcauseOf cfg t.intr t.code, tval := t.tval }
      ∧ (cfg.hasH = true →
          h'.hs = { h.hs with tval := t.tval2, tinst := t.tinst, status := h'.hs.status }
            ∧ hGva h' = t.gva ∧ spv h' = h.virt
            ∧ spvp h' = (if h.virt = true then decide (h.priv = .s) else spvp h)
            ∧ bitsKept [6, 7, 8] h.hs.status h'.hs.status)
      ∧ (cfg.hasH = false → h'.hs = h.hs)
      ∧ spp h' = decide (h.priv = .s) ∧ spie h' = sie h ∧ sie h' = false
      ∧ bit h'.m.status 24 = (ssActive cfg h || bit h.m.status 24)
      ∧ bitsKept [1, 5, 8, 24] h.m.status h'.m.status
      ∧ h'.priv = .s ∧ h'.virt = false ∧ h'.pc = vector cfg h.s.tvec t.intr t.code
      ∧ h' = { h with s := h'.s, hs := h'.hs, m := { h.m with status := h'.m.status }
                      priv := h'.priv, virt := h'.virt, pc := h'.pc }

/-- R180 (with R175, R177): a trap whose destination is VS-mode and that finds `vsstatus.SDT` 0 is delivered there and sets it; `mstatus` is left. -/
def Obligations.TrapIntoVs : Prop :=
  ∀ (cfg : Config) (h : Hart) (t : TrapRequest),
    dest cfg h t.intr t.code = .vs → vsSdt cfg h = false →
    let h' := takeTrap cfg t h
    let code' := if t.intr = true ∧ (t.code = 2#64 ∨ t.code = 6#64 ∨ t.code = 10#64) then t.code - 1#64 else t.code
    h'.vs = { h.vs with epc := t.epc, tval := t.tval, cause := mcauseOf cfg t.intr code', status := h'.vs.status }
      ∧ vsSpp h' = decide (h.priv = .s) ∧ vsSpie h' = vsSie h ∧ vsSie h' = false
      ∧ bit h'.vs.status 24 = (ssActiveVS cfg h || bit h.vs.status 24)
      ∧ bitsKept [1, 5, 8, 24] h.vs.status h'.vs.status
      ∧ h'.priv = .s ∧ h'.virt = true ∧ h.virt = true ∧ h'.pc = vector cfg h.vs.tvec t.intr code'
      ∧ h' = { h with vs := h'.vs, priv := h'.priv, pc := h'.pc }

/-- R181 (with R190 and R171): a trap whose destination is M-mode and that meets no critical error condition is delivered there and sets `MDT`; `mcause` holds the `Interrupt` bit at `XLEN`-1 and the code below it (a code is `XLEN`-1 bits wide, R38; one that reaches bit `XLEN`-1 is joined to it by R171's `|`). -/
def Obligations.TrapIntoM : Prop :=
  ∀ (cfg : Config) (h : Hart) (t : TrapRequest),
    dest cfg h t.intr t.code = .m →
    (cfg.hasSmdbltrp = true →
      bit h.m.status 45 = false ∧ ¬(cfg.hasSmrnmi = true ∧ nmie h = false ∧ h.priv = .m ∧ t.intr = false)) →
    alignPc cfg cfg.rnmiExcHandler = cfg.rnmiExcHandler →
    let h' := takeTrap cfg t h
    h'.m.epc = t.epc ∧ h'.m.cause = mcauseOf cfg t.intr t.code ∧ h'.m.tval = t.tval
      ∧ (∀ j, bit h'.m.cause j = if j = xlenBits cfg - 1 then t.intr || bit t.code j
              else decide (j < xlenBits cfg - 1) && bit t.code j)
      ∧ h'.m.tval2 = (if cfg.hasH = true ∨ cfg.hasSsdbltrp = true then t.tval2 else h.m.tval2)
      ∧ h'.m.tinst = (if cfg.hasH = true then t.tinst else h.m.tinst)
      ∧ gva h' = (if cfg.hasH = true then t.gva else gva h) ∧ mpv h' = (if cfg.hasH = true then h.virt else mpv h)
      ∧ mpp h' = h.priv.code ∧ mpie h' = mie h ∧ mie h' = false
      ∧ bit h'.m.status 45 = (cfg.hasSmdbltrp || bit h.m.status 45)
      ∧ bitsKept [3, 7, 11, 12, 38, 39, 45] h.m.status h'.m.status
      ∧ h'.priv = .m ∧ h'.virt = false
      ∧ h'.pc = (if cfg.hasSmrnmi = true ∧ nmie h = false ∧ h.priv = .m ∧ t.intr = false then cfg.rnmiExcHandler
                 else vector cfg h.m.tvec t.intr t.code)
      ∧ h' = { h with priv := h'.priv, virt := h'.virt, pc := h'.pc
                      m := { h.m with epc := h'.m.epc, cause := h'.m.cause, tval := h'.m.tval, tval2 := h'.m.tval2
                                      tinst := h'.m.tinst, status := h'.m.status } }

/-- R182, R183 (with R176, R177): a trap that finds its destination's `SDT` 1 is delivered into M-mode as a double trap, and the S-level and VS-level state it would have overwritten is kept. A pending interrupt stays pending. -/
def Obligations.DoubleTrapDelivery : Prop :=
  ∀ (cfg : Config) (h : Hart) (t : TrapRequest), doubleTrap cfg t h → mdt cfg h = false →
    let h' := takeTrap cfg t h
    h'.m.epc = t.epc ∧ h'.m.cause = 16#64 ∧ h'.m.tval = t.tval ∧ h'.m.tval2 = mcauseOf cfg t.intr t.code
      ∧ h'.m.tinst = (if cfg.hasH = true then t.tinst else h.m.tinst)
      ∧ gva h' = (if cfg.hasH = true then t.gva else gva h) ∧ mpv h' = (if cfg.hasH = true then h.virt else mpv h)
      ∧ mpp h' = h.priv.code ∧ mpie h' = mie h ∧ mie h' = false
      ∧ bit h'.m.status 45 = (cfg.hasSmdbltrp || bit h.m.status 45)
      ∧ bitsKept [3, 7, 11, 12, 38, 39, 45] h.m.status h'.m.status
      ∧ h'.priv = .m ∧ h'.virt = false ∧ h'.pc = trunc cfg ((h.m.tvec >>> 2) <<< 2)
      ∧ h'.s = h.s ∧ h'.vs = h.vs ∧ h'.hs = h.hs ∧ h'.irq = h.irq
      ∧ h' = { h with priv := h'.priv, virt := h'.virt, pc := h'.pc
                      m := { h.m with epc := h'.m.epc, cause := h'.m.cause, tval := h'.m.tval, tval2 := h'.m.tval2
                                      tinst := h'.m.tinst, status := h'.m.status } }

/-- R194 (with R190, R192, R200): a trap into M-mode, a double trap included, that finds `MDT` 1 while `NMIE` = 1 invokes the RNMI handler; `mncause` is 16 for a double trap. -/
def Obligations.RnmiHandlerInvoked : Prop :=
  ∀ (cfg : Config) (h : Hart) (t : TrapRequest),
    (dest cfg h t.intr t.code = .m ∨ doubleTrap cfg t h) →
    cfg.hasSmdbltrp = true → bit h.m.status 45 = true → cfg.hasSmrnmi = true → nmie h = true →
    alignPc cfg cfg.rnmiDbltrpHandler = cfg.rnmiDbltrpHandler →
    let h' := takeTrap cfg t h
    h'.nm.epc = t.epc
      ∧ (doubleTrap cfg t h → h'.nm.cause = 16#64)
      ∧ (dest cfg h t.intr t.code = .m → h'.nm.cause = mcauseOf cfg t.intr t.code)
      ∧ mnpp h' = 0x3#2 ∧ mnpv h' = false ∧ nmie h' = false
      ∧ bitsKept [3, 7, 11, 12] h.nm.status h'.nm.status
      ∧ h' = { h with nm := { h.nm with epc := h'.nm.epc, cause := h'.nm.cause, status := h'.nm.status }
                      priv := .m, virt := false, pc := cfg.rnmiDbltrpHandler }

/-- R197 (with R190, R191, R192, R200): a trap into M-mode, a double trap included, that meets a critical error condition without Smrnmi or with `NMIE` = 0 ends in the critical-error state, and updates nothing else, the `pc` included; no other trap of a running hart ends there. -/
def Obligations.CriticalErrorEntry : Prop :=
  ∀ (cfg : Config) (h : Hart) (t : TrapRequest),
    let critical :=
      (dest cfg h t.intr t.code = .m ∨ doubleTrap cfg t h) ∧ cfg.hasSmdbltrp = true
        ∧ (bit h.m.status 45 = true ∨ (cfg.hasSmrnmi = true ∧ nmie h = false ∧ h.priv = .m ∧ t.intr = false))
        ∧ (cfg.hasSmrnmi = false ∨ nmie h = false)
    (critical → takeTrap cfg t h = { h with run := .criticalError, cerr := true })
      ∧ (¬critical → (takeTrap cfg t h).run = h.run ∧ (takeTrap cfg t h).cerr = h.cerr)

/-- R190, R194, R197 (property 5 of spec/95_test_vectors.md): while `MDT` = 1 no trap overwrites the M-level trap registers. -/
def Obligations.MdtProtectsMLevelState : Prop :=
  ∀ (cfg : Config) (h : Hart) (t : TrapRequest), cfg.hasSmdbltrp = true → bit h.m.status 45 = true →
    { (takeTrap cfg t h).m with status := h.m.status } = h.m

/-- R182, R189 (property 6 of spec/95_test_vectors.md): a trap of another cause writes 16 to `mcause` only as a double trap, and to `scause` never; and no exception of `BaseISA` and no NMI has that cause (assumption logs 6 and 17 say how one presented with it is taken). -/
def Obligations.CauseSixteenOnlyByDoubleTrap : Prop :=
  (∀ (cfg : Config) (h : Hart) (t : TrapRequest), xlenWide cfg t.code → t.code ≠ 16#64 →
    ((takeTrap cfg t h).m.cause = 16#64 → h.m.cause = 16#64 ∨ doubleTrap cfg t h)
      ∧ ((takeTrap cfg t h).s.cause = 16#64 → h.s.cause = 16#64))
    ∧ (∀ (cfg : Config) (h : Hart) (code tval tval2 tinst : Word) (guestVa : Bool),
        let t := baseRequest cfg h code tval tval2 tinst guestVa
        t.intr = false ∧ t.code ≠ 16#64 ∧ ∀ j, xlenBits cfg - 1 ≤ j → bit t.code j = false)
    ∧ ∀ (cfg : Config) (h : Hart) (cause : Word), (takeNmi cfg cause h).m.cause = 16#64 → h.m.cause = 16#64

/-! ### Environment call and returns -/

/-- R154: `ECALL` of a running hart takes the environment-call exception of its mode, and does nothing else; as a debugger's command in Debug Mode it ends without effect (R216). -/
def Obligations.Ecall : Prop :=
  ∀ s : State,
    let code : Nat :=
      match s.hart.priv, s.hart.virt with
      | .u, _ => 8
      | .s, false => 9
      | .s, true => 10
      | .m, _ => 11
    (s.hart.run = .running →
        exec .ecall s = .next (s.onHart (takeTrap s.cfg
          { intr := false, code := BitVec.ofNat 64 code, epc := s.hart.pc, tval := 0#64, tval2 := 0#64
            tinst := 0#64, gva := false })))
      ∧ (s.hart.run = .debugMode → exec .ecall s = .next s)

/-- R150: `MRET` in M-mode, and its exception below. That `MPP` names a mode is the invariant of `ModesStayLegal`. That the exceptions it raises have `tinst` 0 is the model's choice (assumption log 29). -/
def Obligations.Mret : Prop :=
  ∀ s : State,
    (s.hart.priv ≠ .m → exec .mret s = raised .mret 2#64 s)
      ∧ (s.hart.priv = .m → mpp s.hart ≠ 0x2#2 →
          let h := s.hart
          let p := Priv.ofCode (mpp h)
          ∃ t, exec .mret s = .next t ∧ hartOnly s t
            ∧ t.hart.priv = p ∧ t.hart.virt = (s.cfg.hasH && mpv h && p != .m) ∧ t.hart.pc = h.m.epc
            ∧ mie t.hart = mpie h ∧ mpie t.hart = true
            ∧ mpp t.hart = (if s.cfg.hasU = true then 0x0#2 else 0x3#2) ∧ mpv t.hart = false
            ∧ mprv t.hart = (if p = .m then mprv h else false)
            ∧ bit t.hart.m.status 45 = (!s.cfg.hasSmdbltrp && bit h.m.status 45)
            ∧ bitsKept [3, 7, 11, 12, 17, 39, 45] h.m.status t.hart.m.status
            ∧ t.hart = { h with m := { h.m with status := t.hart.m.status }
                                priv := t.hart.priv, virt := t.hart.virt, pc := t.hart.pc
                                retired := t.hart.retired })

/-- R151: `SRET`: its three exceptions, its effect with `V` = 0, and its effect with `V` = 1. That `tval` of its virtual-instruction exception is the word or 0 by the same parameter as an illegal instruction's is DEDUCED (assumption log 22). That the exceptions it raises have `tinst` 0 is the model's choice (assumption log 29). -/
def Obligations.Sret : Prop :=
  ∀ s : State,
    let h := s.hart
    (h.priv = .u → exec .sret s = raised .sret 2#64 s)
      ∧ (h.priv = .s → h.virt = false → tsr h = true → exec .sret s = raised .sret 2#64 s)
      ∧ (h.priv ≠ .u → h.virt = true → vtsr h = true → exec .sret s = raised .sret 22#64 s)
      ∧ (h.priv ≠ .u → h.virt = false → (h.priv = .s → tsr h = false) →
          ∃ t, exec .sret s = .next t ∧ hartOnly s t
            ∧ t.hart.priv = (if spp h = true then .s else .u) ∧ t.hart.virt = (s.cfg.hasH && spv h)
            ∧ t.hart.pc = h.s.epc
            ∧ sie t.hart = spie h ∧ spie t.hart = true ∧ spp t.hart = false ∧ mprv t.hart = false
            ∧ bit t.hart.m.status 24 = false
            ∧ bitsKept [1, 5, 8, 17, 24] h.m.status t.hart.m.status
            ∧ spv t.hart = (!s.cfg.hasH && spv h) ∧ bitsKept [7] h.hs.status t.hart.hs.status
            ∧ t.hart = { h with m := { h.m with status := t.hart.m.status }
                                hs := { h.hs with status := t.hart.hs.status }
                                priv := t.hart.priv, virt := t.hart.virt, pc := t.hart.pc
                                retired := t.hart.retired })
      ∧ (h.priv ≠ .u → h.virt = true → vtsr h = false →
          ∃ t, exec .sret s = .next t ∧ hartOnly s t
            ∧ t.hart.priv = (if vsSpp h = true then .s else .u) ∧ t.hart.virt = true ∧ t.hart.pc = h.vs.epc
            ∧ vsSie t.hart = vsSpie h ∧ vsSpie t.hart = true ∧ vsSpp t.hart = false
            ∧ bit t.hart.vs.status 24 = false
            ∧ bitsKept [1, 5, 8, 24] h.vs.status t.hart.vs.status
            ∧ t.hart = { h with vs := { h.vs with status := t.hart.vs.status }
                                priv := t.hart.priv, pc := t.hart.pc, retired := t.hart.retired })

/-- R152: `MNRET`: `MDT` and `SDT` are left. That `MNPP` names a mode is the invariant of `ModesStayLegal`. That the exceptions it raises have `tinst` 0 is the model's choice (assumption log 29). -/
def Obligations.Mnret : Prop :=
  ∀ s : State,
    let h := s.hart
    let p := Priv.ofCode (mnpp h)
    ((h.priv ≠ .m ∨ s.cfg.hasSmrnmi = false) → exec .mnret s = raised .mnret 2#64 s)
      ∧ (h.priv = .m → s.cfg.hasSmrnmi = true → mnpp h ≠ 0x2#2 →
          ∃ t, exec .mnret s = .next t ∧ hartOnly s t
            ∧ t.hart.priv = p ∧ t.hart.virt = (s.cfg.hasH && mnpv h && p != .m) ∧ t.hart.pc = h.nm.epc
            ∧ nmie t.hart = true ∧ bitsKept [3] h.nm.status t.hart.nm.status
            ∧ mprv t.hart = (if p = .m then mprv h else false) ∧ bitsKept [17] h.m.status t.hart.m.status
            ∧ t.hart = { h with nm := { h.nm with status := t.hart.nm.status }
                                m := { h.m with status := t.hart.m.status }
                                priv := t.hart.priv, virt := t.hart.virt, pc := t.hart.pc
                                retired := t.hart.retired })

/-- R153, R214, R215: `DRET` in Debug Mode resumes the hart: with `pcerr` = 1 into the critical-error state, with 0 to `Running`; the DM's resume does the same. Outside Debug Mode `DRET` is illegal. A stored `prv` of 2 counts as M (assumption log 8); that `DRET` counts as a retired instruction and a resume does not is assumption log 26. That the exceptions it raises have `tinst` 0 is the model's choice (assumption log 29). A resume of a hart that is not in Debug Mode changes nothing. -/
def Obligations.DretAndResume : Prop :=
  ∀ s : State,
    (s.hart.run ≠ .debugMode → exec .dret s = raised .dret 2#64 s)
      ∧ (s.hart.run = .debugMode →
          ∃ t, exec .dret s = .next t ∧ hartOnly s t ∧ resumed s.cfg s.hart t.hart
            ∧ t.hart.retired = s.hart.retired + 1)
      ∧ (∀ rest, s.events = .resume :: rest → s.hart.run = .debugMode →
          ∃ t, step s = .next t ∧ hartOnly (hartTurn s) t ∧ resumed s.cfg s.hart t.hart
            ∧ t.hart.retired = s.hart.retired)
      ∧ ∀ rest, s.events = .resume :: rest → s.hart.run ≠ .debugMode → step s = .next (hartTurn s)

/-- R155: what each return does to the disable-trap bits in this revision. -/
def Obligations.ReturnsAndDisableTrapBits : Prop :=
  ∀ s t : State,
    let h := s.hart
    let sameSdt := bit t.hart.m.status 24 = bit h.m.status 24
    let sameVsSdt := bit t.hart.vs.status 24 = bit h.vs.status 24
    let sameMdt := bit t.hart.m.status 45 = bit h.m.status 45
    (exec .sret s = .next t → h.priv ≠ .u → h.virt = false → (h.priv = .s → tsr h = false) →
        bit t.hart.m.status 24 = false ∧ sameVsSdt ∧ sameMdt)
      ∧ (exec .sret s = .next t → h.priv ≠ .u → h.virt = true → vtsr h = false →
        sameSdt ∧ bit t.hart.vs.status 24 = false ∧ sameMdt)
      ∧ (exec .mret s = .next t → h.priv = .m → sameSdt ∧ sameVsSdt ∧ mdt t.cfg t.hart = false)
      ∧ (exec .mnret s = .next t → h.priv = .m → s.cfg.hasSmrnmi = true → sameSdt ∧ sameVsSdt ∧ sameMdt)
      ∧ (exec .dret s = .next t → h.run = .debugMode → sameSdt ∧ sameVsSdt ∧ sameMdt)
      ∧ ∀ rest, s.events = .resume :: rest → step s = .next t → sameSdt ∧ sameVsSdt ∧ sameMdt

/-- R80, R20, R87(b): every table instruction completes, in every state, and touches nothing but the active hart: no memory, no other hart, no DM register; the instructions other than the CSR instructions write no integer register; none changes an input of the hart. An instruction retires exactly if it has its effect, with no exception in its place: DEDUCED (assumption log 26). -/
def Obligations.TableInstructionsTouchOnlyTheHart : Prop :=
  ∀ (i : Instr) (s : State), ∃ t, exec i s = .next t ∧ hartOnly s t
    ∧ t.hart.hartId = s.hart.hartId ∧ t.hart.haltreq = s.hart.haltreq ∧ t.hart.irq = s.hart.irq
    ∧ (isCsrInstr i = false → t.hart.x = s.hart.x ∧ t.hart.dbg = s.hart.dbg ∧ t.hart.baseCsrs = s.hart.baseCsrs)
    ∧ t.hart.retired = s.hart.retired + (if completes i s then 1 else 0)

/-! ### Interrupts -/

/-- R203, R204: an interrupt is selected exactly if one can be taken and NMIs are not disabled; the one selected has the most privileged destination, and among those the earliest place in the order of codes; and a running hart takes it, before the instruction at `pc` and any exception of it. That codes beside R204's eleven come after them, and that S/HS-mode comes before VS-mode, is the model's reading (assumption log 16). That an interrupt's `tinst` is 0 is too (assumption log 29). -/
def Obligations.InterruptSelection : Prop :=
  ∀ (cfg : Config) (h : Hart),
    (selectedInterrupt cfg h = none ↔
        (cfg.hasSmrnmi = true ∧ nmie h = false) ∨ ∀ c, ¬canInterrupt cfg h c)
      ∧ (∀ c, selectedInterrupt cfg h = some c → canInterrupt cfg h c
          ∧ ∀ c', canInterrupt cfg h c' →
              destRank (dest cfg h true (BitVec.ofNat 64 c')) < destRank (dest cfg h true (BitVec.ofNat 64 c))
              ∨ (dest cfg h true (BitVec.ofNat 64 c') = dest cfg h true (BitVec.ofNat 64 c)
                  ∧ ([11, 3, 7, 9, 1, 5, 12, 10, 2, 6, 13] ++ cfg.customInterrupts).idxOf c
                      ≤ ([11, 3, 7, 9, 1, 5, 12, 10, 2, 6, 13] ++ cfg.customInterrupts).idxOf c'))
      ∧ ∀ (s : State) (c : Nat), s.cfg = cfg → s.hart = h → hartTurns s → h.run = .running →
          (h.haltreq && cfg.hasDebug) = false → selectedInterrupt cfg h = some c →
          step s = .next ((hartTurn s).onHart (takeTrap cfg
            { intr := true, code := BitVec.ofNat 64 c, epc := h.pc, tval := 0#64, tval2 := 0#64
              tinst := 0#64, gva := false }))

/-- R185, R52: while `SDT` = 1 in S/HS-mode no interrupt destined for that mode is taken, and while `MDT` = 1 in M-mode none at all, in every state with the coupling of R52 and R53. -/
def Obligations.DisableTrapBitsBlockInterrupts : Prop :=
  ∀ (cfg : Config) (h : Hart),
    (h.priv = .s → h.virt = false → sdt cfg h = true → sdtMasksSie cfg h →
        ∀ c, selectedInterrupt cfg h = some c → dest cfg h true (BitVec.ofNat 64 c) = .m)
      ∧ (h.priv = .m → mdt cfg h = true → mdtMasksMie cfg h → selectedInterrupt cfg h = none)

/-- R201 (with R44): an RNMI: taken by a running hart only while `NMIE` = 1; `MDT` is neither tested nor set and `mstatus` is left. -/
def Obligations.ResumableNmi : Prop :=
  ∀ (s : State) (cause : Word) (rest : List Event), s.events = .rnmi cause :: rest →
    alignPc s.cfg s.cfg.rnmiIntHandler = s.cfg.rnmiIntHandler →
    ∃ t, step s = .next t ∧ hartOnly (hartTurn s) t
      ∧ ((s.hart.run ≠ .running ∨ s.cfg.hasSmrnmi = false ∨ nmie s.hart = false) → t.hart = s.hart)
      ∧ (s.hart.run = .running → s.cfg.hasSmrnmi = true → nmie s.hart = true →
          t.hart.nm.epc = s.hart.pc ∧ t.hart.nm.cause = trunc s.cfg cause
            ∧ mnpp t.hart = s.hart.priv.code ∧ mnpv t.hart = s.hart.virt ∧ nmie t.hart = false
            ∧ bitsKept [3, 7, 11, 12] s.hart.nm.status t.hart.nm.status
            ∧ t.hart = { s.hart with
                nm := { s.hart.nm with epc := t.hart.nm.epc, cause := t.hart.nm.cause, status := t.hart.nm.status }
                priv := .m, virt := false, pc := s.cfg.rnmiIntHandler })

/-- R202: a non-resumable NMI of a running hart without Smrnmi, under both values of `NMI_CHECKS_MDT`. That `MIE` is cleared together with the setting of `MDT`, so that `MIE` is left out here, that `MPP`, `MPIE`, `MPV` and every other field of `mstatus` stay, and that a presented cause of 16 is reported as 0, are the model's choices (assumption log 17). A hart that does not run is left as it was (R198, R216), and so is one with Smrnmi, whose NMIs are RNMIs (assumption log 17). -/
def Obligations.NonResumableNmi : Prop :=
  (∀ (s : State) (cause : Word) (rest : List Event), s.events = .nmi cause :: rest →
    (s.hart.run ≠ .running ∨ s.cfg.hasSmrnmi = true) → step s = .next (hartTurn s))
    ∧ ∀ (s : State) (cause : Word) (rest : List Event), s.events = .nmi cause :: rest →
        s.hart.run = .running → s.cfg.hasSmrnmi = false → alignPc s.cfg s.cfg.nmiHandler = s.cfg.nmiHandler →
        ∃ t, step s = .next t ∧ hartOnly (hartTurn s) t
          ∧ (s.cfg.nmiChecksMdt = true → mdt s.cfg s.hart = true →
              t.hart = { s.hart with run := .criticalError, cerr := true })
          ∧ (¬(s.cfg.nmiChecksMdt = true ∧ mdt s.cfg s.hart = true) →
              t.hart.m.epc = s.hart.pc
                ∧ t.hart.m.cause = (if trunc s.cfg cause = 16#64 then 0#64 else trunc s.cfg cause)
                ∧ mdt s.cfg t.hart = ((s.cfg.hasSmdbltrp && s.cfg.nmiChecksMdt) || mdt s.cfg s.hart)
                ∧ bitsKept (if s.cfg.hasSmdbltrp && s.cfg.nmiChecksMdt then [3, 45] else []) s.hart.m.status t.hart.m.status
                ∧ t.hart = { s.hart with
                    m := { s.hart.m with epc := t.hart.m.epc, cause := t.hart.m.cause, status := t.hart.m.status }
                    priv := .m, virt := false, pc := s.cfg.nmiHandler })

/-! ### Debug Mode, the Debug Module, the platform -/

/-- R211: a halt request to a running hart, and every other Debug Mode entry from `Running`, with `pcerr` 0. That an entry other than a halt request writes `dpc`, `prv`, `v` and the cause it carries as a halt request does is the model's choice (assumption log 24), and that a halt request comes before an interrupt that can be taken is DEDUCED (assumption log 16). R216: a hart in Debug Mode does nothing in its own turn, takes no interrupt and no exception (that it waits so is DEDUCED, assumption log 15), and an entry finds only a running hart with Debug Mode. -/
def Obligations.HaltOfARunningHart : Prop :=
  (∀ (s : State) (cause : BitVec 3), s.hart.run = .running → s.cfg.hasDebug = true →
    ((hartTurns s ∧ s.hart.haltreq = true ∧ cause = 0x3#3) ∨ ∃ rest, s.events = .debugEntry cause :: rest) →
    ∃ t, step s = .next t ∧ hartOnly (hartTurn s) t ∧ debugEntered s.cfg cause s.hart t.hart)
    ∧ ∀ s : State,
        (hartTurns s → s.hart.run = .debugMode → step s = .next (hartTurn s))
          ∧ ∀ (cause : BitVec 3) (rest : List Event), s.events = .debugEntry cause :: rest →
            (s.hart.run ≠ .running ∨ s.cfg.hasDebug = false) → step s = .next (hartTurn s)

/-- R212, R213: a halt request to a hart in the critical-error state: with Sddbltrp it enters Debug Mode with `pcerr` = 1; without, nothing changes. -/
def Obligations.HaltInTheCriticalErrorState : Prop :=
  ∀ s : State, hartMoves s → s.hart.run = .criticalError → s.hart.haltreq = true →
    (s.cfg.hasSddbltrp = false → step s = .next (hartTurn s))
      ∧ (s.cfg.hasSddbltrp = true →
          ∃ t, step s = .next t ∧ hartOnly (hartTurn s) t
            ∧ pcerr s.cfg t.hart = true ∧ t.hart.dbg.dpc = s.hart.pc
            ∧ dcsrCause t.hart = 0x3#3 ∧ dcsrPrv t.hart = s.hart.priv.code ∧ dcsrV t.hart = s.hart.virt
            ∧ dcsrKept [0, 1, 5, 6, 7, 8, 19] s.hart t.hart
            ∧ t.hart = { s.hart with dbg := t.hart.dbg, run := .debugMode, cerr := s.cfg.cerrHeldInDebug })

/-- R198: a hart in the critical-error state has no step of its own: no instruction, interrupt, NMI or RNMI, no exception and no debugger command moves it; only its input lines may change, and an instruction-retired counter does not advance (R221; which CSRs are such counters is a parameter: assumption log 26). -/
def Obligations.CriticalErrorStateIsLeftOnlyByResetOrHalt : Prop :=
  ∀ s : State, s.hart.run = .criticalError →
    ¬(hartMoves s ∧ s.hart.haltreq = true ∧ s.cfg.hasSddbltrp = true) →
    (∀ e rest, s.events = e :: rest → resets e = false ∧ selects e = false) →
    ∃ t, step s = .next t ∧ { t.hart with irq := s.hart.irq, haltreq := s.hart.haltreq } = s.hart
      ∧ ∀ a ∈ s.cfg.retiredCounters, Csr.ofAddress a = none → csrRead t a = csrRead s a

/-- R214 (with R46, R136, R198): a hart in the critical-error state, or halted out of it, stays condemned under every step but a reset, whatever the debugger writes: `pcerr` is read-only and a resume returns it to that state. -/
def Obligations.CondemnedUntilReset : Prop :=
  ∀ s t : State, condemned s.cfg s.hart → step s = .next t →
    (∀ e rest, s.events = e :: rest → resets e = false ∧ selects e = false) →
    condemned t.cfg t.hart

/-- R50, R217, R199: with `scerr` = 1 the platform takes no action whatever harts assert; with 0 it may take one that `PLATFORM_CERR_ACTION` allows: reset the hart that asserts `critical-error`, reset every hart, or another, whose steps are a free list (assumption log 21). -/
def Obligations.ScerrMasksThePlatform : Prop :=
  ∀ (s : State) (action : PlatformAction) (rest : List Event), s.events = .platform action :: rest →
    (∀ h, platformCerr s h = (h.cerr && !scerr s))
      ∧ (scerr s = true ∨ s.hart.cerr = false ∨ action ∉ s.cfg.platformCerrActions → step s = .next (hartTurn s))
      ∧ (scerr s = false → s.hart.cerr = true → action ∈ s.cfg.platformCerrActions →
          step s = .next (match action with
            | .nothing => hartTurn s
            | .resetHart => { hartTurn s with hart := hartAfterReset s.cfg s.hart }
            | .resetAll => { hartTurn s with hart := hartAfterReset s.cfg s.hart
                                             parked := s.parked.map (hartAfterReset s.cfg) }
            | .other => { hartTurn s with events := Config.platformOther (hartTurn s) ++ rest }))

/-- R49, R218, R48, R51(b): the debugger reads `anycerr` = 1 in `dmstatus` (0x11) exactly if some hart of the DM asserts `critical-error`, whatever `hartsel` and `scerr` hold, and 0 from a DM without `anycerr` (D23), and a write there is ignored; it writes and reads `scerr` in `dmcs2` (0x32) where the DM has it, and `hartsel` in `dmcontrol` (0x10; its place is PRESUMED, assumption log 20). R127 (D28): its abstract write of a CSR is an explicit write to the same register, and so is its read; with `V` = 1 the four trap registers of S-level stand under their own addresses for it, so that it reads every CSR (R212; assumption log 11); that a write there stores every bit is assumption log 7, the alignment of `sepc` assumption log 12. An instruction-retired counter reads the same as long as no instruction retires and no base CSR is written (R221; assumption log 26). Its other commands are the model's (assumption log 19). No read changes a hart. -/
def Obligations.AnycerrSeesEveryHart : Prop :=
  ∀ (s : State) (rest : List Event),
    (s.events = .dmRead 0x11 :: rest → s.cfg.hasAnycerr = true →
        ∃ t, step s = .next t ∧ t.hart = s.hart ∧ t.parked = s.parked ∧ t.mem = s.mem
          ∧ (bit t.dm.data 25 = true ↔ s.hart.cerr = true ∨ ∃ h ∈ s.parked, h.cerr = true)
          ∧ ∀ j, 26 ≤ j → bit t.dm.data j = false)
      ∧ (s.events = .dmRead 0x11 :: rest → s.cfg.hasAnycerr = false →
          ∃ t, step s = .next t ∧ t.hart = s.hart ∧ t.parked = s.parked ∧ t.mem = s.mem
            ∧ bit t.dm.data 25 = false)
      ∧ (∀ v : BitVec 32, s.events = .dmWrite 0x11 v :: rest → step s = .next (hartTurn s))
      ∧ (∀ v : BitVec 32, s.events = .dmWrite 0x32 v :: rest →
          ∃ t, step s = .next t ∧ t.hart = s.hart ∧ t.parked = s.parked ∧ t.mem = s.mem
            ∧ scerr t = (s.cfg.hasScerr && v.getLsbD 12)
            ∧ (∀ j, j < 12 → t.dm.dmcs2.getLsbD j = v.getLsbD j) ∧ ∀ j, 13 ≤ j → t.dm.dmcs2.getLsbD j = false)
      ∧ (s.events = .dmRead 0x32 :: rest →
          ∃ t, step s = .next t ∧ t.hart = s.hart ∧ t.parked = s.parked ∧ t.mem = s.mem
            ∧ bit t.dm.data 12 = scerr s ∧ ∀ j, j < 12 → bit t.dm.data j = s.dm.dmcs2.getLsbD j)
      ∧ (∀ v : BitVec 32, s.events = .dmWrite 0x10 v :: rest →
          step s = .next { hartTurn s with dm := { s.dm with hartsel := v.extractLsb' 6 10 ++ v.extractLsb' 16 10 } })
      ∧ (s.events = .dmRead 0x10 :: rest →
          ∃ t, step s = .next t ∧ t.hart = s.hart ∧ t.parked = s.parked ∧ t.mem = s.mem
            ∧ t.dm.data.extractLsb' 6 10 ++ t.dm.data.extractLsb' 16 10 = s.dm.hartsel)
      ∧ (∀ (a : CsrAddr) (v : Word), s.events = .debugCsrWrite a v :: rest →
          (s.hart.run = .debugMode → csrAccess s.cfg s.hart a true = .granted →
              step s = .next ((hartTurn s).setHart (debuggerWrite (hartTurn s) a v)))
            ∧ (s.hart.run ≠ .debugMode ∨ csrAccess s.cfg s.hart a true ≠ .granted → step s = .next (hartTurn s)))
      ∧ (∀ a : CsrAddr, s.events = .debugCsrRead a :: rest →
          (s.hart.run = .debugMode → csrAccess s.cfg s.hart a false = .granted →
              step s = .next { hartTurn s with dm := { s.dm with data := debuggerRead (hartTurn s) a } })
            ∧ (s.hart.run ≠ .debugMode ∨ csrAccess s.cfg s.hart a false ≠ .granted → step s = .next (hartTurn s)))
      ∧ (∀ (n : Nat) (v : Word), n < 32 → s.events = .debugRegWrite n v :: rest → s.hart.run = .debugMode →
          ∃ t, step s = .next t ∧ hartOnly (hartTurn s) t ∧ { t.hart with x := s.hart.x } = s.hart
            ∧ ∀ m, readReg s.cfg t.hart m = if m = n ∧ n ≠ 0 then trunc s.cfg v else readReg s.cfg s.hart m)
      ∧ (∀ n : Nat, s.events = .debugRegRead n :: rest → s.hart.run = .debugMode →
          step s = .next { hartTurn s with dm := { s.dm with data := readReg s.cfg s.hart n } })
      ∧ (∀ (n : Nat) (v : Word), (s.events = .debugRegRead n :: rest ∨ s.events = .debugRegWrite n v :: rest) →
          s.hart.run ≠ .debugMode → step s = .next (hartTurn s))
      ∧ (∀ (a : CsrAddr) (v : Word), (s.hart.virt = false ∨ a ∉ [0x105#12, 0x141#12, 0x142#12, 0x143#12]) →
          debuggerWrite s a v = csrWrite s a v ∧ debuggerRead s a = csrRead s a)
      ∧ debuggerRead s 0x105#12 = trunc s.cfg s.hart.s.tvec ∧ debuggerRead s 0x141#12 = trunc s.cfg s.hart.s.epc
      ∧ debuggerRead s 0x142#12 = trunc s.cfg s.hart.s.cause ∧ debuggerRead s 0x143#12 = trunc s.cfg s.hart.s.tval
      ∧ (∀ (t : State) (a : CsrAddr), a ∈ s.cfg.retiredCounters → Csr.ofAddress a = none → t.cfg = s.cfg →
          t.hart.hartId = s.hart.hartId → t.hart.retired = s.hart.retired → t.hart.baseCsrs = s.hart.baseCsrs →
          debuggerRead t a = debuggerRead s a)
      ∧ ∀ v : Word,
          debuggerWrite s 0x105#12 v = { s.hart with s := { s.hart.s with tvec := trunc s.cfg v } }
            ∧ debuggerWrite s 0x141#12 v = { s.hart with s := { s.hart.s with epc := alignPc s.cfg (trunc s.cfg v) } }
            ∧ debuggerWrite s 0x142#12 v = { s.hart with s := { s.hart.s with cause := trunc s.cfg v } }
            ∧ debuggerWrite s 0x143#12 v = { s.hart with s := { s.hart.s with tval := trunc s.cfg v } }

/-- R219, R14: a step of one hart, or of another agent on it, leaves every other hart as it was, except a reset of all; and no step changes the configuration or the number of harts. R25, R203: the DM drives the halt request and an interrupt source its line, each at the hart it drives and nothing else; that a line stands for one code below 64, pending and enabled, is assumption log 16. -/
def Obligations.HartsAreIndependent : Prop :=
  (∀ s t : State, step s = .next t →
    t.cfg = s.cfg ∧ t.parked.length = s.parked.length
      ∧ ((∀ e rest, s.events = e :: rest → selects e = false ∧ e ≠ .resetAll ∧ e ≠ .platform .resetAll) →
          t.parked = s.parked))
    ∧ ∀ (s : State) (level : Bool) (rest : List Event),
        (s.events = .haltRequest level :: rest →
            step s = .next ((hartTurn s).setHart { s.hart with haltreq := level }))
          ∧ ∀ code : Nat, s.events = .irqLine code level :: rest →
            ∃ irq, step s = .next ((hartTurn s).setHart { s.hart with irq := irq })
              ∧ ∀ j, bit irq j = if j = code ∧ code < 64 then level else bit s.hart.irq j

/-! ### Reset -/

/-- R240, R241, R242, R54: a reset of a hart in any run state, of every hart, and the reset state of the machine; `scerr` is left by the reset of a hart and cleared by the DM's own. That a reset of the DM leaves the harts as they were, a pending halt request included, is the model's choice (assumption log 21). That every reset leaves the same cause in `mcause` is its choice too (assumption log 27). -/
def Obligations.ResetOfAHart : Prop :=
  ∀ (s : State) (rest : List Event), s.cfg.wf = true → alignPc s.cfg s.cfg.resetVector = s.cfg.resetVector →
    xlenWide s.cfg s.cfg.resetCause →
    let good := fun (h : Hart) =>
      bit h.m.status 45 = s.cfg.hasSmdbltrp ∧ mie h = false ∧ mprv h = false ∧ nmie h = false
        ∧ h.priv = .m ∧ h.virt = false ∧ h.pc = s.cfg.resetVector ∧ h.run = .running ∧ h.cerr = false
        ∧ ssActive s.cfg h = s.cfg.resetMenvcfgDte ∧ ssActiveVS s.cfg h = s.cfg.resetHenvcfgDte
        ∧ sdt s.cfg h = s.cfg.resetSdt ∧ vsSdt s.cfg h = s.cfg.resetVssdt
        ∧ h.m.cause = s.cfg.resetCause ∧ bit h.m.edeleg 16 = false ∧ bit h.hs.edeleg 16 = false
        ∧ pcerr s.cfg h = false
    (s.events = .resetHart :: rest →
        ∃ t, step s = .next t ∧ hartOnly (hartTurn s) t ∧ good t.hart ∧ t.hart.hartId = s.hart.hartId)
      ∧ (s.events = .resetAll :: rest →
          ∃ t, step s = .next t ∧ t = { hartTurn s with hart := t.hart, parked := t.parked } ∧ good t.hart
            ∧ (∀ h ∈ t.parked, good h) ∧ t.hart.hartId = s.hart.hartId
            ∧ t.parked.map (fun h => h.hartId) = s.parked.map (fun h => h.hartId))
      ∧ (s.events = .resetDm :: rest → ∃ t, step s = .next t ∧ t.hart = s.hart ∧ scerr t = false)
      ∧ good (State.resetIn s.cfg).hart ∧ (∀ h ∈ (State.resetIn s.cfg).parked, good h)
      ∧ (State.resetIn s.cfg).parked.length + 1 = s.cfg.nharts ∧ scerr (State.resetIn s.cfg) = false

/-- R52, R22, R24, R31 and the model's own invariants (assumption logs 2, 3, 5, 12) hold right after reset in every configuration; for `dcsr.prv` they rest on its PRESUMED value 3 (assumption log 4). R53 is not guaranteed there: it is stated for `State.reset`, where `RESET_SDT` is the model's choice 0 (assumption log 1). -/
def Obligations.ResetEstablishesTheInvariants : Prop :=
  (∀ cfg : Config, cfg.wf = true →
      allHarts mdtMasksMie (State.resetIn cfg) ∧ allHarts modeConsistent (State.resetIn cfg)
        ∧ allHarts storedModesNamed (State.resetIn cfg) ∧ allHarts cerrTracksRun (State.resetIn cfg)
        ∧ allHarts readOnlyZeroHeld (State.resetIn cfg) ∧ allHarts pcAligned (State.resetIn cfg)
        ∧ allHarts registersXlenWide (State.resetIn cfg)
        ∧ Memory.wf (State.resetIn cfg).mem ∧ ∀ p ∈ (State.resetIn cfg).mem, p.1 < addressCount cfg)
    ∧ allHarts sdtMasksSie State.reset

/-! ### Invariants that every step keeps, from every state that meets them -/

/-- R52: `MDT` = 1 implies `MIE` = 0, on every hart. For a non-resumable NMI that sets `MDT` it rests on the model's clearing of `MIE` (assumption log 17). -/
def Obligations.MdtMasksMieKept : Prop :=
  ∀ s t : State, allHarts mdtMasksMie s → step s = .next t → allHarts mdtMasksMie t

/-- R53: `SDT` = 1 implies `SIE` = 0, in `mstatus` and in `vsstatus`, on every hart, from the first moment it holds; a reset is left out, as R53 leaves it out. The premise that read-only zeros are stored 0 is the invariant of `ReadOnlyZerosStayZero`. -/
def Obligations.SdtMasksSieKept : Prop :=
  ∀ s t : State, allHarts sdtMasksSie s → allHarts readOnlyZeroHeld s → step s = .next t →
    (∀ e rest, s.events = e :: rest → resets e = false) → allHarts sdtMasksSie t

/-- R22: `V` is 0 in M-mode and without H, and so is the `V` that `dcsr` keeps for a resume; and no privilege field names a mode that does not exist, on every hart. That a debugger's write keeps `dcsr` so is assumption log 18, that no write stores the number 2 assumption log 8. -/
def Obligations.ModesStayLegal : Prop :=
  ∀ s t : State, allHarts modeConsistent s → allHarts storedModesNamed s → step s = .next t →
    allHarts modeConsistent t ∧ allHarts storedModesNamed t

/-- R24: `critical-error` is asserted exactly as the run state says, on every hart. -/
def Obligations.CriticalErrorSignalTracksRunState : Prop :=
  ∀ s t : State, allHarts cerrTracksRun s → step s = .next t → allHarts cerrTracksRun t

/-- R31, R36, R37, R41, R42, R43, R46: a bit that is read-only zero is stored 0, on every hart. -/
def Obligations.ReadOnlyZerosStayZero : Prop :=
  ∀ s t : State, allHarts readOnlyZeroHeld s → step s = .next t → allHarts readOnlyZeroHeld t

/-- R83, R20 and the model's representation (assumption logs 2 and 12): `pc` and the return registers stay instruction addresses, and every `XLEN`-bit register stays an `XLEN`-bit value. -/
def Obligations.AddressesAndWidthsKept : Prop :=
  ∀ s t : State, allHarts pcAligned s → allHarts registersXlenWide s → step s = .next t →
    allHarts pcAligned t ∧ allHarts registersXlenWide t

/-- R51(c) and the model's representation (assumption log 5): memory keeps its canonical form, inside the address space; and a byte written from outside (R214) stands at its address, every other as before (that addresses wrap at the top of the space: assumption log 12). -/
def Obligations.MemoryStaysCanonical : Prop :=
  (∀ s t : State, (Memory.wf s.mem ∧ ∀ p ∈ s.mem, p.1 < addressCount s.cfg) → step s = .next t →
    Memory.wf t.mem ∧ ∀ p ∈ t.mem, p.1 < addressCount t.cfg)
    ∧ ∀ (s : State) (a : Nat) (b : Byte) (rest : List Event), s.events = .memWrite a b :: rest →
        ∃ t, step s = .next t ∧ t = { hartTurn s with mem := t.mem }
          ∧ ∀ r, readByte t.mem r = if r = a % addressCount s.cfg then some b else readByte s.mem r

end
end

