-- ==== Sys2Proof/Laws/Bits.lean ====
section
/-! SUPPORT. The small lemmas of the bit-field operations: what each bit of a word is after each of them. -/

namespace Sys2Proof.Machine

theorem bit_setBit (w : Word) (i j : Nat) (b : Bool) :
    bit (setBit w i b) j = if j = i ∧ i < 64 then b else bit w j := by
  unfold bit setBit
  by_cases hj : j < 64
  · cases b <;> by_cases hij : i = j <;>
      simp [hj, hij, eq_comm (a := j)]
  · have h64 : 64 ≤ j := Nat.le_of_not_lt hj
    have : ¬(j = i ∧ i < 64) := by omega
    simp [BitVec.getLsbD_of_ge, h64, this]

@[simp] theorem bit_setBit_same (w : Word) (i : Nat) (b : Bool) (h : i < 64) :
    bit (setBit w i b) i = b := by simp [bit_setBit, h]

@[simp] theorem bit_setBit_other (w : Word) (i j : Nat) (b : Bool) (h : j ≠ i) :
    bit (setBit w i b) j = bit w j := by simp [bit_setBit, h]

theorem bit_ge (w : Word) (j : Nat) (h : 64 ≤ j) : bit w j = false := by
  simp [bit, BitVec.getLsbD_of_ge, h]

/-- Two words with the same bits are the same. -/
theorem eq_of_bits {v w : Word} (h : ∀ j, bit v j = bit w j) : v = w :=
  BitVec.eq_of_getLsbD_eq fun j _ => h j

@[simp] theorem bit_zero (j : Nat) : bit 0#64 j = false := by simp [bit]

theorem bit_and (v w : Word) (j : Nat) : bit (v &&& w) j = (bit v j && bit w j) := by simp [bit]

theorem bit_or (v w : Word) (j : Nat) : bit (v ||| w) j = (bit v j || bit w j) := by simp [bit]

theorem bit_not (w : Word) (j : Nat) : bit (~~~w) j = (decide (j < 64) && !bit w j) := by
  by_cases h : j < 64 <;> simp [bit, h]

theorem bit_shiftLeft (w : Word) (n j : Nat) :
    bit (w <<< n) j = (decide (j < 64) && !decide (j < n) && bit w (j - n)) := by
  simp [bit, BitVec.getLsbD_shiftLeft]

theorem bit_shiftRight (w : Word) (n j : Nat) : bit (w >>> n) j = bit w (n + j) := by
  simp [bit, BitVec.getLsbD_ushiftRight]

theorem bit_maskOf (l : List Nat) (j : Nat) : bit (maskOf l) j = (decide (j < 64) && l.contains j) := by
  induction l with
  | nil => simp [maskOf]
  | cons i l ih =>
    have h : maskOf (i :: l) = BitVec.twoPow 64 i ||| maskOf l := rfl
    rw [h, bit_or, ih]
    by_cases hj : j < 64 <;> by_cases hij : i = j <;>
      simp [bit, BitVec.getLsbD_twoPow, hj, hij, eq_comm (a := j)]

theorem bit_merge (mask old v : Word) (j : Nat) :
    bit (merge mask old v) j = if bit mask j then bit v j else bit old j := by
  by_cases hj : j < 64
  · simp only [merge, bit_or, bit_and, bit_not, hj]
    cases bit mask j <;> simp
  · have h64 : 64 ≤ j := Nat.le_of_not_lt hj
    simp [bit_ge _ _ h64]

/-- Two tables of bits that agree below 64 and are false above agree. -/
theorem bit_const {w : Word} {f : Nat → Bool} (h : ∀ j < 64, bit w j = f j) (j : Nat) :
    bit w j = (decide (j < 64) && f j) := by
  by_cases hj : j < 64
  · simp [hj, h j hj]
  · simp [hj, bit_ge _ _ (Nat.le_of_not_lt hj)]

theorem bit_low32 (j : Nat) : bit 0xFFFFFFFF#64 j = decide (j < 32) := by
  rw [bit_const (f := fun j => decide (j < 32)) (by decide)]
  by_cases h : j < 32 <;> simp [h]
  omega

theorem bit_high32 (j : Nat) : bit 0xFFFFFFFF00000000#64 j = (decide (j < 64) && decide (32 ≤ j)) :=
  bit_const (f := fun j => decide (32 ≤ j)) (by decide) j

theorem bit_clear1 (j : Nat) : bit (~~~1#64) j = (decide (j < 64) && decide (1 ≤ j)) :=
  bit_const (f := fun j => decide (1 ≤ j)) (by decide) j

theorem bit_clear3 (j : Nat) : bit (~~~3#64) j = (decide (j < 64) && decide (2 ≤ j)) :=
  bit_const (f := fun j => decide (2 ≤ j)) (by decide) j

theorem bit_lowHalf (w : Word) (j : Nat) : bit (lowHalf w) j = (decide (j < 32) && bit w j) := by
  rw [lowHalf, bit_and, bit_low32, Bool.and_comm]

theorem bit_highHalf (w : Word) (j : Nat) : bit (highHalf w) j = bit w (32 + j) := by
  simp [highHalf, bit_shiftRight]

theorem bit_trunc (cfg : Config) (w : Word) (j : Nat) :
    bit (trunc cfg w) j = (decide (j < xlenBits cfg) && bit w j) := by
  unfold trunc xlenBits
  cases cfg.xlen
  · simp [bit_lowHalf]
  · by_cases hj : j < 64
    · simp [hj]
    · simp [bit_ge _ _ (Nat.le_of_not_lt hj)]

@[simp] theorem trunc_trunc (cfg : Config) (w : Word) : trunc cfg (trunc cfg w) = trunc cfg w := by
  apply eq_of_bits
  intro j
  simp only [bit_trunc]
  cases decide (j < xlenBits cfg) <;> simp

theorem trunc_rv64 {cfg : Config} (h : cfg.xlen = .rv64) (w : Word) : trunc cfg w = w := by
  simp [trunc, h]

theorem bit_alignPc (cfg : Config) (w : Word) (j : Nat) :
    bit (alignPc cfg w) j
      = (decide (j < xlenBits cfg) && (decide (2 ≤ j) || (decide (j = 1) && cfg.hasC)) && bit w j) := by
  by_cases hj : j < 64
  · rw [alignPc, bit_trunc]
    cases cfg.hasC
    · rcases j with _ | _ | j <;> simp only [Bool.false_eq_true, if_false, bit_and, bit_clear3, hj] <;> simp
    · rcases j with _ | _ | j <;> simp only [if_true, bit_and, bit_clear1, hj] <;> simp
  · simp [bit_ge _ _ (Nat.le_of_not_lt hj)]

@[simp] theorem alignPc_alignPc (cfg : Config) (w : Word) : alignPc cfg (alignPc cfg w) = alignPc cfg w := by
  apply eq_of_bits
  intro j
  simp only [bit_alignPc]
  cases decide (j < xlenBits cfg) <;> cases (decide (2 ≤ j) || (decide (j = 1) && cfg.hasC)) <;> simp

@[simp] theorem trunc_alignPc (cfg : Config) (w : Word) : trunc cfg (alignPc cfg w) = alignPc cfg w := by
  simp [alignPc]

theorem field2_eq (w : Word) (lo : Nat) (v : BitVec 2) :
    field2 w lo = v ↔ bit w lo = v.getLsbD 0 ∧ bit w (lo + 1) = v.getLsbD 1 := by
  constructor
  · rintro rfl
    simp [field2, bit]
  · rintro ⟨h0, h1⟩
    apply BitVec.eq_of_getLsbD_eq
    intro j hj
    have : j = 0 ∨ j = 1 := by omega
    rcases this with rfl | rfl
    · simpa [field2, bit] using h0
    · simpa [field2, bit] using h1

theorem bit_setField2 (w : Word) (lo : Nat) (v : BitVec 2) (j : Nat) :
    bit (setField2 w lo v) j
      = if j = lo + 1 ∧ lo + 1 < 64 then v.getLsbD 1
        else if j = lo ∧ lo < 64 then v.getLsbD 0 else bit w j := by
  simp [setField2, bit_setBit]

@[simp] theorem field2_setField2_same (w : Word) (lo : Nat) (v : BitVec 2) (h : lo + 1 < 64) :
    field2 (setField2 w lo v) lo = v := by
  have h0 : lo < 64 := by omega
  simp [field2_eq, bit_setField2, h, h0]

@[simp] theorem field2_setBit_other (w : Word) (lo i : Nat) (b : Bool) (h : i ≠ lo ∧ i ≠ lo + 1) :
    field2 (setBit w i b) lo = field2 w lo := by
  rw [field2_eq]
  rw [bit_setBit_other _ _ _ _ (Ne.symm h.1), bit_setBit_other _ _ _ _ (Ne.symm h.2)]
  simp [field2, bit]

@[simp] theorem bit_setField2_other (w : Word) (lo j : Nat) (v : BitVec 2) (h : j ≠ lo ∧ j ≠ lo + 1) :
    bit (setField2 w lo v) j = bit w j := by
  simp [bit_setField2, h.1, h.2]

/-- The value a WARL privilege field holds names an implemented mode. -/
theorem privilegeStored_legal (cfg : Config) (old written : BitVec 2) :
    legalPrivilege cfg (privilegeStored cfg old written) = true := by
  unfold privilegeStored
  split
  · assumption
  · split
    · assumption
    · simp [legalPrivilege]

/-- A legal value is stored as written. -/
theorem privilegeStored_of_legal {cfg : Config} {written : BitVec 2} (old : BitVec 2)
    (h : legalPrivilege cfg written = true) : privilegeStored cfg old written = written := by
  simp [privilegeStored, h]

theorem privilegeStored_ne_two (cfg : Config) (old written : BitVec 2) :
    privilegeStored cfg old written ≠ 0x2#2 := by
  intro h
  have := privilegeStored_legal cfg old written
  rw [h] at this
  simp [legalPrivilege] at this

@[simp] theorem Priv.ofCode_code (p : Priv) : Priv.ofCode p.code = p := by cases p <;> decide

end Sys2Proof.Machine
end

