-- ==== Sys2Proof/Laws/State.lean ====
section
/-! SUPPORT. One lemma per field per update, each true by `rfl`: no later proof unfolds a record update. -/

namespace Sys2Proof.Machine

open Sys2Proof.Safety

@[simp] theorem State.setHart_cfg (s : State) (h : Hart) : (s.setHart h).cfg = s.cfg := rfl
@[simp] theorem State.setHart_hart (s : State) (h : Hart) : (s.setHart h).hart = h := rfl
@[simp] theorem State.setHart_parked (s : State) (h : Hart) : (s.setHart h).parked = s.parked := rfl
@[simp] theorem State.setHart_mem (s : State) (h : Hart) : (s.setHart h).mem = s.mem := rfl
@[simp] theorem State.setHart_dm (s : State) (h : Hart) : (s.setHart h).dm = s.dm := rfl
@[simp] theorem State.setHart_events (s : State) (h : Hart) : (s.setHart h).events = s.events := rfl
@[simp] theorem State.setHart_ticks (s : State) (h : Hart) : (s.setHart h).ticks = s.ticks := rfl

@[simp] theorem State.onHart_cfg (s : State) (f : Hart → Hart) : (s.onHart f).cfg = s.cfg := rfl
@[simp] theorem State.onHart_hart (s : State) (f : Hart → Hart) : (s.onHart f).hart = f s.hart := rfl
@[simp] theorem State.onHart_parked (s : State) (f : Hart → Hart) : (s.onHart f).parked = s.parked := rfl
@[simp] theorem State.onHart_mem (s : State) (f : Hart → Hart) : (s.onHart f).mem = s.mem := rfl
@[simp] theorem State.onHart_dm (s : State) (f : Hart → Hart) : (s.onHart f).dm = s.dm := rfl
@[simp] theorem State.onHart_events (s : State) (f : Hart → Hart) : (s.onHart f).events = s.events := rfl
@[simp] theorem State.onHart_ticks (s : State) (f : Hart → Hart) : (s.onHart f).ticks = s.ticks := rfl

@[simp] theorem State.tick_cfg (s : State) : (s.tick).cfg = s.cfg := rfl
@[simp] theorem State.tick_hart (s : State) : (s.tick).hart = s.hart := rfl
@[simp] theorem State.tick_parked (s : State) : (s.tick).parked = s.parked := rfl
@[simp] theorem State.tick_mem (s : State) : (s.tick).mem = s.mem := rfl
@[simp] theorem State.tick_dm (s : State) : (s.tick).dm = s.dm := rfl
@[simp] theorem State.tick_events (s : State) : (s.tick).events = s.events := rfl
@[simp] theorem State.tick_ticks (s : State) : (s.tick).ticks = s.ticks + 1 := rfl

@[simp] theorem answer_cfg (s : State) (v : Word) : (answer s v).cfg = s.cfg := rfl
@[simp] theorem answer_hart (s : State) (v : Word) : (answer s v).hart = s.hart := rfl
@[simp] theorem answer_parked (s : State) (v : Word) : (answer s v).parked = s.parked := rfl
@[simp] theorem answer_mem (s : State) (v : Word) : (answer s v).mem = s.mem := rfl
@[simp] theorem answer_dm (s : State) (v : Word) : (answer s v).dm = { s.dm with data := v } := rfl
@[simp] theorem answer_events (s : State) (v : Word) : (answer s v).events = s.events := rfl
@[simp] theorem answer_ticks (s : State) (v : Word) : (answer s v).ticks = s.ticks := rfl

@[simp] theorem resetActive_cfg (s : State) : (resetActive s).cfg = s.cfg := rfl
@[simp] theorem resetActive_hart (s : State) : (resetActive s).hart = hartAfterReset s.cfg s.hart := rfl
@[simp] theorem resetActive_parked (s : State) : (resetActive s).parked = s.parked := rfl
@[simp] theorem resetActive_mem (s : State) : (resetActive s).mem = s.mem := rfl
@[simp] theorem resetActive_dm (s : State) : (resetActive s).dm = s.dm := rfl
@[simp] theorem resetActive_events (s : State) : (resetActive s).events = s.events := rfl
@[simp] theorem resetActive_ticks (s : State) : (resetActive s).ticks = s.ticks := rfl

@[simp] theorem resetHarts_cfg (s : State) : (resetHarts s).cfg = s.cfg := rfl
@[simp] theorem resetHarts_hart (s : State) : (resetHarts s).hart = hartAfterReset s.cfg s.hart := rfl
@[simp] theorem resetHarts_parked (s : State) : (resetHarts s).parked = s.parked.map (hartAfterReset s.cfg) := rfl
@[simp] theorem resetHarts_mem (s : State) : (resetHarts s).mem = s.mem := rfl
@[simp] theorem resetHarts_dm (s : State) : (resetHarts s).dm = s.dm := rfl
@[simp] theorem resetHarts_events (s : State) : (resetHarts s).events = s.events := rfl
@[simp] theorem resetHarts_ticks (s : State) : (resetHarts s).ticks = s.ticks := rfl

@[simp] theorem hartTurn_cfg (s : State) : (hartTurn s).cfg = s.cfg := rfl
@[simp] theorem hartTurn_hart (s : State) : (hartTurn s).hart = s.hart := rfl
@[simp] theorem hartTurn_parked (s : State) : (hartTurn s).parked = s.parked := rfl
@[simp] theorem hartTurn_mem (s : State) : (hartTurn s).mem = s.mem := rfl
@[simp] theorem hartTurn_dm (s : State) : (hartTurn s).dm = s.dm := rfl
@[simp] theorem hartTurn_events (s : State) : (hartTurn s).events = s.events.tail := rfl
@[simp] theorem hartTurn_ticks (s : State) : (hartTurn s).ticks = s.ticks + 1 := rfl

@[simp] theorem writeReg_hartId (cfg : Config) (r : Nat) (v : Word) (h : Hart) : (writeReg cfg r v h).hartId = h.hartId := by
  unfold writeReg; split <;> rfl
@[simp] theorem writeReg_pc (cfg : Config) (r : Nat) (v : Word) (h : Hart) : (writeReg cfg r v h).pc = h.pc := by
  unfold writeReg; split <;> rfl
@[simp] theorem writeReg_priv (cfg : Config) (r : Nat) (v : Word) (h : Hart) : (writeReg cfg r v h).priv = h.priv := by
  unfold writeReg; split <;> rfl
@[simp] theorem writeReg_virt (cfg : Config) (r : Nat) (v : Word) (h : Hart) : (writeReg cfg r v h).virt = h.virt := by
  unfold writeReg; split <;> rfl
@[simp] theorem writeReg_run (cfg : Config) (r : Nat) (v : Word) (h : Hart) : (writeReg cfg r v h).run = h.run := by
  unfold writeReg; split <;> rfl
@[simp] theorem writeReg_cerr (cfg : Config) (r : Nat) (v : Word) (h : Hart) : (writeReg cfg r v h).cerr = h.cerr := by
  unfold writeReg; split <;> rfl
@[simp] theorem writeReg_haltreq (cfg : Config) (r : Nat) (v : Word) (h : Hart) : (writeReg cfg r v h).haltreq = h.haltreq := by
  unfold writeReg; split <;> rfl
@[simp] theorem writeReg_irq (cfg : Config) (r : Nat) (v : Word) (h : Hart) : (writeReg cfg r v h).irq = h.irq := by
  unfold writeReg; split <;> rfl
@[simp] theorem writeReg_m (cfg : Config) (r : Nat) (v : Word) (h : Hart) : (writeReg cfg r v h).m = h.m := by
  unfold writeReg; split <;> rfl
@[simp] theorem writeReg_s (cfg : Config) (r : Nat) (v : Word) (h : Hart) : (writeReg cfg r v h).s = h.s := by
  unfold writeReg; split <;> rfl
@[simp] theorem writeReg_vs (cfg : Config) (r : Nat) (v : Word) (h : Hart) : (writeReg cfg r v h).vs = h.vs := by
  unfold writeReg; split <;> rfl
@[simp] theorem writeReg_hs (cfg : Config) (r : Nat) (v : Word) (h : Hart) : (writeReg cfg r v h).hs = h.hs := by
  unfold writeReg; split <;> rfl
@[simp] theorem writeReg_nm (cfg : Config) (r : Nat) (v : Word) (h : Hart) : (writeReg cfg r v h).nm = h.nm := by
  unfold writeReg; split <;> rfl
@[simp] theorem writeReg_dbg (cfg : Config) (r : Nat) (v : Word) (h : Hart) : (writeReg cfg r v h).dbg = h.dbg := by
  unfold writeReg; split <;> rfl
@[simp] theorem writeReg_baseCsrs (cfg : Config) (r : Nat) (v : Word) (h : Hart) : (writeReg cfg r v h).baseCsrs = h.baseCsrs := by
  unfold writeReg; split <;> rfl
@[simp] theorem writeReg_retired (cfg : Config) (r : Nat) (v : Word) (h : Hart) : (writeReg cfg r v h).retired = h.retired := by
  unfold writeReg; split <;> rfl

@[simp] theorem advancePc_hartId (cfg : Config) (h : Hart) : (advancePc cfg h).hartId = h.hartId := rfl
@[simp] theorem advancePc_x (cfg : Config) (h : Hart) : (advancePc cfg h).x = h.x := rfl
@[simp] theorem advancePc_pc (cfg : Config) (h : Hart) : (advancePc cfg h).pc = trunc cfg (h.pc + 4#64) := rfl
@[simp] theorem advancePc_priv (cfg : Config) (h : Hart) : (advancePc cfg h).priv = h.priv := rfl
@[simp] theorem advancePc_virt (cfg : Config) (h : Hart) : (advancePc cfg h).virt = h.virt := rfl
@[simp] theorem advancePc_run (cfg : Config) (h : Hart) : (advancePc cfg h).run = h.run := rfl
@[simp] theorem advancePc_cerr (cfg : Config) (h : Hart) : (advancePc cfg h).cerr = h.cerr := rfl
@[simp] theorem advancePc_haltreq (cfg : Config) (h : Hart) : (advancePc cfg h).haltreq = h.haltreq := rfl
@[simp] theorem advancePc_irq (cfg : Config) (h : Hart) : (advancePc cfg h).irq = h.irq := rfl
@[simp] theorem advancePc_m (cfg : Config) (h : Hart) : (advancePc cfg h).m = h.m := rfl
@[simp] theorem advancePc_s (cfg : Config) (h : Hart) : (advancePc cfg h).s = h.s := rfl
@[simp] theorem advancePc_vs (cfg : Config) (h : Hart) : (advancePc cfg h).vs = h.vs := rfl
@[simp] theorem advancePc_hs (cfg : Config) (h : Hart) : (advancePc cfg h).hs = h.hs := rfl
@[simp] theorem advancePc_nm (cfg : Config) (h : Hart) : (advancePc cfg h).nm = h.nm := rfl
@[simp] theorem advancePc_dbg (cfg : Config) (h : Hart) : (advancePc cfg h).dbg = h.dbg := rfl
@[simp] theorem advancePc_baseCsrs (cfg : Config) (h : Hart) : (advancePc cfg h).baseCsrs = h.baseCsrs := rfl
@[simp] theorem advancePc_retired (cfg : Config) (h : Hart) : (advancePc cfg h).retired = h.retired := rfl

@[simp] theorem retire_hartId (h : Hart) : (retire h).hartId = h.hartId := rfl
@[simp] theorem retire_x (h : Hart) : (retire h).x = h.x := rfl
@[simp] theorem retire_pc (h : Hart) : (retire h).pc = h.pc := rfl
@[simp] theorem retire_priv (h : Hart) : (retire h).priv = h.priv := rfl
@[simp] theorem retire_virt (h : Hart) : (retire h).virt = h.virt := rfl
@[simp] theorem retire_run (h : Hart) : (retire h).run = h.run := rfl
@[simp] theorem retire_cerr (h : Hart) : (retire h).cerr = h.cerr := rfl
@[simp] theorem retire_haltreq (h : Hart) : (retire h).haltreq = h.haltreq := rfl
@[simp] theorem retire_irq (h : Hart) : (retire h).irq = h.irq := rfl
@[simp] theorem retire_m (h : Hart) : (retire h).m = h.m := rfl
@[simp] theorem retire_s (h : Hart) : (retire h).s = h.s := rfl
@[simp] theorem retire_vs (h : Hart) : (retire h).vs = h.vs := rfl
@[simp] theorem retire_hs (h : Hart) : (retire h).hs = h.hs := rfl
@[simp] theorem retire_nm (h : Hart) : (retire h).nm = h.nm := rfl
@[simp] theorem retire_dbg (h : Hart) : (retire h).dbg = h.dbg := rfl
@[simp] theorem retire_baseCsrs (h : Hart) : (retire h).baseCsrs = h.baseCsrs := rfl
@[simp] theorem retire_retired (h : Hart) : (retire h).retired = h.retired + 1 := rfl

@[simp] theorem enterCriticalError_hartId (h : Hart) : (enterCriticalError h).hartId = h.hartId := rfl
@[simp] theorem enterCriticalError_x (h : Hart) : (enterCriticalError h).x = h.x := rfl
@[simp] theorem enterCriticalError_pc (h : Hart) : (enterCriticalError h).pc = h.pc := rfl
@[simp] theorem enterCriticalError_priv (h : Hart) : (enterCriticalError h).priv = h.priv := rfl
@[simp] theorem enterCriticalError_virt (h : Hart) : (enterCriticalError h).virt = h.virt := rfl
@[simp] theorem enterCriticalError_run (h : Hart) : (enterCriticalError h).run = .criticalError := rfl
@[simp] theorem enterCriticalError_cerr (h : Hart) : (enterCriticalError h).cerr = true := rfl
@[simp] theorem enterCriticalError_haltreq (h : Hart) : (enterCriticalError h).haltreq = h.haltreq := rfl
@[simp] theorem enterCriticalError_irq (h : Hart) : (enterCriticalError h).irq = h.irq := rfl
@[simp] theorem enterCriticalError_m (h : Hart) : (enterCriticalError h).m = h.m := rfl
@[simp] theorem enterCriticalError_s (h : Hart) : (enterCriticalError h).s = h.s := rfl
@[simp] theorem enterCriticalError_vs (h : Hart) : (enterCriticalError h).vs = h.vs := rfl
@[simp] theorem enterCriticalError_hs (h : Hart) : (enterCriticalError h).hs = h.hs := rfl
@[simp] theorem enterCriticalError_nm (h : Hart) : (enterCriticalError h).nm = h.nm := rfl
@[simp] theorem enterCriticalError_dbg (h : Hart) : (enterCriticalError h).dbg = h.dbg := rfl
@[simp] theorem enterCriticalError_baseCsrs (h : Hart) : (enterCriticalError h).baseCsrs = h.baseCsrs := rfl
@[simp] theorem enterCriticalError_retired (h : Hart) : (enterCriticalError h).retired = h.retired := rfl

@[simp] theorem invokeRnmi_hartId (cfg : Config) (m : TrapImage) (h : Hart) : (invokeRnmi cfg m h).hartId = h.hartId := rfl
@[simp] theorem invokeRnmi_x (cfg : Config) (m : TrapImage) (h : Hart) : (invokeRnmi cfg m h).x = h.x := rfl
@[simp] theorem invokeRnmi_pc (cfg : Config) (m : TrapImage) (h : Hart) : (invokeRnmi cfg m h).pc = alignPc cfg cfg.rnmiDbltrpHandler := rfl
@[simp] theorem invokeRnmi_priv (cfg : Config) (m : TrapImage) (h : Hart) : (invokeRnmi cfg m h).priv = .m := rfl
@[simp] theorem invokeRnmi_virt (cfg : Config) (m : TrapImage) (h : Hart) : (invokeRnmi cfg m h).virt = false := rfl
@[simp] theorem invokeRnmi_run (cfg : Config) (m : TrapImage) (h : Hart) : (invokeRnmi cfg m h).run = h.run := rfl
@[simp] theorem invokeRnmi_cerr (cfg : Config) (m : TrapImage) (h : Hart) : (invokeRnmi cfg m h).cerr = h.cerr := rfl
@[simp] theorem invokeRnmi_haltreq (cfg : Config) (m : TrapImage) (h : Hart) : (invokeRnmi cfg m h).haltreq = h.haltreq := rfl
@[simp] theorem invokeRnmi_irq (cfg : Config) (m : TrapImage) (h : Hart) : (invokeRnmi cfg m h).irq = h.irq := rfl
@[simp] theorem invokeRnmi_m (cfg : Config) (m : TrapImage) (h : Hart) : (invokeRnmi cfg m h).m = h.m := rfl
@[simp] theorem invokeRnmi_s (cfg : Config) (m : TrapImage) (h : Hart) : (invokeRnmi cfg m h).s = h.s := rfl
@[simp] theorem invokeRnmi_vs (cfg : Config) (m : TrapImage) (h : Hart) : (invokeRnmi cfg m h).vs = h.vs := rfl
@[simp] theorem invokeRnmi_hs (cfg : Config) (m : TrapImage) (h : Hart) : (invokeRnmi cfg m h).hs = h.hs := rfl
@[simp] theorem invokeRnmi_nm (cfg : Config) (m : TrapImage) (h : Hart) : (invokeRnmi cfg m h).nm = { h.nm with epc := m.epc, cause := m.cause, status := mnstatusOn .m false h.nm.status } := rfl
@[simp] theorem invokeRnmi_dbg (cfg : Config) (m : TrapImage) (h : Hart) : (invokeRnmi cfg m h).dbg = h.dbg := rfl
@[simp] theorem invokeRnmi_baseCsrs (cfg : Config) (m : TrapImage) (h : Hart) : (invokeRnmi cfg m h).baseCsrs = h.baseCsrs := rfl
@[simp] theorem invokeRnmi_retired (cfg : Config) (m : TrapImage) (h : Hart) : (invokeRnmi cfg m h).retired = h.retired := rfl

@[simp] theorem deliverM_hartId (cfg : Config) (m : TrapImage) (h : Hart) : (deliverM cfg m h).hartId = h.hartId := rfl
@[simp] theorem deliverM_x (cfg : Config) (m : TrapImage) (h : Hart) : (deliverM cfg m h).x = h.x := rfl
@[simp] theorem deliverM_pc (cfg : Config) (m : TrapImage) (h : Hart) : (deliverM cfg m h).pc = pcOnM cfg m h := rfl
@[simp] theorem deliverM_priv (cfg : Config) (m : TrapImage) (h : Hart) : (deliverM cfg m h).priv = .m := rfl
@[simp] theorem deliverM_virt (cfg : Config) (m : TrapImage) (h : Hart) : (deliverM cfg m h).virt = false := rfl
@[simp] theorem deliverM_run (cfg : Config) (m : TrapImage) (h : Hart) : (deliverM cfg m h).run = h.run := rfl
@[simp] theorem deliverM_cerr (cfg : Config) (m : TrapImage) (h : Hart) : (deliverM cfg m h).cerr = h.cerr := rfl
@[simp] theorem deliverM_haltreq (cfg : Config) (m : TrapImage) (h : Hart) : (deliverM cfg m h).haltreq = h.haltreq := rfl
@[simp] theorem deliverM_irq (cfg : Config) (m : TrapImage) (h : Hart) : (deliverM cfg m h).irq = h.irq := rfl
@[simp] theorem deliverM_m (cfg : Config) (m : TrapImage) (h : Hart) : (deliverM cfg m h).m = { h.m with epc := m.epc, cause := m.cause, tval := m.tval, tval2 := if hasMtval2 cfg then m.tval2 else h.m.tval2, tinst := if cfg.hasH then m.tinst else h.m.tinst, status := statusOnM cfg m h } := rfl
@[simp] theorem deliverM_s (cfg : Config) (m : TrapImage) (h : Hart) : (deliverM cfg m h).s = h.s := rfl
@[simp] theorem deliverM_vs (cfg : Config) (m : TrapImage) (h : Hart) : (deliverM cfg m h).vs = h.vs := rfl
@[simp] theorem deliverM_hs (cfg : Config) (m : TrapImage) (h : Hart) : (deliverM cfg m h).hs = h.hs := rfl
@[simp] theorem deliverM_nm (cfg : Config) (m : TrapImage) (h : Hart) : (deliverM cfg m h).nm = h.nm := rfl
@[simp] theorem deliverM_dbg (cfg : Config) (m : TrapImage) (h : Hart) : (deliverM cfg m h).dbg = h.dbg := rfl
@[simp] theorem deliverM_baseCsrs (cfg : Config) (m : TrapImage) (h : Hart) : (deliverM cfg m h).baseCsrs = h.baseCsrs := rfl
@[simp] theorem deliverM_retired (cfg : Config) (m : TrapImage) (h : Hart) : (deliverM cfg m h).retired = h.retired := rfl

@[simp] theorem deliverHs_hartId (cfg : Config) (t : TrapRequest) (h : Hart) : (deliverHs cfg t h).hartId = h.hartId := rfl
@[simp] theorem deliverHs_x (cfg : Config) (t : TrapRequest) (h : Hart) : (deliverHs cfg t h).x = h.x := rfl
@[simp] theorem deliverHs_pc (cfg : Config) (t : TrapRequest) (h : Hart) : (deliverHs cfg t h).pc = vector cfg h.s.tvec t.intr t.code := rfl
@[simp] theorem deliverHs_priv (cfg : Config) (t : TrapRequest) (h : Hart) : (deliverHs cfg t h).priv = .s := rfl
@[simp] theorem deliverHs_virt (cfg : Config) (t : TrapRequest) (h : Hart) : (deliverHs cfg t h).virt = false := rfl
@[simp] theorem deliverHs_run (cfg : Config) (t : TrapRequest) (h : Hart) : (deliverHs cfg t h).run = h.run := rfl
@[simp] theorem deliverHs_cerr (cfg : Config) (t : TrapRequest) (h : Hart) : (deliverHs cfg t h).cerr = h.cerr := rfl
@[simp] theorem deliverHs_haltreq (cfg : Config) (t : TrapRequest) (h : Hart) : (deliverHs cfg t h).haltreq = h.haltreq := rfl
@[simp] theorem deliverHs_irq (cfg : Config) (t : TrapRequest) (h : Hart) : (deliverHs cfg t h).irq = h.irq := rfl
@[simp] theorem deliverHs_m (cfg : Config) (t : TrapRequest) (h : Hart) : (deliverHs cfg t h).m = { h.m with status := statusOnHs cfg h } := rfl
@[simp] theorem deliverHs_s (cfg : Config) (t : TrapRequest) (h : Hart) : (deliverHs cfg t h).s = { h.s with epc := t.epc, cause := mcauseOf cfg t.intr t.code, tval := t.tval } := rfl
@[simp] theorem deliverHs_vs (cfg : Config) (t : TrapRequest) (h : Hart) : (deliverHs cfg t h).vs = h.vs := rfl
@[simp] theorem deliverHs_hs (cfg : Config) (t : TrapRequest) (h : Hart) : (deliverHs cfg t h).hs = if cfg.hasH then { h.hs with tval := t.tval2, tinst := t.tinst, status := hstatusOnHs t h } else h.hs := rfl
@[simp] theorem deliverHs_nm (cfg : Config) (t : TrapRequest) (h : Hart) : (deliverHs cfg t h).nm = h.nm := rfl
@[simp] theorem deliverHs_dbg (cfg : Config) (t : TrapRequest) (h : Hart) : (deliverHs cfg t h).dbg = h.dbg := rfl
@[simp] theorem deliverHs_baseCsrs (cfg : Config) (t : TrapRequest) (h : Hart) : (deliverHs cfg t h).baseCsrs = h.baseCsrs := rfl
@[simp] theorem deliverHs_retired (cfg : Config) (t : TrapRequest) (h : Hart) : (deliverHs cfg t h).retired = h.retired := rfl

@[simp] theorem deliverVs_hartId (cfg : Config) (t : TrapRequest) (h : Hart) : (deliverVs cfg t h).hartId = h.hartId := rfl
@[simp] theorem deliverVs_x (cfg : Config) (t : TrapRequest) (h : Hart) : (deliverVs cfg t h).x = h.x := rfl
@[simp] theorem deliverVs_pc (cfg : Config) (t : TrapRequest) (h : Hart) : (deliverVs cfg t h).pc = vector cfg h.vs.tvec t.intr (vsCode t.intr t.code) := rfl
@[simp] theorem deliverVs_priv (cfg : Config) (t : TrapRequest) (h : Hart) : (deliverVs cfg t h).priv = .s := rfl
@[simp] theorem deliverVs_virt (cfg : Config) (t : TrapRequest) (h : Hart) : (deliverVs cfg t h).virt = true := rfl
@[simp] theorem deliverVs_run (cfg : Config) (t : TrapRequest) (h : Hart) : (deliverVs cfg t h).run = h.run := rfl
@[simp] theorem deliverVs_cerr (cfg : Config) (t : TrapRequest) (h : Hart) : (deliverVs cfg t h).cerr = h.cerr := rfl
@[simp] theorem deliverVs_haltreq (cfg : Config) (t : TrapRequest) (h : Hart) : (deliverVs cfg t h).haltreq = h.haltreq := rfl
@[simp] theorem deliverVs_irq (cfg : Config) (t : TrapRequest) (h : Hart) : (deliverVs cfg t h).irq = h.irq := rfl
@[simp] theorem deliverVs_m (cfg : Config) (t : TrapRequest) (h : Hart) : (deliverVs cfg t h).m = h.m := rfl
@[simp] theorem deliverVs_s (cfg : Config) (t : TrapRequest) (h : Hart) : (deliverVs cfg t h).s = h.s := rfl
@[simp] theorem deliverVs_vs (cfg : Config) (t : TrapRequest) (h : Hart) : (deliverVs cfg t h).vs = { h.vs with epc := t.epc, tval := t.tval, cause := mcauseOf cfg t.intr (vsCode t.intr t.code), status := vsstatusOnVs cfg h } := rfl
@[simp] theorem deliverVs_hs (cfg : Config) (t : TrapRequest) (h : Hart) : (deliverVs cfg t h).hs = h.hs := rfl
@[simp] theorem deliverVs_nm (cfg : Config) (t : TrapRequest) (h : Hart) : (deliverVs cfg t h).nm = h.nm := rfl
@[simp] theorem deliverVs_dbg (cfg : Config) (t : TrapRequest) (h : Hart) : (deliverVs cfg t h).dbg = h.dbg := rfl
@[simp] theorem deliverVs_baseCsrs (cfg : Config) (t : TrapRequest) (h : Hart) : (deliverVs cfg t h).baseCsrs = h.baseCsrs := rfl
@[simp] theorem deliverVs_retired (cfg : Config) (t : TrapRequest) (h : Hart) : (deliverVs cfg t h).retired = h.retired := rfl

@[simp] theorem returnM_hartId (cfg : Config) (h : Hart) : (returnM cfg h).hartId = h.hartId := rfl
@[simp] theorem returnM_x (cfg : Config) (h : Hart) : (returnM cfg h).x = h.x := rfl
@[simp] theorem returnM_pc (cfg : Config) (h : Hart) : (returnM cfg h).pc = h.m.epc := rfl
@[simp] theorem returnM_priv (cfg : Config) (h : Hart) : (returnM cfg h).priv = Priv.ofCode (mpp h) := rfl
@[simp] theorem returnM_virt (cfg : Config) (h : Hart) : (returnM cfg h).virt = (cfg.hasH && mpv h && Priv.ofCode (mpp h) != .m) := rfl
@[simp] theorem returnM_run (cfg : Config) (h : Hart) : (returnM cfg h).run = h.run := rfl
@[simp] theorem returnM_cerr (cfg : Config) (h : Hart) : (returnM cfg h).cerr = h.cerr := rfl
@[simp] theorem returnM_haltreq (cfg : Config) (h : Hart) : (returnM cfg h).haltreq = h.haltreq := rfl
@[simp] theorem returnM_irq (cfg : Config) (h : Hart) : (returnM cfg h).irq = h.irq := rfl
@[simp] theorem returnM_m (cfg : Config) (h : Hart) : (returnM cfg h).m = { h.m with status := statusAfterMret cfg h } := rfl
@[simp] theorem returnM_s (cfg : Config) (h : Hart) : (returnM cfg h).s = h.s := rfl
@[simp] theorem returnM_vs (cfg : Config) (h : Hart) : (returnM cfg h).vs = h.vs := rfl
@[simp] theorem returnM_hs (cfg : Config) (h : Hart) : (returnM cfg h).hs = h.hs := rfl
@[simp] theorem returnM_nm (cfg : Config) (h : Hart) : (returnM cfg h).nm = h.nm := rfl
@[simp] theorem returnM_dbg (cfg : Config) (h : Hart) : (returnM cfg h).dbg = h.dbg := rfl
@[simp] theorem returnM_baseCsrs (cfg : Config) (h : Hart) : (returnM cfg h).baseCsrs = h.baseCsrs := rfl
@[simp] theorem returnM_retired (cfg : Config) (h : Hart) : (returnM cfg h).retired = h.retired := rfl

@[simp] theorem returnHs_hartId (cfg : Config) (h : Hart) : (returnHs cfg h).hartId = h.hartId := rfl
@[simp] theorem returnHs_x (cfg : Config) (h : Hart) : (returnHs cfg h).x = h.x := rfl
@[simp] theorem returnHs_pc (cfg : Config) (h : Hart) : (returnHs cfg h).pc = h.s.epc := rfl
@[simp] theorem returnHs_priv (cfg : Config) (h : Hart) : (returnHs cfg h).priv = if spp h then .s else .u := rfl
@[simp] theorem returnHs_virt (cfg : Config) (h : Hart) : (returnHs cfg h).virt = (cfg.hasH && spv h) := rfl
@[simp] theorem returnHs_run (cfg : Config) (h : Hart) : (returnHs cfg h).run = h.run := rfl
@[simp] theorem returnHs_cerr (cfg : Config) (h : Hart) : (returnHs cfg h).cerr = h.cerr := rfl
@[simp] theorem returnHs_haltreq (cfg : Config) (h : Hart) : (returnHs cfg h).haltreq = h.haltreq := rfl
@[simp] theorem returnHs_irq (cfg : Config) (h : Hart) : (returnHs cfg h).irq = h.irq := rfl
@[simp] theorem returnHs_m (cfg : Config) (h : Hart) : (returnHs cfg h).m = { h.m with status := statusAfterSret h } := rfl
@[simp] theorem returnHs_s (cfg : Config) (h : Hart) : (returnHs cfg h).s = h.s := rfl
@[simp] theorem returnHs_vs (cfg : Config) (h : Hart) : (returnHs cfg h).vs = h.vs := rfl
@[simp] theorem returnHs_hs (cfg : Config) (h : Hart) : (returnHs cfg h).hs = if cfg.hasH then { h.hs with status := setBit h.hs.status bitSPV false } else h.hs := rfl
@[simp] theorem returnHs_nm (cfg : Config) (h : Hart) : (returnHs cfg h).nm = h.nm := rfl
@[simp] theorem returnHs_dbg (cfg : Config) (h : Hart) : (returnHs cfg h).dbg = h.dbg := rfl
@[simp] theorem returnHs_baseCsrs (cfg : Config) (h : Hart) : (returnHs cfg h).baseCsrs = h.baseCsrs := rfl
@[simp] theorem returnHs_retired (cfg : Config) (h : Hart) : (returnHs cfg h).retired = h.retired := rfl

@[simp] theorem returnVs_hartId (h : Hart) : (returnVs h).hartId = h.hartId := rfl
@[simp] theorem returnVs_x (h : Hart) : (returnVs h).x = h.x := rfl
@[simp] theorem returnVs_pc (h : Hart) : (returnVs h).pc = h.vs.epc := rfl
@[simp] theorem returnVs_priv (h : Hart) : (returnVs h).priv = if vsSpp h then .s else .u := rfl
@[simp] theorem returnVs_virt (h : Hart) : (returnVs h).virt = true := rfl
@[simp] theorem returnVs_run (h : Hart) : (returnVs h).run = h.run := rfl
@[simp] theorem returnVs_cerr (h : Hart) : (returnVs h).cerr = h.cerr := rfl
@[simp] theorem returnVs_haltreq (h : Hart) : (returnVs h).haltreq = h.haltreq := rfl
@[simp] theorem returnVs_irq (h : Hart) : (returnVs h).irq = h.irq := rfl
@[simp] theorem returnVs_m (h : Hart) : (returnVs h).m = h.m := rfl
@[simp] theorem returnVs_s (h : Hart) : (returnVs h).s = h.s := rfl
@[simp] theorem returnVs_vs (h : Hart) : (returnVs h).vs = { h.vs with status := vsstatusAfterSret h } := rfl
@[simp] theorem returnVs_hs (h : Hart) : (returnVs h).hs = h.hs := rfl
@[simp] theorem returnVs_nm (h : Hart) : (returnVs h).nm = h.nm := rfl
@[simp] theorem returnVs_dbg (h : Hart) : (returnVs h).dbg = h.dbg := rfl
@[simp] theorem returnVs_baseCsrs (h : Hart) : (returnVs h).baseCsrs = h.baseCsrs := rfl
@[simp] theorem returnVs_retired (h : Hart) : (returnVs h).retired = h.retired := rfl

@[simp] theorem returnNm_hartId (cfg : Config) (h : Hart) : (returnNm cfg h).hartId = h.hartId := rfl
@[simp] theorem returnNm_x (cfg : Config) (h : Hart) : (returnNm cfg h).x = h.x := rfl
@[simp] theorem returnNm_pc (cfg : Config) (h : Hart) : (returnNm cfg h).pc = h.nm.epc := rfl
@[simp] theorem returnNm_priv (cfg : Config) (h : Hart) : (returnNm cfg h).priv = Priv.ofCode (mnpp h) := rfl
@[simp] theorem returnNm_virt (cfg : Config) (h : Hart) : (returnNm cfg h).virt = (cfg.hasH && mnpv h && Priv.ofCode (mnpp h) != .m) := rfl
@[simp] theorem returnNm_run (cfg : Config) (h : Hart) : (returnNm cfg h).run = h.run := rfl
@[simp] theorem returnNm_cerr (cfg : Config) (h : Hart) : (returnNm cfg h).cerr = h.cerr := rfl
@[simp] theorem returnNm_haltreq (cfg : Config) (h : Hart) : (returnNm cfg h).haltreq = h.haltreq := rfl
@[simp] theorem returnNm_irq (cfg : Config) (h : Hart) : (returnNm cfg h).irq = h.irq := rfl
@[simp] theorem returnNm_m (cfg : Config) (h : Hart) : (returnNm cfg h).m = { h.m with status := if Priv.ofCode (mnpp h) = .m then h.m.status else setBit h.m.status bitMPRV false } := rfl
@[simp] theorem returnNm_s (cfg : Config) (h : Hart) : (returnNm cfg h).s = h.s := rfl
@[simp] theorem returnNm_vs (cfg : Config) (h : Hart) : (returnNm cfg h).vs = h.vs := rfl
@[simp] theorem returnNm_hs (cfg : Config) (h : Hart) : (returnNm cfg h).hs = h.hs := rfl
@[simp] theorem returnNm_nm (cfg : Config) (h : Hart) : (returnNm cfg h).nm = { h.nm with status := setBit h.nm.status bitNMIE true } := rfl
@[simp] theorem returnNm_dbg (cfg : Config) (h : Hart) : (returnNm cfg h).dbg = h.dbg := rfl
@[simp] theorem returnNm_baseCsrs (cfg : Config) (h : Hart) : (returnNm cfg h).baseCsrs = h.baseCsrs := rfl
@[simp] theorem returnNm_retired (cfg : Config) (h : Hart) : (returnNm cfg h).retired = h.retired := rfl

@[simp] theorem enterDebug_hartId (cfg : Config) (c : BitVec 3) (h : Hart) : (enterDebug cfg c h).hartId = h.hartId := rfl
@[simp] theorem enterDebug_x (cfg : Config) (c : BitVec 3) (h : Hart) : (enterDebug cfg c h).x = h.x := rfl
@[simp] theorem enterDebug_pc (cfg : Config) (c : BitVec 3) (h : Hart) : (enterDebug cfg c h).pc = h.pc := rfl
@[simp] theorem enterDebug_priv (cfg : Config) (c : BitVec 3) (h : Hart) : (enterDebug cfg c h).priv = h.priv := rfl
@[simp] theorem enterDebug_virt (cfg : Config) (c : BitVec 3) (h : Hart) : (enterDebug cfg c h).virt = h.virt := rfl
@[simp] theorem enterDebug_run (cfg : Config) (c : BitVec 3) (h : Hart) : (enterDebug cfg c h).run = .debugMode := rfl
@[simp] theorem enterDebug_cerr (cfg : Config) (c : BitVec 3) (h : Hart) : (enterDebug cfg c h).cerr = (h.run == .criticalError && cfg.cerrHeldInDebug) := rfl
@[simp] theorem enterDebug_haltreq (cfg : Config) (c : BitVec 3) (h : Hart) : (enterDebug cfg c h).haltreq = h.haltreq := rfl
@[simp] theorem enterDebug_irq (cfg : Config) (c : BitVec 3) (h : Hart) : (enterDebug cfg c h).irq = h.irq := rfl
@[simp] theorem enterDebug_m (cfg : Config) (c : BitVec 3) (h : Hart) : (enterDebug cfg c h).m = h.m := rfl
@[simp] theorem enterDebug_s (cfg : Config) (c : BitVec 3) (h : Hart) : (enterDebug cfg c h).s = h.s := rfl
@[simp] theorem enterDebug_vs (cfg : Config) (c : BitVec 3) (h : Hart) : (enterDebug cfg c h).vs = h.vs := rfl
@[simp] theorem enterDebug_hs (cfg : Config) (c : BitVec 3) (h : Hart) : (enterDebug cfg c h).hs = h.hs := rfl
@[simp] theorem enterDebug_nm (cfg : Config) (c : BitVec 3) (h : Hart) : (enterDebug cfg c h).nm = h.nm := rfl
@[simp] theorem enterDebug_dbg (cfg : Config) (c : BitVec 3) (h : Hart) : (enterDebug cfg c h).dbg = { dcsr := dcsrOnEntry cfg c (h.run == .criticalError) h, dpc := h.pc } := rfl
@[simp] theorem enterDebug_baseCsrs (cfg : Config) (c : BitVec 3) (h : Hart) : (enterDebug cfg c h).baseCsrs = h.baseCsrs := rfl
@[simp] theorem enterDebug_retired (cfg : Config) (c : BitVec 3) (h : Hart) : (enterDebug cfg c h).retired = h.retired := rfl

@[simp] theorem deliverNmi_hartId (cfg : Config) (c : Word) (h : Hart) : (deliverNmi cfg c h).hartId = h.hartId := rfl
@[simp] theorem deliverNmi_x (cfg : Config) (c : Word) (h : Hart) : (deliverNmi cfg c h).x = h.x := rfl
@[simp] theorem deliverNmi_pc (cfg : Config) (c : Word) (h : Hart) : (deliverNmi cfg c h).pc = alignPc cfg cfg.nmiHandler := rfl
@[simp] theorem deliverNmi_priv (cfg : Config) (c : Word) (h : Hart) : (deliverNmi cfg c h).priv = .m := rfl
@[simp] theorem deliverNmi_virt (cfg : Config) (c : Word) (h : Hart) : (deliverNmi cfg c h).virt = false := rfl
@[simp] theorem deliverNmi_run (cfg : Config) (c : Word) (h : Hart) : (deliverNmi cfg c h).run = h.run := rfl
@[simp] theorem deliverNmi_cerr (cfg : Config) (c : Word) (h : Hart) : (deliverNmi cfg c h).cerr = h.cerr := rfl
@[simp] theorem deliverNmi_haltreq (cfg : Config) (c : Word) (h : Hart) : (deliverNmi cfg c h).haltreq = h.haltreq := rfl
@[simp] theorem deliverNmi_irq (cfg : Config) (c : Word) (h : Hart) : (deliverNmi cfg c h).irq = h.irq := rfl
@[simp] theorem deliverNmi_m (cfg : Config) (c : Word) (h : Hart) : (deliverNmi cfg c h).m = { h.m with epc := h.pc, cause := nmiCause cfg c, status := if cfg.hasSmdbltrp && cfg.nmiChecksMdt then setBit (setBit h.m.status bitMDT true) bitMIE false else h.m.status } := rfl
@[simp] theorem deliverNmi_s (cfg : Config) (c : Word) (h : Hart) : (deliverNmi cfg c h).s = h.s := rfl
@[simp] theorem deliverNmi_vs (cfg : Config) (c : Word) (h : Hart) : (deliverNmi cfg c h).vs = h.vs := rfl
@[simp] theorem deliverNmi_hs (cfg : Config) (c : Word) (h : Hart) : (deliverNmi cfg c h).hs = h.hs := rfl
@[simp] theorem deliverNmi_nm (cfg : Config) (c : Word) (h : Hart) : (deliverNmi cfg c h).nm = h.nm := rfl
@[simp] theorem deliverNmi_dbg (cfg : Config) (c : Word) (h : Hart) : (deliverNmi cfg c h).dbg = h.dbg := rfl
@[simp] theorem deliverNmi_baseCsrs (cfg : Config) (c : Word) (h : Hart) : (deliverNmi cfg c h).baseCsrs = h.baseCsrs := rfl
@[simp] theorem deliverNmi_retired (cfg : Config) (c : Word) (h : Hart) : (deliverNmi cfg c h).retired = h.retired := rfl

@[simp] theorem setExtensionState_hartId (st vst : Word) (h : Hart) : (setExtensionState st vst h).hartId = h.hartId := rfl
@[simp] theorem setExtensionState_x (st vst : Word) (h : Hart) : (setExtensionState st vst h).x = h.x := rfl
@[simp] theorem setExtensionState_pc (st vst : Word) (h : Hart) : (setExtensionState st vst h).pc = h.pc := rfl
@[simp] theorem setExtensionState_priv (st vst : Word) (h : Hart) : (setExtensionState st vst h).priv = h.priv := rfl
@[simp] theorem setExtensionState_virt (st vst : Word) (h : Hart) : (setExtensionState st vst h).virt = h.virt := rfl
@[simp] theorem setExtensionState_run (st vst : Word) (h : Hart) : (setExtensionState st vst h).run = h.run := rfl
@[simp] theorem setExtensionState_cerr (st vst : Word) (h : Hart) : (setExtensionState st vst h).cerr = h.cerr := rfl
@[simp] theorem setExtensionState_haltreq (st vst : Word) (h : Hart) : (setExtensionState st vst h).haltreq = h.haltreq := rfl
@[simp] theorem setExtensionState_irq (st vst : Word) (h : Hart) : (setExtensionState st vst h).irq = h.irq := rfl
@[simp] theorem setExtensionState_m (st vst : Word) (h : Hart) : (setExtensionState st vst h).m = { h.m with status := merge extensionMask h.m.status st } := rfl
@[simp] theorem setExtensionState_s (st vst : Word) (h : Hart) : (setExtensionState st vst h).s = h.s := rfl
@[simp] theorem setExtensionState_vs (st vst : Word) (h : Hart) : (setExtensionState st vst h).vs = { h.vs with status := merge extensionMask h.vs.status vst } := rfl
@[simp] theorem setExtensionState_hs (st vst : Word) (h : Hart) : (setExtensionState st vst h).hs = h.hs := rfl
@[simp] theorem setExtensionState_nm (st vst : Word) (h : Hart) : (setExtensionState st vst h).nm = h.nm := rfl
@[simp] theorem setExtensionState_dbg (st vst : Word) (h : Hart) : (setExtensionState st vst h).dbg = h.dbg := rfl
@[simp] theorem setExtensionState_baseCsrs (st vst : Word) (h : Hart) : (setExtensionState st vst h).baseCsrs = h.baseCsrs := rfl
@[simp] theorem setExtensionState_retired (st vst : Word) (h : Hart) : (setExtensionState st vst h).retired = h.retired := rfl

@[simp] theorem resetDebugModule_cfg (s : State) : (resetDebugModule s).cfg = s.cfg := rfl
@[simp] theorem resetDebugModule_hart (s : State) : (resetDebugModule s).hart = s.hart := rfl
@[simp] theorem resetDebugModule_parked (s : State) : (resetDebugModule s).parked = s.parked := rfl
@[simp] theorem resetDebugModule_mem (s : State) : (resetDebugModule s).mem = s.mem := rfl
@[simp] theorem resetDebugModule_dm (s : State) : (resetDebugModule s).dm = DebugModule.reset := rfl
@[simp] theorem resetDebugModule_events (s : State) : (resetDebugModule s).events = s.events := rfl
@[simp] theorem resetDebugModule_ticks (s : State) : (resetDebugModule s).ticks = s.ticks := rfl

@[simp] theorem forceDteOff_hartId (h : Hart) : (forceDteOff h).hartId = h.hartId := rfl
@[simp] theorem forceDteOff_x (h : Hart) : (forceDteOff h).x = h.x := rfl
@[simp] theorem forceDteOff_pc (h : Hart) : (forceDteOff h).pc = h.pc := rfl
@[simp] theorem forceDteOff_priv (h : Hart) : (forceDteOff h).priv = h.priv := rfl
@[simp] theorem forceDteOff_virt (h : Hart) : (forceDteOff h).virt = h.virt := rfl
@[simp] theorem forceDteOff_run (h : Hart) : (forceDteOff h).run = h.run := rfl
@[simp] theorem forceDteOff_cerr (h : Hart) : (forceDteOff h).cerr = h.cerr := rfl
@[simp] theorem forceDteOff_haltreq (h : Hart) : (forceDteOff h).haltreq = h.haltreq := rfl
@[simp] theorem forceDteOff_irq (h : Hart) : (forceDteOff h).irq = h.irq := rfl
@[simp] theorem forceDteOff_m (h : Hart) : (forceDteOff h).m = { h.m with status := setBit h.m.status bitSDT false } := rfl
@[simp] theorem forceDteOff_s (h : Hart) : (forceDteOff h).s = h.s := rfl
@[simp] theorem forceDteOff_vs (h : Hart) : (forceDteOff h).vs = { h.vs with status := setBit h.vs.status bitSDT false } := rfl
@[simp] theorem forceDteOff_hs (h : Hart) : (forceDteOff h).hs = { h.hs with envcfg := setBit h.hs.envcfg bitDTE false } := rfl
@[simp] theorem forceDteOff_nm (h : Hart) : (forceDteOff h).nm = h.nm := rfl
@[simp] theorem forceDteOff_dbg (h : Hart) : (forceDteOff h).dbg = h.dbg := rfl
@[simp] theorem forceDteOff_baseCsrs (h : Hart) : (forceDteOff h).baseCsrs = h.baseCsrs := rfl
@[simp] theorem forceDteOff_retired (h : Hart) : (forceDteOff h).retired = h.retired := rfl

end Sys2Proof.Machine
end

