-- ==== Sys2Proof/Laws/Csr.lean ====
section
/-! SUPPORT. The register file and the CSRs: a read after a write, what an explicit CSR write leaves alone, and what a CSR instruction can do, said once. -/

namespace Sys2Proof.Machine

/-- A register read after a register write (R11, R20). -/
theorem readReg_writeReg (cfg : Config) (r : Nat) (v : Word) (h : Hart) (q : Nat) :
    readReg cfg (writeReg cfg r v h) q
      = if q = r ∧ r ≠ 0 ∧ r < 32 then trunc cfg v else readReg cfg h q := by
  by_cases hr : r = 0
  · simp [writeReg, hr]
  · by_cases hq : q = 0
    · have : ¬(0 = r) := fun e => hr e.symm
      simp [readReg, hq, this]
    · by_cases hqr : q = r
      · subst hqr
        by_cases hlt : q < 32
        · simp [readReg, writeReg, hr, hlt]
        · simp [readReg, writeReg, hr, hlt]
      · simp [readReg, writeReg, hr, hq, hqr, Ne.symm hqr]

@[simp] theorem trunc_readReg (cfg : Config) (h : Hart) (r : Nat) :
    trunc cfg (readReg cfg h r) = readReg cfg h r := by
  unfold readReg
  split
  · apply eq_of_bits; intro j; simp [bit_trunc]
  · simp

/-- The register of an address has that address (R27). -/
theorem ofAddress_address {a : CsrAddr} {c : Csr} (h : Csr.ofAddress a = some c) : a = c.address := by
  have := List.find?_some h
  exact (eq_of_beq this).symm

/-- What an explicit CSR write leaves alone: all but the CSRs. -/
def csrsOnly (h h' : Hart) : Prop :=
  h'.hartId = h.hartId ∧ h'.x = h.x ∧ h'.pc = h.pc ∧ h'.priv = h.priv ∧ h'.virt = h.virt ∧ h'.run = h.run
    ∧ h'.cerr = h.cerr ∧ h'.haltreq = h.haltreq ∧ h'.irq = h.irq ∧ h'.retired = h.retired

theorem writeMenvcfgDte_csrsOnly (cfg : Config) (mask v : Word) (h : Hart) :
    csrsOnly h (writeMenvcfgDte cfg mask v h) := by
  unfold writeMenvcfgDte csrsOnly
  simp only []
  split <;> simp [forceDteOff]

theorem writeHenvcfgDte_csrsOnly (cfg : Config) (mask v : Word) (h : Hart) :
    csrsOnly h (writeHenvcfgDte cfg mask v h) := by
  unfold writeHenvcfgDte csrsOnly
  simp only []
  split <;> simp

theorem Csr.write_csrsOnly (cfg : Config) (h : Hart) (v : Word) (c : Csr) : csrsOnly h (Csr.write cfg h v c) := by
  cases hx : cfg.xlen <;> cases c <;> simp only [Csr.write, hx] <;> first
    | exact writeMenvcfgDte_csrsOnly ..
    | exact writeHenvcfgDte_csrsOnly ..
    | exact ⟨rfl, rfl, rfl, rfl, rfl, rfl, rfl, rfl, rfl, rfl⟩

theorem csrWriteVia_csrsOnly (reach : Csr → Csr) (s : State) (a : CsrAddr) (v : Word) :
    csrsOnly s.hart (csrWriteVia reach s a v) := by
  unfold csrWriteVia
  cases Csr.ofAddress a with
  | none => exact ⟨rfl, rfl, rfl, rfl, rfl, rfl, rfl, rfl, rfl, rfl⟩
  | some c => exact Csr.write_csrsOnly ..

theorem csrWrite_csrsOnly (s : State) (a : CsrAddr) (v : Word) : csrsOnly s.hart (csrWrite s a v) :=
  csrWriteVia_csrsOnly ..

@[simp] theorem csrWrite_hartId (s : State) (a : CsrAddr) (v : Word) :
    (csrWrite s a v).hartId = s.hart.hartId := (csrWrite_csrsOnly s a v).1
@[simp] theorem csrWrite_x (s : State) (a : CsrAddr) (v : Word) :
    (csrWrite s a v).x = s.hart.x := (csrWrite_csrsOnly s a v).2.1
@[simp] theorem csrWrite_pc (s : State) (a : CsrAddr) (v : Word) :
    (csrWrite s a v).pc = s.hart.pc := (csrWrite_csrsOnly s a v).2.2.1
@[simp] theorem csrWrite_priv (s : State) (a : CsrAddr) (v : Word) :
    (csrWrite s a v).priv = s.hart.priv := (csrWrite_csrsOnly s a v).2.2.2.1
@[simp] theorem csrWrite_virt (s : State) (a : CsrAddr) (v : Word) :
    (csrWrite s a v).virt = s.hart.virt := (csrWrite_csrsOnly s a v).2.2.2.2.1
@[simp] theorem csrWrite_run (s : State) (a : CsrAddr) (v : Word) :
    (csrWrite s a v).run = s.hart.run := (csrWrite_csrsOnly s a v).2.2.2.2.2.1
@[simp] theorem csrWrite_cerr (s : State) (a : CsrAddr) (v : Word) :
    (csrWrite s a v).cerr = s.hart.cerr := (csrWrite_csrsOnly s a v).2.2.2.2.2.2.1
@[simp] theorem csrWrite_haltreq (s : State) (a : CsrAddr) (v : Word) :
    (csrWrite s a v).haltreq = s.hart.haltreq := (csrWrite_csrsOnly s a v).2.2.2.2.2.2.2.1
@[simp] theorem csrWrite_irq (s : State) (a : CsrAddr) (v : Word) :
    (csrWrite s a v).irq = s.hart.irq := (csrWrite_csrsOnly s a v).2.2.2.2.2.2.2.2.1
@[simp] theorem csrWrite_retired (s : State) (a : CsrAddr) (v : Word) :
    (csrWrite s a v).retired = s.hart.retired := (csrWrite_csrsOnly s a v).2.2.2.2.2.2.2.2.2

/-- Every CSR read gives an `XLEN`-bit value (R126). -/
theorem trunc_csrReadVia (reach : Csr → Csr) (s : State) (a : CsrAddr) :
    trunc s.cfg (csrReadVia reach s a) = csrReadVia reach s a := by
  unfold csrReadVia
  cases Csr.ofAddress a with
  | none => simp
  | some c =>
    simp only []
    have hh : ∀ w : Word, trunc s.cfg (highHalf w) = highHalf w := fun w => by
      apply eq_of_bits
      intro j
      rw [bit_trunc, bit_highHalf]
      by_cases hj : j < xlenBits s.cfg
      · simp [hj]
      · have : 64 ≤ 32 + j := by
          unfold xlenBits at hj
          cases hx : s.cfg.xlen <;> simp only [hx] at hj <;> omega
        simp [hj, bit_ge _ _ this]
    have hd : trunc s.cfg (dcsrView s.cfg s.hart) = dcsrView s.cfg s.hart := by
      apply eq_of_bits
      intro j
      rw [bit_trunc]
      by_cases hj : j < xlenBits s.cfg
      · simp [hj]
      · have h32 : 32 ≤ j := by
          unfold xlenBits at hj
          cases hx : s.cfg.xlen <;> simp only [hx] at hj <;> omega
        have h19 : j ≠ bitPcerr := by unfold bitPcerr; omega
        have hg : s.hart.dbg.dcsr.getLsbD j = false := BitVec.getLsbD_of_ge _ _ h32
        have hb : bit (dcsrView s.cfg s.hart) j = false := by
          rw [dcsrView, bit_setBit_other _ _ _ _ h19]
          simp [bit, hg]
        simp [hj, hb]
    cases reach c <;> simp only [Csr.read, trunc_trunc, hh, hd]

theorem trunc_csrRead (s : State) (a : CsrAddr) : trunc s.cfg (csrRead s a) = csrRead s a := trunc_csrReadVia ..

/-- An instruction-retired counter reads the same while no instruction retires and no CSR of `BaseISA` is written (R221; assumption log 26). -/
theorem csrReadVia_retiredCounter {s t : State} {a : CsrAddr} (reach reach' : Csr → Csr)
    (ha : a ∈ s.cfg.retiredCounters) (hb : Csr.ofAddress a = none) (hc : t.cfg = s.cfg)
    (hi : t.hart.hartId = s.hart.hartId) (hr : t.hart.retired = s.hart.retired)
    (hl : t.hart.baseCsrs = s.hart.baseCsrs) : csrReadVia reach' t a = csrReadVia reach s a := by
  have hm : s.cfg.retiredCounters.contains a = true := by simpa using ha
  simp only [csrReadVia, hb, baseCsrValue, hc, hi, hr, hl, hm, if_true]

/-- What a CSR instruction can do (R120 to R125, R138): raise one of two exceptions, or have its effect. -/
theorem csrInstr_cases (i : Instr) (rd : Nat) (a : CsrAddr) (form : CsrForm) (field : Nat) (m : Word) (s : State) :
    (csrAccess s.cfg s.hart a (csrWrites form field) = .illegal
        ∧ csrInstr i rd a form field m s = s.onHart (raiseIllegal s.cfg i))
    ∨ (csrAccess s.cfg s.hart a (csrWrites form field) = .virtualInstruction
        ∧ csrInstr i rd a form field m s = s.onHart (raiseVirtual s.cfg i))
    ∨ (csrAccess s.cfg s.hart a (csrWrites form field) = .granted
        ∧ csrInstr i rd a form field m s
            = s.setHart (retire (advancePc s.cfg (writeReg s.cfg rd (csrRead s a)
                (if csrWrites form field then csrWrite s a (csrNewValue form (csrRead s a) m) else s.hart))))) := by
  unfold csrInstr
  cases csrAccess s.cfg s.hart a (csrWrites form field) <;> simp

end Sys2Proof.Machine
end

