-- ==== Sys2Proof/Laws/Decode.lean ====
section
/-! SUPPORT. The fields of an encoded word, and the bytes of a word joined again. -/

namespace Sys2Proof

/-- Each bit of an I-type word comes from the field that holds it (R102). -/
theorem getLsbD_encodeFields (csr : CsrAddr) (rs1 : Nat) (f : BitVec 3) (rd j : Nat) :
    (encodeFields csr rs1 f rd).getLsbD j
      = if j < 7 then opSystem.getLsbD j
        else if j - 7 < 5 then (BitVec.ofNat 5 rd).getLsbD (j - 7)
        else if j - 7 - 5 < 3 then f.getLsbD (j - 7 - 5)
        else if j - 7 - 5 - 3 < 5 then (BitVec.ofNat 5 rs1).getLsbD (j - 7 - 5 - 3)
        else csr.getLsbD (j - 7 - 5 - 3 - 5) := by
  show BitVec.getLsbD (w := 12 + 5 + 3 + 5 + 7)
    (csr ++ BitVec.ofNat 5 rs1 ++ f ++ BitVec.ofNat 5 rd ++ opSystem) j = _
  simp only [BitVec.getLsbD_append]

/-- Each bit of joined bytes comes from the byte that holds it (R101). -/
theorem getLsbD_joinBytes (b0 b1 b2 b3 : Byte) (j : Nat) :
    (joinBytes b0 b1 b2 b3).getLsbD j
      = if j < 8 then b0.getLsbD j
        else if j - 8 < 8 then b1.getLsbD (j - 8)
        else if j - 8 - 8 < 8 then b2.getLsbD (j - 8 - 8) else b3.getLsbD (j - 8 - 8 - 8) := by
  show BitVec.getLsbD (w := 8 + 8 + 8 + 8) (b3 ++ b2 ++ b1 ++ b0) j = _
  simp only [BitVec.getLsbD_append]

theorem fieldOpcode_encodeFields (csr : CsrAddr) (rs1 : Nat) (f : BitVec 3) (rd : Nat) :
    fieldOpcode (encodeFields csr rs1 f rd) = opSystem := by
  apply BitVec.eq_of_getLsbD_eq
  intro j hj
  simp [fieldOpcode, getLsbD_encodeFields, hj]

theorem lowBits_encodeFields (csr : CsrAddr) (rs1 : Nat) (f : BitVec 3) (rd : Nat) :
    (encodeFields csr rs1 f rd).extractLsb' 0 2 = 0x3#2 := by
  have h : (encodeFields csr rs1 f rd).extractLsb' 0 2 = opSystem.extractLsb' 0 2 := by
    apply BitVec.eq_of_getLsbD_eq
    intro j hj
    have : j < 7 := by omega
    simp [getLsbD_encodeFields, this]
  rw [h]
  decide

theorem fieldFunct3_encodeFields (csr : CsrAddr) (rs1 : Nat) (f : BitVec 3) (rd : Nat) :
    fieldFunct3 (encodeFields csr rs1 f rd) = f := by
  apply BitVec.eq_of_getLsbD_eq
  intro j hj
  have h1 : ¬(12 + j < 7) := by omega
  have h2 : ¬(12 + j - 7 < 5) := by omega
  have h4 : 12 + j - 7 - 5 = j := by omega
  simp [fieldFunct3, getLsbD_encodeFields, hj, h1, h2, h4]

theorem fieldRd_encodeFields (csr : CsrAddr) (rs1 : Nat) (f : BitVec 3) {rd : Nat} (h : rd < 32) :
    fieldRd (encodeFields csr rs1 f rd) = rd := by
  have hv : (encodeFields csr rs1 f rd).extractLsb' 7 5 = BitVec.ofNat 5 rd := by
    apply BitVec.eq_of_getLsbD_eq
    intro j hj
    have h1 : ¬(7 + j < 7) := by omega
    have h2 : 7 + j - 7 = j := by omega
    simp [getLsbD_encodeFields, hj, h1, h2]
  rw [fieldRd, hv, BitVec.toNat_ofNat]
  exact Nat.mod_eq_of_lt h

theorem fieldRs1_encodeFields (csr : CsrAddr) {rs1 : Nat} (f : BitVec 3) (rd : Nat) (h : rs1 < 32) :
    fieldRs1 (encodeFields csr rs1 f rd) = rs1 := by
  have hv : (encodeFields csr rs1 f rd).extractLsb' 15 5 = BitVec.ofNat 5 rs1 := by
    apply BitVec.eq_of_getLsbD_eq
    intro j hj
    have h1 : ¬(15 + j < 7) := by omega
    have h2 : ¬(15 + j - 7 < 5) := by omega
    have h3 : ¬(15 + j - 7 - 5 < 3) := by omega
    have h4 : 15 + j - 7 - 5 - 3 = j := by omega
    simp [getLsbD_encodeFields, hj, h1, h2, h3, h4]
  rw [fieldRs1, hv, BitVec.toNat_ofNat]
  exact Nat.mod_eq_of_lt h

theorem fieldCsr_encodeFields (csr : CsrAddr) (rs1 : Nat) (f : BitVec 3) (rd : Nat) :
    fieldCsr (encodeFields csr rs1 f rd) = csr := by
  apply BitVec.eq_of_getLsbD_eq
  intro j hj
  have h1 : ¬(20 + j < 7) := by omega
  have h2 : ¬(20 + j - 7 < 5) := by omega
  have h3 : ¬(20 + j - 7 - 5 < 3) := by omega
  have h4 : ¬(20 + j - 7 - 5 - 3 < 5) := by omega
  have h5 : 20 + j - 7 - 5 - 3 - 5 = j := by omega
  simp [fieldCsr, getLsbD_encodeFields, hj, h1, h2, h3, h4, h5]

/-- The four bytes of a word, joined, are the word. -/
theorem joinBytes_wordBytes (w : BitVec 32) :
    joinBytes (w.extractLsb' 0 8) (w.extractLsb' 8 8) (w.extractLsb' 16 8) (w.extractLsb' 24 8) = w := by
  apply BitVec.eq_of_getLsbD_eq
  intro j hj
  simp only [getLsbD_joinBytes, BitVec.getLsbD_extractLsb']
  by_cases h0 : j < 8
  · simp [h0]
  · by_cases h1 : j - 8 < 8
    · have : 8 + (j - 8) = j := by omega
      simp [h0, h1, this]
    · by_cases h2 : j - 8 - 8 < 8
      · have : 16 + (j - 8 - 8) = j := by omega
        simp [h0, h1, h2, this]
      · have h3 : j - 8 - 8 - 8 < 8 := by omega
        have : 24 + (j - 8 - 8 - 8) = j := by omega
        simp [h0, h1, h2, h3, this]

/-- Decoding the bytes of a word decodes the word, and leaves what follows. -/
theorem decode_wordBytes (w : BitVec 32) (rest : List Byte) :
    decode (wordBytes w ++ rest) = (decodeWord w).map (fun i => (i, rest)) := by
  simp only [wordBytes, List.cons_append, List.nil_append, decode, joinBytes_wordBytes]
  cases decodeWord w <;> rfl

end Sys2Proof
end

