-- ==== Sys2Proof/Laws/Memory.lean ====
section
/-! SUPPORT. The laws of the byte memory: a read after a write, and every write keeps the canonical form. -/

namespace Sys2Proof.Machine

/-- A read after a write: the written byte at its address, every other address as before. -/
theorem readByte_writeByte (m : Memory) (a b : Nat) (v : Byte) :
    readByte (writeByte m a v) b = if b = a then some v else readByte m b := by
  induction m with
  | nil => by_cases h : b = a <;> simp [writeByte, readByte, h, eq_comm (a := a)]
  | cons c m ih =>
    obtain ⟨d, w⟩ := c
    unfold writeByte
    split
    · by_cases h : b = a <;> simp [readByte, h, eq_comm (a := a)]
    · split
      · rename_i h
        subst h
        by_cases h : b = a <;> simp [readByte, h, eq_comm (a := a)]
      · rename_i h
        by_cases hb : d = b
        · subst hb
          simp [readByte, Ne.symm h]
        · simp [readByte, hb, ih]

/-- Every address of a write into a memory all of whose addresses are above `d` is above `d`, if `a` is. -/
theorem lt_of_mem_writeByte {m : Memory} {d a : Nat} {v : Byte} (hd : d < a) (hm : ∀ p ∈ m, d < p.1) :
    ∀ p ∈ writeByte m a v, d < p.1 := by
  induction m with
  | nil => simpa [writeByte] using hd
  | cons c m ih =>
    obtain ⟨e, w⟩ := c
    simp only [List.mem_cons, forall_eq_or_imp] at hm
    unfold writeByte
    split
    · simpa [hd] using hm
    · split
      · simpa [hd] using hm.2
      · simpa [hm.1] using ih hm.2

/-- A write keeps the canonical form. -/
theorem writeByte_wf {m : Memory} (h : m.wf) (a : Nat) (v : Byte) : (writeByte m a v).wf := by
  induction m with
  | nil => simp [writeByte]
  | cons c m ih =>
    obtain ⟨d, w⟩ := c
    rw [Memory.wf, List.pairwise_cons] at h
    unfold writeByte
    split
    · rename_i hlt
      refine List.pairwise_cons.2 ⟨?_, List.pairwise_cons.2 h⟩
      simp only [List.mem_cons, forall_eq_or_imp]
      exact ⟨hlt, fun p hp => Nat.lt_trans hlt (h.1 p hp)⟩
    · split
      · rename_i he
        subst he
        exact List.pairwise_cons.2 h
      · rename_i h1 h2
        exact List.pairwise_cons.2 ⟨lt_of_mem_writeByte (by omega) h.1, ih h.2⟩

theorem writeCells_wf {m : Memory} (h : m.wf) (cfg : Config) (l : List Host.Cell) :
    (writeCells cfg m l).wf := by
  induction l generalizing m with
  | nil => exact h
  | cons c l ih => exact ih (writeByte_wf h _ _)

theorem writeBytes_wf {m : Memory} (h : m.wf) (cfg : Config) (a : Nat) (l : List Byte) :
    (writeBytes cfg m a l).wf := by
  induction l generalizing m a with
  | nil => exact h
  | cons b l ih => exact ih (writeByte_wf h _ _) _

/-- A list of stores reaches no byte but those it names. -/
theorem readByte_writeCells {cfg : Config} {m : Memory} {l : List Host.Cell} {a : Nat}
    (h : ∀ p ∈ l, p.1 % addressCount cfg ≠ a) :
    readByte (writeCells cfg m l) a = readByte m a := by
  induction l generalizing m with
  | nil => rfl
  | cons p l ih =>
    obtain ⟨r, v⟩ := p
    show readByte (writeCells cfg (writeByte m (r % addressCount cfg) v) l) a = _
    rw [ih (fun p hp => h p (List.mem_cons_of_mem _ hp)), readByte_writeByte]
    have : a ≠ r % addressCount cfg := fun e => h (r, v) List.mem_cons_self e.symm
    simp [this]

theorem writeCells_append (cfg : Config) (m : Memory) (k l : List Host.Cell) :
    writeCells cfg m (k ++ l) = writeCells cfg (writeCells cfg m k) l := by
  induction k generalizing m with
  | nil => rfl
  | cons p k ih => exact ih _

/-- The last store to an address is what it holds. -/
theorem readByte_writeCells_last {cfg : Config} {m : Memory} {k l : List Host.Cell} {a : Nat} {v : Byte}
    (h : ∀ p ∈ l, p.1 % addressCount cfg ≠ a % addressCount cfg) :
    readByte (writeCells cfg m (k ++ (a, v) :: l)) (a % addressCount cfg) = some v := by
  rw [writeCells_append]
  show readByte (writeCells cfg (writeByte _ (a % addressCount cfg) v) l) _ = _
  rw [readByte_writeCells h, readByte_writeByte, if_pos rfl]

end Sys2Proof.Machine
end

