-- ==== Sys2Proof/Laws/PerInstr.lean ====
section
/-! SUPPORT. Statements made per instruction, one lemma per constructor of `Instr`. -/

namespace Sys2Proof.Laws

/-- R101, R102: the word of the instruction has the major opcode SYSTEM. -/
def SystemWord.Statement (i : Instr) : Prop := fieldOpcode (encode i) = opSystem

theorem SystemWord.csrrw (rd : Nat) (csr : CsrAddr) (rs1 : Nat) : SystemWord.Statement (.csrrw rd csr rs1) :=
  fieldOpcode_encodeFields csr rs1 _ rd

theorem SystemWord.csrrs (rd : Nat) (csr : CsrAddr) (rs1 : Nat) : SystemWord.Statement (.csrrs rd csr rs1) :=
  fieldOpcode_encodeFields csr rs1 _ rd

theorem SystemWord.csrrc (rd : Nat) (csr : CsrAddr) (rs1 : Nat) : SystemWord.Statement (.csrrc rd csr rs1) :=
  fieldOpcode_encodeFields csr rs1 _ rd

theorem SystemWord.csrrwi (rd : Nat) (csr : CsrAddr) (uimm : Nat) : SystemWord.Statement (.csrrwi rd csr uimm) :=
  fieldOpcode_encodeFields csr uimm _ rd

theorem SystemWord.csrrsi (rd : Nat) (csr : CsrAddr) (uimm : Nat) : SystemWord.Statement (.csrrsi rd csr uimm) :=
  fieldOpcode_encodeFields csr uimm _ rd

theorem SystemWord.csrrci (rd : Nat) (csr : CsrAddr) (uimm : Nat) : SystemWord.Statement (.csrrci rd csr uimm) :=
  fieldOpcode_encodeFields csr uimm _ rd

theorem SystemWord.ecall : SystemWord.Statement .ecall := by unfold SystemWord.Statement; decide

theorem SystemWord.sret : SystemWord.Statement .sret := by unfold SystemWord.Statement; decide

theorem SystemWord.mret : SystemWord.Statement .mret := by unfold SystemWord.Statement; decide

theorem SystemWord.mnret : SystemWord.Statement .mnret := by unfold SystemWord.Statement; decide

theorem SystemWord.dret : SystemWord.Statement .dret := by unfold SystemWord.Statement; decide

end Sys2Proof.Laws
end

