-- ==== Sys2Proof/Laws/Trap.lean ====
section
/-! SUPPORT. What taking a trap can do, said once: the case lemmas of `takeTrap` and `takeTrapM`. -/

namespace Sys2Proof.Machine

open Sys2Proof.Safety

/-- The three outcomes of a trap into M-mode (R181, R194, R197), with what decides between them. -/
theorem takeTrapM_cases (cfg : Config) (m : TrapImage) (h : Hart) :
    (mLevelCritical cfg m.intr h = false ∧ takeTrapM cfg m h = deliverM cfg m h)
    ∨ (mLevelCritical cfg m.intr h = true ∧ cfg.hasSmrnmi = true ∧ nmie h = true
        ∧ takeTrapM cfg m h = invokeRnmi cfg m h)
    ∨ (mLevelCritical cfg m.intr h = true ∧ (cfg.hasSmrnmi && nmie h) = false
        ∧ takeTrapM cfg m h = enterCriticalError h) := by
  unfold takeTrapM criticalErrorCondition
  cases hc : mLevelCritical cfg m.intr h
  · exact .inl ⟨rfl, by simp⟩
  · cases hs : cfg.hasSmrnmi <;> cases hn : nmie h <;> simp

/-- The outcomes of a trap by destination (R172). -/
theorem takeTrap_cases (cfg : Config) (t : TrapRequest) (h : Hart) :
    (dest cfg h t.intr t.code = .vs ∧ vsSdt cfg h = false ∧ takeTrap cfg t h = deliverVs cfg t h)
    ∨ (dest cfg h t.intr t.code = .hs ∧ sdt cfg h = false ∧ takeTrap cfg t h = deliverHs cfg t h)
    ∨ (dest cfg h t.intr t.code = .m ∧ takeTrap cfg t h = takeTrapM cfg (img cfg t) h)
    ∨ (doubleTrap cfg t h ∧ takeTrap cfg t h = takeTrapM cfg (dbl cfg t) h) := by
  unfold takeTrap doubleTrap
  cases hd : dest cfg h t.intr t.code
  · simp
  · cases hs : sdt cfg h <;> simp
  · cases hs : vsSdt cfg h <;> simp

/-- A trap goes to VS-mode only from a mode with `V` = 1 below M, and to HS-mode only from below M (R173). -/
theorem dest_cases (cfg : Config) (h : Hart) (intr : Bool) (code : Word) :
    dest cfg h intr code = .m
    ∨ (dest cfg h intr code = .hs ∧ h.priv ≠ .m ∧ cfg.hasS = true)
    ∨ (dest cfg h intr code = .vs ∧ h.priv ≠ .m ∧ cfg.hasS = true ∧ h.virt = true ∧ cfg.hasH = true) := by
  unfold dest
  simp only []
  generalize (if intr = true then delegated h.m.ideleg code else delegated (delegView h.m.edeleg) code) = dm
  generalize (if intr = true then delegated h.hs.ideleg code else delegated (delegView h.hs.edeleg) code) = dh
  split
  · exact .inl rfl
  · rename_i hn
    have h1 : h.priv ≠ .m := fun e => hn (.inl e)
    have h2 : cfg.hasS = true := by
      cases hs : cfg.hasS
      · exact absurd (.inr (.inr hs)) hn
      · rfl
    split
    · rename_i hv
      simp only [Bool.and_eq_true] at hv
      exact .inr (.inr ⟨rfl, h1, h2, hv.1, hv.2.1⟩)
    · exact .inr (.inl ⟨rfl, h1, h2⟩)

/-- A trap changes no integer register, no debug register, no input line, no hart identifier, no CSR of `BaseISA` (R20) and no count of retired instructions (R170). -/
theorem takeTrapM_frame (cfg : Config) (m : TrapImage) (h : Hart) :
    (takeTrapM cfg m h).x = h.x ∧ (takeTrapM cfg m h).dbg = h.dbg ∧ (takeTrapM cfg m h).irq = h.irq
      ∧ (takeTrapM cfg m h).haltreq = h.haltreq ∧ (takeTrapM cfg m h).hartId = h.hartId
      ∧ (takeTrapM cfg m h).baseCsrs = h.baseCsrs ∧ (takeTrapM cfg m h).retired = h.retired
      ∧ (takeTrapM cfg m h).s = h.s
      ∧ (takeTrapM cfg m h).vs = h.vs ∧ (takeTrapM cfg m h).hs = h.hs := by
  rcases takeTrapM_cases cfg m h with ⟨_, e⟩ | ⟨_, _, _, e⟩ | ⟨_, _, e⟩ <;> rw [e] <;> simp

theorem takeTrap_frame (cfg : Config) (t : TrapRequest) (h : Hart) :
    (takeTrap cfg t h).x = h.x ∧ (takeTrap cfg t h).dbg = h.dbg ∧ (takeTrap cfg t h).irq = h.irq
      ∧ (takeTrap cfg t h).haltreq = h.haltreq ∧ (takeTrap cfg t h).hartId = h.hartId
      ∧ (takeTrap cfg t h).baseCsrs = h.baseCsrs ∧ (takeTrap cfg t h).retired = h.retired := by
  rcases takeTrap_cases cfg t h with ⟨_, _, e⟩ | ⟨_, _, e⟩ | ⟨_, e⟩ | ⟨_, e⟩
  · rw [e]; simp
  · rw [e]; simp
  · rw [e]; have := takeTrapM_frame cfg (img cfg t) h; tauto
  · rw [e]; have := takeTrapM_frame cfg (dbl cfg t) h; tauto

/-- A trap that is not delivered into M-mode keeps the M-level registers, and one that is delivered there finds `MDT` 0 (R190, R194, R197). -/
theorem takeTrapM_m (cfg : Config) (m : TrapImage) (h : Hart) :
    (takeTrapM cfg m h).m = h.m ∨ (mdt cfg h = false ∧ takeTrapM cfg m h = deliverM cfg m h) := by
  rcases takeTrapM_cases cfg m h with ⟨hc, e⟩ | ⟨_, _, _, e⟩ | ⟨_, _, e⟩
  · refine .inr ⟨?_, e⟩
    unfold mLevelCritical at hc
    unfold mdt at hc ⊢
    cases hs : cfg.hasSmdbltrp
    · rfl
    · simp only [hs, Bool.true_and, Bool.or_eq_false_iff] at hc ⊢
      exact hc.1
  · rw [e]; simp
  · rw [e]; simp

/-- The bits of `mcause_of` (R171): `Interrupt` at `XLEN`-1, the code below it. -/
theorem bit_mcauseOf (cfg : Config) (intr : Bool) (code : Word) (j : Nat) :
    bit (mcauseOf cfg intr code) j
      = if j = xlenBits cfg - 1 then intr || bit code j else decide (j < xlenBits cfg - 1) && bit code j := by
  have hx : xlenBits cfg - 1 < 64 ∧ 0 < xlenBits cfg := by unfold xlenBits; cases cfg.xlen <;> decide
  rw [mcauseOf, bit_trunc, bit_or]
  by_cases hj : j = xlenBits cfg - 1
  · have : j < xlenBits cfg := by omega
    simp only [hj, if_true]
    have h2 : xlenBits cfg - 1 < xlenBits cfg := by omega
    cases intr <;> simp [h2, bit, hx.1]
  · have he : (j < xlenBits cfg) = (j < xlenBits cfg - 1) := by rw [eq_iff_iff]; omega
    have hne : ¬(xlenBits cfg - 1 = j) := fun e => hj e.symm
    simp only [hj, if_false, he]
    cases intr <;> simp [bit, BitVec.getLsbD_twoPow, hne]

/-- Outside `Running` an exception or interrupt changes nothing (R170, R198, R216). -/
theorem raise_of_not_running (cfg : Config) (t : TrapRequest) {h : Hart} (hr : h.run ≠ .running) :
    raise cfg t h = h := by
  unfold raise
  cases hh : h.run <;> simp_all

theorem raise_of_running (cfg : Config) (t : TrapRequest) {h : Hart} (hr : h.run = .running) :
    raise cfg t h = takeTrap cfg t h := by
  simp [raise, hr]

end Sys2Proof.Machine
end

