-- ==== Sys2Proof/Laws/Steps.lean ====
section
/-! SUPPORT. What one step can do, said once: the operations a hart undergoes (`HartOp`), and how a step of the machine is made of them. -/

namespace Sys2Proof.Machine

open Sys2Proof.Safety

/-- A trap request as the model makes them: `epc` is the active hart's `pc`, the values `XLEN` bits wide (R171). -/
def RequestOk (cfg : Config) (t : TrapRequest) (h : Hart) : Prop :=
  t.epc = h.pc ∧ xlenWide cfg t.code ∧ xlenWide cfg t.tval ∧ xlenWide cfg t.tval2 ∧ xlenWide cfg t.tinst

/-- One elementary change of a hart other than a reset, with the guard it happens under. -/
inductive HartOp (cfg : Config) : Hart → Hart → Prop where
  | trap {h : Hart} {t : TrapRequest} (hr : h.run = .running) (ht : RequestOk cfg t h) : HartOp cfg h (takeTrap cfg t h)
  | reg {h : Hart} {r : Nat} {v : Word} : HartOp cfg h (writeReg cfg r v h)
  | jump {h : Hart} {v : Word} : HartOp cfg h { h with pc := alignPc cfg v }
  | advance {h : Hart} : HartOp cfg h (advancePc cfg h)
  | retire {h : Hart} : HartOp cfg h (retire h)
  | csr {h : Hart} {c : Csr} {v : Word} (hv : xlenWide cfg v) : HartOp cfg h (Csr.write cfg h v c)
  | base {h : Hart} {l : List (Nat × Word)} : HartOp cfg h { h with baseCsrs := l }
  | extension {h : Hart} {st vst : Word} : HartOp cfg h (setExtensionState st vst h)
  | mret {h : Hart} (hp : h.priv = .m) : HartOp cfg h (returnM cfg h)
  | sretHs {h : Hart} (hp : h.priv ≠ .u) (hv : h.virt = false) : HartOp cfg h (returnHs cfg h)
  | sretVs {h : Hart} (hp : h.priv ≠ .u) (hv : h.virt = true) : HartOp cfg h (returnVs h)
  | mnret {h : Hart} (hp : h.priv = .m) (hn : cfg.hasSmrnmi = true) : HartOp cfg h (returnNm cfg h)
  | resume {h : Hart} (hr : h.run = .debugMode) : HartOp cfg h (resume cfg h)
  | halt {h : Hart} {c : BitVec 3} (hr : h.run = .running) (hd : cfg.hasDebug = true) : HartOp cfg h (enterDebug cfg c h)
  | haltCritical {h : Hart} (hr : h.run = .criticalError) (hd : cfg.hasSddbltrp = true) : HartOp cfg h (enterDebug cfg 0x3#3 h)
  | rnmi {h : Hart} {c : Word} : HartOp cfg h (takeRnmi cfg c h)
  | nmi {h : Hart} {c : Word} : HartOp cfg h (takeNmi cfg c h)
  | irq {h : Hart} {w : Word} : HartOp cfg h { h with irq := w }
  | haltreq {h : Hart} {b : Bool} : HartOp cfg h { h with haltreq := b }

/-- Some of them in a row. -/
inductive HartOps (cfg : Config) : Hart → Hart → Prop where
  | done {h : Hart} : HartOps cfg h h
  | more {h h' h'' : Hart} (o : HartOp cfg h h') (r : HartOps cfg h' h'') : HartOps cfg h h''

theorem HartOps.one {cfg : Config} {h h' : Hart} (o : HartOp cfg h h') : HartOps cfg h h' := .more o .done

theorem HartOps.trans {cfg : Config} {h h' h'' : Hart} (a : HartOps cfg h h') (b : HartOps cfg h' h'') :
    HartOps cfg h h'' := by
  induction a with
  | done => exact b
  | more o _ ih => exact .more o (ih b)

/-- What every elementary change keeps, a row of them keeps. -/
theorem HartOps.keeps {cfg : Config} {P : Hart → Prop} (hP : ∀ h h', HartOp cfg h h' → P h → P h')
    {h h' : Hart} (a : HartOps cfg h h') (hp : P h) : P h' := by
  induction a with
  | done => exact hp
  | more o _ ih => exact ih (hP _ _ o hp)

theorem raise_ops {cfg : Config} {t : TrapRequest} {h : Hart} (ht : RequestOk cfg t h) :
    HartOps cfg h (raise cfg t h) := by
  by_cases hr : h.run = .running
  · rw [raise_of_running cfg t hr]; exact .one (.trap hr ht)
  · rw [raise_of_not_running cfg t hr]; exact .done

theorem xlenWide_zero (cfg : Config) : xlenWide cfg 0#64 := by
  apply eq_of_bits; intro j; simp [bit_trunc]

/-- A word of at most 32 bits is an `XLEN`-bit value. -/
theorem xlenWide_of_lt {cfg : Config} {w : Word} (h : w.toNat < 2 ^ 32) : xlenWide cfg w := by
  apply eq_of_bits
  intro j
  rw [bit_trunc]
  by_cases hj : j < xlenBits cfg
  · simp [hj]
  · have h32 : 32 ≤ j := by
      unfold xlenBits at hj
      cases hx : cfg.xlen <;> simp only [hx] at hj <;> omega
    have : bit w j = false := by
      rw [bit, BitVec.getLsbD, Nat.testBit_lt_two_pow]
      exact Nat.lt_of_lt_of_le h (Nat.pow_le_pow_right (by decide) h32)
    simp [this]

theorem xlenWide_illegalTval (cfg : Config) (i : Instr) : xlenWide cfg (illegalTval cfg i) := by
  unfold illegalTval
  split
  · apply xlenWide_of_lt
    rw [BitVec.toNat_setWidth]
    exact Nat.lt_of_le_of_lt (Nat.mod_le _ _) (encode i).isLt
  · exact xlenWide_zero cfg

theorem exceptionAt_ok {cfg : Config} {h : Hart} {code tval : Word} (hc : code.toNat < 2 ^ 32)
    (hv : xlenWide cfg tval) : RequestOk cfg (exceptionAt h code tval) h :=
  ⟨rfl, xlenWide_of_lt hc, hv, xlenWide_zero cfg, xlenWide_zero cfg⟩

theorem raiseIllegal_ops (cfg : Config) (i : Instr) (h : Hart) : HartOps cfg h (raiseIllegal cfg i h) :=
  raise_ops (exceptionAt_ok (by decide) (xlenWide_illegalTval cfg i))

theorem raiseVirtual_ops (cfg : Config) (i : Instr) (h : Hart) : HartOps cfg h (raiseVirtual cfg i h) :=
  raise_ops (exceptionAt_ok (by decide) (xlenWide_illegalTval cfg i))

theorem csrWriteVia_ops (reach : Csr → Csr) (s : State) (a : CsrAddr) (v : Word) :
    HartOps s.cfg s.hart (csrWriteVia reach s a v) := by
  unfold csrWriteVia
  cases Csr.ofAddress a with
  | none => exact .one .base
  | some c => exact .one (.csr (trunc_trunc _ _))

/-- What an instruction of the table can do (R80): it changes the active hart only. -/
theorem csrInstr_ops (i : Instr) (rd : Nat) (a : CsrAddr) (form : CsrForm) (field : Nat) (m : Word) (s : State) :
    ∃ h, csrInstr i rd a form field m s = s.setHart h ∧ HartOps s.cfg s.hart h := by
  rcases csrInstr_cases i rd a form field m s with ⟨_, e⟩ | ⟨_, e⟩ | ⟨_, e⟩ <;> rw [e]
  · exact ⟨_, rfl, raiseIllegal_ops ..⟩
  · exact ⟨_, rfl, raiseVirtual_ops ..⟩
  · refine ⟨_, rfl, ?_⟩
    refine HartOps.trans ?_ (.more .reg (.more .advance (.one .retire)))
    split
    · exact csrWriteVia_ops _ s a _
    · exact .done

theorem exec_ops (i : Instr) (s : State) :
    ∃ h, exec i s = .next (s.setHart h) ∧ HartOps s.cfg s.hart h := by
  have csr : ∀ j rd a form field m,
      ∃ h, (Host.Outcome.next (csrInstr j rd a form field m s) : Host.Outcome State Fault Refusal)
        = .next (s.setHart h) ∧ HartOps s.cfg s.hart h := fun j rd a form field m => by
    obtain ⟨h, e, o⟩ := csrInstr_ops j rd a form field m s
    exact ⟨h, by rw [e], o⟩
  cases i with
  | csrrw rd a rs1 => exact csr ..
  | csrrs rd a rs1 => exact csr ..
  | csrrc rd a rs1 => exact csr ..
  | csrrwi rd a uimm => exact csr ..
  | csrrsi rd a uimm => exact csr ..
  | csrrci rd a uimm => exact csr ..
  | ecall =>
    refine ⟨_, rfl, raise_ops (exceptionAt_ok ?_ (xlenWide_zero _))⟩
    unfold ecallCode
    cases s.hart.priv <;> cases s.hart.virt <;> decide
  | sret =>
    show ∃ h, execSret s = _ ∧ _
    unfold execSret
    split
    · exact ⟨_, rfl, raiseIllegal_ops ..⟩
    · split
      · exact ⟨_, rfl, raiseIllegal_ops ..⟩
      · split
        · exact ⟨_, rfl, raiseVirtual_ops ..⟩
        · split
          · exact ⟨_, rfl, .more (.sretVs ‹_› ‹_›) (.one .retire)⟩
          · exact ⟨_, rfl, .more (.sretHs ‹_› (by simp_all)) (.one .retire)⟩
  | mret =>
    show ∃ h, execMret s = _ ∧ _
    unfold execMret
    split
    · exact ⟨_, rfl, .more (.mret ‹_›) (.one .retire)⟩
    · exact ⟨_, rfl, raiseIllegal_ops ..⟩
  | mnret =>
    show ∃ h, execMnret s = _ ∧ _
    unfold execMnret
    split
    · rename_i hc
      exact ⟨_, rfl, .more (.mnret hc.1 hc.2) (.one .retire)⟩
    · exact ⟨_, rfl, raiseIllegal_ops ..⟩
  | dret =>
    show ∃ h, execDret s = _ ∧ _
    unfold execDret
    split
    · exact ⟨_, rfl, .more (.resume ‹_›) (.one .retire)⟩
    · exact ⟨_, rfl, raiseIllegal_ops ..⟩

theorem writeRegs_ops (cfg : Config) (l : List (Nat × Word)) (h : Hart) : HartOps cfg h (writeRegs cfg l h) := by
  induction l generalizing h with
  | nil => exact .done
  | cons p l ih => exact .more .reg (ih _)

/-- The code of an exception of `BaseISA` has no bit from `XLEN`-1 on, and is never 16 (R38, R189). -/
theorem baseCode_bits (cfg : Config) (code : Word) :
    baseCode cfg code ≠ doubleTrapCode ∧ ∀ j, xlenBits cfg - 1 ≤ j → bit (baseCode cfg code) j = false := by
  unfold baseCode
  simp only []
  split
  · refine ⟨by decide, fun j hj => ?_⟩
    have : 31 ≤ j := by unfold xlenBits at hj; cases hx : cfg.xlen <;> simp only [hx] at hj <;> omega
    rw [bit, BitVec.getLsbD, Nat.testBit_lt_two_pow]
    exact Nat.lt_of_lt_of_le (by decide : (2 : Nat) < 2 ^ 31) (Nat.pow_le_pow_right (by decide) this)
  · refine ⟨‹_›, fun j hj => ?_⟩
    rw [bit_setBit, bit_trunc]
    by_cases he : j = xlenBits cfg - 1
    · have : xlenBits cfg - 1 < 64 := by unfold xlenBits; cases cfg.xlen <;> decide
      simp [he, this]
    · have : ¬j < xlenBits cfg := by omega
      simp [this]

theorem xlenWide_baseCode (cfg : Config) (code : Word) : xlenWide cfg (baseCode cfg code) := by
  apply eq_of_bits
  intro j
  rw [bit_trunc]
  by_cases hj : j < xlenBits cfg
  · simp [hj]
  · simp [hj, (baseCode_bits cfg code).2 j (by omega)]

theorem baseRequest_ok (cfg : Config) (h : Hart) (code tval tval2 tinst : Word) (g : Bool) :
    RequestOk cfg (baseRequest cfg h code tval tval2 tinst g) h :=
  ⟨rfl, xlenWide_baseCode cfg code, trunc_trunc _ _,
    by unfold baseRequest; simp only []; split; exacts [trunc_trunc _ _, xlenWide_zero cfg], trunc_trunc _ _⟩

theorem otherDebugEntry_ops (s : State) (c : BitVec 3) :
    ∃ h, otherDebugEntry s c = s.setHart h ∧ HartOps s.cfg s.hart h := by
  unfold otherDebugEntry
  split
  · rename_i hc
    exact ⟨_, rfl, .one (.halt hc.1 hc.2)⟩
  · exact ⟨s.hart, rfl, .done⟩

/-- What `t` can differ from `s` in where only the active hart, memory and the DM moved. -/
def hartMoved (s t : State) : Prop :=
  t.cfg = s.cfg ∧ t.parked = s.parked ∧ t.events = s.events ∧ t.ticks = s.ticks ∧ HartOps s.cfg s.hart t.hart

theorem hartMoved_setHart {s : State} {h : Hart} (o : HartOps s.cfg s.hart h) : hartMoved s (s.setHart h) :=
  ⟨rfl, rfl, rfl, rfl, o⟩

theorem applyBase_moved (s : State) (r : BaseResult) : hartMoved s (applyBase s r) := by
  cases r with
  | retire pc regs stores csrs st vst =>
    exact ⟨rfl, rfl, rfl, rfl, (writeRegs_ops s.cfg regs s.hart).trans (.more .jump (.more .base (.more .extension (.one .retire))))⟩
  | exception code tval tval2 tinst g => exact hartMoved_setHart (raise_ops (baseRequest_ok ..))
  | debugEntry c =>
    obtain ⟨h, e, o⟩ := otherDebugEntry_ops s c
    show hartMoved s (otherDebugEntry s c)
    rw [e]
    exact hartMoved_setHart o

theorem execWord_moved {w : BitVec 32} {s t : State} (e : execWord w s = .next t) : hartMoved s t := by
  unfold execWord at e
  split at e
  · rename_i i _
    obtain ⟨h, e', o⟩ := exec_ops i s
    rw [e'] at e
    cases e
    exact hartMoved_setHart o
  · cases e
    exact applyBase_moved ..

theorem interruptRequest_ok (cfg : Config) (h : Hart) {c : Nat} (hc : c < 2 ^ 32) :
    RequestOk cfg (interruptRequest h c) h := by
  refine ⟨rfl, xlenWide_of_lt ?_, xlenWide_zero cfg, xlenWide_zero cfg, xlenWide_zero cfg⟩
  show (BitVec.ofNat 64 c).toNat < 2 ^ 32
  rw [BitVec.toNat_ofNat]
  omega

/-- Only a code of the order of R204 that can be taken is ever selected. -/
theorem selectedInterrupt_mem {cfg : Config} {h : Hart} {c : Nat} (e : selectedInterrupt cfg h = some c) :
    c ∈ interruptOrder cfg ∧ ∃ d, takeable cfg h d c = true := by
  have found : ∀ d, (interruptOrder cfg).find? (takeable cfg h d) = some c →
      c ∈ interruptOrder cfg ∧ ∃ d, takeable cfg h d c = true :=
    fun d hf => ⟨List.mem_of_find?_eq_some hf, d, List.find?_some hf⟩
  unfold selectedInterrupt at e
  split at e
  · cases e
  · split at e
    · rename_i hf; cases e; exact found _ hf
    · split at e
      · rename_i hf; cases e; exact found _ hf
      · exact found _ e

/-- A selected code is the number of an interrupt line. -/
theorem selectedInterrupt_lt {cfg : Config} {h : Hart} {c : Nat} (e : selectedInterrupt cfg h = some c) : c < 64 := by
  obtain ⟨_, d, ht⟩ := selectedInterrupt_mem e
  unfold takeable at ht
  simp only [Bool.and_eq_true] at ht
  by_contra hc
  rw [bit_ge _ _ (by omega)] at ht
  exact absurd ht.1.1 (by decide)

/-- What a running hart's turn can be (R211, R203, R204): a halt, an interrupt, or its instruction's own outcome. -/
theorem boundaryStep_cases (s : State) (instr : Host.Outcome State Fault Refusal) :
    ((s.hart.haltreq && s.cfg.hasDebug) = true ∧ boundaryStep s instr = .next (s.onHart (enterDebug s.cfg 0x3#3)))
    ∨ ((s.hart.haltreq && s.cfg.hasDebug) = false ∧ ∃ c, selectedInterrupt s.cfg s.hart = some c
        ∧ boundaryStep s instr = .next (s.onHart (raise s.cfg (interruptRequest s.hart c))))
    ∨ ((s.hart.haltreq && s.cfg.hasDebug) = false ∧ selectedInterrupt s.cfg s.hart = none
        ∧ boundaryStep s instr = instr) := by
  unfold boundaryStep
  cases hh : (s.hart.haltreq && s.cfg.hasDebug)
  · cases hi : selectedInterrupt s.cfg s.hart <;> simp
  · simp

theorem boundaryStep_moved {s t : State} {instr : Host.Outcome State Fault Refusal} (hr : s.hart.run = .running)
    (hi : instr = .next t → hartMoved s t) (e : boundaryStep s instr = .next t) : hartMoved s t := by
  rcases boundaryStep_cases s instr with ⟨hc, e'⟩ | ⟨_, c, hc, e'⟩ | ⟨_, _, e'⟩ <;> rw [e'] at e
  · simp only [Bool.and_eq_true] at hc
    cases e
    exact hartMoved_setHart (.one (.halt hr hc.2))
  · cases e
    exact hartMoved_setHart (raise_ops (interruptRequest_ok _ _ (Nat.lt_trans (selectedInterrupt_lt hc) (by decide))))
  · exact hi e

theorem hartStep_moved {s t : State} (e : hartStep s = .next t) : hartMoved s t := by
  unfold hartStep at e
  split at e
  · refine boundaryStep_moved ‹_› (fun e => ?_) e
    unfold fetchExec at e
    split at e
    · cases e
    · exact execWord_moved e
  · rename_i hr
    cases e
    unfold criticalStep
    split
    · rename_i hc
      simp only [Bool.and_eq_true] at hc
      exact hartMoved_setHart (.one (.haltCritical hr hc.2))
    · exact ⟨rfl, rfl, rfl, rfl, .done⟩
  · cases e
    exact ⟨rfl, rfl, rfl, rfl, .done⟩

theorem exceptionStep_moved {s t : State} {r : TrapRequest} (ht : RequestOk s.cfg r s.hart)
    (e : exceptionStep s r = .next t) : hartMoved s t := by
  unfold exceptionStep at e
  split at e
  · refine boundaryStep_moved ‹_› (fun e => ?_) e
    cases e
    exact hartMoved_setHart (raise_ops ht)
  · cases e
    exact ⟨rfl, rfl, rfl, rfl, .done⟩

/-- A debugger's write to a DM register changes the Debug Module only, and one to `dmstatus` nothing (R49, R107). -/
theorem dmRegisterWrite_frame (s : State) (number : Nat) (v : BitVec 32) :
    dmRegisterWrite s number v = { s with dm := (dmRegisterWrite s number v).dm }
      ∧ (number = DmRegister.dmstatus.number → dmRegisterWrite s number v = s) := by
  refine ⟨?_, fun e => by subst e; rfl⟩
  unfold dmRegisterWrite
  split <;> rfl

/-- What an event can do: the active hart moves, two harts change places, harts are reset, or the schedule is a new one. -/
inductive EventMoves (e : Event) (s t : State) : Prop where
  | hart (he : resets e = false ∨ HartOps s.cfg s.hart t.hart) (m : hartMoved s t)
  | swap (n : Nat) (h : Hart) (he : e = .select n) (hn : s.parked[n]? = some h)
      (ht : t = { s with hart := h, parked := s.parked.set n s.hart })
  | resetHart (he : e = .resetHart ∨ e = .platform .resetHart) (ht : t = s.onHart (hartAfterReset s.cfg))
  | resetAll (he : e = .resetAll ∨ e = .platform .resetAll)
      (ht : t = { s with hart := hartAfterReset s.cfg s.hart, parked := s.parked.map (hartAfterReset s.cfg) })
  | reschedule (l : List Event) (he : e = .platform .other) (ht : t = { s with events := l })

theorem eventStep_moves {e : Event} {s t : State} (h : eventStep e s = .next t) : EventMoves e s t := by
  have still : hartMoved s s := ⟨rfl, rfl, rfl, rfl, .done⟩
  have one : ∀ (b : resets e = false) (h' : Hart), HartOps s.cfg s.hart h' → EventMoves e s (s.setHart h') :=
    fun b h' o => .hart (.inl b) (hartMoved_setHart o)
  cases e with
  | hart => exact .hart (.inl rfl) (hartStep_moved h)
  | select n =>
    cases h
    unfold selectHart
    split
    · exact .hart (.inl rfl) still
    · rename_i h' hn
      exact .swap n h' rfl hn rfl
  | irqLine c l => cases h; exact one rfl _ (.one .irq)
  | rnmi c => cases h; exact one rfl _ (.one .rnmi)
  | nmi c => cases h; exact one rfl _ (.one .nmi)
  | baseException code tval tval2 tinst g => exact .hart (.inl rfl) (exceptionStep_moved (baseRequest_ok ..) h)
  | haltRequest l => cases h; exact one rfl _ (.one .haltreq)
  | debugEntry c =>
    cases h
    obtain ⟨h', e', o⟩ := otherDebugEntry_ops s c
    rw [e']
    exact one rfl _ o
  | resume =>
    cases h
    unfold resumeHart
    split
    · exact one rfl _ (.one (.resume ‹_›))
    · exact .hart (.inl rfl) still
  | debugExec w =>
    unfold eventStep debugExec at h
    simp only [] at h
    split at h
    · exact .hart (.inl rfl) (execWord_moved h)
    · cases h; exact .hart (.inl rfl) still
  | debugCsrRead a =>
    cases h
    unfold debugCsrRead
    split
    · exact .hart (.inl rfl) ⟨rfl, rfl, rfl, rfl, .done⟩
    · exact .hart (.inl rfl) still
  | debugCsrWrite a v =>
    cases h
    unfold debugCsrWrite
    split
    · exact one rfl _ (csrWriteVia_ops _ s a v)
    · exact .hart (.inl rfl) still
  | debugRegRead r =>
    cases h
    unfold debugRegRead
    split
    · exact .hart (.inl rfl) ⟨rfl, rfl, rfl, rfl, .done⟩
    · exact .hart (.inl rfl) still
  | debugRegWrite r v =>
    cases h
    unfold debugRegWrite
    split
    · exact one rfl _ (.one .reg)
    · exact .hart (.inl rfl) still
  | memWrite a b => cases h; exact .hart (.inl rfl) ⟨rfl, rfl, rfl, rfl, .done⟩
  | dmRead n => cases h; exact .hart (.inl rfl) ⟨rfl, rfl, rfl, rfl, .done⟩
  | dmWrite n v =>
    cases h
    rw [(dmRegisterWrite_frame s n v).1]
    exact .hart (.inl rfl) ⟨rfl, rfl, rfl, rfl, .done⟩
  | resetHart => cases h; exact .resetHart (.inl rfl) rfl
  | resetAll => cases h; exact .resetAll (.inl rfl) rfl
  | resetDm => cases h; exact .hart (.inl rfl) ⟨rfl, rfl, rfl, rfl, .done⟩
  | platform action =>
    cases h
    unfold platformReact
    split
    · cases action
      · exact .hart (.inl rfl) still
      · exact .resetHart (.inr rfl) rfl
      · exact .resetAll (.inr rfl) rfl
      · exact .reschedule _ rfl rfl
    · exact .hart (.inr .done) still

/-- What a step can do: the active hart's own move, or the event at the head of the schedule. -/
theorem step_moves {s t : State} (h : step s = .next t) :
    (s.events = [] ∧ hartMoved s.tick t)
      ∨ ∃ e rest, s.events = e :: rest ∧ EventMoves e { s.tick with events := rest } t := by
  unfold step agentStep at h
  cases he : s.events with
  | nil =>
    rw [State.tick_events, he] at h
    exact .inl ⟨rfl, hartStep_moved h⟩
  | cons e rest =>
    rw [State.tick_events, he] at h
    exact .inr ⟨e, rest, rfl, eventStep_moves h⟩

/-- An invariant of every hart is kept by every step if every elementary change keeps it and a reset establishes it. -/
theorem step_keeps {P : Config → Hart → Prop} (hop : ∀ cfg h h', HartOp cfg h h' → P cfg h → P cfg h')
    (hreset : ∀ cfg h, P cfg (hartAfterReset cfg h)) {s t : State} (hs : allHarts P s) (h : step s = .next t) :
    allHarts P t := by
  have moved : ∀ u : State, hartMoved u t → allHarts P u → allHarts P t := by
    rintro u ⟨hc, hp, _, _, ho⟩ hu
    refine ⟨?_, ?_⟩
    · rw [hc]; exact ho.keeps (hop u.cfg) hu.1
    · rw [hc, hp]; exact hu.2
  rcases step_moves h with ⟨_, m⟩ | ⟨e, rest, _, m⟩
  · exact moved s.tick m hs
  · cases m with
    | hart _ m => exact moved _ m hs
    | swap n h' _ hn ht =>
      subst ht
      refine ⟨hs.2 h' (List.mem_of_getElem? hn), ?_⟩
      intro g hg
      rcases List.mem_or_eq_of_mem_set hg with hg | rfl
      · exact hs.2 g hg
      · exact hs.1
    | resetHart _ ht => subst ht; exact ⟨hreset _ _, hs.2⟩
    | resetAll _ ht =>
      subst ht
      refine ⟨hreset _ _, ?_⟩
      intro g hg
      obtain ⟨h', _, rfl⟩ := List.mem_map.1 hg
      exact hreset _ _
    | reschedule _ _ ht => subst ht; exact hs

end Sys2Proof.Machine
end

