-- ==== Sys2Proof/Laws/Written.lean ====
section
/-! SUPPORT. What the written and the delivered status words hold, bit by bit, and how a step starts: lemmas that spare later proofs the unfolding of a word. -/

namespace Sys2Proof.Machine

open Sys2Proof.Safety

/-- An explicit write at an address of R27's table. -/
theorem csrWrite_known {s : State} {a : CsrAddr} {v : Word} {c : Csr} (h : Csr.ofAddress a = some c) :
   csrWrite s a v = Csr.write s.cfg s.hart (trunc s.cfg v) (c.redirect s.hart.virt) := by
  unfold csrWrite csrWriteVia; rw [h]

/-- A read at an address of R27's table. -/
theorem csrRead_known {s : State} {a : CsrAddr} {c : Csr} (h : Csr.ofAddress a = some c) :
   csrRead s a = Csr.read s.cfg s.hart (c.redirect s.hart.virt) := by
  unfold csrRead csrReadVia; rw [h]

/-- A debugger's command is redirected by `V` at the address of `sstatus` only (R130, R212). -/
theorem redirectDebugger_eq (c : Csr) (v : Bool) :
    c.redirectDebugger v = if v = true ∧ c = .sstatus then .vsstatus else c := by
  cases v <;> cases c <;> rfl

/-- Outside `V` = 1 with one of the four trap register addresses, a debugger's command reaches what an instruction reaches (R127, D28). -/
theorem redirectDebugger_redirect {c : Csr} {v : Bool} (h : v = false ∨ c ∉ [Csr.stvec, .sepc, .scause, .stval]) :
    c.redirectDebugger v = c.redirect v := by
  cases v <;> cases c <;> simp_all [Csr.redirectDebugger, Csr.redirect]

/-- Only the five `s` registers are redirected (R40). -/
theorem redirect_high {c : Csr} {v : Bool} (h : c ∉ [Csr.sstatus, .stvec, .sepc, .scause, .stval]) : c.redirect v = c := by
  cases v <;> cases c <;> simp_all [Csr.redirect]

/-- The low half survives truncation on both widths. -/
theorem bit_trunc_low {cfg w j} (h : j < 32) : bit (trunc cfg w) j = bit w j := by
  rw [bit_trunc]
  have : j < xlenBits cfg := by unfold xlenBits; cases cfg.xlen <;> simp <;> omega
  simp [this]

/-- What a write to `mstatus` leaves in its enable and disable-trap bits on RV64 (R128). -/
theorem statusWritten64_bits (cfg h v) : bit (statusWritten64 cfg h v) 24 = (ssActive cfg h && bit v 24) ∧
   bit (statusWritten64 cfg h v) 1 = (!(ssActive cfg h && bit v 24) && bit v 1) ∧
   bit (statusWritten64 cfg h v) 45 = (cfg.hasSmdbltrp && bit v 45) ∧
   bit (statusWritten64 cfg h v) 3 = (!(cfg.hasSmdbltrp && bit v 45) && bit v 3) := by
  simp [statusWritten64, bitSDT, bitSIE, bitMDT, bitMIE, sdtWritten, sieWritten, coupledEnable, storeMpp, loMPP]

/-- The same on RV32 (R129). -/
theorem statusWritten32_bits (cfg h v) : bit (statusWritten32 cfg h v) 24 = (ssActive cfg h && bit v 24) ∧
   bit (statusWritten32 cfg h v) 1 = (!(ssActive cfg h && bit v 24) && bit v 1) ∧
   bit (statusWritten32 cfg h v) 45 = bit h.m.status 45 ∧
   bit (statusWritten32 cfg h v) 3 = (!mdt cfg h && bit v 3) := by
  simp [statusWritten32, bitSDT, bitSIE, bitMIE, sdtWritten, sieWritten, coupledEnable, storeMpp, loMPP, bit_merge, bit_maskOf, statusPlainLow]

/-- What a write to `mstatush` leaves in `MDT` and `MIE` (R132). -/
theorem statushWritten_bits (cfg h v) : bit (statushWritten cfg h v) 45 = (cfg.hasSmdbltrp && bit v 13) ∧
   bit (statushWritten cfg h v) 3 = (!(cfg.hasSmdbltrp && bit v 13) && mie h) := by
  simp [statushWritten, bitMDT, bitMIE, coupledEnable]

/-- What a write through `sstatus` or `vsstatus` leaves (R130, R131). -/
theorem sstatusWritten_bits (act old v) : bit (sstatusWritten act old v) 24 = (act && bit v 24) ∧
   bit (sstatusWritten act old v) 1 = (!(act && bit v 24) && bit v 1) ∧ 
   bitsKept [1, 5, 6, 8, 9, 10, 13, 14, 15, 16, 18, 19, 24, 32, 33] old (sstatusWritten act old v) := by
  refine ⟨?_, ?_, ?_⟩
  · simp [sstatusWritten, bitSDT, bitSIE, sdtWritten, sieWritten, coupledEnable]
  · simp [sstatusWritten, bitSDT, bitSIE, sdtWritten, sieWritten, coupledEnable]
  · intro j hj
    simp only [List.mem_cons, List.not_mem_nil, not_or] at hj
    have h1 : j ≠ bitSDT := by unfold bitSDT; tauto
    have h2 : j ≠ bitSIE := by unfold bitSIE; tauto
    simp only [sstatusWritten]
    rw [bit_setBit_other _ _ _ _ h2, bit_setBit_other _ _ _ _ h1, bit_merge, bit_maskOf]
    have : (sstatusPlain.contains j) = false := by simp [sstatusPlain]; tauto
    have h' : j ∉ sstatusPlain := by simpa using this
    simp [h']

/-- What a write that covers `menvcfg.DTE` leaves (R133). -/
theorem writeMenvcfgDte_bits (cfg mask v h) : let h' := writeMenvcfgDte cfg mask v h
   let dte := cfg.hasSsdbltrp && bit v 59
   bit h'.m.envcfg 59 = dte ∧ sie h' = sie h ∧ vsSie h' = vsSie h
          ∧ (dte = false → bit h'.m.status 24 = false ∧ bit h'.hs.envcfg 59 = false ∧ bit h'.vs.status 24 = false
              ∧ bitsKept [24] h.m.status h'.m.status ∧ bitsKept [59] h.hs.envcfg h'.hs.envcfg
              ∧ bitsKept [24] h.vs.status h'.vs.status)
          ∧ (dte = true → h' = { h with m := { h.m with envcfg := h'.m.envcfg } }) := by
  unfold writeMenvcfgDte bitDTE
  cases hd : (cfg.hasSsdbltrp && bit v 59)
  · simp only [forceDteOff]
    simp [bitDTE, bitSDT, sie, vsSie, bitSIE, bitsKept]
    refine ⟨?_, ?_, ?_⟩ <;> (intro j hj; rw [bit_setBit_other _ _ _ _ hj])
  · simp only
    simp [sie, vsSie]

/-- What a write that covers `henvcfg.DTE` leaves (R134). -/
theorem writeHenvcfgDte_bits (cfg mask v h) : let h' := writeHenvcfgDte cfg mask v h
   let dte := cfg.hasSsdbltrp && cfg.hasH && bit h.m.envcfg 59 && bit v 59
   bit h'.hs.envcfg 59 = dte
            ∧ (dte = false → bit h'.vs.status 24 = false ∧ bitsKept [24] h.vs.status h'.vs.status)
            ∧ (dte = true → h'.vs = h.vs)
            ∧ h' = { h with hs := { h.hs with envcfg := h'.hs.envcfg }, vs := { h.vs with status := h'.vs.status } } := by
  have e : (ssActive cfg h && cfg.hasH && bit v 59) = (cfg.hasSsdbltrp && cfg.hasH && bit h.m.envcfg 59 && bit v 59) := by
    simp only [ssActive, bitDTE]; cases cfg.hasSsdbltrp <;> cases cfg.hasH <;> simp
  unfold writeHenvcfgDte bitDTE
  rw [e]
  cases hd : (cfg.hasSsdbltrp && cfg.hasH && bit h.m.envcfg 59 && bit v 59)
  · simp [bitSDT, bitsKept]
    intro j hj; rw [bit_setBit_other _ _ _ _ hj]
  · simp

/-- `mstatus` after a delivery into M-mode (R181). -/
theorem statusOnM_bits (cfg m h) : let w := statusOnM cfg m h
   bit w 38 = (if cfg.hasH = true then m.gva else bit h.m.status 38) ∧ bit w 39 = (if cfg.hasH = true then h.virt else bit h.m.status 39) ∧
   field2 w 11 = h.priv.code ∧ bit w 7 = bit h.m.status 3 ∧ bit w 3 = false ∧ bit w 45 = (cfg.hasSmdbltrp || bit h.m.status 45) ∧
   bitsKept [3, 7, 11, 12, 38, 39, 45] h.m.status w := by
  refine ⟨?_, ?_, ?_, ?_, ?_, ?_, ?_⟩
  · cases hh : cfg.hasH <;> cases hs : cfg.hasSmdbltrp <;> simp [statusOnM, hh, hs, bitMDT, bitMIE, bitMPIE, loMPP, bitMPV, bitGVA]
  · cases hh : cfg.hasH <;> cases hs : cfg.hasSmdbltrp <;> simp [statusOnM, hh, hs, bitMDT, bitMIE, bitMPIE, loMPP, bitMPV, bitGVA]
  · cases hh : cfg.hasH <;> cases hs : cfg.hasSmdbltrp <;> simp [statusOnM, hh, hs, bitMDT, bitMIE, bitMPIE, loMPP, bitMPV, bitGVA]
  · cases hh : cfg.hasH <;> cases hs : cfg.hasSmdbltrp <;> simp [statusOnM, hh, hs, bitMDT, bitMIE, bitMPIE, loMPP, bitMPV, bitGVA, mie]
  · cases hh : cfg.hasH <;> cases hs : cfg.hasSmdbltrp <;> simp [statusOnM, hh, hs, bitMDT, bitMIE, bitMPIE, loMPP, bitMPV, bitGVA]
  · cases hh : cfg.hasH <;> cases hs : cfg.hasSmdbltrp <;> simp [statusOnM, hh, hs, bitMDT, bitMIE, bitMPIE, loMPP, bitMPV, bitGVA]
  · intro j hj
    simp only [List.mem_cons, List.not_mem_nil, or_false, not_or] at hj
    cases hh : cfg.hasH <;> cases hs : cfg.hasSmdbltrp <;> simp [statusOnM, hh, hs, bitMDT, bitMIE, bitMPIE, loMPP, bitMPV, bitGVA, hj]

/-- When a trap into M-mode meets a critical error condition (R190, R191). -/
theorem mLevelCritical_iff (cfg intr h) : mLevelCritical cfg intr h = true ↔ cfg.hasSmdbltrp = true
        ∧ (bit h.m.status 45 = true ∨ (cfg.hasSmrnmi = true ∧ nmie h = false ∧ h.priv = .m ∧ intr = false)) := by
  unfold mLevelCritical mdt bitMDT
  cases cfg.hasSmdbltrp <;> simp [and_assoc]

/-- `mstatus` after `MRET` (R150). -/
theorem statusAfterMret_bits (cfg h) : let w := statusAfterMret cfg h
   bit w 3 = mpie h ∧ bit w 7 = true ∧ field2 w 11 = (if cfg.hasU = true then 0x0#2 else 0x3#2) ∧ bit w 39 = false ∧
   bit w 17 = (if Priv.ofCode (mpp h) = .m then mprv h else false) ∧ bit w 45 = (!cfg.hasSmdbltrp && bit h.m.status 45) ∧
   bitsKept [3, 7, 11, 12, 17, 39, 45] h.m.status w := by
  simp only [statusAfterMret, bitMIE, bitMPIE, loMPP, bitMPV, bitMPRV, bitMDT, mprv]
  cases hs : cfg.hasSmdbltrp <;> by_cases hp : Priv.ofCode (mpp h) = .m <;> simp only [hp, if_true, if_false, Bool.false_eq_true]
  all_goals
    refine ⟨by simp, by simp, by simp [Priv.code], by simp, by simp, by simp, ?_⟩
    intro j hj
    simp only [List.mem_cons, List.not_mem_nil, or_false, not_or] at hj
    simp [hj]

/-- `mstatus` after `SRET` (R151). -/
theorem statusAfterSret_bits (h) : let w := statusAfterSret h
   bit w 1 = spie h ∧ bit w 5 = true ∧ bit w 8 = false ∧ bit w 17 = false ∧ bit w 24 = false ∧ bitsKept [1, 5, 8, 17, 24] h.m.status w := by
  simp only [statusAfterSret, bitSIE, bitSPIE, bitSPP, bitMPRV, bitSDT]
  refine ⟨by simp, by simp, by simp, by simp, by simp, ?_⟩
  intro j hj
  simp only [List.mem_cons, List.not_mem_nil, or_false, not_or] at hj
  simp [hj]

/-- `vsstatus` after `SRET` with `V` = 1 (R151). -/
theorem vsstatusAfterSret_bits (h) : let w := vsstatusAfterSret h
   bit w 1 = vsSpie h ∧ bit w 5 = true ∧ bit w 8 = false ∧ bit w 24 = false ∧ bitsKept [1, 5, 8, 24] h.vs.status w := by
  simp only [vsstatusAfterSret, bitSIE, bitSPIE, bitSPP, bitSDT]
  refine ⟨by simp, by simp, by simp, by simp, ?_⟩
  intro j hj
  simp only [List.mem_cons, List.not_mem_nil, or_false, not_or] at hj
  simp [hj]

/-- A mask of bits below 32 has none above. -/
theorem maskOf_high {l : List Nat} (h : ∀ x ∈ l, x < 32) {j : Nat} (hj : 32 ≤ j) :
    (maskOf l).getLsbD j = false := by
  have := bit_maskOf l j
  rw [show (maskOf l).getLsbD j = bit (maskOf l) j from rfl, this]
  by_cases h64 : j < 64
  · have : l.contains j = false := by
      rw [Bool.eq_false_iff]; intro hc; have := h j (by simpa using hc); omega
    simp_all
  · simp; omega

/-- A write to `mstatus` on RV32 keeps the half in `mstatush` (R129). -/
theorem statusWritten32_high (cfg : Config) (h : Hart) (v : Word) (j : Nat) (hj : 32 ≤ j) :
    bit (statusWritten32 cfg h v) j = bit h.m.status j := by
  have hl := maskOf_high (l := statusPlainLow) (by decide) hj
  have hl : bit (maskOf statusPlainLow) j = false := hl
  have n1 : j ≠ bitMIE := by unfold bitMIE; omega
  have n2 : j ≠ bitSIE := by unfold bitSIE; omega
  have n3 : j ≠ bitSDT := by unfold bitSDT; omega
  have n4 : j ≠ 11 := by omega
  have n5 : j ≠ 12 := by omega
  simp only [statusWritten32, storeMpp, loMPP]
  rw [bit_setBit_other _ _ _ _ n1, bit_setBit_other _ _ _ _ n2, bit_setBit_other _ _ _ _ n3, bit_setField2]
  simp [n4, n5, bit_merge, hl]

/-- A write to `mstatush` keeps the half in `mstatus`, but for `MIE` (R132). -/
theorem statushWritten_kept (cfg : Config) (h : Hart) (v : Word) :
    bitsKept [3, 36, 37, 38, 39, 45] h.m.status (statushWritten cfg h v) := by
  intro j hj
  simp only [List.mem_cons, List.not_mem_nil, or_false, not_or] at hj
  have n1 : j ≠ bitMIE := by unfold bitMIE; omega
  have n2 : j ≠ bitMDT := by unfold bitMDT; omega
  simp only [statushWritten]
  rw [bit_setBit_other _ _ _ _ n1, bit_setBit_other _ _ _ _ n2, bit_merge, bit_maskOf]
  have : statusPlainHigh.contains j = false := by simp [statusPlainHigh]; omega
  simp_all

/-- What a write that covers `menvcfg.DTE` leaves alone (R84, R133). -/
theorem writeMenvcfgDte_frame (cfg : Config) (mask v : Word) (h : Hart) : let h' := writeMenvcfgDte cfg mask v h
   h' = { h with m := { h.m with envcfg := h'.m.envcfg, status := h'.m.status }, hs := { h.hs with envcfg := h'.hs.envcfg }
                 vs := { h.vs with status := h'.vs.status } } := by
  unfold writeMenvcfgDte
  simp only []
  split <;> rfl

/-- `BaseISA` writes integer registers only (assumption log 6). -/
theorem writeRegs_x (cfg : Config) (l : List (Nat × Word)) (h : Hart) :
    writeRegs cfg l h = { h with x := (writeRegs cfg l h).x } := by
  induction l generalizing h with
  | nil => rfl
  | cons p l ih =>
    obtain ⟨r, v⟩ := p
    show writeRegs cfg l (writeReg cfg r v h) = { h with x := (writeRegs cfg l (writeReg cfg r v h)).x }
    rw [ih]
    unfold writeReg
    split <;> rfl

/-- And only those it names. -/
theorem readReg_writeRegs {cfg : Config} {l : List (Nat × Word)} {h : Hart} {n : Nat} (hn : ∀ p ∈ l, p.1 ≠ n) :
    readReg cfg (writeRegs cfg l h) n = readReg cfg h n := by
  induction l generalizing h with
  | nil => rfl
  | cons p l ih =>
    obtain ⟨r, v⟩ := p
    show readReg cfg (writeRegs cfg l (writeReg cfg r v h)) n = _
    rw [ih (fun p hp => hn p (List.mem_cons_of_mem _ hp)), readReg_writeReg]
    have : n ≠ r := fun e => hn (r, v) List.mem_cons_self e.symm
    simp [this]

theorem writeRegs_append (cfg : Config) (k l : List (Nat × Word)) (h : Hart) :
    writeRegs cfg (k ++ l) h = writeRegs cfg l (writeRegs cfg k h) := by
  induction k generalizing h with
  | nil => rfl
  | cons p k ih => exact ih _

/-- The last value `BaseISA` gives a register is what it holds, but for `x0` (R20). -/
theorem readReg_writeRegs_last {cfg : Config} {k l : List (Nat × Word)} {h : Hart} {n : Nat} {v : Word}
    (h0 : n ≠ 0) (h32 : n < 32) (hn : ∀ p ∈ l, p.1 ≠ n) :
    readReg cfg (writeRegs cfg (k ++ (n, v) :: l) h) n = trunc cfg v := by
  rw [writeRegs_append]
  show readReg cfg (writeRegs cfg l (writeReg cfg n v _)) n = _
  rw [readReg_writeRegs hn, readReg_writeReg]
  simp [h0, h32]

/-- `BaseISA` sets no bit of a status word outside the extension-state fields (R28; assumption log 6). -/
theorem extension_kept (w v : Word) :
    bitsKept [9, 10, 13, 14, 15, 16] w (merge extensionMask w v) := by
  intro j hj
  simp only [extensionMask, bit_merge, bit_maskOf]
  have : (([9, 10, 13, 14, 15, 16] : List Nat).contains j) = false := by simpa using hj
  simp_all

/-- And sets those fields as it says. -/
theorem extension_stored (w v : Word) : bitsStored [9, 10, 13, 14, 15, 16] v (merge extensionMask w v) := by
  intro j hj
  have h64 : j < 64 := by revert j; decide
  simp_all [extensionMask, bit_merge, bit_maskOf]

/-- What a resume does (R214, R215). -/
theorem resume_resumed (cfg h) : resumed cfg h (resume cfg h) := by
  unfold resumed resume
  cases hp : pcerr cfg h
  · simp only
    refine ⟨rfl, rfl, rfl, by simp, ?_, rfl⟩
    · intro _
      refine ⟨rfl, rfl, ?_, ?_⟩
      · intro hm; simp [hm]
      · intro hm
        simp only [hm]
        refine ⟨?_, ?_, ?_⟩
        · simp [mprv, bitMPRV]
        · intro j hj
          simp only [List.mem_cons, List.not_mem_nil, or_false] at hj
          simp [bitMPRV, hj]
        · rfl
  · simp only
    refine ⟨rfl, rfl, rfl, ?_, by simp, rfl⟩
    · intro _; exact ⟨rfl, rfl, rfl⟩

theorem getLsbD_setWidth32 (w : Word) (j) : (w.setWidth 32).getLsbD j = (decide (j < 32) && bit w j) := by simp [bit]

theorem bit_setWidth64 (w : BitVec 32) (j) : bit (w.setWidth 64) j = w.getLsbD j := by
  simp only [bit, BitVec.getLsbD_setWidth]
  by_cases h : j < 64
  · simp [h]
  · rw [BitVec.getLsbD_of_ge _ _ (by omega)]; simp

/-- `dcsr` at a Debug Mode entry (R211, R212). -/
theorem dcsrOnEntry_bits (cfg c crit h) : let d := dcsrOnEntry cfg c crit h
   (d.extractLsb' 6 3 = c) ∧ d.extractLsb' 0 2 = h.priv.code ∧ d.getLsbD 5 = h.virt ∧ (cfg.hasSddbltrp = true → d.getLsbD 19 = crit) ∧ (∀ j, j ∉ [0, 1, 5, 6, 7, 8, 19] → d.getLsbD j = h.dbg.dcsr.getLsbD j) := by
  have hb : ∀ j, j < 32 → (dcsrOnEntry cfg c crit h).getLsbD j = (if j = 19 then (if cfg.hasSddbltrp then crit else h.dbg.dcsr.getLsbD 19) else if j = 5 then h.virt else if j = 1 then h.priv.code.getLsbD 1 else if j = 0 then h.priv.code.getLsbD 0 else if j = 7 then c.getLsbD 1 else if j = 6 then c.getLsbD 0 else if j = 8 then c.getLsbD 2 else h.dbg.dcsr.getLsbD j) := by
    intro j hj
    unfold dcsrOnEntry
    simp only []
    rw [getLsbD_setWidth32]
    simp only [hj]
    cases cfg.hasSddbltrp
    · by_cases h19 : j = 19
      · subst h19; simp [bitDcsrV, bit_setWidth64]
      · simp [bitDcsrV, bit_setBit, bit_setField2, bit_setWidth64, h19]
    · simp [bitPcerr, bitDcsrV, bit_setBit, bit_setField2, bit_setWidth64]
  refine ⟨?_, ?_, ?_, ?_, ?_⟩
  · apply BitVec.eq_of_getLsbD_eq
    intro j hj
    have : j = 0 ∨ j = 1 ∨ j = 2 := by omega
    rcases this with rfl | rfl | rfl
    · rw [BitVec.getLsbD_extractLsb', hb _ (by decide)]; simp
    · rw [BitVec.getLsbD_extractLsb', hb _ (by decide)]; simp
    · rw [BitVec.getLsbD_extractLsb', hb _ (by decide)]; simp
  · apply BitVec.eq_of_getLsbD_eq
    intro j hj
    have : j = 0 ∨ j = 1 := by omega
    rcases this with rfl | rfl
    · rw [BitVec.getLsbD_extractLsb', hb _ (by decide)]; simp
    · rw [BitVec.getLsbD_extractLsb', hb _ (by decide)]; simp
  · rw [hb _ (by decide)]; simp
  · intro hs; rw [hb _ (by decide)]; simp [hs]
  · intro j hj
    simp only [List.mem_cons, List.not_mem_nil, or_false, not_or] at hj
    by_cases h32 : j < 32
    · rw [hb _ h32]; simp [hj]
    · rw [BitVec.getLsbD_of_ge _ _ (by omega), BitVec.getLsbD_of_ge _ _ (by omega)]

/-- No explicit CSR write changes `pcerr` (R46, R136). -/
theorem pcerr_csrWrite (cfg h v c) : pcerr cfg (Csr.write cfg h v c) = pcerr cfg h := by
  have hd : c ≠ .dcsr → c ≠ .dpc → (Csr.write cfg h v c).dbg = h.dbg := by
    intro h1 h2
    have m1 : ∀ mask v, (writeMenvcfgDte cfg mask v h).dbg = h.dbg := by intro mask v; unfold writeMenvcfgDte; simp only []; split <;> rfl
    have m2 : ∀ mask v, (writeHenvcfgDte cfg mask v h).dbg = h.dbg := by intro mask v; unfold writeHenvcfgDte; simp only []; split <;> rfl
    cases hx : cfg.xlen <;> cases c <;> simp_all [Csr.write]
  by_cases h1 : c = .dcsr
  · subst h1
    simp only [pcerr, Csr.write]
    congr 1
    unfold dcsrWritten; simp only []
    rw [getLsbD_setWidth32]
    simp [bitPcerr, bitDcsrV, bit_merge, bit_maskOf, dcsrPlain, bit_setWidth64]
  · by_cases h2 : c = .dpc
    · subst h2; rfl
    · simp only [pcerr, hd h1 h2]

/-- Where the hart has the turn, the step is its own. -/
theorem step_of_hartMoves {s : State} (h : hartMoves s) : step s = hartStep (hartTurn s) := by
  rcases h with h | ⟨rest, h⟩
  · unfold step agentStep
    simp only [State.tick_events, h]
    simp [hartTurn, State.tick, h]
  · unfold step agentStep
    simp only [State.tick_events, h, eventStep]
    simp [hartTurn, State.tick, h]

/-- Where an event stands first, the step is the event's. -/
theorem step_of_event {s : State} {e rest} (h : s.events = e :: rest) : step s = eventStep e (hartTurn s) := by
  unfold step agentStep
  simp only [State.tick_events, h]
  simp [hartTurn, State.tick, h]

/-- `mstatus` after reset (R54, R240, R241). -/
theorem resetMstatus_bits (cfg : Config) : bit (resetMstatus cfg) 45 = cfg.hasSmdbltrp ∧ bit (resetMstatus cfg) 3 = false ∧ bit (resetMstatus cfg) 1 = false ∧ bit (resetMstatus cfg) 17 = false ∧ bit (resetMstatus cfg) 24 = (resetDte cfg && cfg.resetSdt) ∧ field2 (resetMstatus cfg) 11 = resetPrevious cfg := by
  unfold resetMstatus
  simp only [bitMDT, bitSDT, loMPP]
  refine ⟨by simp, ?_, ?_, ?_, by simp, ?_⟩
  · simp
  · simp
  · simp
  · rw [field2_eq]
    simp [bit_setField2]

theorem resetVsstatus_bits (cfg : Config) : bit (resetVsstatus cfg) 24 = (resetHdte cfg && cfg.resetVssdt) ∧ bit (resetVsstatus cfg) 1 = false := by
  unfold resetVsstatus; simp [bitSDT]

theorem resetMnstatus_bits (cfg : Config) : bit (setField2 0#64 loMNPP (resetPrevious cfg)) 3 = false ∧ field2 (setField2 0#64 loMNPP (resetPrevious cfg)) 11 = resetPrevious cfg := by
  constructor
  · simp [loMNPP]
  · simp [loMNPP]

/-- `SsActive` and `SsActiveVS` after reset (R241). -/
theorem resetHart_active (cfg id hr irq) : ssActive cfg (resetHart cfg id hr irq) = resetDte cfg ∧ ssActiveVS cfg (resetHart cfg id hr irq) = resetHdte cfg := by
  unfold ssActive ssActiveVS ssActive resetHart resetDte resetHdte resetDte
  simp only [bit_setBit_same _ _ _ (show bitDTE < 64 by decide)]
  cases cfg.hasSsdbltrp <;> cases cfg.hasH <;> cases cfg.resetMenvcfgDte <;> cases cfg.resetHenvcfgDte <;> simp

/-- The plain fields of `mstatus` hold what a write on RV64 gives them, and every bit that is no field stays (R128; assumption log 7). -/
theorem statusWritten64_stored (cfg h v) :
    bitsStored (statusPlainLow ++ statusPlainHigh) v (statusWritten64 cfg h v)
      ∧ bitsKept ([1, 3, 11, 12, 24, 45] ++ statusPlainLow ++ statusPlainHigh) h.m.status (statusWritten64 cfg h v) := by
  refine ⟨fun j hj => ?_, fun j hj => ?_⟩
  · have : j < 64 ∧ j ≠ 1 ∧ j ≠ 3 ∧ j ≠ 11 ∧ j ≠ 12 ∧ j ≠ 24 ∧ j ≠ 45 := by revert j; decide
    simp_all [statusWritten64, storeMpp, bit_merge, bit_maskOf, bitSDT, bitSIE, bitMDT, bitMIE, loMPP]
  · simp only [List.mem_append, List.mem_cons, not_or] at hj
    simp_all [statusWritten64, storeMpp, bit_merge, bit_maskOf, bitSDT, bitSIE, bitMDT, bitMIE, loMPP]

/-- The same on RV32, in the half that `mstatus` holds (R129). -/
theorem statusWritten32_stored (cfg h v) :
    bitsStored statusPlainLow v (statusWritten32 cfg h v)
      ∧ bitsKept ([1, 3, 11, 12, 24] ++ statusPlainLow) h.m.status (statusWritten32 cfg h v) := by
  refine ⟨fun j hj => ?_, fun j hj => ?_⟩
  · have : j < 64 ∧ j ≠ 1 ∧ j ≠ 3 ∧ j ≠ 11 ∧ j ≠ 12 ∧ j ≠ 24 := by revert j; decide
    simp_all [statusWritten32, storeMpp, bit_merge, bit_maskOf, bitSDT, bitSIE, bitMIE, loMPP]
  · simp only [List.mem_append, List.mem_cons, not_or] at hj
    simp_all [statusWritten32, storeMpp, bit_merge, bit_maskOf, bitSDT, bitSIE, bitMIE, loMPP]

/-- The plain fields of `mstatush` (R132). -/
theorem statushWritten_stored (cfg : Config) (h : Hart) (v : Word) : bitsStored statusPlainHigh (v <<< 32) (statushWritten cfg h v) := by
  intro j hj
  have : j < 64 ∧ j ≠ 3 ∧ j ≠ 45 := by revert j; decide
  simp_all [statushWritten, bit_merge, bit_maskOf, bitMDT, bitMIE]

/-- The plain fields of `sstatus` and `vsstatus`, and every bit that is none of theirs (R130, R131). -/
theorem sstatusWritten_stored (act old v) :
    bitsStored sstatusPlain v (sstatusWritten act old v)
      ∧ bitsKept ([1, 24] ++ sstatusPlain) old (sstatusWritten act old v) := by
  refine ⟨fun j hj => ?_, fun j hj => ?_⟩
  · have : j < 64 ∧ j ≠ 1 ∧ j ≠ 24 := by revert j; decide
    simp_all [sstatusWritten, bit_merge, bit_maskOf, bitSDT, bitSIE]
  · simp only [List.mem_append, List.mem_cons, not_or] at hj
    simp_all [sstatusWritten, bit_merge, bit_maskOf, bitSDT, bitSIE]

/-- A write that covers a `DTE` stores the fields of its mask and leaves the others (R133, R134). -/
theorem envcfg_stored (l : List Nat) (hl : ∀ j ∈ l, j < 64 ∧ j ≠ 59) (old v : Word) (dte : Bool) :
    bitsStored l v (setBit (merge (maskOf l) old v) bitDTE dte)
      ∧ bitsKept (59 :: l) old (setBit (merge (maskOf l) old v) bitDTE dte) := by
  refine ⟨fun j hj => ?_, fun j hj => ?_⟩
  · have := hl j hj
    simp_all [bit_merge, bit_maskOf, bitDTE]
  · simp only [List.mem_cons, not_or] at hj
    simp_all [bit_merge, bit_maskOf, bitDTE]

theorem writeMenvcfgDte_envcfg (cfg mask v h) : (writeMenvcfgDte cfg mask v h).m.envcfg
    = setBit (merge mask h.m.envcfg v) bitDTE (cfg.hasSsdbltrp && bit v bitDTE) := by
  unfold writeMenvcfgDte; simp only []; split <;> rfl

theorem writeHenvcfgDte_envcfg (cfg mask v h) : (writeHenvcfgDte cfg mask v h).hs.envcfg
    = setBit (merge mask h.hs.envcfg v) bitDTE (ssActive cfg h && cfg.hasH && bit v bitDTE) := by
  unfold writeHenvcfgDte; simp only []; split <;> rfl

/-- A write to the low half of `menvcfg` or `henvcfg` on RV32. -/
theorem envcfgLow_stored (old v : Word) :
    bitsStored envcfgPlainLow v (merge (maskOf envcfgPlainLow) old v)
      ∧ bitsKept envcfgPlainLow old (merge (maskOf envcfgPlainLow) old v) := by
  refine ⟨fun j hj => ?_, fun j hj => ?_⟩
  · have : j < 64 := by revert j; decide
    simp_all [bit_merge, bit_maskOf]
  · simp_all [bit_merge, bit_maskOf]

/-- `mnstatus` after a write: `MNPV` as written, `MNPP` WARL, no other field but `NMIE` (R44, R137). -/
theorem mnstatusWritten_stored (cfg old v) :
    bit (mnstatusWritten cfg old v) 7 = bit v 7
      ∧ field2 (mnstatusWritten cfg old v) 11 = privilegeStored cfg (field2 old 11) (field2 v 11)
      ∧ bitsKept [3, 7, 11, 12] old (mnstatusWritten cfg old v) := by
  refine ⟨?_, ?_, fun j hj => ?_⟩
  · simp [mnstatusWritten, bit_merge, bit_maskOf, bitMNPV, bitNMIE, loMNPP]
  · simp [mnstatusWritten, bitNMIE, loMNPP]
  · simp_all [mnstatusWritten, bit_merge, bit_maskOf, bitMNPV, bitNMIE, loMNPP]

/-- `dcsr` after a write: the plain fields as written, `prv` WARL, `v` as R22 lets it be, the rest kept (R45, R136; assumption logs 7, 8, 18). -/
theorem dcsrWritten_bits (cfg old v) : let d := dcsrWritten cfg old v
    (∀ j ∈ dcsrPlain, d.getLsbD j = bit v j)
      ∧ d.extractLsb' 0 2 = privilegeStored cfg (old.extractLsb' 0 2) (field2 v 0)
      ∧ d.getLsbD 5 = (cfg.hasH && bit v 5 && Priv.ofCode (d.extractLsb' 0 2) != .m)
      ∧ ∀ j, j ∉ [0, 1, 5] ++ dcsrPlain → d.getLsbD j = old.getLsbD j := by
  have hb : ∀ j, (dcsrWritten cfg old v).getLsbD j
      = (decide (j < 32) && (if j = 1 then (privilegeStored cfg (old.extractLsb' 0 2) (field2 v 0)).getLsbD 1
        else if j = 0 then (privilegeStored cfg (old.extractLsb' 0 2) (field2 v 0)).getLsbD 0
        else if j = 5 then cfg.hasH && bit v 5 && Priv.ofCode (privilegeStored cfg (old.extractLsb' 0 2) (field2 v 0)) != .m
        else if j ∈ dcsrPlain then bit v j else old.getLsbD j)) := by
    intro j
    unfold dcsrWritten
    simp only []
    rw [getLsbD_setWidth32]
    by_cases hj : j < 32
    · have : j < 64 := by omega
      simp [hj, this, bit_setField2, bit_setBit, bit_merge, bit_maskOf, bit_setWidth64, bitDcsrV]
    · simp [hj]
  have hp : (dcsrWritten cfg old v).extractLsb' 0 2 = privilegeStored cfg (old.extractLsb' 0 2) (field2 v 0) := by
    apply BitVec.eq_of_getLsbD_eq
    intro j hj
    have : j = 0 ∨ j = 1 := by omega
    rcases this with rfl | rfl <;> (rw [BitVec.getLsbD_extractLsb', hb]; simp)
  refine ⟨fun j hj => ?_, hp, ?_, fun j hj => ?_⟩
  · have : j < 32 ∧ j ≠ 1 ∧ j ≠ 0 ∧ j ≠ 5 := by revert j; decide
    rw [hb]; simp [this, hj]
  · rw [hp, hb]; simp
  · simp only [List.mem_append, List.mem_cons, List.not_mem_nil, or_false, not_or] at hj
    rw [hb]
    by_cases h32 : j < 32
    · simp [h32, hj]
    · simp [h32]; rw [BitVec.getLsbD_of_ge _ _ (by omega)]

/-- `mstatus` reads as stored outside `SDT`, `MDT` and `SD` (R126). -/
theorem bit_statusView {cfg : Config} {h : Hart} {j : Nat} (hj : j ∉ [24, 45, xlenBits cfg - 1]) :
    bit (statusView cfg h) j = bit h.m.status j := by
  simp only [List.mem_cons, List.not_mem_nil, or_false, not_or] at hj
  simp [statusView, bitSDT, bitMDT, hj]

/-- And `vsstatus` outside `SDT` and `SD`. -/
theorem bit_vsstatusView {cfg : Config} {h : Hart} {j : Nat} (hj : j ∉ [24, xlenBits cfg - 1]) :
    bit (vsstatusView cfg h) j = bit h.vs.status j := by
  simp only [List.mem_cons, List.not_mem_nil, or_false, not_or] at hj
  simp [vsstatusView, bitSDT, hj]

theorem dirtySummary_iff (w : Word) :
    dirtySummary w = true ↔ field2 w 13 = 0x3#2 ∨ field2 w 9 = 0x3#2 ∨ field2 w 15 = 0x3#2 := by
  simp [dirtySummary, or_assoc]

theorem xlenBits_pos (cfg : Config) : 32 ≤ xlenBits cfg ∧ xlenBits cfg ≤ 64 := by
  unfold xlenBits; cases cfg.xlen <;> simp

end Sys2Proof.Machine
end

