-- ==== Sys2Proof/Tests/Slice0.lean ====
section
/-! SUPPORT. Tests: ill-formed terms refused, words written out from spec/30_encoding.md, vectors of spec/95_test_vectors.md, and for each statement with hypotheses states that meet them. -/

namespace Sys2Proof.Tests

open Sys2Proof.Machine Sys2Proof.Safety

/-! ### Well-formedness: each operand one past its field -/

theorem test_csrrw_rd_32_refused : (Instr.csrrw 32 0x300#12 31).wellFormed = false := by decide
theorem test_csrrw_rs1_32_refused : (Instr.csrrw 31 0x300#12 32).wellFormed = false := by decide
theorem test_csrrs_rd_32_refused : (Instr.csrrs 32 0x300#12 0).wellFormed = false := by decide
theorem test_csrrs_rs1_32_refused : (Instr.csrrs 0 0x300#12 32).wellFormed = false := by decide
theorem test_csrrc_rd_32_refused : (Instr.csrrc 32 0x300#12 0).wellFormed = false := by decide
theorem test_csrrc_rs1_32_refused : (Instr.csrrc 0 0x300#12 32).wellFormed = false := by decide
theorem test_csrrwi_rd_32_refused : (Instr.csrrwi 32 0x300#12 0).wellFormed = false := by decide
theorem test_csrrwi_uimm_32_refused : (Instr.csrrwi 0 0x300#12 32).wellFormed = false := by decide
theorem test_csrrsi_rd_32_refused : (Instr.csrrsi 32 0x300#12 0).wellFormed = false := by decide
theorem test_csrrsi_uimm_32_refused : (Instr.csrrsi 0 0x300#12 32).wellFormed = false := by decide
theorem test_csrrci_rd_32_refused : (Instr.csrrci 32 0x300#12 0).wellFormed = false := by decide
theorem test_csrrci_uimm_32_refused : (Instr.csrrci 0 0x300#12 32).wellFormed = false := by decide

/-! ### Decoding: words written out field by field from R102 to R105: csr, rs1 or uimm, funct3, rd, opcode -/

theorem test_decode_csrrw :
    decodeWord (0b001100000000#12 ++ 0b00101#5 ++ 0b001#3 ++ 0b11111#5 ++ 0b1110011#7 : BitVec 32)
      = .ok (.csrrw 31 0x300#12 5) := by decide
theorem test_decode_csrrs :
    decodeWord (0b111111111111#12 ++ 0b00000#5 ++ 0b010#3 ++ 0b00110#5 ++ 0b1110011#7 : BitVec 32)
      = .ok (.csrrs 6 0xFFF#12 0) := by decide
theorem test_decode_csrrc :
    decodeWord (0b000100000000#12 ++ 0b11111#5 ++ 0b011#3 ++ 0b00000#5 ++ 0b1110011#7 : BitVec 32)
      = .ok (.csrrc 0 0x100#12 31) := by decide
theorem test_decode_csrrwi :
    decodeWord (0b000000000000#12 ++ 0b01010#5 ++ 0b101#3 ++ 0b00001#5 ++ 0b1110011#7 : BitVec 32)
      = .ok (.csrrwi 1 0x000#12 10) := by decide
theorem test_decode_csrrsi :
    decodeWord (0b001100000000#12 ++ 0b01000#5 ++ 0b110#3 ++ 0b00000#5 ++ 0b1110011#7 : BitVec 32)
      = .ok (.csrrsi 0 0x300#12 8) := by decide
theorem test_decode_csrrci :
    decodeWord (0b011101000100#12 ++ 0b11111#5 ++ 0b111#3 ++ 0b10000#5 ++ 0b1110011#7 : BitVec 32)
      = .ok (.csrrci 16 0x744#12 31) := by decide
theorem test_decode_privileged :
    decodeTableWord 32 0x00000073 = some .ecall ∧ decodeTableWord 32 0x10200073 = some .sret
      ∧ decodeTableWord 32 0x30200073 = some .mret ∧ decodeTableWord 32 0x70200073 = some .mnret
      ∧ decodeTableWord 32 0x7B200073 = some .dret := by decide
/-- `csrrw x0, mstatus, x5` as four bytes, the lowest address first, and a byte after them. -/
theorem test_decode_bytes :
    decode [0x73#8, 0x90#8, 0x02#8, 0x30#8, 0xFF#8] = .ok (.csrrw 0 0x300#12 5, [0xFF#8]) := by rfl
/-- R106: EBREAK, WFI, `funct3` = 100, ADDI x0, and a compressed parcel are BaseISA's. -/
theorem test_decode_refuses :
    decodeWord 0x00100073#32 = .error .otherPrivileged ∧ decodeWord 0x10500073#32 = .error .otherPrivileged
      ∧ decodeWord 0x00004073#32 = .error .funct3Four ∧ decodeWord 0x00000013#32 = .error .otherOpcode
      ∧ decodeWord 0x00000001#32 = .error .compressed := ⟨rfl, rfl, rfl, rfl, rfl⟩

/-! ### Small states -/

/-- The configuration of spec/95_test_vectors.md: RV64, no H, no Smrnmi. -/
def plain : Config := { Config.full with hasH := false, hasSmrnmi := false }
/-- The same on RV32. -/
def plain32 : Config := { plain with xlen := .rv32 }
/-- Every extension, on RV32. -/
def full32 : Config := { Config.full with xlen := .rv32 }
/-- RV64 with nothing but S-mode and U-mode. -/
def bare : Config :=
  { plain with hasSsdbltrp := false, hasSmdbltrp := false, hasSddbltrp := false }

/-- A hart of the vectors: the given mode, `mstatus` and `x5`; `pc` 0x8000_0000, `menvcfg.DTE` and `henvcfg.DTE` 1, `mtvec` 0x8000_1000, `stvec` 0x8000_2000. -/
def hartIn (cfg : Config) (priv : Priv) (virt : Bool) (status x5 : Word) : Hart :=
  let h := resetHart cfg 0 false 0#64
  { h with
    priv := priv, virt := virt, x := (Vector.replicate 32 0#64).set 5 x5
    m := { h.m with status := status, envcfg := 0x0800000000000000#64, tvec := 0x80001000#64 }
    hs := { h.hs with envcfg := 0x0800000000000000#64 }
    s := { h.s with tvec := 0x80002000#64 } }

/-- A machine with that hart and nothing else. -/
def machine (cfg : Config) (h : Hart) : State := { State.resetIn cfg with hart := h }

/-- What `f` sees of the hart after one step that runs the word `w`. -/
def after {α : Type} (s : State) (w : Nat) (f : Hart → α) : Option α :=
  match step (s.withFetchWord 32 w) with
  | .next t => some (f t.hart)
  | .fault _ => none
  | .refused _ => none

/-- The machine with one event to come. -/
def withEvent (s : State) (e : Event) : State := { s with events := [e] }

/-- A machine whose hart is in the given run state. -/
def inRun (s : State) (r : RunState) : State := { s with hart := { s.hart with run := r } }

/-! ### One step on the vectors of spec/95_test_vectors.md part 2 -/

/-- W4: `SDT` is set to 0 by the write that sets `SIE`. -/
theorem test_csrrw_releases_both :
    after (machine plain (hartIn plain .m false 0x01000000#64 0x2#64)) 0x30029073 (fun h => (h.m.status, h.pc))
      = some (0x2#64, 0x80000004#64) := by decide
/-- W1: `SDT` 1 wins over `SIE`. -/
theorem test_csrrw_sets_sdt :
    after (machine plain (hartIn plain .m false 0#64 0x01000002#64)) 0x30029073 (fun h => h.m.status)
      = some 0x01000000#64 := by decide
/-- W2: blocked. -/
theorem test_csrrs_blocked :
    after (machine plain (hartIn plain .m false 0x01000000#64 0x2#64)) 0x3002A073 (fun h => h.m.status)
      = some 0x01000000#64 := by decide
/-- W24: `sstatus` with `V` = 1 is `vsstatus`. -/
theorem test_csrrs_sstatus_in_vs_mode :
    (let h := hartIn Config.full .s true 0#64 0x01000000#64
     after (machine Config.full { h with vs := { h.vs with status := 0x2#64 } }) 0x1002A073
      (fun h => (h.vs.status, h.m.status))) = some (0x01000000#64, 0#64) := by decide
/-- W14: `MDT` is not visible in `sstatus`. -/
theorem test_csrrc_sstatus :
    after (machine plain (hartIn plain .s false 0x200001000000#64 0x01000000#64)) 0x1002B073 (fun h => h.m.status)
      = some 0x200000000000#64 := by decide
/-- W16: clearing `menvcfg.DTE` clears `SDT`. -/
theorem test_csrrc_menvcfg :
    after (machine plain (hartIn plain .m false 0x01000000#64 0x0800000000000000#64)) 0x30A2B073
      (fun h => (h.m.envcfg, h.m.status)) = some (0#64, 0#64) := by decide
/-- W8: one write releases `MDT` and `SDT`. -/
theorem test_csrrwi :
    after (machine plain (hartIn plain .m false 0x200000000000#64 0#64)) 0x30055073 (fun h => h.m.status)
      = some 0xA#64 := by decide
/-- W7: `MIE` is blocked while `MDT` is 1. -/
theorem test_csrrsi_blocked :
    after (machine plain (hartIn plain .m false 0x200000000000#64 0#64)) 0x30046073 (fun h => h.m.status)
      = some 0x200000000000#64 := by decide
/-- W19: the same on RV32, where `MDT` is in the other register. -/
theorem test_csrrsi_blocked_rv32 :
    after (machine plain32 (hartIn plain32 .m false 0x200000000000#64 0#64)) 0x30046073 (fun h => h.m.status)
      = some 0x200000000000#64 := by decide
/-- `csrrci x6, mstatus, 8`: by R125 and R128 `MIE` is cleared, the value read is the old one. -/
theorem test_csrrci :
    after (machine plain (hartIn plain .m false 0x8#64 0#64)) 0x30047373 (fun h => (h.m.status, readReg plain h 6))
      = some (0#64, 0x8#64) := by decide
/-- X1. -/
theorem test_mret :
    (let h := hartIn plain .m false 0x200000000880#64 0#64
     after (machine plain { h with m := { h.m with epc := 0x80001000#64 } }) 0x30200073
      (fun h => (h.priv, h.m.status, h.pc))) = some (.s, 0x88#64, 0x80001000#64) := by decide
/-- X8: illegal below M-mode. -/
theorem test_mret_illegal :
    after (machine plain (hartIn plain .s false 0#64 0#64)) 0x30200073 (fun h => (h.priv, h.m.cause, h.m.tval))
      = some (.m, 2#64, 0x30200073#64) := by decide
/-- X3. -/
theorem test_sret :
    (let h := hartIn plain .s false 0x01000020#64 0#64
     after (machine plain { h with s := { h.s with epc := 0x10000#64 } }) 0x10200073
      (fun h => (h.priv, h.m.status, h.pc))) = some (.u, 0x22#64, 0x10000#64) := by decide
/-- X5: in VS-mode it is `vsstatus` that changes. -/
theorem test_sret_in_vs_mode :
    (let h := hartIn Config.full .s true 0x01000000#64 0#64
     after (machine Config.full { h with vs := { h.vs with status := 0x01000000#64 } }) 0x10200073
      (fun h => (h.vs.status, h.m.status))) = some (0x20#64, 0x01000000#64) := by decide
/-- X7. -/
theorem test_mnret :
    (let h := hartIn Config.full .m false 0x200000000000#64 0#64
     after (machine Config.full { h with nm := { h.nm with status := 0x1800#64, epc := 0x80000040#64 } }) 0x70200073
      (fun h => (h.priv, h.nm.status, h.m.status, h.pc)))
      = some (.m, 0x1808#64, 0x200000000000#64, 0x80000040#64) := by decide
/-- DB5: `dret` from Debug Mode with `pcerr` = 1. -/
theorem test_dret :
    (let h := hartIn plain .m false 0#64 0#64
     let d := { h with run := .debugMode, dbg := { dcsr := 0x400800C3#32, dpc := 0x80001000#64 } }
     match exec .dret (machine plain d) with
     | .next t => some (t.hart.run, t.hart.cerr, t.hart.pc)
     | _ => none) = some (.criticalError, true, 0x80001000#64) := by decide
/-- T1: `ecall` delegated to S-mode. -/
theorem test_ecall_to_s_mode :
    (let h := hartIn plain .u false 0x2#64 0#64
     after (machine plain { h with m := { h.m with edeleg := 0x100#64 } }) 0x00000073
      (fun h => (h.m.status, h.s.epc, h.s.cause, h.pc)))
      = some (0x01000020#64, 0x80000000#64, 8#64, 0x80002000#64) := by decide
/-- M3: `ecall` in M-mode with `MDT` = 1 and `NMIE` = 1. -/
theorem test_ecall_to_rnmi_handler :
    (let h := hartIn Config.full .m false 0x200000000000#64 0#64
     after (machine Config.full { h with nm := { h.nm with status := 0x8#64 } }) 0x00000073
      (fun h => (h.nm.epc, h.nm.cause, h.nm.status, h.pc)))
      = some (0x80000000#64, 11#64, 0x1800#64, 0x80004000#64) := by decide

/-! ### Traps -/

/-- T2: the double trap. -/
theorem test_double_trap :
    (let h := hartIn plain .s false 0x01000020#64 0#64
     let h := { h with m := { h.m with edeleg := 0x4#64 } }
     let h := takeTrap plain (exceptionAt { h with pc := 0x80002004#64 } 2#64 0x1234#64) h
     (h.m.epc, h.m.cause, h.m.tval, h.m.tval2, h.m.status, h.pc))
      = (0x80002004#64, 16#64, 0x1234#64, 2#64, 0x200001000820#64, 0x80001000#64) := by decide
/-- T11: a VS-level interrupt as a double trap is recorded with its M-level code. -/
theorem test_double_trap_of_interrupt :
    (let h := hartIn Config.full .u true 0#64 0#64
     let h := { h with m := { h.m with ideleg := 0x400#64 }, hs := { h.hs with ideleg := 0x400#64 }
                       vs := { h.vs with status := 0x01000000#64 } }
     let h := takeTrap Config.full (interruptRequest h 10) h
     (h.m.cause, h.m.tval2, mpv h, h.priv)) = (16#64, 0x800000000000000A#64, true, .m) := by decide
/-- M2: the critical-error state keeps everything. -/
theorem test_critical_error :
    (let h := hartIn plain .m false 0x200000000000#64 0#64
     takeTrap plain (exceptionAt h 11#64 0#64) h = { h with run := .criticalError, cerr := true }) := by decide
/-- DB4: a halt request to a hart in the critical-error state. -/
theorem test_halt_in_critical_error :
    (let h := { hartIn plain .m false 0#64 0#64 with run := .criticalError, cerr := true, haltreq := true }
     match step (machine plain h) with
     | .next t => some (t.hart.run, pcerr plain t.hart, dcsrCause t.hart, dcsrPrv t.hart, t.hart.dbg.dpc)
     | _ => none) = some (.debugMode, true, 0x3#3, 0x3#2, 0x80000000#64) := by decide
/-- W25: `pcerr` is read-only. -/
theorem test_pcerr_read_only :
    (let h := { hartIn plain .m false 0#64 0#64 with run := .debugMode, dbg := { dcsr := 0x400800C3#32, dpc := 0#64 } }
     pcerr plain (csrWrite (machine plain h) 0x7B0#12 0#64)) = true := by decide

/-! ### Witnesses: for each statement with hypotheses, concrete values that meet them, clause by clause -/

/-- DecodeEncode: operands at both ends of their fields. -/
theorem test_witness_DecodeEncode :
    (Instr.csrrw 0 0x000#12 31).wellFormed = true ∧ (Instr.csrrci 31 0xFFF#12 0).wellFormed = true := by decide

theorem test_witness_EncodeDecode :
    decodeWord 0xFFFFFFF3#32 = .ok (.csrrci 31 0xFFF#12 31) ∧ decodeWord 0x00000073#32 = .ok .ecall := by decide

/-- Both sides of each equivalence of CsrWordsDecode, with every operand bit 1. -/
theorem test_witness_CsrWordsDecode :
    decodeWord 0xFFFF9FF3#32 = .ok (.csrrw 31 0xFFF#12 31) ∧ decodeWord 0xFFFFAFF3#32 = .ok (.csrrs 31 0xFFF#12 31)
      ∧ decodeWord 0xFFFFBFF3#32 = .ok (.csrrc 31 0xFFF#12 31) ∧ decodeWord 0xFFFFDFF3#32 = .ok (.csrrwi 31 0xFFF#12 31)
      ∧ decodeWord 0xFFFFEFF3#32 = .ok (.csrrsi 31 0xFFF#12 31)
      ∧ decodeWord 0xFFFFFFF3#32 = .ok (.csrrci 31 0xFFF#12 31) := by decide

/-- A page fault of the instruction at `pc` on a running hart, and on a halted one. -/
theorem test_witness_OtherWordsGoToBaseISA_exceptions :
    (let e := Event.baseException 13#64 0x10#64 0#64 0#64 false
     let s := withEvent (machine plain (hartIn plain .s false 0#64 0#64)) e
     s.hart.run = .running ∧ (13#64).toNat < 2 ^ (xlenBits s.cfg - 1) ∧ 13#64 ≠ 16#64 ∧ s.events = [e]
      ∧ (s.hart.haltreq && s.cfg.hasDebug) = false ∧ selectedInterrupt s.cfg s.hart = none
      ∧ (inRun s .debugMode).hart.run ≠ .running ∧ (inRun s .debugMode).events = [e]
      ∧ 13#64 ∉ [20#64, 21#64, 23#64] ∧ 23#64 ∈ [20#64, 21#64, 23#64]) := by decide
/-- R39, R171: `tval2` of a page fault is 0, of a guest-page fault what `BaseISA` gives. -/
theorem test_tval2_of_guest_page_faults :
    ((baseRequest plain (hartIn plain .s false 0#64 0#64) 13#64 0x10#64 7#64 0#64 false).tval2,
     (baseRequest plain (hartIn plain .s true 0#64 0#64) 21#64 0x10#64 7#64 0#64 true).tval2) = (0#64, 7#64) := by decide

/-- OtherWordsGoToBaseISA: each way out of the table (ADDI, `funct3` = 100, EBREAK), and a word of the table; a byte and a register an answer does not write; the last of two stores to one address, the wrap at the top of the space included, and the last of two values for `x31`; a hart that an answer halts, and two that it does not. -/
theorem test_witness_OtherWordsGoToBaseISA :
    (0x00000013#32).extractLsb' 0 7 ≠ 0x73#7 ∧ (0x00004073#32).extractLsb' 12 3 = 0x4#3
      ∧ ((0x00100073#32).extractLsb' 12 3 = 0x0#3
          ∧ 0x00100073#32 ∉ [0x00000073#32, 0x10200073#32, 0x30200073#32, 0x70200073#32, 0x7B200073#32])
      ∧ ¬((0x30200073#32).extractLsb' 0 7 ≠ 0x73#7 ∨ (0x30200073#32).extractLsb' 12 3 = 0x4#3
          ∨ ((0x30200073#32).extractLsb' 12 3 = 0x0#3
              ∧ 0x30200073#32 ∉ [0x00000073#32, 0x10200073#32, 0x30200073#32, 0x70200073#32, 0x7B200073#32]))
      ∧ (∀ p ∈ [((0x2000 : Nat), 0#8)], p.1 % addressCount plain ≠ 0x1FFF) ∧ (∀ p ∈ [((5 : Nat), 0#64)], p.1 ≠ 6)
      ∧ ([(0x2000, 1#8), (2 ^ 64 + 0x2000, 2#8), (0x2001, 3#8)] : List Host.Cell)
          = [(0x2000, 1#8)] ++ (2 ^ 64 + 0x2000, 2#8) :: [(0x2001, 3#8)]
      ∧ (∀ p ∈ [((0x2001 : Nat), 3#8)], p.1 % addressCount plain ≠ (2 ^ 64 + 0x2000) % addressCount plain)
      ∧ ([(31, 1#64), (31, 2#64)] : List (Nat × Word)) = [(31, 1#64)] ++ (31, 2#64) :: [] ∧ (31 : Nat) ≠ 0 ∧ 31 < 32
      ∧ (let s := machine plain (hartIn plain .m false 0#64 0#64)
         s.hart.run = .running ∧ s.cfg.hasDebug = true ∧ (inRun s .debugMode).hart.run ≠ .running)
      ∧ { bare with hasDebug := false }.hasDebug = false := by
  decide
/-- R80: of two stores to one address the last one stays. -/
theorem test_base_stores :
    readByte (applyBase (machine plain (hartIn plain .m false 0#64 0#64))
      (.retire 0#64 [] [(0x2000, 1#8), (0x2000, 2#8)] [] 0#64 0#64)).mem 0x2000 = some 2#8 := by decide

/-- StepRunsInstruction: a word at the last four bytes of the RV64 address space; the debugger's command on a halted hart, and on a running one; an ADDI, and a 16-bit parcel alone at the end of the written bytes. -/
theorem test_witness_StepRunsInstruction :
    (let s := (machine plain { hartIn plain .m false 0#64 0#64 with pc := 0xFFFFFFFFFFFFFFFC#64 }).withFetchWord 32 0x30200073
     hartMoves s ∧ s.hart.run = .running ∧ (s.hart.haltreq && s.cfg.hasDebug) = false
      ∧ selectedInterrupt s.cfg s.hart = none
      ∧ readBytes s.cfg s.mem s.hart.pc.toNat 4 = .ok [0x73#8, 0x00#8, 0x20#8, 0x30#8]
      ∧ decode [0x73#8, 0x00#8, 0x20#8, 0x30#8] = .ok (.mret, []))
      ∧ (let s := withEvent (machine plain (hartIn plain .m false 0#64 0#64)) (.debugExec 0x7B200073#32)
         s.events = [.debugExec 0x7B200073#32] ∧ s.hart.run ≠ .debugMode ∧ (inRun s .debugMode).hart.run = .debugMode
          ∧ (inRun s .debugMode).events = [.debugExec 0x7B200073#32] ∧ decodeWord 0x7B200073#32 = .ok .dret)
      ∧ (let s := (machine plain (hartIn plain .m false 0#64 0#64)).withFetchWord 32 0x00000013
         hartMoves s ∧ readBytes s.cfg s.mem s.hart.pc.toNat 4 = .ok [0x13#8, 0x00#8, 0x00#8, 0x00#8]
          ∧ (0x13#8).extractLsb' 0 2 = 0x3#2 ∧ ∀ i, decodeWord (joinBytes 0x13#8 0x00#8 0x00#8 0x00#8) ≠ .ok i)
      ∧ (let s := { machine plain (hartIn plain .m false 0#64 0#64) with
                    mem := writeBytes plain [] (hartIn plain .m false 0#64 0#64).pc.toNat [0x01#8, 0x00#8] }
         hartMoves s ∧ readBytes s.cfg s.mem s.hart.pc.toNat 2 = .ok [0x01#8, 0x00#8]
          ∧ (0x01#8).extractLsb' 0 2 ≠ 0x3#2) :=
  ⟨⟨.inl rfl, rfl, rfl, rfl, rfl, rfl⟩, ⟨rfl, by decide, rfl, rfl, rfl⟩,
   ⟨.inl rfl, rfl, rfl, fun _ h => nomatch h⟩, .inl rfl, rfl, by decide⟩

/-- StepStopsOnlyOnUnwrittenBytes: the machine after reset, with no program loaded. -/
theorem test_witness_StepStopsOnlyOnUnwrittenBytes :
    step State.reset = .fault (.unwrittenByte 0x80000000) := by rfl

/-- A machine in M-mode, one in S-mode, one in U-mode, and one in VS-mode, with every extension, and `SDT` and `MDT` 1. -/
def inM (x5 : Word) : State := machine Config.full (hartIn Config.full .m false 0x200001000000#64 x5)
def inS (x5 : Word) : State := machine Config.full (hartIn Config.full .s false 0x200001000000#64 x5)
def inVs (x5 : Word) : State :=
  let h := hartIn Config.full .s true 0x200001000000#64 x5
  machine Config.full { h with vs := { h.vs with status := 0x01000000#64 } }

/-- The three outcomes of the access check, which the statements of the six CSR instructions share, for a read and for a write. -/
theorem test_witness_csr_access :
    csrAccess (inM 0#64).cfg (inM 0#64).hart 0x300#12 true = .granted
      ∧ csrAccess (inS 0#64).cfg (inS 0#64).hart 0x300#12 true = .illegal
      ∧ csrAccess (inVs 0#64).cfg (inVs 0#64).hart 0x600#12 true = .virtualInstruction
      ∧ csrAccess (inM 0#64).cfg (inM 0#64).hart 0x300#12 false = .granted
      ∧ csrAccess (inS 0#64).cfg (inS 0#64).hart 0x300#12 false = .illegal
      ∧ csrAccess (inVs 0#64).cfg (inVs 0#64).hart 0x600#12 false = .virtualInstruction := by decide

theorem test_witness_Csrrw :
    (let s := inM 0x01000002#64
     (0 < 32 ∧ 31 < 32) ∧ csrAccess s.cfg s.hart 0x300#12 true = .granted ∧ ssActive s.cfg s.hart = true
      ∧ bit (readReg s.cfg s.hart 5) 24 = true) := by decide
theorem test_witness_Csrrs :
    (let s := inM 0x01000002#64
     csrAccess s.cfg s.hart 0x300#12 true = .granted ∧ 5 ≠ 0 ∧ ssActive s.cfg s.hart = true
      ∧ (sdt s.cfg s.hart = true ∨ bit (readReg s.cfg s.hart 5) 24 = true)) := by decide
theorem test_witness_Csrrc :
    (let s := inS 0x01000000#64
     csrAccess s.cfg s.hart 0x100#12 true = .granted ∧ 5 ≠ 0 ∧ s.hart.virt = false
      ∧ bit (readReg s.cfg s.hart 5) 24 = true) := by decide
theorem test_witness_Csrrwi :
    (let s := inM 0#64
     csrAccess s.cfg s.hart 0x300#12 true = .granted ∧ s.cfg.xlen = .rv64) := by decide
theorem test_witness_Csrrsi :
    (let s := inM 0#64
     csrAccess s.cfg s.hart 0x300#12 true = .granted ∧ 31 ≠ 0 ∧ mdt s.cfg s.hart = true)
      ∧ (let s := inS 0#64
         csrAccess s.cfg s.hart 0x100#12 true = .granted ∧ 2 ≠ 0 ∧ s.hart.virt = false ∧ sdt s.cfg s.hart = true)
      ∧ (let s := inVs 0#64
         csrAccess s.cfg s.hart 0x100#12 true = .granted ∧ 2 ≠ 0 ∧ s.hart.virt = true
          ∧ vsSdt s.cfg s.hart = true) := by decide
theorem test_witness_Csrrci :
    (let s := inM 0#64
     csrAccess s.cfg s.hart 0x300#12 true = .granted ∧ csrAccess s.cfg s.hart 0x30A#12 (31 != 0) = .granted
      ∧ csrAccess s.cfg s.hart 0x60A#12 (0 != 0) = .granted ∧ (10 : Nat).testBit 1 = true ∧ (10 : Nat).testBit 3 = true) := by
  decide

/-- CsrAccessCheck: an absent CSR, a too low level, `dcsr` outside Debug Mode, a granted access on the level's edge, Debug Mode. -/
theorem test_witness_CsrAccessCheck :
    (csrExists plain 0x600#12 = false ∧ csrExists plain 0xFFF#12 = false)
      ∧ (let h := (inS 0#64).hart
         csrExists Config.full 0x300#12 = true ∧ h.run ≠ .debugMode ∧ accessLevel Config.full h < requiredLevel 0x300#12
          ∧ h.priv = .s ∧ requiredLevel 0x200#12 ≤ accessLevel Config.full h)
      ∧ csrExists Config.full 0x7B1#12 = true
      ∧ (csrExists Config.full 0x7B0#12 = true ∧ (inRun (inM 0#64) .debugMode).hart.run = .debugMode)
      ∧ (csrExists { plain with baseCsrs := [0xF14#12] } 0xF14#12 = true ∧ (0xF14#12).extractLsb' 10 2 = 0x3#2)
      ∧ (inM 0#64).hart.priv = .m ∧ (hartIn plain .u false 0#64 0#64).priv = .u := by decide

/-- R127: a mask that does not touch `MIE` keeps it. -/
theorem test_untouched_field_kept :
    (match exec (.csrrsi 0 0x300#12 2) (machine plain (hartIn plain .m false 0x8#64 0#64)) with
     | .next t => some (mie t.hart, sie t.hart)
     | _ => none) = some (true, true) := by decide

/-- CsrReads: both values of `V`, both values of each activity and of Smdbltrp, and both widths. -/
theorem test_witness_CsrReads :
    ¬(inS 0#64).hart.virt = true ∧ (inVs 0#64).hart.virt = true
      ∧ ssActive bare (hartIn bare .m false 0#64 0#64) = false ∧ ssActiveVS plain (hartIn plain .m false 0#64 0#64) = false
      ∧ plain.xlen = .rv64 ∧ plain32.xlen = .rv32 ∧ bare.hasSmdbltrp = false ∧ bare.wf = true := by decide

/-- WriteMstatusRv64, WriteMstatusRv32, WriteSstatus, WriteVsstatus and PlainCsrWrites: the two widths, both values of `V`, a legal `MPP`, `MNPP` and `dcsr.prv`. -/
theorem test_witness_status_writes :
    (inM 0#64).cfg.xlen = .rv64 ∧ (machine plain32 (hartIn plain32 .m false 0#64 0#64)).cfg.xlen = .rv32
      ∧ (inVs 0#64).hart.virt = true ∧ (inS 0#64).hart.virt = false
      ∧ legalPrivilege plain (field2 0x1800#64 11) = true ∧ legalPrivilege plain (field2 0#64 11) = true
      ∧ legalPrivilege plain (field2 0x1#64 0) = true ∧ legalPrivilege plain (field2 0x2#64 0) = false := by decide

/-- WriteDte: the four addresses, `DTE` written 0 and 1. -/
theorem test_witness_WriteDte :
    (Config.full.xlen = .rv64 ∧ full32.xlen = .rv32)
      ∧ (Config.full.hasSsdbltrp && bit 0x0800000000000000#64 59) = true
      ∧ (Config.full.hasSsdbltrp && bit 0#64 59) = false ∧ (full32.hasSsdbltrp && bit 0x08000000#64 27) = true
      ∧ (Config.full.hasSsdbltrp && Config.full.hasH && bit (inM 0#64).hart.m.envcfg 59
          && bit 0x0800000000000000#64 59) = true := by decide

/-- DelegationOfDoubleTrap: the request of cause 16. -/
theorem test_witness_DelegationOfDoubleTrap :
    (let t := exceptionAt (inS 0#64).hart 16#64 0#64
     t.intr = false ∧ t.code = 16#64) := by decide

/-- HandlerAddress: MODE 0, MODE 1, and an exception under a reserved MODE. -/
theorem test_witness_HandlerAddress :
    field2 0x80001000#64 0 = 0x0#2 ∧ field2 0xFFFFFFFFFFFFFFFD#64 0 = 0x1#2
      ∧ (field2 0x3#64 0 ≠ 0x0#2 ∧ field2 0x3#64 0 ≠ 0x1#2) := by decide

/-- U-mode with code 8 delegated, VU-mode with code 8 delegated twice. -/
def delegatingU (status : Word) : Hart :=
  let h := hartIn Config.full .u false status 0#64
  { h with m := { h.m with edeleg := 0x100#64 } }
def delegatingVu (vsStatus : Word) : Hart :=
  let h := hartIn Config.full .u true 0#64 0#64
  { h with m := { h.m with edeleg := 0x100#64 }, hs := { h.hs with edeleg := 0x100#64 }
           vs := { h.vs with status := vsStatus } }
def callFromU (h : Hart) : TrapRequest := exceptionAt h 8#64 0#64

/-- TrapIntoHs with and without H, and TrapIntoVs. -/
theorem test_witness_TrapIntoHs_TrapIntoVs :
    (let h := delegatingU 0x2#64
     dest Config.full h false 8#64 = .hs ∧ sdt Config.full h = false ∧ Config.full.hasH = true
      ∧ dest plain h false 8#64 = .hs ∧ sdt plain h = false ∧ plain.hasH = false)
      ∧ (let h := delegatingVu 0x2#64
         dest Config.full h false 8#64 = .vs ∧ vsSdt Config.full h = false) := by decide

/-- TrapIntoM: with Smdbltrp and `MDT` 0, without Smdbltrp, and the RNMI exception handler. -/
theorem test_witness_TrapIntoM :
    (let h := hartIn plain .m false 0#64 0#64
     dest plain h false 11#64 = .m ∧ plain.hasSmdbltrp = true ∧ bit h.m.status 45 = false
      ∧ ¬(plain.hasSmrnmi = true ∧ nmie h = false ∧ h.priv = .m ∧ false = false)
      ∧ alignPc plain plain.rnmiExcHandler = plain.rnmiExcHandler)
      ∧ (let c := { bare with hasSmrnmi := true }
         let h := hartIn c .m false 0#64 0#64
         c.hasSmdbltrp = false ∧ dest c h false 11#64 = .m ∧ c.hasSmrnmi = true ∧ nmie h = false ∧ h.priv = .m
          ∧ alignPc c c.rnmiExcHandler = c.rnmiExcHandler) := by decide

/-- DoubleTrapDelivery: in S/HS-mode and in VS-mode. -/
theorem test_witness_DoubleTrapDelivery :
    (doubleTrap Config.full (callFromU (delegatingU 0x01000000#64)) (delegatingU 0x01000000#64)
      ∧ mdt Config.full (delegatingU 0x01000000#64) = false)
      ∧ (doubleTrap Config.full (callFromU (delegatingVu 0x01000000#64)) (delegatingVu 0x01000000#64)
      ∧ mdt Config.full (delegatingVu 0x01000000#64) = false) :=
  ⟨⟨.inl ⟨by decide, by decide⟩, by decide⟩, ⟨.inr ⟨by decide, by decide⟩, by decide⟩⟩

/-- RnmiHandlerInvoked: a trap into M-mode, and a double trap (vectors M3 and M7). -/
theorem test_witness_RnmiHandlerInvoked :
    (let c := Config.full
     let h := { hartIn c .m false 0x200000000000#64 0#64 with nm := { (resetHart c 0 false 0#64).nm with status := 0x8#64 } }
     let g := { delegatingU 0x200001000000#64 with nm := { (resetHart c 0 false 0#64).nm with status := 0x8#64 } }
     (dest c h false 11#64 = .m ∧ bit h.m.status 45 = true ∧ nmie h = true)
      ∧ (doubleTrap c (callFromU g) g ∧ bit g.m.status 45 = true ∧ nmie g = true)
      ∧ c.hasSmdbltrp = true ∧ c.hasSmrnmi = true ∧ alignPc c c.rnmiDbltrpHandler = c.rnmiDbltrpHandler) :=
  ⟨by decide, ⟨.inl ⟨by decide, by decide⟩, by decide, by decide⟩, by decide, by decide, by decide⟩

/-- CriticalErrorEntry: `MDT` 1 without Smrnmi (M2), `NMIE` 0 with `MDT` 0 (M5), and a trap that meets neither; MdtProtectsMLevelState. -/
theorem test_witness_CriticalErrorEntry :
    (let h := hartIn plain .m false 0x200000000000#64 0#64
     dest plain h false 11#64 = .m ∧ plain.hasSmdbltrp = true ∧ bit h.m.status 45 = true ∧ plain.hasSmrnmi = false)
      ∧ (let h := hartIn Config.full .m false 0#64 0#64
         dest Config.full h false 11#64 = .m ∧ Config.full.hasSmdbltrp = true ∧ Config.full.hasSmrnmi = true
          ∧ nmie h = false ∧ h.priv = .m ∧ bit h.m.status 45 = false)
      ∧ (let h := hartIn plain .m false 0#64 0#64
         bit h.m.status 45 = false ∧ plain.hasSmrnmi = false) := by decide

/-- CauseSixteenOnlyByDoubleTrap: the double trap of cause 8 writes 16; an NMI after it, presented with 16, leaves no new 16. -/
theorem test_witness_CauseSixteenOnlyByDoubleTrap :
    (let h := delegatingU 0x01000000#64
     let t := callFromU h
     trunc Config.full t.code = t.code ∧ t.code ≠ 16#64 ∧ (takeTrap Config.full t h).m.cause = 16#64)
      ∧ (let h := takeTrap plain (callFromU (delegatingU 0x01000000#64)) (delegatingU 0x01000000#64)
         (takeNmi plain 16#64 { h with run := .criticalError }).m.cause = 16#64 ∧ (takeNmi plain 16#64 h).m.cause = 0#64) := by
  decide
/-- R189: an exception presented with cause 16 counts as an undefined instruction. -/
theorem test_no_exception_of_cause_16 :
    (baseRequest plain32 (inM 0#64).hart 0x80000010#64 0#64 0#64 0#64 false).code = 2#64 := by decide

/-- Ecall, Mret, Mnret and Sret: each clause's mode. -/
theorem test_witness_returns :
    (inM 0#64).hart.run = .running ∧ (inRun (inM 0#64) .debugMode).hart.run = .debugMode
      ∧ (inS 0#64).hart.priv ≠ .m ∧ (inM 0#64).hart.priv = .m
      ∧ (inM 0#64).cfg.hasSmrnmi = true ∧ (machine plain (inM 0#64).hart).cfg.hasSmrnmi = false
      ∧ mpp (inM 0#64).hart ≠ 0x2#2 ∧ mnpp (inM 0#64).hart ≠ 0x2#2 := by decide
theorem test_witness_Sret :
    (hartIn plain .u false 0#64 0#64).priv = .u
      ∧ (let h := hartIn plain .s false 0x400000#64 0#64
         h.priv = .s ∧ h.virt = false ∧ tsr h = true)
      ∧ (let h := (inVs 0#64).hart
         h.priv ≠ .u ∧ h.virt = true ∧ vtsr h = false
          ∧ vtsr { h with hs := { h.hs with status := 0x400000#64 } } = true)
      ∧ (let h := (inS 0#64).hart
         h.priv ≠ .u ∧ h.virt = false ∧ tsr h = false) := by decide

/-- A halted hart: `dcsr` as given. -/
def halted (dcsr : BitVec 32) : State :=
  let h := hartIn Config.full .m false 0#64 0#64
  machine Config.full { h with run := .debugMode, dbg := { dcsr := dcsr, dpc := 0x80001000#64 } }

/-- DretAndResume: outside and in Debug Mode, by the DM, with both values of `pcerr`. -/
theorem test_witness_DretAndResume :
    (inM 0#64).hart.run ≠ .debugMode ∧ (halted 0#32).hart.run = .debugMode
      ∧ (withEvent (halted 0#32) .resume).events = [.resume]
      ∧ pcerr Config.full (halted 0x00080003#32).hart = true ∧ pcerr Config.full (halted 0#32).hart = false := by decide

/-- ReturnsAndDisableTrapBits: each return completes in the mode its clause names. -/
theorem test_witness_ReturnsAndDisableTrapBits :
    (∃ t, exec .sret (inS 0#64) = .next t) ∧ (∃ t, exec .sret (inVs 0#64) = .next t)
      ∧ (∃ t, exec .mret (inM 0#64) = .next t) ∧ (∃ t, exec .mnret (inM 0#64) = .next t)
      ∧ (∃ t, exec .dret (halted 0#32) = .next t) ∧ (∃ t, step (withEvent (halted 0#32) .resume) = .next t) :=
  ⟨⟨_, rfl⟩, ⟨_, rfl⟩, ⟨_, rfl⟩, ⟨_, rfl⟩, ⟨_, rfl⟩, ⟨_, rfl⟩⟩

/-- VS-mode with an interrupt pending on the lowest and on the highest code of R204, the lower delegated to VS-mode. -/
def interrupted : State :=
  let h := (inVs 0#64).hart
  machine Config.full
    { h with irq := 0x2002#64, nm := { h.nm with status := 0x8#64 }, vs := { h.vs with status := 0x2#64 }
             m := { h.m with ideleg := 0x2#64 }, hs := { h.hs with ideleg := 0x2#64 } }

/-- R204: an interrupt comes before an exception of the instruction at `pc` (and with `MDT` 1 goes to the RNMI handler, R194). -/
theorem test_interrupt_before_exception :
    (match step (withEvent interrupted (.baseException 13#64 0#64 0#64 0#64 false)) with
     | .next t => some t.hart.nm.cause
     | _ => none) = some 0x800000000000000D#64 := by decide

/-- InterruptSelection: two can be taken, the one destined for M-mode is selected, in a turn with an instruction and in one with an exception; and none is while `NMIE` is 0. -/
theorem test_witness_InterruptSelection :
    (let s := interrupted
     hartTurns s ∧ hartTurns (withEvent s (.baseException 13#64 0#64 0#64 0#64 false)) ∧ s.hart.run = .running ∧ (s.hart.haltreq && s.cfg.hasDebug) = false
      ∧ selectedInterrupt s.cfg s.hart = some 13
      ∧ canInterrupt s.cfg s.hart 13 ∧ canInterrupt s.cfg s.hart 1)
      ∧ (Config.full.hasSmrnmi = true ∧ nmie (inM 0#64).hart = false) := by
  refine ⟨⟨.inl (.inl rfl), .inr ⟨_, _, _, _, _, _, rfl⟩, by decide, by decide, by decide, ⟨by decide, by decide, ?_⟩,
    ⟨by decide, by decide, ?_⟩⟩, by decide⟩
  · exact .inl (by decide)
  · exact .inr ⟨by decide, by decide⟩

/-- DisableTrapBitsBlockInterrupts: `SDT` 1 with an M-level interrupt that is taken, and `MDT` 1. -/
theorem test_witness_DisableTrapBitsBlockInterrupts :
    (let h := { hartIn plain .s false 0x01000000#64 0#64 with irq := 0x80#64 }
     h.priv = .s ∧ h.virt = false ∧ sdt plain h = true ∧ sdtMasksSie plain h ∧ selectedInterrupt plain h = some 7)
      ∧ (let h := { hartIn plain .m false 0x200000000000#64 0#64 with irq := 0x80#64 }
         h.priv = .m ∧ mdt plain h = true ∧ mdtMasksMie plain h) := by
  refine ⟨⟨by decide, by decide, by decide, ⟨?_, ?_⟩, by decide⟩, ⟨by decide, by decide, ?_⟩⟩
  · intro _; decide
  · intro _; decide
  · intro _; decide

/-- ResumableNmi and NonResumableNmi: taken; not taken; and with both outcomes of `NMI_CHECKS_MDT`. -/
theorem test_witness_nmi :
    (withEvent interrupted (.rnmi 5#64)).events = [.rnmi 5#64]
      ∧ alignPc Config.full Config.full.rnmiIntHandler = Config.full.rnmiIntHandler
      ∧ nmie interrupted.hart = true ∧ interrupted.hart.run = .running ∧ nmie (inM 0#64).hart = false
      ∧ (let c := { plain with nmiChecksMdt := true }
         let s := machine c (hartIn c .m false 0x200000000000#64 0#64)
         (withEvent s (.nmi 5#64)).events = [.nmi 5#64] ∧ s.hart.run = .running ∧ c.hasSmrnmi = false
          ∧ alignPc c c.nmiHandler = c.nmiHandler ∧ mdt c s.hart = true ∧ c.nmiChecksMdt = true)
      ∧ Config.full.hasSmrnmi = true ∧ (inRun (inM 0#64) .debugMode).hart.run ≠ .running
      ∧ plain.nmiChecksMdt = false ∧ alignPc plain plain.nmiHandler = plain.nmiHandler := by decide

/-- HaltOfARunningHart: by a halt request, before an instruction and before its exception, and for another cause; a turn of a halted hart in which an interrupt waits. -/
theorem test_witness_HaltOfARunningHart :
    (let s := machine plain { hartIn plain .u false 0#64 0#64 with haltreq := true }
     s.hart.run = .running ∧ s.cfg.hasDebug = true ∧ s.hart.haltreq = true
      ∧ hartTurns s ∧ hartTurns (withEvent s (.baseException 13#64 0#64 0#64 0#64 false)))
      ∧ (∃ rest, (withEvent (inM 0#64) (.debugEntry 0x7#3)).events = .debugEntry 0x7#3 :: rest)
      ∧ (let s := inRun (machine plain { hartIn plain .u false 0#64 0#64 with irq := 0x80#64 }) .debugMode
         hartTurns s ∧ s.hart.run = .debugMode ∧ (withEvent s (.debugEntry 0x7#3)).hart.run ≠ .running)
      ∧ { bare with hasDebug := false }.hasDebug = false :=
  ⟨⟨rfl, rfl, rfl, .inl (.inl rfl), .inr ⟨_, _, _, _, _, _, rfl⟩⟩, ⟨[], rfl⟩, ⟨.inl (.inl rfl), rfl, by decide⟩, rfl⟩

/-- A hart in the critical-error state, with and without a halt request. -/
def condemnedHart (haltreq : Bool) : Hart :=
  { hartIn plain .m false 0x200000000000#64 0#64 with run := .criticalError, cerr := true, haltreq := haltreq }

/-- HaltInTheCriticalErrorState: with and without Sddbltrp. -/
theorem test_witness_HaltInTheCriticalErrorState :
    (let s := machine plain (condemnedHart true)
     hartMoves s ∧ s.hart.run = .criticalError ∧ s.hart.haltreq = true ∧ s.cfg.hasSddbltrp = true)
      ∧ { plain with hasSddbltrp := false }.hasSddbltrp = false :=
  ⟨⟨.inl rfl, rfl, rfl, rfl⟩, rfl⟩

/-- CriticalErrorStateIsLeftOnlyByResetOrHalt: an interrupt line rises; the hart's own step, without a halt request and with one that Sddbltrp is absent for; a configuration with an instruction-retired counter (AnycerrSeesEveryHart too). -/
theorem test_witness_CriticalErrorStateIsLeftOnlyByResetOrHalt :
    (let s := withEvent (machine plain (condemnedHart false)) (.irqLine 7 true)
     s.hart.run = .criticalError ∧ s.hart.haltreq = false
      ∧ (resets (.irqLine 7 true) = false ∧ selects (.irqLine 7 true) = false) ∧ s.events = [.irqLine 7 true])
      ∧ (machine plain (condemnedHart false)).events = []
      ∧ (machine { plain with hasSddbltrp := false } (condemnedHart true)).cfg.hasSddbltrp = false
      ∧ 0xB02#12 ∈ { plain with retiredCounters := [0xB02#12] }.retiredCounters ∧ Csr.ofAddress 0xB02#12 = none := by
  decide

/-- CondemnedUntilReset: a resume of a hart halted out of the critical-error state. -/
theorem test_witness_CondemnedUntilReset :
    condemned Config.full (halted 0x00080003#32).hart
      ∧ (∃ t, step (withEvent (halted 0x00080003#32) .resume) = .next t)
      ∧ (resets .resume = false ∧ selects .resume = false) :=
  ⟨.inr ⟨rfl, rfl⟩, ⟨_, rfl⟩, rfl, rfl⟩

/-- A machine whose DM holds `dmcs2` as given, and whose hart asserts `critical-error`. -/
def suppressed (dmcs2 : BitVec 32) : State :=
  { machine plain (condemnedHart false) with dm := { DebugModule.reset with dmcs2 := dmcs2 } }

/-- ScerrMasksThePlatform: both values of `scerr`, a hart that asserts nothing, and an action that is not allowed. -/
theorem test_witness_ScerrMasksThePlatform :
    scerr (suppressed 0x1000#32) = true ∧ scerr (suppressed 0x0FFF#32) = false ∧ (suppressed 0#32).hart.cerr = true
      ∧ (inM 0#64).hart.cerr = false
      ∧ (withEvent (suppressed 0#32) (.platform .resetAll)).events = [.platform .resetAll]
      ∧ .resetAll ∈ plain.platformCerrActions ∧ .other ∈ plain.platformCerrActions
      ∧ .other ∉ { plain with platformCerrActions := [.resetHart] }.platformCerrActions := by decide

/-- AnycerrSeesEveryHart: each command of the debugger, a DM that has `anycerr` and one that has not; a CSR access in Debug Mode that is granted, one that is turned away there, and one outside it; a halted hart with `V` = 1, and addresses inside and outside the four. -/
theorem test_witness_AnycerrSeesEveryHart :
    (∀ e ∈ [Event.dmRead 0x11, .dmWrite 0x11 0#32, .dmRead 0x32, .dmWrite 0x32 0x1000#32, .dmRead 0x10,
        .dmWrite 0x10 0x03FFFFC0#32, .debugCsrRead 0x105#12, .debugCsrWrite 0x300#12 2#64, .debugRegRead 31,
        .debugRegWrite 0 1#64],
      (withEvent (suppressed 0#32) e).events = [e])
      ∧ (suppressed 0#32).cfg.hasAnycerr = true
      ∧ (withEvent { suppressed 0#32 with cfg := { plain with hasAnycerr := false } } (.dmRead 0x11)).cfg.hasAnycerr = false
      ∧ (let s := halted 0#32
         s.hart.run = .debugMode ∧ csrAccess s.cfg s.hart 0x300#12 true = .granted
          ∧ csrAccess s.cfg s.hart 0x105#12 false = .granted
          ∧ csrAccess s.cfg s.hart 0xFFF#12 true ≠ .granted ∧ csrAccess s.cfg s.hart 0xFFF#12 false ≠ .granted)
      ∧ (suppressed 0#32).hart.run ≠ .debugMode
      ∧ (inRun (inVs 0#64) .debugMode).hart.virt = true ∧ 0x100#12 ∉ [0x105#12, 0x141#12, 0x142#12, 0x143#12]
      ∧ (halted 0#32).hart.virt = false := by decide

/-- R49, R107: a debugger's write to `dmstatus` is ignored. -/
theorem test_dmstatus_write_ignored :
    dmRegisterWrite (suppressed 0x1000#32) 0x11 0xFFFFFFFF#32 = suppressed 0x1000#32 := by decide
/-- R48: `scerr` is bit 12 of the register 0x32. -/
theorem test_dmcs2_by_number :
    bit (dmRegisterRead (dmRegisterWrite (suppressed 0#32) 0x32 0x1000#32) 0x32) 12 = true := by decide
/-- R212: the debugger of a hart halted in VS-mode reads `stvec` itself, not `vstvec`. -/
theorem test_debugger_reads_stvec :
    (debugCsrRead (inRun (inVs 0#64) .debugMode) 0x105#12).dm.data = 0x80002000#64 := by decide

/-- R130, D28: with `V` = 1 its write to `sstatus` goes to `vsstatus`. -/
theorem test_debugger_writes_sstatus :
    (let s := debugCsrWrite (inRun (inVs 0#64) .debugMode) 0x100#12 0x2#64
     (vsSdt s.cfg s.hart, vsSie s.hart, sdt s.cfg s.hart, sie s.hart)) = (false, true, true, false) := by decide
/-- R170, R221: a return retires, an instruction that raises an exception does not. -/
theorem test_retired :
    (match exec .mret (inM 0#64), exec .ecall (inM 0#64) with
     | .next t, .next u => some (t.hart.retired, u.hart.retired)
     | _, _ => none) = some (1, 0) := by decide

/-- HartsAreIndependent: a step of one of two harts, a halt request raised, the highest interrupt line and one beyond it. -/
theorem test_witness_HartsAreIndependent :
    (∃ t, step (withEvent { inM 0#64 with parked := [condemnedHart false] } .resetHart) = .next t)
      ∧ selects .resetHart = false ∧ Event.resetHart ≠ .resetAll ∧ Event.resetHart ≠ .platform .resetAll
      ∧ (withEvent (inM 0#64) (.haltRequest true)).events = [.haltRequest true]
      ∧ (withEvent (inM 0#64) (.irqLine 63 true)).events = [.irqLine 63 true] ∧ (63 < 64 ∧ ¬(64 < 64)) :=
  ⟨⟨_, rfl⟩, rfl, by decide, by decide, rfl, rfl, by decide⟩

/-- ResetOfAHart and ResetEstablishesTheInvariants: configurations that meet the constraints, one with every reset parameter 1. -/
theorem test_witness_ResetOfAHart :
    (let c := { Config.full with resetSdt := true, resetVssdt := true, resetMenvcfgDte := true, resetHenvcfgDte := true }
     c.wf = true ∧ alignPc c c.resetVector = c.resetVector ∧ trunc c c.resetCause = c.resetCause)
      ∧ full32.wf = true ∧ alignPc full32 full32.resetVector = full32.resetVector
      ∧ trunc full32 full32.resetCause = full32.resetCause
      ∧ (withEvent (suppressed 0#32) .resetHart).events = [.resetHart]
      ∧ (withEvent (suppressed 0#32) .resetAll).events = [.resetAll]
      ∧ (withEvent (suppressed 0#32) .resetDm).events = [.resetDm] := by decide

/-- The machine of the invariants' witnesses: the machine after reset about to run `mret`. -/
def booting : State := { State.reset with mem := writeBytes Config.full [] 0x80000000 (wordBytes 0x30200073#32) }

/-- It steps. -/
theorem test_witness_invariants_step : ∃ t, step booting = .next t := ⟨_, rfl⟩

theorem test_witness_MdtMasksMieKept : allHarts mdtMasksMie booting :=
  ⟨fun _ => by decide, fun _ h => (List.not_mem_nil h).elim⟩
theorem test_witness_SdtMasksSieKept :
    allHarts sdtMasksSie booting ∧ ∀ e rest, booting.events = e :: rest → resets e = false :=
  ⟨⟨⟨fun _ => by decide, fun _ => by decide⟩, fun _ h => (List.not_mem_nil h).elim⟩, fun _ _ h => by cases h⟩
theorem test_witness_ModesStayLegal : allHarts modeConsistent booting ∧ allHarts storedModesNamed booting :=
  ⟨⟨⟨fun _ => by decide, fun _ => by decide, fun h => (by cases h)⟩, fun _ h => (List.not_mem_nil h).elim⟩,
   ⟨⟨by decide, by decide, by decide⟩, fun _ h => (List.not_mem_nil h).elim⟩⟩
theorem test_witness_CriticalErrorSignalTracksRunState : allHarts cerrTracksRun booting :=
  ⟨show _ = _ by decide, fun _ h => (List.not_mem_nil h).elim⟩
theorem test_witness_ReadOnlyZerosStayZero : allHarts readOnlyZeroHeld booting :=
  ⟨⟨by decide, by decide, fun _ => by decide, fun _ => by decide, fun h => (by cases h), fun h => (by cases h),
    fun h => (by cases h)⟩, fun _ h => (List.not_mem_nil h).elim⟩
theorem test_witness_MemoryStaysCanonical :
    Memory.wf booting.mem ∧ (∀ p ∈ booting.mem, p.1 < addressCount booting.cfg)
      ∧ (withEvent booting (.memWrite (2 ^ 64) 1#8)).events = [.memWrite (2 ^ 64) 1#8]
      ∧ 2 ^ 64 % addressCount booting.cfg = 0 := by decide
theorem test_witness_AddressesAndWidthsKept : allHarts pcAligned booting ∧ allHarts registersXlenWide booting := by
  refine ⟨⟨?_, fun _ h => (List.not_mem_nil h).elim⟩, ⟨?_, fun _ h => (List.not_mem_nil h).elim⟩⟩
  · refine ⟨?_, ?_, ?_, ?_, ?_, ?_⟩ <;> decide
  · exact ⟨fun _ _ _ => rfl, rfl, rfl, rfl, rfl, rfl, rfl, rfl, rfl, rfl, rfl, rfl, rfl, rfl, rfl, rfl, rfl, rfl, rfl,
      rfl, rfl, rfl, rfl, rfl, rfl, rfl, rfl⟩

end Sys2Proof.Tests
end

/-! PROOF. StepRunsInstruction: what is read from consecutive bytes, what `fetch` makes of it, and which turn of the hart reaches its fetch. -/

namespace Sys2Proof

/-- Bits 1:0 of a word are those of its byte at the lowest address (R101). -/
theorem extractLsb'_joinBytes_low (b0 b1 b2 b3 : Byte) :
    (joinBytes b0 b1 b2 b3).extractLsb' 0 2 = b0.extractLsb' 0 2 := by
  apply BitVec.eq_of_getLsbD_eq
  intro j hj
  have hj8 : j < 8 := by omega
  simp [getLsbD_joinBytes, hj8]

/-- A word of the table is no 16-bit parcel (R101, R106). -/
theorem decodeWord_ok_low {w : BitVec 32} {i : Instr} (h : decodeWord w = .ok i) : w.extractLsb' 0 2 = 0x3#2 := by
  by_contra hw
  rw [decodeWord, if_pos hw] at h
  cases h

/-- A decode that leaves no byte over had four bytes, whose word decodes. -/
theorem decode_ok_nil {bytes : List Byte} {i : Instr} (h : decode bytes = .ok (i, [])) :
    ∃ b0 b1 b2 b3, bytes = [b0, b1, b2, b3] ∧ decodeWord (joinBytes b0 b1 b2 b3) = .ok i := by
  unfold decode at h
  split at h
  · rename_i b0 b1 b2 b3 rest
    split at h
    · rename_i hw
      cases h
      exact ⟨b0, b1, b2, b3, rfl, hw⟩
    · cases h
  · cases h

end Sys2Proof

namespace Sys2Proof.Machine

open Sys2Proof.Safety

/-- A read of consecutive bytes, taken apart at its first. -/
theorem readBytes_succ_ok {cfg : Config} {m : Memory} {a n : Nat} {b : Byte} {bs : List Byte} :
    readBytes cfg m a (n + 1) = .ok (b :: bs)
      ↔ readByte m (a % addressCount cfg) = some b ∧ readBytes cfg m (a + 1) n = .ok bs := by
  rw [readBytes]
  cases readByte m (a % addressCount cfg) with
  | none => simp
  | some c => cases readBytes cfg m (a + 1) n <;> simp

/-- Four bytes read at once are those of the two halves, read one after the other, at the top of the space too. -/
theorem readBytes_four_ok {cfg : Config} {m : Memory} {a : Nat} {b0 b1 b2 b3 : Byte}
    (h : readBytes cfg m a 4 = .ok [b0, b1, b2, b3]) :
    readBytes cfg m a 2 = .ok [b0, b1] ∧ readBytes cfg m (a + 2) 2 = .ok [b2, b3] := by
  obtain ⟨h0, h⟩ := readBytes_succ_ok.1 h
  obtain ⟨h1, h⟩ := readBytes_succ_ok.1 h
  exact ⟨readBytes_succ_ok.2 ⟨h0, readBytes_succ_ok.2 ⟨h1, rfl⟩⟩, h⟩

/-- Where bits 1:0 are 11, the fetch answers the four bytes at `pc` (R101). -/
theorem fetch_word {s : State} {b0 b1 b2 b3 : Byte}
    (h : readBytes s.cfg s.mem s.hart.pc.toNat 4 = .ok [b0, b1, b2, b3]) (hb : b0.extractLsb' 0 2 = 0x3#2) :
    fetch s = .ok (joinBytes b0 b1 b2 b3) := by
  obtain ⟨low, high⟩ := readBytes_four_ok h
  simp [fetch, low, high, hb]

/-- Where they are not, the fetch reads two bytes only (R101; assumption log 6). -/
theorem fetch_parcel {s : State} {b0 b1 : Byte}
    (h : readBytes s.cfg s.mem s.hart.pc.toNat 2 = .ok [b0, b1]) (hb : b0.extractLsb' 0 2 ≠ 0x3#2) :
    fetch s = .ok (joinBytes b0 b1 0#8 0#8) := by
  simp [fetch, h, hb]

theorem fetchExec_of_fetch {s : State} {w : BitVec 32} (h : fetch s = .ok w) : fetchExec s = execWord w s := by
  rw [fetchExec, h]

theorem execWord_of_ok {w : BitVec 32} {i : Instr} (h : decodeWord w = .ok i) (s : State) :
    execWord w s = exec i s := by
  rw [execWord, h]

theorem execWord_of_not_ok {w : BitVec 32} (h : ∀ i, decodeWord w ≠ .ok i) (s : State) :
    execWord w s = .next (applyBase s (Config.baseISA s w)) := by
  unfold execWord
  split
  · exact absurd ‹_› (h _)
  · rfl

/-- Where neither a halt request nor an interrupt comes first, the turn is the instruction's (R203, R204, R211). -/
theorem boundaryStep_of_undisturbed {s : State} (hh : (s.hart.haltreq && s.cfg.hasDebug) = false)
    (hi : selectedInterrupt s.cfg s.hart = none) (instr : Host.Outcome State Fault Refusal) :
    boundaryStep s instr = instr := by
  rcases boundaryStep_cases s instr with ⟨hc, _⟩ | ⟨_, _, hc, _⟩ | ⟨_, _, e⟩
  · exact absurd (hh.symm.trans hc) (by decide)
  · exact absurd (hi.symm.trans hc) (by simp)
  · exact e

/-- An undisturbed running hart's own step fetches, and executes what it fetched. -/
theorem step_of_fetch {s : State} {w : BitVec 32} (hm : hartMoves s) (hr : s.hart.run = .running)
    (hh : (s.hart.haltreq && s.cfg.hasDebug) = false) (hi : selectedInterrupt s.cfg s.hart = none)
    (hf : fetch (hartTurn s) = .ok w) : step s = execWord w (hartTurn s) := by
  have hr' : (hartTurn s).hart.run = .running := hr
  calc step s = hartStep (hartTurn s) := step_of_hartMoves hm
    _ = runningStep (hartTurn s) := by rw [hartStep, hr']
    _ = fetchExec (hartTurn s) := boundaryStep_of_undisturbed (s := hartTurn s) hh hi _
    _ = execWord w (hartTurn s) := fetchExec_of_fetch hf

/-- The debugger's word runs in Debug Mode only (R136, R153). -/
theorem step_of_debugExec {s : State} {w : BitVec 32} {rest : List Event} (he : s.events = .debugExec w :: rest) :
    step s = if s.hart.run = .debugMode then execWord w (hartTurn s) else .next (hartTurn s) :=
  step_of_event he

/-- Settles O7: a turn that reaches the fetch executes the word of the bytes at `pc`, and each kind of word that `fetch` can answer is one of its clauses. -/
theorem stepRunsInstruction : Obligations.StepRunsInstruction := by
  unfold Obligations.StepRunsInstruction
  refine ⟨fun s bytes i hm hr hh hi hb hd => ?_, fun s b0 b1 hm hr hh hi => ⟨fun hb hp => ?_, fun b2 b3 hb hp => ?_⟩,
    fun s w rest he => ?_⟩
  · -- The four bytes at `pc` decode.
    obtain ⟨b0, b1, b2, b3, rfl, hw⟩ := decode_ok_nil hd
    have hlow : b0.extractLsb' 0 2 = 0x3#2 := extractLsb'_joinBytes_low b0 b1 b2 b3 ▸ decodeWord_ok_low hw
    rw [step_of_fetch hm hr hh hi (fetch_word hb hlow), execWord_of_ok hw]
  · -- A 16-bit parcel, which is never a word of the table.
    have hnot : ∀ i, decodeWord (joinBytes b0 b1 0#8 0#8) ≠ .ok i := fun i hw =>
      hp (extractLsb'_joinBytes_low b0 b1 0#8 0#8 ▸ decodeWord_ok_low hw)
    rw [step_of_fetch hm hr hh hi (fetch_parcel hb hp), execWord_of_not_ok hnot]
  · -- A 32-bit word, decoded or not.
    have hstep := step_of_fetch hm hr hh hi (fetch_word hb hp)
    exact ⟨hstep, fun hnot => hstep.trans (execWord_of_not_ok hnot _)⟩
  · -- A word the debugger gives the hart.
    have hstep := step_of_debugExec he
    refine ⟨fun hr => ?_, fun hr i hw => ?_, fun hr => ?_⟩
    · rw [hstep, if_pos hr]
    · rw [hstep, if_pos hr, execWord_of_ok hw]
    · rw [hstep, if_neg hr]

end Sys2Proof.Machine

/-! PROOF. What an elementary change of a hart leaves in the registers that the invariants speak of, said once per register: the two status words, `mnstatus`, `dcsr`, the two `DTE` bits, and bit 16 of the two exception delegation registers. -/

namespace Sys2Proof.Machine

open Sys2Proof.Safety

/-- Every word that `mstatus` can hold after an elementary change of the hart `h`. -/
inductive StatusMove (cfg : Config) (h : Hart) : Word → Prop where
  | kept : StatusMove cfg h h.m.status
  | onHs : StatusMove cfg h (statusOnHs cfg h)
  | onM (m : TrapImage) : StatusMove cfg h (statusOnM cfg m h)
  | onNmi (hs : cfg.hasSmdbltrp = true) : StatusMove cfg h (setBit (setBit h.m.status bitMDT true) bitMIE false)
  | mret : StatusMove cfg h (statusAfterMret cfg h)
  | sret : StatusMove cfg h (statusAfterSret h)
  | mprvCleared : StatusMove cfg h (setBit h.m.status bitMPRV false)
  | sdtCleared : StatusMove cfg h (setBit h.m.status bitSDT false)
  | extension (v : Word) : StatusMove cfg h (merge extensionMask h.m.status v)
  | sstatus (v : Word) : StatusMove cfg h (sstatusWritten (ssActive cfg h) h.m.status v)
  | mstatus64 (v : Word) : StatusMove cfg h (statusWritten64 cfg h v)
  | mstatus32 (v : Word) : StatusMove cfg h (statusWritten32 cfg h v)
  | mstatush (v : Word) : StatusMove cfg h (statushWritten cfg h v)

/-- Every word that `vsstatus` can hold after an elementary change of the hart `h`. -/
inductive VsStatusMove (cfg : Config) (h : Hart) : Word → Prop where
  | kept : VsStatusMove cfg h h.vs.status
  | onVs : VsStatusMove cfg h (vsstatusOnVs cfg h)
  | sret : VsStatusMove cfg h (vsstatusAfterSret h)
  | sdtCleared : VsStatusMove cfg h (setBit h.vs.status bitSDT false)
  | extension (v : Word) : VsStatusMove cfg h (merge extensionMask h.vs.status v)
  | vsstatus (v : Word) : VsStatusMove cfg h (sstatusWritten (ssActiveVS cfg h) h.vs.status v)

/-- Every word that `mnstatus` can hold after an elementary change of the hart `h`. -/
inductive NmStatusMove (cfg : Config) (h : Hart) : Word → Prop where
  | kept : NmStatusMove cfg h h.nm.status
  | entered (p : Priv) (v : Bool) : NmStatusMove cfg h (mnstatusOn p v h.nm.status)
  | mnret : NmStatusMove cfg h (setBit h.nm.status bitNMIE true)
  | mnstatus (v : Word) : NmStatusMove cfg h (mnstatusWritten cfg h.nm.status v)

/-- Every word that `dcsr` can hold after an elementary change of the hart `h`. -/
inductive DcsrMove (cfg : Config) (h : Hart) : BitVec 32 → Prop where
  | kept : DcsrMove cfg h h.dbg.dcsr
  | entry (cause : BitVec 3) : DcsrMove cfg h (dcsrOnEntry cfg cause (h.run == .criticalError) h)
  | dcsr (v : Word) : DcsrMove cfg h (dcsrWritten cfg h.dbg.dcsr v)

/-! Explicit CSR writes (R127 to R137). -/

/-- With `menvcfg.DTE` left 1, a write to `menvcfg` touches nothing else; with 0 it forces what depends on it off (R133). -/
theorem writeMenvcfgDte_cases (cfg : Config) (mask v : Word) (h : Hart) :
    ∃ h₁ : Hart, h₁ = { h with m := { h.m with envcfg := h₁.m.envcfg } }
      ∧ (writeMenvcfgDte cfg mask v h = h₁ ∨ writeMenvcfgDte cfg mask v h = forceDteOff h₁) := by
  refine ⟨{ h with m := { h.m with
    envcfg := setBit (merge mask h.m.envcfg v) bitDTE (cfg.hasSsdbltrp && bit v bitDTE) } }, rfl, ?_⟩
  unfold writeMenvcfgDte
  cases cfg.hasSsdbltrp && bit v bitDTE
  · exact .inr rfl
  · exact .inl rfl

theorem writeMenvcfgDte_statusMove (cfg : Config) (mask v : Word) (h : Hart) :
    StatusMove cfg h (writeMenvcfgDte cfg mask v h).m.status := by
  obtain ⟨h₁, e₁, e | e⟩ := writeMenvcfgDte_cases cfg mask v h <;> rw [e, e₁]
  · exact .kept
  · exact .sdtCleared

theorem writeMenvcfgDte_vsStatusMove (cfg : Config) (mask v : Word) (h : Hart) :
    VsStatusMove cfg h (writeMenvcfgDte cfg mask v h).vs.status := by
  obtain ⟨h₁, e₁, e | e⟩ := writeMenvcfgDte_cases cfg mask v h <;> rw [e, e₁]
  · exact .kept
  · exact .sdtCleared

theorem writeHenvcfgDte_vsStatusMove (cfg : Config) (mask v : Word) (h : Hart) :
    VsStatusMove cfg h (writeHenvcfgDte cfg mask v h).vs.status := by
  unfold writeHenvcfgDte
  cases ssActive cfg h && cfg.hasH && bit v bitDTE
  · exact .sdtCleared
  · exact .kept

/-- What a write that covers `henvcfg.DTE` leaves alone (R84, R134). -/
theorem writeHenvcfgDte_frame (cfg : Config) (mask v : Word) (h : Hart) : let h' := writeHenvcfgDte cfg mask v h
    h' = { h with hs := { h.hs with envcfg := h'.hs.envcfg }, vs := { h.vs with status := h'.vs.status } } :=
  (writeHenvcfgDte_bits cfg mask v h).2.2.2

theorem Csr.write_statusMove (cfg : Config) (h : Hart) (v : Word) (c : Csr) :
    StatusMove cfg h (Csr.write cfg h v c).m.status := by
  cases c with
  | sstatus => exact .sstatus v
  | mstatus =>
    unfold Csr.write
    cases cfg.xlen
    · exact .mstatus32 v
    · exact .mstatus64 v
  | mstatush => exact .mstatush v
  | menvcfg =>
    unfold Csr.write
    cases cfg.xlen
    · exact .kept
    · exact writeMenvcfgDte_statusMove ..
  | menvcfgh => exact writeMenvcfgDte_statusMove ..
  | medeleg | hedeleg => unfold Csr.write; cases cfg.xlen <;> exact .kept
  | henvcfg =>
    unfold Csr.write
    cases cfg.xlen
    · exact .kept
    · rw [writeHenvcfgDte_frame]; exact .kept
  | henvcfgh =>
    show StatusMove cfg h (writeHenvcfgDte cfg _ _ h).m.status
    rw [writeHenvcfgDte_frame]; exact .kept
  | _ => exact .kept

theorem Csr.write_vsStatusMove (cfg : Config) (h : Hart) (v : Word) (c : Csr) :
    VsStatusMove cfg h (Csr.write cfg h v c).vs.status := by
  cases c with
  | vsstatus => exact .vsstatus v
  | menvcfg =>
    unfold Csr.write
    cases cfg.xlen
    · exact .kept
    · exact writeMenvcfgDte_vsStatusMove ..
  | menvcfgh => exact writeMenvcfgDte_vsStatusMove ..
  | henvcfg =>
    unfold Csr.write
    cases cfg.xlen
    · exact .kept
    · exact writeHenvcfgDte_vsStatusMove ..
  | henvcfgh => exact writeHenvcfgDte_vsStatusMove ..
  | mstatus | medeleg | hedeleg => unfold Csr.write; cases cfg.xlen <;> exact .kept
  | _ => exact .kept

@[simp] theorem writeMenvcfgDte_nm (cfg : Config) (mask v : Word) (h : Hart) :
    (writeMenvcfgDte cfg mask v h).nm = h.nm := by rw [writeMenvcfgDte_frame]
@[simp] theorem writeMenvcfgDte_dbg (cfg : Config) (mask v : Word) (h : Hart) :
    (writeMenvcfgDte cfg mask v h).dbg = h.dbg := by rw [writeMenvcfgDte_frame]
@[simp] theorem writeMenvcfgDte_m_edeleg (cfg : Config) (mask v : Word) (h : Hart) :
    (writeMenvcfgDte cfg mask v h).m.edeleg = h.m.edeleg := by rw [writeMenvcfgDte_frame]
@[simp] theorem writeMenvcfgDte_hs_edeleg (cfg : Config) (mask v : Word) (h : Hart) :
    (writeMenvcfgDte cfg mask v h).hs.edeleg = h.hs.edeleg := by rw [writeMenvcfgDte_frame]
@[simp] theorem writeHenvcfgDte_hs_edeleg (cfg : Config) (mask v : Word) (h : Hart) :
    (writeHenvcfgDte cfg mask v h).hs.edeleg = h.hs.edeleg := by rw [writeHenvcfgDte_frame]
@[simp] theorem writeHenvcfgDte_m (cfg : Config) (mask v : Word) (h : Hart) :
    (writeHenvcfgDte cfg mask v h).m = h.m := by rw [writeHenvcfgDte_frame]
@[simp] theorem writeHenvcfgDte_nm (cfg : Config) (mask v : Word) (h : Hart) :
    (writeHenvcfgDte cfg mask v h).nm = h.nm := by rw [writeHenvcfgDte_frame]
@[simp] theorem writeHenvcfgDte_dbg (cfg : Config) (mask v : Word) (h : Hart) :
    (writeHenvcfgDte cfg mask v h).dbg = h.dbg := by rw [writeHenvcfgDte_frame]

/-- An explicit write to any other CSR leaves the Smrnmi registers alone (R44, R84). -/
theorem Csr.write_nm_of_not_nm {c : Csr} (hc : c ∉ [Csr.mnscratch, .mnepc, .mncause, .mnstatus])
    (cfg : Config) (h : Hart) (v : Word) : (Csr.write cfg h v c).nm = h.nm := by
  cases c with
  | mnscratch | mnepc | mncause | mnstatus => exact absurd (by decide) hc
  | mstatus | medeleg | hedeleg | menvcfg | henvcfg => unfold Csr.write; cases cfg.xlen <;> simp
  | menvcfgh | henvcfgh => simp [Csr.write]
  | _ => rfl

/-- An explicit write to any other CSR leaves the debug registers alone (R45, R47, R84). -/
theorem Csr.write_dbg_of_not_dbg {c : Csr} (hc : c ∉ [Csr.dcsr, .dpc]) (cfg : Config) (h : Hart) (v : Word) :
    (Csr.write cfg h v c).dbg = h.dbg := by
  cases c with
  | dcsr | dpc => exact absurd (by decide) hc
  | mstatus | medeleg | hedeleg | menvcfg | henvcfg => unfold Csr.write; cases cfg.xlen <;> simp
  | menvcfgh | henvcfgh => simp [Csr.write]
  | _ => rfl

theorem Csr.write_nmStatusMove (cfg : Config) (h : Hart) (v : Word) (c : Csr) :
    NmStatusMove cfg h (Csr.write cfg h v c).nm.status := by
  by_cases hc : c ∈ [Csr.mnscratch, .mnepc, .mncause, .mnstatus]
  · simp only [List.mem_cons, List.not_mem_nil, or_false] at hc
    rcases hc with rfl | rfl | rfl | rfl
    · exact .kept
    · exact .kept
    · exact .kept
    · exact .mnstatus v
  · rw [Csr.write_nm_of_not_nm hc]; exact .kept

theorem Csr.write_dcsrMove (cfg : Config) (h : Hart) (v : Word) (c : Csr) :
    DcsrMove cfg h (Csr.write cfg h v c).dbg.dcsr := by
  by_cases hc : c ∈ [Csr.dcsr, .dpc]
  · simp only [List.mem_cons, List.not_mem_nil, or_false] at hc
    rcases hc with rfl | rfl
    · exact .dcsr v
    · exact .kept
  · rw [Csr.write_dbg_of_not_dbg hc]; exact .kept

/-- Only a write that covers a `DTE` can change one (R133, R134). -/
theorem Csr.write_dte_cases (cfg : Config) (h : Hart) (v : Word) (c : Csr) :
    (∃ mask w, Csr.write cfg h v c = writeMenvcfgDte cfg mask w h)
      ∨ (∃ mask w, Csr.write cfg h v c = writeHenvcfgDte cfg mask w h)
      ∨ (bit (Csr.write cfg h v c).m.envcfg bitDTE = bit h.m.envcfg bitDTE
          ∧ bit (Csr.write cfg h v c).hs.envcfg bitDTE = bit h.hs.envcfg bitDTE) := by
  have low : ∀ old, bit (merge (maskOf envcfgPlainLow) old v) bitDTE = bit old bitDTE :=
    fun old => (envcfgLow_stored old v).2 _ (by decide)
  cases c with
  | menvcfg =>
    unfold Csr.write
    cases cfg.xlen
    · exact .inr (.inr ⟨low _, rfl⟩)
    · exact .inl ⟨_, _, rfl⟩
  | menvcfgh => exact .inl ⟨_, _, rfl⟩
  | henvcfg =>
    unfold Csr.write
    cases cfg.xlen
    · exact .inr (.inr ⟨rfl, low _⟩)
    · exact .inr (.inl ⟨_, _, rfl⟩)
  | henvcfgh => exact .inr (.inl ⟨_, _, rfl⟩)
  | mstatus | medeleg | hedeleg => unfold Csr.write; cases cfg.xlen <;> exact .inr (.inr ⟨rfl, rfl⟩)
  | _ => exact .inr (.inr ⟨rfl, rfl⟩)

/-! The delegation registers (R37, R43, R135). -/

@[simp] theorem bit_delegWritten (v : Word) : bit (delegWritten v) 16 = false := by simp [delegWritten]

/-- A write to a high half keeps every bit of the low one (R36). -/
theorem bit_merge_highHalf {old v : Word} {j : Nat} (hj : j < 32) :
    bit (merge 0xFFFFFFFF00000000#64 old v) j = bit old j := by
  have : ¬ 32 ≤ j := by omega
  simp [bit_merge, bit_high32, this]

/-- No explicit write makes bit 16 of `medeleg` 1 (R37, R135). -/
theorem Csr.write_medeleg16 (cfg : Config) (h : Hart) (v : Word) (c : Csr) (h0 : bit h.m.edeleg 16 = false) :
    bit (Csr.write cfg h v c).m.edeleg 16 = false := by
  cases c with
  | medeleg => unfold Csr.write; cases cfg.xlen <;> exact bit_delegWritten _
  | medelegh => exact (bit_merge_highHalf (by decide)).trans h0
  | mstatus | hedeleg | menvcfg | henvcfg => unfold Csr.write; cases cfg.xlen <;> simp [h0]
  | menvcfgh | henvcfgh => simp [Csr.write, h0]
  | _ => exact h0

/-- No explicit write makes bit 16 of `hedeleg` 1 (R43, R135). -/
theorem Csr.write_hedeleg16 (cfg : Config) (h : Hart) (v : Word) (c : Csr) (h0 : bit h.hs.edeleg 16 = false) :
    bit (Csr.write cfg h v c).hs.edeleg 16 = false := by
  cases c with
  | hedeleg => unfold Csr.write; cases cfg.xlen <;> exact bit_delegWritten _
  | hedelegh => exact (bit_merge_highHalf (by decide)).trans h0
  | mstatus | medeleg | menvcfg | henvcfg => unfold Csr.write; cases cfg.xlen <;> simp [h0]
  | menvcfgh | henvcfgh => simp [Csr.write, h0]
  | _ => exact h0

/-! What an elementary change does to each of these registers. -/

/-- What a trap leaves in the two status words and in `mnstatus` (R179 to R197). -/
theorem takeTrap_moves (cfg : Config) (t : TrapRequest) (h : Hart) :
    StatusMove cfg h (takeTrap cfg t h).m.status ∧ VsStatusMove cfg h (takeTrap cfg t h).vs.status
      ∧ NmStatusMove cfg h (takeTrap cfg t h).nm.status := by
  have toM : ∀ m, StatusMove cfg h (takeTrapM cfg m h).m.status ∧ VsStatusMove cfg h (takeTrapM cfg m h).vs.status
      ∧ NmStatusMove cfg h (takeTrapM cfg m h).nm.status := by
    intro m
    rcases takeTrapM_cases cfg m h with ⟨_, e⟩ | ⟨_, _, _, e⟩ | ⟨_, _, e⟩ <;> rw [e]
    · exact ⟨.onM m, .kept, .kept⟩
    · exact ⟨.kept, .kept, .entered _ _⟩
    · exact ⟨.kept, .kept, .kept⟩
  rcases takeTrap_cases cfg t h with ⟨_, _, e⟩ | ⟨_, _, e⟩ | ⟨_, e⟩ | ⟨_, e⟩ <;> rw [e]
  · exact ⟨.kept, .onVs, .kept⟩
  · exact ⟨.onHs, .kept, .kept⟩
  · exact toM _
  · exact toM _

/-- A trap writes no `envcfg` and no exception delegation register (R174, R179 to R181). -/
theorem takeTrap_envcfg_edeleg (cfg : Config) (t : TrapRequest) (h : Hart) :
    (takeTrap cfg t h).m.envcfg = h.m.envcfg ∧ (takeTrap cfg t h).hs.envcfg = h.hs.envcfg
      ∧ (takeTrap cfg t h).m.edeleg = h.m.edeleg ∧ (takeTrap cfg t h).hs.edeleg = h.hs.edeleg := by
  have toM : ∀ m, (takeTrapM cfg m h).m.envcfg = h.m.envcfg ∧ (takeTrapM cfg m h).hs.envcfg = h.hs.envcfg
      ∧ (takeTrapM cfg m h).m.edeleg = h.m.edeleg ∧ (takeTrapM cfg m h).hs.edeleg = h.hs.edeleg := by
    intro m
    rcases takeTrapM_cases cfg m h with ⟨_, e⟩ | ⟨_, _, _, e⟩ | ⟨_, _, e⟩ <;> rw [e] <;> exact ⟨rfl, rfl, rfl, rfl⟩
  rcases takeTrap_cases cfg t h with ⟨_, _, e⟩ | ⟨_, _, e⟩ | ⟨_, e⟩ | ⟨_, e⟩ <;> rw [e]
  · exact ⟨rfl, rfl, rfl, rfl⟩
  · rw [deliverHs_hs]; split <;> exact ⟨rfl, rfl, rfl, rfl⟩
  · exact toM _
  · exact toM _

/-- A non-resumable NMI enters the critical-error state or is delivered, if it is taken at all (R202). -/
theorem takeNmi_cases (cfg : Config) (c : Word) (h : Hart) :
    takeNmi cfg c h = h ∨ (h.run = .running ∧ takeNmi cfg c h = enterCriticalError h)
      ∨ takeNmi cfg c h = deliverNmi cfg c h := by
  unfold takeNmi
  by_cases hr : h.run = .running ∧ cfg.hasSmrnmi = false
  · rw [if_pos hr]
    cases cfg.nmiChecksMdt && mdt cfg h
    · exact .inr (.inr rfl)
    · exact .inr (.inl ⟨hr.1, rfl⟩)
  · rw [if_neg hr]; exact .inl rfl

theorem takeNmi_statusMove (cfg : Config) (c : Word) (h : Hart) : StatusMove cfg h (takeNmi cfg c h).m.status := by
  rcases takeNmi_cases cfg c h with e | ⟨_, e⟩ | e <;> rw [e]
  · exact .kept
  · exact .kept
  · rw [deliverNmi_m]
    cases hs : cfg.hasSmdbltrp && cfg.nmiChecksMdt
    · exact .kept
    · exact .onNmi (Bool.and_eq_true_iff.1 hs).1

@[simp] theorem takeNmi_vs (cfg : Config) (c : Word) (h : Hart) : (takeNmi cfg c h).vs = h.vs := by
  rcases takeNmi_cases cfg c h with e | ⟨_, e⟩ | e <;> rw [e] <;> rfl
@[simp] theorem takeNmi_nm (cfg : Config) (c : Word) (h : Hart) : (takeNmi cfg c h).nm = h.nm := by
  rcases takeNmi_cases cfg c h with e | ⟨_, e⟩ | e <;> rw [e] <;> rfl
@[simp] theorem takeNmi_dbg (cfg : Config) (c : Word) (h : Hart) : (takeNmi cfg c h).dbg = h.dbg := by
  rcases takeNmi_cases cfg c h with e | ⟨_, e⟩ | e <;> rw [e] <;> rfl

/-- A non-resumable NMI writes no `envcfg` and no delegation register (R202). -/
theorem takeNmi_envcfg_edeleg (cfg : Config) (c : Word) (h : Hart) :
    (takeNmi cfg c h).m.envcfg = h.m.envcfg ∧ (takeNmi cfg c h).hs.envcfg = h.hs.envcfg
      ∧ (takeNmi cfg c h).m.edeleg = h.m.edeleg ∧ (takeNmi cfg c h).hs.edeleg = h.hs.edeleg := by
  rcases takeNmi_cases cfg c h with e | ⟨_, e⟩ | e <;> rw [e] <;> exact ⟨rfl, rfl, rfl, rfl⟩

/-- An RNMI is taken by a running hart with `NMIE` = 1, and is lost otherwise (R201; assumption log 17). -/
theorem takeRnmi_cases (cfg : Config) (c : Word) (h : Hart) :
    takeRnmi cfg c h = h
      ∨ (h.run = .running ∧ takeRnmi cfg c h =
          { h with
            nm := { h.nm with epc := h.pc, cause := trunc cfg c, status := mnstatusOn h.priv h.virt h.nm.status }
            priv := .m
            virt := false
            pc := alignPc cfg cfg.rnmiIntHandler }) := by
  unfold takeRnmi
  by_cases hr : h.run = .running ∧ cfg.hasSmrnmi = true ∧ nmie h = true
  · rw [if_pos hr]; exact .inr ⟨hr.1, rfl⟩
  · rw [if_neg hr]; exact .inl rfl

theorem takeRnmi_nmStatusMove (cfg : Config) (c : Word) (h : Hart) : NmStatusMove cfg h (takeRnmi cfg c h).nm.status := by
  rcases takeRnmi_cases cfg c h with e | ⟨_, e⟩ <;> rw [e]
  · exact .kept
  · exact .entered _ _

@[simp] theorem takeRnmi_m (cfg : Config) (c : Word) (h : Hart) : (takeRnmi cfg c h).m = h.m := by
  rcases takeRnmi_cases cfg c h with e | ⟨_, e⟩ <;> rw [e]
@[simp] theorem takeRnmi_vs (cfg : Config) (c : Word) (h : Hart) : (takeRnmi cfg c h).vs = h.vs := by
  rcases takeRnmi_cases cfg c h with e | ⟨_, e⟩ <;> rw [e]
@[simp] theorem takeRnmi_hs (cfg : Config) (c : Word) (h : Hart) : (takeRnmi cfg c h).hs = h.hs := by
  rcases takeRnmi_cases cfg c h with e | ⟨_, e⟩ <;> rw [e]
@[simp] theorem takeRnmi_dbg (cfg : Config) (c : Word) (h : Hart) : (takeRnmi cfg c h).dbg = h.dbg := by
  rcases takeRnmi_cases cfg c h with e | ⟨_, e⟩ <;> rw [e]

/-- A resume changes the mode, `pc`, the run state with its signal, and `mstatus` (R214, R215). -/
theorem resume_frame (cfg : Config) (h : Hart) :
    resume cfg h = { h with
      pc := (resume cfg h).pc, priv := (resume cfg h).priv, virt := (resume cfg h).virt
      run := (resume cfg h).run, cerr := (resume cfg h).cerr, m := (resume cfg h).m } := by
  unfold resume
  cases pcerr cfg h <;> rfl

@[simp] theorem resume_vs (cfg : Config) (h : Hart) : (resume cfg h).vs = h.vs := by rw [resume_frame]
@[simp] theorem resume_hs (cfg : Config) (h : Hart) : (resume cfg h).hs = h.hs := by rw [resume_frame]
@[simp] theorem resume_nm (cfg : Config) (h : Hart) : (resume cfg h).nm = h.nm := by rw [resume_frame]
@[simp] theorem resume_dbg (cfg : Config) (h : Hart) : (resume cfg h).dbg = h.dbg := by rw [resume_frame]

/-- A resume clears `MPRV` or leaves the M-level registers alone (R215). -/
theorem resume_m_cases (cfg : Config) (h : Hart) :
    (resume cfg h).m = h.m ∨ (resume cfg h).m = { h.m with status := setBit h.m.status bitMPRV false } := by
  unfold resume
  cases pcerr cfg h
  · by_cases hm : Priv.ofCode (dcsrPrv h) = .m
    · left; simp [hm]
    · right; simp [hm]
  · exact .inl rfl

theorem HartOp.statusMove {cfg : Config} {h h' : Hart} (o : HartOp cfg h h') : StatusMove cfg h h'.m.status := by
  cases o with
  | trap => exact (takeTrap_moves ..).1
  | reg => rw [writeReg_m]; exact .kept
  | csr => exact Csr.write_statusMove ..
  | extension => exact .extension _
  | mret => exact .mret
  | sretHs => exact .sret
  | mnret =>
    rw [returnNm_m]
    split
    · exact .kept
    · exact .mprvCleared
  | resume =>
    rcases resume_m_cases cfg h with e | e <;> rw [e]
    · exact .kept
    · exact .mprvCleared
  | rnmi => rw [takeRnmi_m]; exact .kept
  | nmi => exact takeNmi_statusMove ..
  | _ => exact .kept

theorem HartOp.vsStatusMove {cfg : Config} {h h' : Hart} (o : HartOp cfg h h') :
    VsStatusMove cfg h h'.vs.status := by
  cases o with
  | trap => exact (takeTrap_moves ..).2.1
  | reg => rw [writeReg_vs]; exact .kept
  | csr => exact Csr.write_vsStatusMove ..
  | extension => exact .extension _
  | sretVs => exact .sret
  | resume => rw [resume_vs]; exact .kept
  | rnmi => rw [takeRnmi_vs]; exact .kept
  | nmi => rw [takeNmi_vs]; exact .kept
  | _ => exact .kept

theorem HartOp.nmStatusMove {cfg : Config} {h h' : Hart} (o : HartOp cfg h h') :
    NmStatusMove cfg h h'.nm.status := by
  cases o with
  | trap => exact (takeTrap_moves ..).2.2
  | reg => rw [writeReg_nm]; exact .kept
  | csr => exact Csr.write_nmStatusMove ..
  | mnret => exact .mnret
  | resume => rw [resume_nm]; exact .kept
  | rnmi => exact takeRnmi_nmStatusMove ..
  | nmi => rw [takeNmi_nm]; exact .kept
  | _ => exact .kept

theorem HartOp.dcsrMove {cfg : Config} {h h' : Hart} (o : HartOp cfg h h') : DcsrMove cfg h h'.dbg.dcsr := by
  cases o with
  | trap => rw [(takeTrap_frame ..).2.1]; exact .kept
  | reg => rw [writeReg_dbg]; exact .kept
  | csr => exact Csr.write_dcsrMove ..
  | resume => rw [resume_dbg]; exact .kept
  | halt => exact .entry _
  | haltCritical => exact .entry _
  | rnmi => rw [takeRnmi_dbg]; exact .kept
  | nmi => rw [takeNmi_dbg]; exact .kept
  | _ => exact .kept

/-- Only an explicit CSR write reaches an `envcfg` or an exception delegation register (R36, R37, R42, R43). -/
theorem HartOp.csr_or_envcfg_edeleg_kept {cfg : Config} {h h' : Hart} (o : HartOp cfg h h') :
    (∃ c v, h' = Csr.write cfg h v c)
      ∨ (h'.m.envcfg = h.m.envcfg ∧ h'.hs.envcfg = h.hs.envcfg ∧ h'.m.edeleg = h.m.edeleg
          ∧ h'.hs.edeleg = h.hs.edeleg) := by
  cases o with
  | csr => exact .inl ⟨_, _, rfl⟩
  | trap => exact .inr (takeTrap_envcfg_edeleg ..)
  | reg => rw [writeReg_m, writeReg_hs]; exact .inr ⟨rfl, rfl, rfl, rfl⟩
  | sretHs => rw [returnHs_hs]; split <;> exact .inr ⟨rfl, rfl, rfl, rfl⟩
  | resume =>
    rw [resume_hs]
    rcases resume_m_cases cfg h with e | e <;> rw [e] <;> exact .inr ⟨rfl, rfl, rfl, rfl⟩
  | rnmi => rw [takeRnmi_m, takeRnmi_hs]; exact .inr ⟨rfl, rfl, rfl, rfl⟩
  | nmi => exact .inr (takeNmi_envcfg_edeleg ..)
  | _ => exact .inr ⟨rfl, rfl, rfl, rfl⟩

/-- Only a write that covers a `DTE` can change one (R133, R134). -/
theorem HartOp.dte_cases {cfg : Config} {h h' : Hart} (o : HartOp cfg h h') :
    (∃ mask w, h' = writeMenvcfgDte cfg mask w h) ∨ (∃ mask w, h' = writeHenvcfgDte cfg mask w h)
      ∨ (bit h'.m.envcfg bitDTE = bit h.m.envcfg bitDTE ∧ bit h'.hs.envcfg bitDTE = bit h.hs.envcfg bitDTE) := by
  rcases o.csr_or_envcfg_edeleg_kept with ⟨c, v, rfl⟩ | ⟨em, eh, _, _⟩
  · exact Csr.write_dte_cases cfg h v c
  · rw [em, eh]; exact .inr (.inr ⟨rfl, rfl⟩)

/-- No elementary change makes bit 16 of a delegation register 1 (R37, R43). -/
theorem HartOp.edeleg16 {cfg : Config} {h h' : Hart} (o : HartOp cfg h h') (hm : bit h.m.edeleg 16 = false)
    (hh : bit h.hs.edeleg 16 = false) : bit h'.m.edeleg 16 = false ∧ bit h'.hs.edeleg 16 = false := by
  rcases o.csr_or_envcfg_edeleg_kept with ⟨c, v, rfl⟩ | ⟨_, _, em, eh⟩
  · exact ⟨Csr.write_medeleg16 cfg h v c hm, Csr.write_hedeleg16 cfg h v c hh⟩
  · rw [em, eh]; exact ⟨hm, hh⟩

end Sys2Proof.Machine

/-! PROOF. MdtMasksMieKept and SdtMasksSieKept: what a status word holds in a disable-trap bit and in the enable bit it masks. -/

namespace Sys2Proof.Machine

open Sys2Proof.Safety

/-- Disable-trap bit `d` of `w` is set only where enable bit `e` is clear (R32, R33). -/
def Masks (d e : Nat) (w : Word) : Prop := bit w d = true → bit w e = false

theorem masks_of_enable_clear {d e : Nat} {w : Word} (h : bit w e = false) : Masks d e w := fun _ => h

theorem masks_of_disable_clear {d e : Nat} {w : Word} (h : bit w d = false) : Masks d e w :=
  fun hd => absurd (h.symm.trans hd) (by decide)

/-- A change of other bits keeps the masking. -/
theorem Masks.of_bitsKept {d e : Nat} {w w' : Word} {l : List Nat} (hw : Masks d e w) (hk : bitsKept l w w')
    (hd : d ∉ l) (he : e ∉ l) : Masks d e w' :=
  fun h => (hk e he).trans (hw ((hk d hd).symm.trans h))

/-- A write stores the enable bit by the one formula of R32 and R33. -/
theorem masks_of_coupled {d e : Nat} {w : Word} {b : Bool} (h : bit w e = (!bit w d && b)) : Masks d e w :=
  fun hd => by rw [h, hd]; rfl

theorem bitsKept_setBit (w : Word) (i : Nat) (b : Bool) : bitsKept [i] w (setBit w i b) :=
  fun _ hj => bit_setBit_other _ _ _ _ (by simpa using hj)

theorem field2_of_bitsKept {l : List Nat} {w w' : Word} (hk : bitsKept l w w') {lo : Nat} (h0 : lo ∉ l)
    (h1 : lo + 1 ∉ l) : field2 w' lo = field2 w lo := by
  rw [field2_eq, hk lo h0, hk (lo + 1) h1]
  exact (field2_eq w lo _).1 rfl

/-- `mstatus` after a delivery into S/HS-mode (R179). -/
theorem statusOnHs_bits (cfg : Config) (h : Hart) :
    bit (statusOnHs cfg h) 1 = false ∧ bit (statusOnHs cfg h) 24 = (ssActive cfg h || bit h.m.status 24)
      ∧ bitsKept [1, 5, 8, 24] h.m.status (statusOnHs cfg h) := by
  refine ⟨?_, ?_, fun j hj => ?_⟩
  · cases hs : ssActive cfg h <;> simp [statusOnHs, hs, bitSIE, bitSDT]
  · cases hs : ssActive cfg h <;> simp [statusOnHs, hs, bitSIE, bitSDT, bitSPIE, bitSPP]
  · simp only [List.mem_cons, List.not_mem_nil, or_false, not_or] at hj
    cases hs : ssActive cfg h <;> simp [statusOnHs, hs, bitSIE, bitSDT, bitSPIE, bitSPP, hj]

/-- `vsstatus` after a delivery into VS-mode (R180). -/
theorem vsstatusOnVs_bits (cfg : Config) (h : Hart) :
    bit (vsstatusOnVs cfg h) 1 = false ∧ bit (vsstatusOnVs cfg h) 24 = (ssActiveVS cfg h || bit h.vs.status 24) := by
  constructor
  · cases hs : ssActiveVS cfg h <;> simp [vsstatusOnVs, hs, bitSIE, bitSDT]
  · cases hs : ssActiveVS cfg h <;> simp [vsstatusOnVs, hs, bitSIE, bitSDT, bitSPIE, bitSPP]

/-! ### R52 -/

/-- R52 says nothing without Smdbltrp, and with it that the stored `MDT` masks the stored `MIE`. -/
theorem mdtMasksMie_iff (cfg : Config) (h : Hart) :
    mdtMasksMie cfg h ↔ (cfg.hasSmdbltrp = true → Masks 45 3 h.m.status) := by
  unfold mdtMasksMie mdt mie Masks bitMDT bitMIE
  cases cfg.hasSmdbltrp <;> simp

/-- With Smdbltrp, nothing that `mstatus` can become loses the masking of `MIE` by `MDT`. -/
theorem StatusMove.masks_mie {cfg : Config} {h : Hart} {w : Word} (m : StatusMove cfg h w)
    (hs : cfg.hasSmdbltrp = true) (hm : Masks 45 3 h.m.status) : Masks 45 3 w := by
  cases m with
  | kept => exact hm
  | onHs => exact hm.of_bitsKept (statusOnHs_bits cfg h).2.2 (by decide) (by decide)
  | onM m =>
    obtain ⟨_, _, _, _, hmie, _⟩ := statusOnM_bits cfg m h
    exact masks_of_enable_clear hmie
  | onNmi => exact masks_of_enable_clear (bit_setBit_same _ _ _ (by decide))
  | mret =>
    obtain ⟨_, _, _, _, _, hmdt, _⟩ := statusAfterMret_bits cfg h
    exact masks_of_disable_clear (by rw [hmdt, hs]; rfl)
  | sret =>
    obtain ⟨_, _, _, _, _, hk⟩ := statusAfterSret_bits h
    exact hm.of_bitsKept hk (by decide) (by decide)
  | mprvCleared | sdtCleared => exact hm.of_bitsKept (bitsKept_setBit _ _ _) (by decide) (by decide)
  | extension v => exact hm.of_bitsKept (extension_kept _ _) (by decide) (by decide)
  | sstatus v => exact hm.of_bitsKept (sstatusWritten_bits ..).2.2 (by decide) (by decide)
  | mstatus64 v =>
    obtain ⟨_, _, hmdt, hmie⟩ := statusWritten64_bits cfg h v
    exact masks_of_coupled (hmie.trans (by rw [hmdt]))
  | mstatus32 v =>
    obtain ⟨_, _, hmdt, hmie⟩ := statusWritten32_bits cfg h v
    exact masks_of_coupled (hmie.trans (by rw [hmdt, mdt, hs]; rfl))
  | mstatush v =>
    obtain ⟨hmdt, hmie⟩ := statushWritten_bits cfg h v
    exact masks_of_coupled (hmie.trans (by rw [hmdt]))

theorem HartOp.keeps_mdtMasksMie {cfg : Config} {h h' : Hart} (o : HartOp cfg h h') (hp : mdtMasksMie cfg h) :
    mdtMasksMie cfg h' :=
  (mdtMasksMie_iff cfg h').2 fun hs => o.statusMove.masks_mie hs ((mdtMasksMie_iff cfg h).1 hp hs)

theorem hartAfterReset_mdtMasksMie (cfg : Config) (h : Hart) : mdtMasksMie cfg (hartAfterReset cfg h) :=
  (mdtMasksMie_iff ..).2 fun _ => masks_of_enable_clear (resetMstatus_bits cfg).2.1

/-- Settles O54: every elementary change of a hart keeps R52, and a reset establishes it. -/
theorem mdtMasksMieKept : Obligations.MdtMasksMieKept :=
  fun _ _ hs ht => step_keeps (fun _ _ _ => HartOp.keeps_mdtMasksMie) hartAfterReset_mdtMasksMie hs ht

/-! ### R53 -/

/-- What every elementary change keeps: the stored `SDT` masks the stored `SIE`, whether `SDT` is active or not. -/
def storedSdtMasksSie (_cfg : Config) (h : Hart) : Prop := Masks 24 1 h.m.status ∧ Masks 24 1 h.vs.status

theorem sdtMasksSie_of_stored {cfg : Config} {h : Hart} (hm : storedSdtMasksSie cfg h) :
    sdtMasksSie cfg h :=
  ⟨fun hs => hm.1 (Bool.and_eq_true_iff.1 hs).2, fun hs => hm.2 (Bool.and_eq_true_iff.1 hs).2⟩

/-- Where an inactive `SDT` is stored 0, R53 holds of the stored bits (R31, R41). -/
theorem storedSdtMasksSie_of_readOnlyZeroHeld {cfg : Config} {h : Hart} (hm : sdtMasksSie cfg h)
    (hz : readOnlyZeroHeld cfg h) : storedSdtMasksSie cfg h := by
  obtain ⟨_, _, hss, hvs, _⟩ := hz
  constructor
  · intro hd
    cases ha : ssActive cfg h
    · exact absurd ((hss ha).1.symm.trans hd) (by decide)
    · exact hm.1 (by rw [sdt, ha]; exact hd)
  · intro hd
    cases ha : ssActiveVS cfg h
    · exact absurd ((hvs ha).symm.trans hd) (by decide)
    · exact hm.2 (by rw [vsSdt, ha]; exact hd)

theorem StatusMove.masks_sie {cfg : Config} {h : Hart} {w : Word} (m : StatusMove cfg h w)
    (hm : Masks 24 1 h.m.status) : Masks 24 1 w := by
  cases m with
  | kept => exact hm
  | onHs => exact masks_of_enable_clear (statusOnHs_bits cfg h).1
  | onM m =>
    obtain ⟨_, _, _, _, _, _, hk⟩ := statusOnM_bits cfg m h
    exact hm.of_bitsKept hk (by decide) (by decide)
  | onNmi =>
    exact (hm.of_bitsKept (bitsKept_setBit _ _ _) (by decide) (by decide)).of_bitsKept (bitsKept_setBit _ _ _)
      (by decide) (by decide)
  | mret =>
    obtain ⟨_, _, _, _, _, _, hk⟩ := statusAfterMret_bits cfg h
    exact hm.of_bitsKept hk (by decide) (by decide)
  | sret =>
    obtain ⟨_, _, _, _, hsdt, _⟩ := statusAfterSret_bits h
    exact masks_of_disable_clear hsdt
  | mprvCleared => exact hm.of_bitsKept (bitsKept_setBit _ _ _) (by decide) (by decide)
  | sdtCleared => exact masks_of_disable_clear (bit_setBit_same _ _ _ (by decide))
  | extension v => exact hm.of_bitsKept (extension_kept _ _) (by decide) (by decide)
  | sstatus v =>
    obtain ⟨hsdt, hsie, _⟩ := sstatusWritten_bits (ssActive cfg h) h.m.status v
    exact masks_of_coupled (hsie.trans (by rw [hsdt]))
  | mstatus64 v =>
    obtain ⟨hsdt, hsie, _⟩ := statusWritten64_bits cfg h v
    exact masks_of_coupled (hsie.trans (by rw [hsdt]))
  | mstatus32 v =>
    obtain ⟨hsdt, hsie, _⟩ := statusWritten32_bits cfg h v
    exact masks_of_coupled (hsie.trans (by rw [hsdt]))
  | mstatush v => exact hm.of_bitsKept (statushWritten_kept _ _ _) (by decide) (by decide)

theorem VsStatusMove.masks_sie {cfg : Config} {h : Hart} {w : Word} (m : VsStatusMove cfg h w)
    (hm : Masks 24 1 h.vs.status) : Masks 24 1 w := by
  cases m with
  | kept => exact hm
  | onVs => exact masks_of_enable_clear (vsstatusOnVs_bits cfg h).1
  | sret =>
    obtain ⟨_, _, _, hsdt, _⟩ := vsstatusAfterSret_bits h
    exact masks_of_disable_clear hsdt
  | sdtCleared => exact masks_of_disable_clear (bit_setBit_same _ _ _ (by decide))
  | extension v => exact hm.of_bitsKept (extension_kept _ _) (by decide) (by decide)
  | vsstatus v =>
    obtain ⟨hsdt, hsie, _⟩ := sstatusWritten_bits (ssActiveVS cfg h) h.vs.status v
    exact masks_of_coupled (hsie.trans (by rw [hsdt]))

theorem HartOp.keeps_storedSdtMasksSie {cfg : Config} {h h' : Hart} (o : HartOp cfg h h')
    (hm : storedSdtMasksSie cfg h) : storedSdtMasksSie cfg h' :=
  ⟨o.statusMove.masks_sie hm.1, o.vsStatusMove.masks_sie hm.2⟩

/-- Where the active hart alone moved, what every elementary change keeps still holds of every hart. -/
theorem hartMoved_keeps {P : Config → Hart → Prop} (hop : ∀ cfg h h', HartOp cfg h h' → P cfg h → P cfg h')
    {s t : State} (m : hartMoved s t) (hs : allHarts P s) : allHarts P t := by
  obtain ⟨hc, hp, _, _, ho⟩ := m
  unfold allHarts
  rw [hc, hp]
  exact ⟨ho.keeps (hop s.cfg) hs.1, hs.2⟩

/-- An invariant of every hart that every elementary change keeps is kept by every step that is no reset. -/
theorem step_keeps_of_no_reset {P : Config → Hart → Prop} (hop : ∀ cfg h h', HartOp cfg h h' → P cfg h → P cfg h')
    {s t : State} (hs : allHarts P s) (ht : step s = .next t)
    (hn : ∀ e rest, s.events = e :: rest → resets e = false) : allHarts P t := by
  rcases step_moves ht with ⟨_, m⟩ | ⟨e, rest, he, m⟩
  · exact hartMoved_keeps hop m hs
  · have hr := hn e rest he
    cases m with
    | hart _ m => exact hartMoved_keeps hop m hs
    | swap n h' _ hat ht =>
      subst ht
      refine ⟨hs.2 h' (List.mem_of_getElem? hat), fun g hg => ?_⟩
      rcases List.mem_or_eq_of_mem_set hg with hg | rfl
      · exact hs.2 g hg
      · exact hs.1
    | resetHart he' _ => rcases he' with rfl | rfl <;> cases hr
    | resetAll he' _ => rcases he' with rfl | rfl <;> cases hr
    | reschedule _ _ ht => subst ht; exact hs

theorem allHarts_imp {P Q : Config → Hart → Prop} {s : State} (hs : allHarts P s)
    (h : ∀ g, P s.cfg g → Q s.cfg g) : allHarts Q s :=
  ⟨h _ hs.1, fun g hg => h g (hs.2 g hg)⟩

/-- Settles O55: with read-only zeros stored 0, R53 holds of the stored bits, and every elementary change but a reset keeps that. -/
theorem sdtMasksSieKept : Obligations.SdtMasksSieKept := by
  intro s t hm hz ht hn
  have hstored : allHarts storedSdtMasksSie s :=
    ⟨storedSdtMasksSie_of_readOnlyZeroHeld hm.1 hz.1,
      fun g hg => storedSdtMasksSie_of_readOnlyZeroHeld (hm.2 g hg) (hz.2 g hg)⟩
  have hkept := step_keeps_of_no_reset (fun _ _ _ => HartOp.keeps_storedSdtMasksSie) hstored ht hn
  exact allHarts_imp hkept fun _ => sdtMasksSie_of_stored

end Sys2Proof.Machine

/-! PROOF. CriticalErrorSignalTracksRunState: which elementary changes reach the run state, `cerr` or `pcerr`. -/

namespace Sys2Proof.Machine

open Sys2Proof.Safety

/-- What `cerrTracksRun` reads of a hart. -/
theorem cerrTracksRun_congr {cfg : Config} {h h' : Hart} (hr : h'.run = h.run) (hc : h'.cerr = h.cerr)
    (hp : pcerr cfg h' = pcerr cfg h) : cerrTracksRun cfg h' ↔ cerrTracksRun cfg h := by
  unfold cerrTracksRun
  rw [hr, hc, hp]

theorem cerrTracksRun_of_running {cfg : Config} {h : Hart} (hr : h.run = .running) :
    cerrTracksRun cfg h ↔ h.cerr = false := by
  unfold cerrTracksRun; rw [hr]

theorem cerrTracksRun_of_criticalError {cfg : Config} {h : Hart} (hr : h.run = .criticalError) :
    cerrTracksRun cfg h ↔ h.cerr = true := by
  unfold cerrTracksRun; rw [hr]

theorem cerrTracksRun_of_debugMode {cfg : Config} {h : Hart} (hr : h.run = .debugMode) :
    cerrTracksRun cfg h ↔ h.cerr = (pcerr cfg h && cfg.cerrHeldInDebug) := by
  unfold cerrTracksRun; rw [hr]

theorem cerrTracksRun_enterCriticalError (cfg : Config) (h : Hart) : cerrTracksRun cfg (enterCriticalError h) :=
  (cerrTracksRun_of_criticalError rfl).2 rfl

/-- A trap leaves the run state and its signal as they are, or enters the critical-error state (R172, R197). -/
theorem takeTrap_run_cases (cfg : Config) (t : TrapRequest) (h : Hart) :
    ((takeTrap cfg t h).run = h.run ∧ (takeTrap cfg t h).cerr = h.cerr)
      ∨ takeTrap cfg t h = enterCriticalError h := by
  have toM : ∀ m, ((takeTrapM cfg m h).run = h.run ∧ (takeTrapM cfg m h).cerr = h.cerr)
      ∨ takeTrapM cfg m h = enterCriticalError h := by
    intro m
    rcases takeTrapM_cases cfg m h with ⟨_, e⟩ | ⟨_, _, _, e⟩ | ⟨_, _, e⟩ <;> rw [e]
    · exact .inl ⟨rfl, rfl⟩
    · exact .inl ⟨rfl, rfl⟩
    · exact .inr rfl
  rcases takeTrap_cases cfg t h with ⟨_, _, e⟩ | ⟨_, _, e⟩ | ⟨_, e⟩ | ⟨_, e⟩ <;> rw [e]
  · exact .inl ⟨rfl, rfl⟩
  · exact .inl ⟨rfl, rfl⟩
  · exact toM _
  · exact toM _

/-- `pcerr` is a field of `dcsr`. -/
theorem pcerr_congr (cfg : Config) {h h' : Hart} (hd : h'.dbg = h.dbg) : pcerr cfg h' = pcerr cfg h := by
  unfold pcerr; rw [hd]

/-- `pcerr` after a Debug Mode entry says whether the hart came from the critical-error state (R211, R212). -/
theorem pcerr_enterDebug (cfg : Config) (c : BitVec 3) (h : Hart) :
    pcerr cfg (enterDebug cfg c h) = (cfg.hasSddbltrp && h.run == .criticalError) := by
  unfold pcerr
  cases hs : cfg.hasSddbltrp
  · rfl
  · obtain ⟨_, _, _, hp, _⟩ := dcsrOnEntry_bits cfg c (h.run == .criticalError) h
    exact congrArg (true && ·) (hp hs)

/-- A Debug Mode entry keeps `critical-error` asserted only from the critical-error state, which needs Sddbltrp (R211 to R213). -/
theorem cerrTracksRun_enterDebug {cfg : Config} {h : Hart} (c : BitVec 3)
    (hr : h.run = .criticalError → cfg.hasSddbltrp = true) : cerrTracksRun cfg (enterDebug cfg c h) := by
  rw [cerrTracksRun_of_debugMode (enterDebug_run cfg c h), enterDebug_cerr, pcerr_enterDebug]
  cases hrun : h.run with
  | criticalError => rw [hr hrun, Bool.true_and]
  | running | debugMode => cases cfg.hasSddbltrp <;> rfl

/-- A resume goes back to the critical-error state with `pcerr` = 1, and to `Running` with 0 (R214, R215). -/
theorem cerrTracksRun_resume (cfg : Config) (h : Hart) : cerrTracksRun cfg (resume cfg h) := by
  obtain ⟨_, _, _, hcrit, hrun, _⟩ := resume_resumed cfg h
  cases hp : pcerr cfg h
  · obtain ⟨hr, hc, _⟩ := hrun hp
    exact (cerrTracksRun_of_running hr).2 hc
  · obtain ⟨hr, hc, _⟩ := hcrit hp
    exact (cerrTracksRun_of_criticalError hr).2 hc

theorem HartOp.keeps_cerrTracksRun {cfg : Config} {h h' : Hart} (o : HartOp cfg h h') (hp : cerrTracksRun cfg h) :
    cerrTracksRun cfg h' := by
  cases o with
  | @trap t =>
    rcases takeTrap_run_cases cfg t h with ⟨er, ec⟩ | e
    · exact (cerrTracksRun_congr er ec (pcerr_congr cfg (takeTrap_frame cfg t h).2.1)).2 hp
    · rw [e]; exact cerrTracksRun_enterCriticalError cfg h
  | reg => exact (cerrTracksRun_congr (writeReg_run ..) (writeReg_cerr ..) (pcerr_congr cfg (writeReg_dbg ..))).2 hp
  | @csr c v =>
    obtain ⟨_, _, _, _, _, er, ec, _⟩ := Csr.write_csrsOnly cfg h v c
    exact (cerrTracksRun_congr er ec (pcerr_csrWrite cfg h v c)).2 hp
  | resume => exact cerrTracksRun_resume cfg h
  | halt hr hd => exact cerrTracksRun_enterDebug _ fun hc => absurd (hr.symm.trans hc) (by decide)
  | haltCritical hr hd => exact cerrTracksRun_enterDebug _ fun _ => hd
  | rnmi =>
    rcases takeRnmi_cases .. with e | ⟨_, e⟩ <;> rw [e]
    · exact hp
    · exact hp
  | nmi =>
    rcases takeNmi_cases .. with e | ⟨_, e⟩ | e <;> rw [e]
    · exact hp
    · exact cerrTracksRun_enterCriticalError cfg h
    · exact hp
  | _ => exact hp

/-- Settles O57: every elementary change of a hart keeps R24, and a reset establishes it. -/
theorem criticalErrorSignalTracksRunState : Obligations.CriticalErrorSignalTracksRunState :=
  fun _ _ hs ht => step_keeps (fun _ _ _ => HartOp.keeps_cerrTracksRun)
    (fun _ _ => (cerrTracksRun_of_running rfl).2 rfl) hs ht

end Sys2Proof.Machine

/-! PROOF. ModesStayLegal: a `V` of 1 only with H and below M-mode, in the hart and in `dcsr`, and the mode number 2 in no privilege field. -/

namespace Sys2Proof.Machine

open Sys2Proof.Safety

/-- R22: `V` = 1 stands only beside a mode below M, on a hart with H. -/
def virtAllowed (cfg : Config) (p : Priv) (v : Bool) : Prop := v = true → cfg.hasH = true ∧ p ≠ .m

theorem virtAllowed_false (cfg : Config) (p : Priv) : virtAllowed cfg p false := fun h => absurd h (by decide)

/-- The `V` that `MRET`, `MNRET` and a write to `dcsr` compute (R150, R152; assumption log 18). -/
theorem virtAllowed_returned (cfg : Config) (p : Priv) (b : Bool) : virtAllowed cfg p (cfg.hasH && b && p != .m) := by
  intro h
  simp only [Bool.and_eq_true, bne_iff_ne] at h
  exact ⟨h.1.1, h.2⟩

theorem modeConsistent_iff (cfg : Config) (h : Hart) :
    modeConsistent cfg h ↔ virtAllowed cfg h.priv h.virt ∧ virtAllowed cfg (Priv.ofCode (dcsrPrv h)) (dcsrV h) := by
  unfold modeConsistent virtAllowed
  rw [← and_assoc]
  refine and_congr_left fun _ => ?_
  cases h.virt <;> cases cfg.hasH <;> simp

/-! The mode of the hart. -/

/-- A trap leaves the mode, enters one with `V` = 0, or enters VS-mode on a hart with H (R173, R179 to R197). -/
theorem takeTrap_mode_cases (cfg : Config) (t : TrapRequest) (h : Hart) :
    ((takeTrap cfg t h).priv = h.priv ∧ (takeTrap cfg t h).virt = h.virt) ∨ (takeTrap cfg t h).virt = false
      ∨ (cfg.hasH = true ∧ (takeTrap cfg t h).priv = .s) := by
  have toM : ∀ m, ((takeTrapM cfg m h).priv = h.priv ∧ (takeTrapM cfg m h).virt = h.virt)
      ∨ (takeTrapM cfg m h).virt = false ∨ (cfg.hasH = true ∧ (takeTrapM cfg m h).priv = .s) := by
    intro m
    rcases takeTrapM_cases cfg m h with ⟨_, e⟩ | ⟨_, _, _, e⟩ | ⟨_, _, e⟩ <;> rw [e]
    · exact .inr (.inl rfl)
    · exact .inr (.inl rfl)
    · exact .inl ⟨rfl, rfl⟩
  rcases takeTrap_cases cfg t h with ⟨hd, _, e⟩ | ⟨_, _, e⟩ | ⟨_, e⟩ | ⟨_, e⟩ <;> rw [e]
  · rcases dest_cases cfg h t.intr t.code with hd' | ⟨hd', _⟩ | ⟨_, _, _, _, hH⟩
    · cases hd.symm.trans hd'
    · cases hd.symm.trans hd'
    · exact .inr (.inr ⟨hH, rfl⟩)
  · exact .inr (.inl rfl)
  · exact toM _
  · exact toM _

theorem takeTrap_virtAllowed {cfg : Config} (t : TrapRequest) {h : Hart} (hv : virtAllowed cfg h.priv h.virt) :
    virtAllowed cfg (takeTrap cfg t h).priv (takeTrap cfg t h).virt := by
  rcases takeTrap_mode_cases cfg t h with ⟨ep, ev⟩ | ev | ⟨hH, ep⟩
  · rw [ep, ev]; exact hv
  · rw [ev]; exact virtAllowed_false _ _
  · rw [ep]; exact fun _ => ⟨hH, by decide⟩

/-- The mode that `SPP` names (R151). -/
theorem spp_priv_ne_m (b : Bool) : (if b = true then Priv.s else Priv.u) ≠ .m := by cases b <;> decide

theorem HartOp.virtAllowed {cfg : Config} {h h' : Hart} (o : HartOp cfg h h')
    (hv : virtAllowed cfg h.priv h.virt) (hd : virtAllowed cfg (Priv.ofCode (dcsrPrv h)) (dcsrV h)) :
    virtAllowed cfg h'.priv h'.virt := by
  cases o with
  | trap => exact takeTrap_virtAllowed _ hv
  | reg => rw [writeReg_priv, writeReg_virt]; exact hv
  | @csr c v =>
    obtain ⟨_, _, _, ep, ev, _⟩ := Csr.write_csrsOnly cfg h v c
    rw [ep, ev]; exact hv
  | mret | mnret => exact virtAllowed_returned _ _ _
  | sretHs =>
    intro hv'
    rw [returnHs_virt, Bool.and_eq_true] at hv'
    exact ⟨hv'.1, spp_priv_ne_m _⟩
  | sretVs _ hvirt => exact fun _ => ⟨(hv hvirt).1, spp_priv_ne_m _⟩
  | resume =>
    obtain ⟨_, ep, ev, _⟩ := resume_resumed cfg h
    rw [ep, ev]; exact hd
  | rnmi =>
    rcases takeRnmi_cases .. with e | ⟨_, e⟩ <;> rw [e]
    · exact hv
    · exact virtAllowed_false _ _
  | nmi =>
    rcases takeNmi_cases .. with e | ⟨_, e⟩ | e <;> rw [e]
    · exact hv
    · exact hv
    · exact virtAllowed_false _ _
  | _ => exact hv

/-! The mode that `dcsr` keeps for a resume, and the fields that name a mode. -/

theorem Priv.code_ne_two (p : Priv) : p.code ≠ 0x2#2 := by cases p <;> decide

theorem DcsrMove.virtAllowed {cfg : Config} {h : Hart} {d : BitVec 32} (m : DcsrMove cfg h d)
    (hv : virtAllowed cfg h.priv h.virt) (hd : virtAllowed cfg (Priv.ofCode (dcsrPrv h)) (dcsrV h)) :
    virtAllowed cfg (Priv.ofCode (d.extractLsb' 0 2)) (d.getLsbD 5) := by
  cases m with
  | kept => exact hd
  | entry c =>
    obtain ⟨_, hprv, hdv, _⟩ := dcsrOnEntry_bits cfg c (h.run == .criticalError) h
    rw [hprv, hdv, Priv.ofCode_code]; exact hv
  | dcsr v =>
    obtain ⟨_, _, hdv, _⟩ := dcsrWritten_bits cfg h.dbg.dcsr v
    rw [hdv]; exact virtAllowed_returned _ _ _

theorem HartOp.keeps_modeConsistent {cfg : Config} {h h' : Hart} (o : HartOp cfg h h') (hp : modeConsistent cfg h) :
    modeConsistent cfg h' := by
  obtain ⟨hv, hd⟩ := (modeConsistent_iff cfg h).1 hp
  exact (modeConsistent_iff cfg h').2 ⟨o.virtAllowed hv hd, o.dcsrMove.virtAllowed hv hd⟩

/-- `MPP` after a write to `mstatus` is WARL (R128; assumption log 8). -/
theorem mpp_statusWritten64 (cfg : Config) (h : Hart) (v : Word) :
    field2 (statusWritten64 cfg h v) 11 = privilegeStored cfg (mpp h) (field2 v 11) := by
  simp [statusWritten64, storeMpp, bitSDT, bitSIE, bitMDT, bitMIE, loMPP, mpp]

/-- The same on RV32 (R129). -/
theorem mpp_statusWritten32 (cfg : Config) (h : Hart) (v : Word) :
    field2 (statusWritten32 cfg h v) 11 = privilegeStored cfg (mpp h) (field2 v 11) := by
  simp [statusWritten32, storeMpp, bitSDT, bitSIE, bitMIE, loMPP, mpp]

theorem StatusMove.mpp_ne_two {cfg : Config} {h : Hart} {w : Word} (m : StatusMove cfg h w) (hp : mpp h ≠ 0x2#2) :
    field2 w 11 ≠ 0x2#2 := by
  have keep : ∀ {l w'}, bitsKept l h.m.status w' → 11 ∉ l → 12 ∉ l → field2 w' 11 ≠ 0x2#2 :=
    fun hk h11 h12 => field2_of_bitsKept hk h11 h12 ▸ hp
  cases m with
  | kept => exact hp
  | onHs => exact keep (statusOnHs_bits cfg h).2.2 (by decide) (by decide)
  | onM m =>
    obtain ⟨_, _, hmpp, _⟩ := statusOnM_bits cfg m h
    rw [hmpp]; exact Priv.code_ne_two _
  | onNmi => rw [field2_setBit_other _ _ _ _ (by decide)]; exact keep (bitsKept_setBit _ _ _) (by decide) (by decide)
  | mret =>
    obtain ⟨_, _, hmpp, _⟩ := statusAfterMret_bits cfg h
    rw [hmpp]; split <;> decide
  | sret =>
    obtain ⟨_, _, _, _, _, hk⟩ := statusAfterSret_bits h
    exact keep hk (by decide) (by decide)
  | mprvCleared | sdtCleared => exact keep (bitsKept_setBit _ _ _) (by decide) (by decide)
  | extension v => exact keep (extension_kept _ _) (by decide) (by decide)
  | sstatus v => exact keep (sstatusWritten_bits ..).2.2 (by decide) (by decide)
  | mstatus64 v => rw [mpp_statusWritten64]; exact privilegeStored_ne_two _ _ _
  | mstatus32 v => rw [mpp_statusWritten32]; exact privilegeStored_ne_two _ _ _
  | mstatush v => exact keep (statushWritten_kept _ _ _) (by decide) (by decide)

/-- `MNPP` holds the mode an RNMI handler was entered from (R44, R194). -/
theorem mnpp_mnstatusOn (p : Priv) (v : Bool) (w : Word) : field2 (mnstatusOn p v w) 11 = p.code := by
  simp [mnstatusOn, loMNPP, bitMNPV, bitNMIE]

theorem NmStatusMove.mnpp_ne_two {cfg : Config} {h : Hart} {w : Word} (m : NmStatusMove cfg h w)
    (hp : mnpp h ≠ 0x2#2) : field2 w 11 ≠ 0x2#2 := by
  cases m with
  | kept => exact hp
  | entered p v => rw [mnpp_mnstatusOn]; exact Priv.code_ne_two p
  | mnret => rw [field2_setBit_other _ _ _ _ (by decide)]; exact hp
  | mnstatus v =>
    obtain ⟨_, hmnpp, _⟩ := mnstatusWritten_stored cfg h.nm.status v
    rw [hmnpp]; exact privilegeStored_ne_two _ _ _

theorem DcsrMove.prv_ne_two {cfg : Config} {h : Hart} {d : BitVec 32} (m : DcsrMove cfg h d)
    (hp : dcsrPrv h ≠ 0x2#2) : d.extractLsb' 0 2 ≠ 0x2#2 := by
  cases m with
  | kept => exact hp
  | entry c =>
    obtain ⟨_, hprv, _⟩ := dcsrOnEntry_bits cfg c (h.run == .criticalError) h
    rw [hprv]; exact Priv.code_ne_two _
  | dcsr v =>
    obtain ⟨_, hprv, _⟩ := dcsrWritten_bits cfg h.dbg.dcsr v
    rw [hprv]; exact privilegeStored_ne_two _ _ _

theorem HartOp.keeps_storedModesNamed {cfg : Config} {h h' : Hart} (o : HartOp cfg h h')
    (hp : storedModesNamed cfg h) : storedModesNamed cfg h' := by
  obtain ⟨hmpp, hmnpp, hprv⟩ := hp
  exact ⟨o.statusMove.mpp_ne_two hmpp, o.nmStatusMove.mnpp_ne_two hmnpp, o.dcsrMove.prv_ne_two hprv⟩

/-! After a reset (R54; assumption logs 3 and 4). -/

theorem resetPrevious_ne_two (cfg : Config) : resetPrevious cfg ≠ 0x2#2 := by
  unfold resetPrevious; cases cfg.hasU <;> decide

theorem hartAfterReset_modeConsistent (cfg : Config) (h : Hart) : modeConsistent cfg (hartAfterReset cfg h) := by
  have hd : dcsrV (hartAfterReset cfg h) = false := (by decide : resetDcsr.getLsbD 5 = false)
  rw [modeConsistent_iff, hd]
  exact ⟨virtAllowed_false _ _, virtAllowed_false _ _⟩

theorem hartAfterReset_storedModesNamed (cfg : Config) (h : Hart) : storedModesNamed cfg (hartAfterReset cfg h) := by
  obtain ⟨_, _, _, _, _, hmpp⟩ := resetMstatus_bits cfg
  refine ⟨?_, ?_, (by decide : resetDcsr.extractLsb' 0 2 ≠ 0x2#2)⟩
  · exact fun e => resetPrevious_ne_two cfg (hmpp.symm.trans e)
  · exact fun e => resetPrevious_ne_two cfg ((resetMnstatus_bits cfg).2.symm.trans e)

/-- Settles O56: every elementary change of a hart keeps both halves of R22, and a reset establishes them. -/
theorem modesStayLegal : Obligations.ModesStayLegal :=
  fun _ _ hmode hnamed ht =>
    ⟨step_keeps (fun _ _ _ => HartOp.keeps_modeConsistent) hartAfterReset_modeConsistent hmode ht,
      step_keeps (fun _ _ _ => HartOp.keeps_storedModesNamed) hartAfterReset_storedModesNamed hnamed ht⟩

end Sys2Proof.Machine

/-! PROOF. ReadOnlyZerosStayZero: a bit that is stored 1 is one that its configuration and its `DTE` make active. -/

namespace Sys2Proof.Machine

open Sys2Proof.Safety

/-- R31, R36, R41, R42 read the other way: what makes each bit active that a `DTE` governs, where it is stored 1. -/
structure DteGoverns (cfg : Config) (h : Hart) : Prop where
  menvcfg : bit h.m.envcfg bitDTE = true → cfg.hasSsdbltrp = true
  henvcfg : bit h.hs.envcfg bitDTE = true → ssActive cfg h = true
  sdt : bit h.m.status 24 = true → ssActive cfg h = true
  vsSdt : bit h.vs.status 24 = true → ssActiveVS cfg h = true

/-- The same of every bit that is read-only zero in some configuration (R34, R37, R43, R46). -/
structure StoredOnesActive (cfg : Config) (h : Hart) : Prop extends DteGoverns cfg h where
  medeleg : bit h.m.edeleg 16 = false
  hedeleg : bit h.hs.edeleg 16 = false
  mdt : bit h.m.status 45 = true → cfg.hasSmdbltrp = true
  pcerr : h.dbg.dcsr.getLsbD 19 = true → cfg.hasSddbltrp = true

theorem ssActive_of_ssActiveVS {cfg : Config} {h : Hart} (ha : ssActiveVS cfg h = true) : ssActive cfg h = true := by
  simp only [ssActiveVS, Bool.and_eq_true] at ha
  exact ha.1.1

theorem eq_false_imp_iff {a b : Bool} : (a = false → b = false) ↔ (b = true → a = true) := by
  cases a <;> cases b <;> simp

theorem readOnlyZeroHeld_iff (cfg : Config) (h : Hart) : readOnlyZeroHeld cfg h ↔ StoredOnesActive cfg h := by
  unfold readOnlyZeroHeld
  constructor
  · rintro ⟨hm, hh, hs, hvs, hme, hmdt, hpc⟩
    exact {
      menvcfg := eq_false_imp_iff.1 hme
      henvcfg := eq_false_imp_iff.1 fun ha => (hs ha).2.2
      sdt := eq_false_imp_iff.1 fun ha => (hs ha).1
      vsSdt := eq_false_imp_iff.1 hvs
      medeleg := hm
      hedeleg := hh
      mdt := eq_false_imp_iff.1 hmdt
      pcerr := eq_false_imp_iff.1 hpc }
  · intro z
    refine ⟨z.medeleg, z.hedeleg, fun ha => ⟨eq_false_imp_iff.2 z.sdt ha, ?_, eq_false_imp_iff.2 z.henvcfg ha⟩,
      eq_false_imp_iff.2 z.vsSdt, eq_false_imp_iff.2 z.menvcfg, eq_false_imp_iff.2 z.mdt, eq_false_imp_iff.2 z.pcerr⟩
    exact eq_false_imp_iff.2 (fun hv => ssActive_of_ssActiveVS (z.vsSdt hv)) ha

/-- What a bit stored 1 implies is implied still after a change of other bits. -/
theorem imp_of_bitsKept {l : List Nat} {w w' : Word} {d : Nat} {p : Prop} (hk : bitsKept l w w') (hd : d ∉ l)
    (hz : bit w d = true → p) : bit w' d = true → p :=
  fun hw => hz ((hk d hd).symm.trans hw)

theorem imp_of_clear {w : Word} {d : Nat} {p : Prop} (h : bit w d = false) : bit w d = true → p :=
  fun hw => absurd (h.symm.trans hw) (by decide)

/-- A bit that is stored only while it is active (R31, R34, R41). -/
theorem active_of_masked {w : Word} {d : Nat} {active b : Bool} (h : bit w d = (active && b)) :
    bit w d = true → active = true :=
  fun hw => (Bool.and_eq_true_iff.1 (h.symm.trans hw)).1

/-- No change of `mstatus` stores `SDT` = 1 while it is inactive (R31). -/
theorem StatusMove.sdt_active {cfg : Config} {h : Hart} {w : Word} (m : StatusMove cfg h w)
    (hz : bit h.m.status 24 = true → ssActive cfg h = true) : bit w 24 = true → ssActive cfg h = true := by
  cases m with
  | kept => exact hz
  | onHs =>
    intro hw
    rw [(statusOnHs_bits cfg h).2.1, Bool.or_eq_true] at hw
    exact hw.elim id hz
  | onM m =>
    obtain ⟨_, _, _, _, _, _, hk⟩ := statusOnM_bits cfg m h
    exact imp_of_bitsKept hk (by decide) hz
  | onNmi =>
    intro hw
    rw [bit_setBit_other _ _ _ _ (by decide)] at hw
    exact imp_of_bitsKept (bitsKept_setBit _ _ _) (by decide) hz hw
  | mret =>
    obtain ⟨_, _, _, _, _, _, hk⟩ := statusAfterMret_bits cfg h
    exact imp_of_bitsKept hk (by decide) hz
  | sret =>
    obtain ⟨_, _, _, _, hsdt, _⟩ := statusAfterSret_bits h
    exact imp_of_clear hsdt
  | mprvCleared => exact imp_of_bitsKept (bitsKept_setBit _ _ _) (by decide) hz
  | sdtCleared => exact imp_of_clear (bit_setBit_same _ _ _ (by decide))
  | extension v => exact imp_of_bitsKept (extension_kept _ _) (by decide) hz
  | sstatus v => exact active_of_masked (sstatusWritten_bits ..).1
  | mstatus64 v => exact active_of_masked (statusWritten64_bits cfg h v).1
  | mstatus32 v => exact active_of_masked (statusWritten32_bits cfg h v).1
  | mstatush v => exact imp_of_bitsKept (statushWritten_kept _ _ _) (by decide) hz

/-- No elementary change stores `MDT` = 1 without Smdbltrp (R34). -/
theorem StatusMove.mdt_active {cfg : Config} {h : Hart} {w : Word} (m : StatusMove cfg h w)
    (hz : bit h.m.status 45 = true → cfg.hasSmdbltrp = true) : bit w 45 = true → cfg.hasSmdbltrp = true := by
  cases m with
  | kept => exact hz
  | onHs => exact imp_of_bitsKept (statusOnHs_bits cfg h).2.2 (by decide) hz
  | onM m =>
    obtain ⟨_, _, _, _, _, hmdt, _⟩ := statusOnM_bits cfg m h
    intro hw
    rw [hmdt, Bool.or_eq_true] at hw
    exact hw.elim id hz
  | onNmi hs => exact fun _ => hs
  | mret =>
    obtain ⟨_, _, _, _, _, hmdt, _⟩ := statusAfterMret_bits cfg h
    intro hw
    rw [hmdt, Bool.and_eq_true] at hw
    exact hz hw.2
  | sret =>
    obtain ⟨_, _, _, _, _, hk⟩ := statusAfterSret_bits h
    exact imp_of_bitsKept hk (by decide) hz
  | mprvCleared | sdtCleared => exact imp_of_bitsKept (bitsKept_setBit _ _ _) (by decide) hz
  | extension v => exact imp_of_bitsKept (extension_kept _ _) (by decide) hz
  | sstatus v => exact imp_of_bitsKept (sstatusWritten_bits ..).2.2 (by decide) hz
  | mstatus64 v => exact active_of_masked (statusWritten64_bits cfg h v).2.2.1
  | mstatus32 v =>
    obtain ⟨_, _, hmdt, _⟩ := statusWritten32_bits cfg h v
    exact fun hw => hz (hmdt.symm.trans hw)
  | mstatush v => exact active_of_masked (statushWritten_bits cfg h v).1

/-- No elementary change stores `SDT` = 1 in `vsstatus` while it is inactive (R41). -/
theorem VsStatusMove.sdt_active {cfg : Config} {h : Hart} {w : Word} (m : VsStatusMove cfg h w)
    (hz : bit h.vs.status 24 = true → ssActiveVS cfg h = true) : bit w 24 = true → ssActiveVS cfg h = true := by
  cases m with
  | kept => exact hz
  | onVs =>
    intro hw
    rw [(vsstatusOnVs_bits cfg h).2, Bool.or_eq_true] at hw
    exact hw.elim id hz
  | sret =>
    obtain ⟨_, _, _, hsdt, _⟩ := vsstatusAfterSret_bits h
    exact imp_of_clear hsdt
  | sdtCleared => exact imp_of_clear (bit_setBit_same _ _ _ (by decide))
  | extension v => exact imp_of_bitsKept (extension_kept _ _) (by decide) hz
  | vsstatus v => exact active_of_masked (sstatusWritten_bits ..).1

/-- Without Sddbltrp a Debug Mode entry keeps the bit of `pcerr` (R46, R211). -/
theorem dcsrOnEntry_pcerr_kept {cfg : Config} (hs : cfg.hasSddbltrp = false) (c : BitVec 3) (b : Bool) (h : Hart) :
    (dcsrOnEntry cfg c b h).getLsbD 19 = h.dbg.dcsr.getLsbD 19 := by
  unfold dcsrOnEntry
  rw [getLsbD_setWidth32]
  simp [hs, bitDcsrV, bit_setWidth64]

/-- No elementary change stores `pcerr` = 1 without Sddbltrp (R46). -/
theorem DcsrMove.pcerr_active {cfg : Config} {h : Hart} {d : BitVec 32} (m : DcsrMove cfg h d)
    (hz : h.dbg.dcsr.getLsbD 19 = true → cfg.hasSddbltrp = true) : d.getLsbD 19 = true → cfg.hasSddbltrp = true := by
  cases m with
  | kept => exact hz
  | entry c =>
    cases hs : cfg.hasSddbltrp
    · rw [dcsrOnEntry_pcerr_kept hs]
      exact fun hd => hs.symm.trans (hz hd)
    · exact fun _ => rfl
  | dcsr v =>
    obtain ⟨_, _, _, hk⟩ := dcsrWritten_bits cfg h.dbg.dcsr v
    exact fun hd => hz ((hk 19 (by decide)).symm.trans hd)

/-- `SsActive` and `SsActiveVS` depend on the two `DTE` bits only (R175). -/
theorem ssActive_congr (cfg : Config) {h h' : Hart} (hm : bit h'.m.envcfg bitDTE = bit h.m.envcfg bitDTE) :
    ssActive cfg h' = ssActive cfg h := by
  unfold ssActive; rw [hm]

theorem ssActiveVS_congr (cfg : Config) {h h' : Hart} (hm : bit h'.m.envcfg bitDTE = bit h.m.envcfg bitDTE)
    (hh : bit h'.hs.envcfg bitDTE = bit h.hs.envcfg bitDTE) : ssActiveVS cfg h' = ssActiveVS cfg h := by
  unfold ssActiveVS; rw [ssActive_congr cfg hm, hh]

/-- A write that leaves `menvcfg.DTE` 1 makes `SDT` active; one that leaves it 0 forces what it governs to 0 (R133). -/
theorem dteGoverns_writeMenvcfgDte {cfg : Config} {h : Hart} (mask v : Word) (z : DteGoverns cfg h) :
    DteGoverns cfg (writeMenvcfgDte cfg mask v h) := by
  obtain ⟨hdte, _, _, hoff, hon⟩ := writeMenvcfgDte_bits cfg mask v h
  cases hd : cfg.hasSsdbltrp && bit v 59
  · obtain ⟨hsdt, hhdte, hvsSdt, _⟩ := hoff hd
    exact {
      menvcfg := fun he => absurd ((hdte.trans hd).symm.trans he) (by decide)
      henvcfg := fun he => absurd (hhdte.symm.trans he) (by decide)
      sdt := fun he => absurd (hsdt.symm.trans he) (by decide)
      vsSdt := fun he => absurd (hvsSdt.symm.trans he) (by decide) }
  · have hss : cfg.hasSsdbltrp = true := (Bool.and_eq_true_iff.1 hd).1
    have ha : ssActive cfg (writeMenvcfgDte cfg mask v h) = true := by
      rw [ssActive, hss]; exact hdte.trans hd
    have ehs : (writeMenvcfgDte cfg mask v h).hs = h.hs := by rw [hon hd]
    have evs : (writeMenvcfgDte cfg mask v h).vs = h.vs := by rw [hon hd]
    refine { menvcfg := fun _ => hss, henvcfg := fun _ => ha, sdt := fun _ => ha, vsSdt := fun hv => ?_ }
    have hvs : ssActiveVS cfg h = true := z.vsSdt (evs ▸ hv)
    simp only [ssActiveVS, Bool.and_eq_true] at hvs ⊢
    rw [ehs]
    exact ⟨⟨ha, hvs.1.2⟩, hvs.2⟩

/-- A write that leaves `henvcfg.DTE` 1 needs `SsActive`; one that leaves it 0 clears `vsstatus.SDT` (R134). -/
theorem dteGoverns_writeHenvcfgDte {cfg : Config} {h : Hart} (mask v : Word) (z : DteGoverns cfg h) :
    DteGoverns cfg (writeHenvcfgDte cfg mask v h) := by
  obtain ⟨_, hoff, _, _⟩ := writeHenvcfgDte_bits cfg mask v h
  have hdte : bit (writeHenvcfgDte cfg mask v h).hs.envcfg bitDTE = (ssActive cfg h && cfg.hasH && bit v bitDTE) := by
    rw [writeHenvcfgDte_envcfg]; exact bit_setBit_same _ _ _ (by decide)
  have em : (writeHenvcfgDte cfg mask v h).m = h.m := writeHenvcfgDte_m ..
  have ha : ssActive cfg (writeHenvcfgDte cfg mask v h) = ssActive cfg h := ssActive_congr cfg (by rw [em])
  refine { menvcfg := em ▸ z.menvcfg, henvcfg := fun he => ?_, sdt := ?_, vsSdt := fun hv => ?_ }
  · rw [hdte] at he
    simp only [Bool.and_eq_true] at he
    exact ha.trans he.1.1
  · rw [ha, em]; exact z.sdt
  · cases hd : cfg.hasSsdbltrp && cfg.hasH && bit h.m.envcfg 59 && bit v 59
    · exact absurd ((hoff hd).1.symm.trans hv) (by decide)
    · simp only [Bool.and_eq_true] at hd
      obtain ⟨⟨⟨hss, hH⟩, hm⟩, hb⟩ := hd
      have hact : ssActive cfg h = true := by rw [ssActive, hss]; exact hm
      have hb' : bit v bitDTE = true := hb
      rw [ssActiveVS, ha, hdte, hact, hH, hb']; rfl

theorem HartOp.dteGoverns {cfg : Config} {h h' : Hart} (o : HartOp cfg h h') (z : DteGoverns cfg h) :
    DteGoverns cfg h' := by
  rcases o.dte_cases with ⟨mask, w, rfl⟩ | ⟨mask, w, rfl⟩ | ⟨em, eh⟩
  · exact dteGoverns_writeMenvcfgDte mask w z
  · exact dteGoverns_writeHenvcfgDte mask w z
  · have ha := ssActive_congr cfg em
    exact {
      menvcfg := em ▸ z.menvcfg
      henvcfg := by rw [ha, eh]; exact z.henvcfg
      sdt := ha ▸ o.statusMove.sdt_active z.sdt
      vsSdt := ssActiveVS_congr cfg em eh ▸ o.vsStatusMove.sdt_active z.vsSdt }

theorem HartOp.keeps_readOnlyZeroHeld {cfg : Config} {h h' : Hart} (o : HartOp cfg h h')
    (hp : readOnlyZeroHeld cfg h) : readOnlyZeroHeld cfg h' := by
  have z := (readOnlyZeroHeld_iff cfg h).1 hp
  obtain ⟨hm, hh⟩ := o.edeleg16 z.medeleg z.hedeleg
  exact (readOnlyZeroHeld_iff cfg h').2 {
    o.dteGoverns z.toDteGoverns with
    medeleg := hm
    hedeleg := hh
    mdt := o.statusMove.mdt_active z.mdt
    pcerr := o.dcsrMove.pcerr_active z.pcerr }

/-- A reset stores 1 only in a bit that its configuration makes active (R240, R241). -/
theorem hartAfterReset_readOnlyZeroHeld (cfg : Config) (h : Hart) : readOnlyZeroHeld cfg (hartAfterReset cfg h) := by
  obtain ⟨hmdt, _, _, _, hsdt, _⟩ := resetMstatus_bits cfg
  obtain ⟨ha, hvs⟩ := resetHart_active cfg h.hartId h.haltreq h.irq
  have hdte : bit (hartAfterReset cfg h).m.envcfg bitDTE = resetDte cfg := bit_setBit_same _ _ _ (by decide)
  have hhdte : bit (hartAfterReset cfg h).hs.envcfg bitDTE = resetHdte cfg := bit_setBit_same _ _ _ (by decide)
  refine (readOnlyZeroHeld_iff ..).2 {
    menvcfg := fun he => ?_, henvcfg := fun he => ?_, sdt := fun he => ?_, vsSdt := fun he => ?_
    medeleg := bit_zero 16, hedeleg := bit_zero 16, mdt := fun he => hmdt.symm.trans he
    pcerr := fun he => absurd ((by decide : resetDcsr.getLsbD 19 = false).symm.trans he) (by decide) }
  · exact (Bool.and_eq_true_iff.1 <| hdte.symm.trans he).1
  · have hd := hhdte.symm.trans he
    simp only [resetHdte, Bool.and_eq_true] at hd
    exact ha.trans hd.1.1
  · exact ha.trans (Bool.and_eq_true_iff.1 <| hsdt.symm.trans he).1
  · exact hvs.trans (Bool.and_eq_true_iff.1 <| (resetVsstatus_bits cfg).1.symm.trans he).1

/-- Settles O58: every elementary change of a hart keeps read-only zeros stored 0, and a reset establishes it. -/
theorem readOnlyZerosStayZero : Obligations.ReadOnlyZerosStayZero :=
  fun _ _ hs ht => step_keeps (fun _ _ _ => HartOp.keeps_readOnlyZeroHeld) hartAfterReset_readOnlyZeroHeld hs ht

end Sys2Proof.Machine

/-! PROOF. MemoryStaysCanonical: every step stores a list of bytes, often an empty one. -/

namespace Sys2Proof.Machine

open Sys2Proof.Safety

/-! A write inside the address space keeps every listed address inside it. -/

theorem addressCount_pos (cfg : Config) : 0 < addressCount cfg := Nat.two_pow_pos _

theorem writeByte_lt {m : Memory} {n a : Nat} {v : Byte} (ha : a < n) (hm : ∀ p ∈ m, p.1 < n) :
    ∀ p ∈ writeByte m a v, p.1 < n := by
  induction m with
  | nil => simpa [writeByte] using ha
  | cons c m ih =>
    obtain ⟨b, w⟩ := c
    simp only [List.mem_cons, forall_eq_or_imp] at hm
    unfold writeByte
    split
    · simpa [ha] using hm
    · split
      · simpa [ha] using hm.2
      · simpa [hm.1] using ih hm.2

theorem writeCells_lt {cfg : Config} {m : Memory} (hm : ∀ p ∈ m, p.1 < addressCount cfg) (l : List Host.Cell) :
    ∀ p ∈ writeCells cfg m l, p.1 < addressCount cfg := by
  induction l generalizing m with
  | nil => exact hm
  | cons c l ih => exact ih (writeByte_lt (Nat.mod_lt _ (addressCount_pos cfg)) hm)

/-! What a step does to memory. -/

/-- `t` has the memory of `s` with some bytes stored in it. -/
def Stores (s t : State) : Prop := ∃ l, t.mem = writeCells s.cfg s.mem l

theorem stores_of_mem_eq {s t : State} (h : t.mem = s.mem) : Stores s t := ⟨[], h⟩

theorem otherDebugEntry_mem (s : State) (c : BitVec 3) : (otherDebugEntry s c).mem = s.mem := by
  obtain ⟨h, e, _⟩ := otherDebugEntry_ops s c
  rw [e]; rfl

theorem applyBase_stores (s : State) (r : BaseResult) : Stores s (applyBase s r) := by
  cases r with
  | retire pc regs stores csrs st vst => exact ⟨stores, rfl⟩
  | exception => exact stores_of_mem_eq rfl
  | debugEntry c => exact stores_of_mem_eq (otherDebugEntry_mem s c)

theorem execWord_stores {w : BitVec 32} {s t : State} (e : execWord w s = .next t) : Stores s t := by
  unfold execWord at e
  split at e
  · obtain ⟨h, e', _⟩ := exec_ops _ s
    cases e'.symm.trans e
    exact stores_of_mem_eq rfl
  · cases e
    exact applyBase_stores ..

theorem boundaryStep_stores {s t : State} {instr : Host.Outcome State Fault Refusal}
    (hi : instr = .next t → Stores s t) (e : boundaryStep s instr = .next t) : Stores s t := by
  rcases boundaryStep_cases s instr with ⟨_, e'⟩ | ⟨_, _, _, e'⟩ | ⟨_, _, e'⟩ <;> rw [e'] at e
  · cases e; exact stores_of_mem_eq rfl
  · cases e; exact stores_of_mem_eq rfl
  · exact hi e

theorem fetchExec_stores {s t : State} (e : fetchExec s = .next t) : Stores s t := by
  unfold fetchExec at e
  split at e
  · cases e
  · exact execWord_stores e

theorem criticalStep_mem (s : State) : (criticalStep s).mem = s.mem := by
  unfold criticalStep; split <;> rfl

theorem hartStep_stores {s t : State} (e : hartStep s = .next t) : Stores s t := by
  unfold hartStep at e
  split at e
  · exact boundaryStep_stores fetchExec_stores e
  · cases e; exact stores_of_mem_eq (criticalStep_mem s)
  · cases e; exact stores_of_mem_eq rfl

theorem exceptionStep_stores {s t : State} {r : TrapRequest} (e : exceptionStep s r = .next t) : Stores s t := by
  unfold exceptionStep at e
  split at e
  · exact boundaryStep_stores (fun e => by cases e; exact stores_of_mem_eq rfl) e
  · cases e; exact stores_of_mem_eq rfl

theorem debugExec_stores {w : BitVec 32} {s t : State} (e : debugExec w s = .next t) : Stores s t := by
  unfold debugExec at e
  split at e
  · exact execWord_stores e
  · cases e; exact stores_of_mem_eq rfl

theorem selectHart_mem (s : State) (n : Nat) : (selectHart s n).mem = s.mem := by
  unfold selectHart; split <;> rfl

theorem resumeHart_mem (s : State) : (resumeHart s).mem = s.mem := by
  unfold resumeHart; split <;> rfl

theorem debugCsrRead_mem (s : State) (a : CsrAddr) : (debugCsrRead s a).mem = s.mem := by
  unfold debugCsrRead; split <;> rfl

theorem debugCsrWrite_mem (s : State) (a : CsrAddr) (v : Word) : (debugCsrWrite s a v).mem = s.mem := by
  unfold debugCsrWrite; split <;> rfl

theorem debugRegRead_mem (s : State) (r : Nat) : (debugRegRead s r).mem = s.mem := by
  unfold debugRegRead; split <;> rfl

theorem debugRegWrite_mem (s : State) (r : Nat) (v : Word) : (debugRegWrite s r v).mem = s.mem := by
  unfold debugRegWrite; split <;> rfl

theorem dmRegisterWrite_mem (s : State) (n : Nat) (v : BitVec 32) : (dmRegisterWrite s n v).mem = s.mem := by
  rw [(dmRegisterWrite_frame s n v).1]

theorem platformReact_mem (s : State) (a : PlatformAction) : (platformReact s a).mem = s.mem := by
  unfold platformReact
  split
  · cases a <;> rfl
  · rfl

theorem eventStep_stores {e : Event} {s t : State} (h : eventStep e s = .next t) : Stores s t := by
  cases e with
  | hart => exact hartStep_stores h
  | baseException => exact exceptionStep_stores h
  | debugExec => exact debugExec_stores h
  | memWrite a b => cases h; exact ⟨[(a, b)], rfl⟩
  | select n => cases h; exact stores_of_mem_eq (selectHart_mem s n)
  | debugEntry c => cases h; exact stores_of_mem_eq (otherDebugEntry_mem s c)
  | resume => cases h; exact stores_of_mem_eq (resumeHart_mem s)
  | debugCsrRead a => cases h; exact stores_of_mem_eq (debugCsrRead_mem s a)
  | debugCsrWrite a v => cases h; exact stores_of_mem_eq (debugCsrWrite_mem s a v)
  | debugRegRead r => cases h; exact stores_of_mem_eq (debugRegRead_mem s r)
  | debugRegWrite r v => cases h; exact stores_of_mem_eq (debugRegWrite_mem s r v)
  | dmWrite n v => cases h; exact stores_of_mem_eq (dmRegisterWrite_mem s n v)
  | platform a => cases h; exact stores_of_mem_eq (platformReact_mem s a)
  | _ => cases h; exact stores_of_mem_eq rfl

/-- Every step stores some bytes and does nothing else to memory (R51c). -/
theorem step_stores {s t : State} (h : step s = .next t) : Stores s t := by
  unfold step agentStep at h
  split at h
  · exact hartStep_stores (s := s.tick) h
  · exact eventStep_stores (s := { s.tick with events := _ }) h

/-- No step changes the configuration (assumption log 1). -/
theorem step_cfg {s t : State} (h : step s = .next t) : t.cfg = s.cfg := by
  rcases step_moves h with ⟨_, m⟩ | ⟨e, rest, _, m⟩
  · exact m.1
  · cases m with
    | hart _ m => exact m.1
    | swap _ _ _ _ ht | resetHart _ ht | resetAll _ ht | reschedule _ _ ht => subst ht; rfl

/-- Settles O60: a step stores a list of bytes, each at an address inside the space, and each store keeps the canonical form. -/
theorem memoryStaysCanonical : Obligations.MemoryStaysCanonical := by
  refine ⟨fun s t hm ht => ?_, fun s a b rest he => ?_⟩
  · obtain ⟨hwf, hlt⟩ := hm
    obtain ⟨l, hl⟩ := step_stores ht
    rw [step_cfg ht, hl]
    exact ⟨writeCells_wf hwf s.cfg l, writeCells_lt hlt l⟩
  · exact ⟨_, step_of_event he, rfl, fun r => readByte_writeByte s.mem (a % addressCount s.cfg) r b⟩

end Sys2Proof.Machine

/-! PROOF. DelegationOfDoubleTrap: what a write and a read at each half of a delegation register do, and where an exception of cause 16 goes. -/

namespace Sys2Proof.Machine

open Sys2Proof.Safety

theorem bit_merge_lowHalf {old v : Word} {j : Nat} (hj : 32 ≤ j) :
    bit (merge 0xFFFFFFFF#64 old v) j = bit old j := by
  have : ¬ j < 32 := by omega
  simp [bit_merge, bit_low32, this]

/-- A write to the low half of a delegation register on RV32 keeps the high half (R36). -/
theorem bit_delegWritten_high {old v : Word} {j : Nat} (hj : 32 ≤ j) :
    bit (delegWritten (merge 0xFFFFFFFF#64 old v)) j = bit old j := by
  rw [delegWritten, bit_setBit_other _ _ _ _ (by omega), bit_merge_lowHalf hj]

/-- What a write to `medeleg` stores, on RV32 with the half in `medelegh` as it was (R36, R135). -/
theorem csrWrite_medeleg (s : State) (v : Word) :
    ∃ w, csrWrite s 0x302#12 v = { s.hart with m := { s.hart.m with edeleg := delegWritten w } }
      ∧ (s.cfg.xlen = .rv32 → w = merge 0xFFFFFFFF#64 s.hart.m.edeleg (trunc s.cfg v)) := by
  rw [csrWrite_known (c := .medeleg) (by decide), redirect_high (by decide), Csr.write]
  cases s.cfg.xlen
  · exact ⟨_, rfl, fun _ => rfl⟩
  · exact ⟨_, rfl, nofun⟩

/-- The same of `hedeleg` (R43, R135). -/
theorem csrWrite_hedeleg (s : State) (v : Word) :
    ∃ w, csrWrite s 0x602#12 v = { s.hart with hs := { s.hart.hs with edeleg := delegWritten w } }
      ∧ (s.cfg.xlen = .rv32 → w = merge 0xFFFFFFFF#64 s.hart.hs.edeleg (trunc s.cfg v)) := by
  rw [csrWrite_known (c := .hedeleg) (by decide), redirect_high (by decide), Csr.write]
  cases s.cfg.xlen
  · exact ⟨_, rfl, fun _ => rfl⟩
  · exact ⟨_, rfl, nofun⟩

theorem csrWrite_medelegh (s : State) (v : Word) : csrWrite s 0x312#12 v = { s.hart with m := { s.hart.m with
    edeleg := merge 0xFFFFFFFF00000000#64 s.hart.m.edeleg (trunc s.cfg v <<< 32) } } := by
  rw [csrWrite_known (c := .medelegh) (by decide), redirect_high (by decide), Csr.write]

theorem csrWrite_hedelegh (s : State) (v : Word) : csrWrite s 0x612#12 v = { s.hart with hs := { s.hart.hs with
    edeleg := merge 0xFFFFFFFF00000000#64 s.hart.hs.edeleg (trunc s.cfg v <<< 32) } } := by
  rw [csrWrite_known (c := .hedelegh) (by decide), redirect_high (by decide), Csr.write]

@[simp] theorem bit_delegView (w : Word) : bit (delegView w) 16 = false := by simp [delegView]

theorem bit_trunc_delegView (cfg : Config) (w : Word) : bit (trunc cfg (delegView w)) 16 = false :=
  (bit_trunc_low (by decide)).trans (bit_delegView w)

theorem csrRead_medeleg (s : State) : csrRead s 0x302#12 = trunc s.cfg (delegView s.hart.m.edeleg) := by
  rw [csrRead_known (c := .medeleg) (by decide), redirect_high (by decide), Csr.read]

theorem csrRead_hedeleg (s : State) : csrRead s 0x602#12 = trunc s.cfg (delegView s.hart.hs.edeleg) := by
  rw [csrRead_known (c := .hedeleg) (by decide), redirect_high (by decide), Csr.read]

/-- The double trap exception has no delegation bit, whatever `medeleg` stores (R37, R173). -/
theorem dest_doubleTrapCode (cfg : Config) (h : Hart) : dest cfg h false doubleTrapCode = .m := by
  have hd : delegated (delegView h.m.edeleg) doubleTrapCode = false := bit_delegView _
  simp [dest, hd]

/-- Settles O22: each clause is the equation of the write or read at its address. -/
theorem delegationOfDoubleTrap : Obligations.DelegationOfDoubleTrap := by
  intro s v h' h''
  obtain ⟨w, hw, hw32⟩ := csrWrite_medeleg s v
  obtain ⟨w', hw', hw32'⟩ := csrWrite_hedeleg s v
  have em : h' = { s.hart with m := { s.hart.m with edeleg := delegWritten w } } := hw
  have eh : h'' = { s.hart with hs := { s.hart.hs with edeleg := delegWritten w' } } := hw'
  refine ⟨?_, ?_, ?_, ?_, ?_, ?_, fun h32 => ?_, fun t hi hc => ?_⟩
  · rw [em]; exact bit_delegWritten w
  · rw [em]
  · rw [eh]; exact bit_delegWritten w'
  · rw [eh]
  · rw [csrRead_medeleg]; exact bit_trunc_delegView ..
  · rw [csrRead_hedeleg]; exact bit_trunc_delegView ..
  · rw [em, eh, hw32 h32, hw32' h32, csrWrite_medelegh, csrWrite_hedelegh]
    exact ⟨fun j hj => bit_delegWritten_high hj, fun j hj => bit_delegWritten_high hj,
      fun j hj => bit_merge_highHalf hj, rfl, fun j hj => bit_merge_highHalf hj, rfl⟩
  · rw [hi, hc]; exact dest_doubleTrapCode ..

end Sys2Proof.Machine

/-! PROOF. ScerrMasksThePlatform: when the platform acts, and by what. -/

namespace Sys2Proof.Machine

open Sys2Proof.Safety

/-- The platform acts only on an unmasked `critical-error`, by an action that it is allowed (R199, R217). -/
theorem platformReact_of_acts {s : State} {a : PlatformAction} (hm : scerr s = false) (hc : s.hart.cerr = true)
    (ha : a ∈ s.cfg.platformCerrActions) : platformReact s a = platformAct s a := by
  simp [platformReact, platformCerr, hm, hc, ha]

theorem platformReact_of_masked {s : State} {a : PlatformAction}
    (h : scerr s = true ∨ s.hart.cerr = false ∨ a ∉ s.cfg.platformCerrActions) : platformReact s a = s := by
  unfold platformReact platformCerr
  rcases h with h | h | h <;> simp [h]

/-- Settles O49: the event is the platform's reaction, which the two lemmas above decide. -/
theorem scerrMasksThePlatform : Obligations.ScerrMasksThePlatform := by
  intro s action rest he
  have hstep : step s = .next (platformReact (hartTurn s) action) := step_of_event he
  have hrest : (hartTurn s).events = rest := by rw [hartTurn_events, he]; rfl
  refine ⟨fun h => rfl, fun hmasked => ?_, fun hm hc ha => ?_⟩
  · rw [hstep, platformReact_of_masked (s := hartTurn s) hmasked]
  · rw [hstep, platformReact_of_acts (s := hartTurn s) hm hc ha, ← hrest]
    cases action <;> rfl

end Sys2Proof.Machine

/-! PROOF. ResetEstablishesTheInvariants: what a hart right after reset holds. -/

namespace Sys2Proof.Machine

open Sys2Proof.Safety

/-- Every hart of the machine right after reset is one right after its own reset (R240). -/
theorem allHarts_resetIn {P : Config → Hart → Prop} {cfg : Config} (h : ∀ g, P cfg (hartAfterReset cfg g)) :
    allHarts P (State.resetIn cfg) := by
  refine ⟨h (resetHart cfg 0 false 0#64), fun g hg => ?_⟩
  obtain ⟨k, _, rfl⟩ := List.mem_map.1 hg
  exact h (resetHart cfg (k + 1) false 0#64)

theorem hartAfterReset_pcAligned (cfg : Config) (h : Hart) : pcAligned cfg (hartAfterReset cfg h) := by
  have zero : alignPc cfg 0#64 = 0#64 := by
    apply eq_of_bits; intro j; simp [bit_alignPc]
  exact ⟨alignPc_alignPc .., zero, zero, zero, zero, zero⟩

/-- A word whose bits from 32 on are 0 unless `XLEN` is 64 is an `XLEN`-bit value. -/
theorem xlenWide_of_bits {cfg : Config} {w : Word} (h : ∀ j, cfg.xlen = .rv32 → 32 ≤ j → bit w j = false) :
    xlenWide cfg w := by
  cases hx : cfg.xlen
  · apply eq_of_bits
    intro j
    simp only [trunc, hx, bit_lowHalf]
    by_cases hj : j < 32
    · simp [hj]
    · simp [hj, h j hx (by omega)]
  · exact trunc_rv64 hx w

theorem xlenWide_resetVsstatus (cfg : Config) : xlenWide cfg (resetVsstatus cfg) := by
  refine xlenWide_of_bits fun j hx hj => ?_
  have h24 : j ≠ bitSDT := by unfold bitSDT; omega
  have hxl : resetXl cfg cfg.hasH = 0x0#2 := by simp [resetXl, hx]
  rw [resetVsstatus, bit_setBit_other _ _ _ _ h24, hxl]
  simp [bit_setField2]

theorem xlenWide_resetMnstatus (cfg : Config) : xlenWide cfg (setField2 0#64 loMNPP (resetPrevious cfg)) := by
  refine xlenWide_of_bits fun j _ hj => ?_
  rw [bit_setField2_other _ _ _ _ (by unfold loMNPP; omega), bit_zero]

theorem hartAfterReset_registersXlenWide (cfg : Config) (h : Hart) :
    registersXlenWide cfg (hartAfterReset cfg h) := by
  have zero := xlenWide_zero cfg
  refine ⟨fun r v hr => ?_, trunc_alignPc .., zero, zero, zero, trunc_trunc .., zero, zero, zero, zero, zero, zero,
    zero, xlenWide_resetVsstatus cfg, zero, zero, zero, zero, zero, zero, zero, zero, zero, zero, zero,
    xlenWide_resetMnstatus cfg, zero⟩
  have hr' : (Vector.replicate 32 0#64)[r]? = some v := hr
  obtain ⟨_, hv⟩ := Vector.getElem?_eq_some_iff.1 hr'
  rw [← hv, Vector.getElem_replicate]
  exact zero

/-- `SIE` is 0 in both status words after every reset (R54). -/
theorem hartAfterReset_sdtMasksSie (cfg : Config) (h : Hart) : sdtMasksSie cfg (hartAfterReset cfg h) := by
  obtain ⟨_, _, hsie, _⟩ := resetMstatus_bits cfg
  exact ⟨fun _ => hsie, fun _ => (resetVsstatus_bits cfg).2⟩

/-- Settles O53: every hart of a reset machine has just been reset, and its memory is empty. -/
theorem resetEstablishesTheInvariants : Obligations.ResetEstablishesTheInvariants := by
  refine ⟨fun cfg _ => ⟨allHarts_resetIn fun g => hartAfterReset_mdtMasksMie cfg g,
    allHarts_resetIn fun g => hartAfterReset_modeConsistent cfg g,
    allHarts_resetIn fun g => hartAfterReset_storedModesNamed cfg g,
    allHarts_resetIn fun g => (cerrTracksRun_of_running rfl).2 rfl,
    allHarts_resetIn fun g => hartAfterReset_readOnlyZeroHeld cfg g,
    allHarts_resetIn fun g => hartAfterReset_pcAligned cfg g,
    allHarts_resetIn fun g => hartAfterReset_registersXlenWide cfg g,
    List.Pairwise.nil, fun _ hp => absurd hp List.not_mem_nil⟩, ?_⟩
  exact allHarts_resetIn fun g => hartAfterReset_sdtMasksSie _ g

end Sys2Proof.Machine

/-! PROOF. AnycerrSeesEveryHart: the views of the DM registers bit by bit, and what each of the debugger's commands does. -/

namespace Sys2Proof.Machine

open Sys2Proof.Safety

/-! The DM registers (R48, R49). -/

theorem anycerr_iff (s : State) (ha : s.cfg.hasAnycerr = true) :
    anycerr s = true ↔ s.hart.cerr = true ∨ ∃ h ∈ s.parked, h.cerr = true := by
  simp [anycerr, ha]

theorem anycerr_of_absent {s : State} (ha : s.cfg.hasAnycerr = false) : anycerr s = false := by
  simp [anycerr, ha]

theorem bit_dmstatusView_anycerr (s : State) : bit (dmstatusView s) 25 = anycerr s :=
  bit_setBit_same _ _ _ (by decide)

theorem bit_dmstatusView_high (s : State) {j : Nat} (hj : 26 ≤ j) : bit (dmstatusView s) j = false := by
  have hmask : (0x01FFFFFF#32).getLsbD j = false := by
    rw [BitVec.getLsbD, Nat.testBit_lt_two_pow]
    exact Nat.lt_of_lt_of_le (by decide : 0x01FFFFFF < 2 ^ 26) (Nat.pow_le_pow_right (by decide) hj)
  rw [dmstatusView, bit_setBit_other _ _ _ _ (by omega), bit_setWidth64, BitVec.getLsbD_and, hmask, Bool.and_false]

/-- `dmcs2` keeps the base fields 11:0 of what is written, and `scerr` where the DM has it (R48). -/
theorem getLsbD_dmcs2Written (s : State) (v : BitVec 32) (j : Nat) :
    (dmcs2Written s v).getLsbD j = (v.getLsbD j && (decide (j < 12) || (decide (j = 12) && s.cfg.hasScerr))) := by
  have mask : ∀ n, n ≤ 32 → (BitVec.ofNat 32 (2 ^ n - 1)).getLsbD j = decide (j < n) := by
    intro n hn
    rw [BitVec.getLsbD_ofNat, Nat.testBit_two_pow_sub_one]
    by_cases hj : j < n
    · simp [hj, Nat.lt_of_lt_of_le hj hn]
    · simp [hj]
  have m13 : (0x1FFF#32).getLsbD j = decide (j < 13) := mask 13 (by decide)
  have m12 : (0xFFF#32).getLsbD j = decide (j < 12) := mask 12 (by decide)
  have h13 : decide (j < 13) = (decide (j < 12) || decide (j = 12)) := by
    rw [Bool.eq_iff_iff]; simp; omega
  unfold dmcs2Written
  cases s.cfg.hasScerr
  · simp [m12]
  · simp [m13, h13]

theorem bit_dmcs2View_scerr (s : State) : bit (dmcs2View s) 12 = scerr s := bit_setBit_same _ _ _ (by decide)

theorem bit_dmcs2View_base (s : State) {j : Nat} (hj : j < 12) : bit (dmcs2View s) j = s.dm.dmcs2.getLsbD j := by
  rw [dmcs2View, bit_setBit_other _ _ _ _ (by omega), bit_setWidth64]

/-- Bits 25:6 of `dmcontrol` are the two halves of `hartsel` (R49; assumption log 20). -/
theorem getLsbD_dmcontrolView (s : State) {k : Nat} (h6 : 6 ≤ k) (h26 : k < 26) :
    (dmcontrolView s).getLsbD k = s.dm.hartsel.getLsbD (if k < 16 then k + 4 else k - 16) := by
  have hmask : hartselMask.getLsbD k = true := by
    revert k; decide
  have e := bit_setWidth64 ((Config.dmRegisterRest s (DmRegister.number .dmcontrol) &&& ~~~hartselMask)
    ||| (0#6 ++ s.dm.hartsel.extractLsb' 0 10 ++ s.dm.hartsel.extractLsb' 10 10 ++ 0#6)) k
  rw [bit] at e
  rw [dmcontrolView, e, BitVec.getLsbD_or, BitVec.getLsbD_and, BitVec.getLsbD_not, hmask]
  show ((_ && (_ && !true)) || BitVec.getLsbD (w := 6 + 10 + 10 + 6)
    (0#6 ++ s.dm.hartsel.extractLsb' 0 10 ++ s.dm.hartsel.extractLsb' 10 10 ++ 0#6) k) = _
  simp only [BitVec.getLsbD_append]
  have h0 : ¬ k < 6 := by omega
  by_cases h16 : k < 16
  · have hlow : k - 6 < 10 := by omega
    have hsum : 10 + (k - 6) = k + 4 := by omega
    simp [h0, h16, hlow, hsum]
  · have hhigh : ¬ k - 6 < 10 := by omega
    have hlow : k - 16 < 10 := by omega
    have hsub : k - 6 - 10 = k - 16 := by omega
    simp [h0, h16, hhigh, hlow, hsub]

/-- `dmcontrol` reads `hartsel` at 25:16 and 15:6. -/
theorem hartsel_of_dmcontrolView (s : State) :
    (dmcontrolView s).extractLsb' 6 10 ++ (dmcontrolView s).extractLsb' 16 10 = s.dm.hartsel := by
  apply BitVec.eq_of_getLsbD_eq (w := 10 + 10)
  intro j hj
  rw [BitVec.getLsbD_append]
  by_cases h10 : j < 10
  · have h16 : ¬ 16 + j < 16 := by omega
    have hsub : 16 + j - 16 = j := by omega
    simp [h10, getLsbD_dmcontrolView s (k := 16 + j) (by omega) (by omega), hsub]
  · have h16 : 6 + (j - 10) < 16 := by omega
    have hlt : j - 10 < 10 := by omega
    have hsub : 6 + (j - 10) + 4 = j := by omega
    simp [h10, hlt, getLsbD_dmcontrolView s (k := 6 + (j - 10)) (by omega) (by omega), h16, hsub]

/-! The commands (R212; assumption logs 11 and 19). -/

/-- A read of a DM register puts its view in the answer register and changes nothing else (R84). -/
theorem step_of_dmRead {s : State} {n : Nat} {rest : List Event} (he : s.events = .dmRead n :: rest) :
    step s = .next (answer (hartTurn s) (dmRegisterRead (hartTurn s) n)) :=
  step_of_event he

theorem step_of_dmWrite {s : State} {n : Nat} {v : BitVec 32} {rest : List Event}
    (he : s.events = .dmWrite n v :: rest) : step s = .next (dmRegisterWrite (hartTurn s) n v) :=
  step_of_event he

/-- An abstract write of a CSR happens in Debug Mode, where the access check grants it, and only there (R127, D28). -/
theorem step_of_debugCsrWrite {s : State} {a : CsrAddr} {v : Word} {rest : List Event}
    (he : s.events = .debugCsrWrite a v :: rest) :
    (s.hart.run = .debugMode → csrAccess s.cfg s.hart a true = .granted →
        step s = .next ((hartTurn s).setHart (debuggerWrite (hartTurn s) a v)))
      ∧ (s.hart.run ≠ .debugMode ∨ csrAccess s.cfg s.hart a true ≠ .granted → step s = .next (hartTurn s)) := by
  have hstep : step s = .next (debugCsrWrite (hartTurn s) a v) := step_of_event he
  rw [hstep]
  refine ⟨fun hr ha => ?_, fun hn => ?_⟩
  · rw [debugCsrWrite, if_pos ⟨hr, ha⟩]
  · rw [debugCsrWrite, if_neg fun hg => hn.elim (· hg.1) (· hg.2)]

/-- So does an abstract read (R212). -/
theorem step_of_debugCsrRead {s : State} {a : CsrAddr} {rest : List Event} (he : s.events = .debugCsrRead a :: rest) :
    (s.hart.run = .debugMode → csrAccess s.cfg s.hart a false = .granted →
        step s = .next (answer (hartTurn s) (debuggerRead (hartTurn s) a)))
      ∧ (s.hart.run ≠ .debugMode ∨ csrAccess s.cfg s.hart a false ≠ .granted → step s = .next (hartTurn s)) := by
  have hstep : step s = .next (debugCsrRead (hartTurn s) a) := step_of_event he
  rw [hstep]
  refine ⟨fun hr ha => ?_, fun hn => ?_⟩
  · rw [debugCsrRead, if_pos ⟨hr, ha⟩]
  · rw [debugCsrRead, if_neg fun hg => hn.elim (· hg.1) (· hg.2)]

theorem step_of_debugRegWrite {s : State} {n : Nat} {v : Word} {rest : List Event}
    (he : s.events = .debugRegWrite n v :: rest) :
    step s = .next (if s.hart.run = .debugMode then (hartTurn s).onHart (writeReg s.cfg n v) else hartTurn s) :=
  step_of_event he

theorem step_of_debugRegRead {s : State} {n : Nat} {rest : List Event} (he : s.events = .debugRegRead n :: rest) :
    step s = .next (if s.hart.run = .debugMode then answer (hartTurn s) (readReg s.cfg s.hart n) else hartTurn s) :=
  step_of_event he

/-- A register write changes the integer registers only (R20). -/
theorem writeReg_frame (cfg : Config) (r : Nat) (v : Word) (h : Hart) : { writeReg cfg r v h with x := h.x } = h := by
  unfold writeReg; split <;> rfl

/-- A change of the active hart alone, said as a frame. -/
theorem hartOnly_onHart (s : State) (f : Hart → Hart) : hartOnly s (s.onHart f) :=
  ⟨rfl, rfl, rfl, rfl, rfl, fun _ => rfl⟩

/-- Away from the four trap registers of S-level, or with `V` = 0, an abstract command reaches what an instruction reaches (R127, D28; assumption log 11). -/
theorem debugger_eq_csr {s : State} {a : CsrAddr}
    (h : s.hart.virt = false ∨ a ∉ [0x105#12, 0x141#12, 0x142#12, 0x143#12]) (v : Word) :
    debuggerWrite s a v = csrWrite s a v ∧ debuggerRead s a = csrRead s a := by
  unfold debuggerWrite csrWrite csrWriteVia debuggerRead csrRead csrReadVia
  cases hc : Csr.ofAddress a with
  | none => exact ⟨rfl, rfl⟩
  | some c =>
    have hreach : c.redirectDebugger s.hart.virt = c.redirect s.hart.virt := by
      refine redirectDebugger_redirect (h.imp id fun ha hcm => ha ?_)
      rw [ofAddress_address hc]
      revert hcm
      cases c <;> decide
    simp only [hreach, and_self]

/-- An abstract command at any address but that of `sstatus` is not redirected (R212; assumption log 11). -/
theorem debuggerRead_known {s : State} {a : CsrAddr} {c : Csr} (h : Csr.ofAddress a = some c) (hc : c ≠ .sstatus) :
    debuggerRead s a = Csr.read s.cfg s.hart c := by
  unfold debuggerRead csrReadVia
  simp [h, redirectDebugger_eq, hc]

theorem debuggerWrite_known {s : State} {a : CsrAddr} {c : Csr} (h : Csr.ofAddress a = some c) (hc : c ≠ .sstatus)
    (v : Word) : debuggerWrite s a v = Csr.write s.cfg s.hart (trunc s.cfg v) c := by
  unfold debuggerWrite csrWriteVia
  simp [h, redirectDebugger_eq, hc]

/-- Settles O50: each clause is one command, and what it reads or writes is one of the views above. -/
theorem anycerrSeesEveryHart : Obligations.AnycerrSeesEveryHart := by
  intro s rest
  refine ⟨fun he ha => ?_, fun he ha => ?_, fun v he => ?_, fun v he => ?_, fun he => ?_, fun v he => ?_, fun he => ?_,
    fun a v he => step_of_debugCsrWrite he, fun a he => step_of_debugCsrRead he, fun n v hn he hr => ?_,
    fun n he hr => ?_, fun n v he hr => ?_, fun a v h => debugger_eq_csr h v,
    debuggerRead_known (c := .stvec) (by decide) (by decide), debuggerRead_known (c := .sepc) (by decide) (by decide),
    debuggerRead_known (c := .scause) (by decide) (by decide), debuggerRead_known (c := .stval) (by decide) (by decide),
    fun t a ha hb hc hi hr hl => csrReadVia_retiredCounter _ _ ha hb hc hi hr hl, fun v => ?_⟩
  · -- `dmstatus` on a DM with `anycerr`
    refine ⟨_, step_of_dmRead he, rfl, rfl, rfl, ?_, fun j hj => bit_dmstatusView_high _ hj⟩
    rw [← anycerr_iff s ha]
    exact Bool.eq_iff_iff.1 (bit_dmstatusView_anycerr (hartTurn s))
  · -- `dmstatus` on a DM without
    exact ⟨_, step_of_dmRead he, rfl, rfl, rfl,
      (bit_dmstatusView_anycerr (hartTurn s)).trans (anycerr_of_absent (s := hartTurn s) ha)⟩
  · -- a write to `dmstatus`
    rw [step_of_dmWrite he, (dmRegisterWrite_frame (hartTurn s) 0x11 v).2 rfl]
  · -- a write to `dmcs2`
    have bits := getLsbD_dmcs2Written (hartTurn s) v
    refine ⟨_, step_of_dmWrite he, rfl, rfl, rfl, ?_, fun j hj => ?_, fun j hj => ?_⟩
    · show (s.cfg.hasScerr && (dmcs2Written (hartTurn s) v).getLsbD 12) = _
      rw [bits]
      cases hs : s.cfg.hasScerr <;> simp [hs]
    · exact (bits j).trans (by simp [hj])
    · have h12 : ¬ j < 12 := by omega
      have hne : j ≠ 12 := by omega
      exact (bits j).trans (by simp [h12, hne])
  · -- a read of `dmcs2`
    exact ⟨_, step_of_dmRead he, rfl, rfl, rfl, bit_dmcs2View_scerr (hartTurn s),
      fun j hj => bit_dmcs2View_base (hartTurn s) hj⟩
  · -- a write to `dmcontrol`
    exact step_of_dmWrite he
  · -- a read of `dmcontrol`
    exact ⟨_, step_of_dmRead he, rfl, rfl, rfl, hartsel_of_dmcontrolView (hartTurn s)⟩
  · -- a write of an integer register
    refine ⟨_, (step_of_debugRegWrite he).trans (by rw [if_pos hr]), hartOnly_onHart .., writeReg_frame .., fun m => ?_⟩
    rw [State.onHart_hart, hartTurn_hart, readReg_writeReg]
    simp [hn]
  · -- a read of an integer register
    rw [step_of_debugRegRead he, if_pos hr]; rfl
  · -- neither outside Debug Mode
    rcases he with he | he
    · rw [step_of_debugRegRead he, if_neg hr]
    · rw [step_of_debugRegWrite he, if_neg hr]
  · -- the four trap registers under their own addresses
    exact ⟨debuggerWrite_known (c := .stvec) (by decide) (by decide) v,
      debuggerWrite_known (c := .sepc) (by decide) (by decide) v,
      debuggerWrite_known (c := .scause) (by decide) (by decide) v,
      debuggerWrite_known (c := .stval) (by decide) (by decide) v⟩

end Sys2Proof.Machine

/-! PROOF. AddressesAndWidthsKept: where an instruction address comes from, which status words have no bit above 31, and what each elementary change puts into the registers that hold addresses or `XLEN`-bit values. -/

namespace Sys2Proof.Machine

open Sys2Proof.Safety

/-! ### Instruction addresses (R83; assumption log 12) -/

/-- `w` is the address of an instruction: `XLEN` bits wide, and aligned. -/
def instrAddress (cfg : Config) (w : Word) : Prop := alignPc cfg w = w

theorem instrAddress_alignPc (cfg : Config) (w : Word) : instrAddress cfg (alignPc cfg w) := alignPc_alignPc cfg w

theorem instrAddress.wide {cfg : Config} {w : Word} (h : instrAddress cfg w) : xlenWide cfg w := by
  have hw := trunc_alignPc cfg w
  rwa [h] at hw

theorem instrAddress_zero (cfg : Config) : instrAddress cfg 0#64 := by
  apply eq_of_bits; intro j; simp [bit_alignPc]

/-- Alignment concerns the two low bits only. -/
theorem instrAddress_trunc_of_field2 {cfg : Config} {w w' : Word} (h : instrAddress cfg w)
    (hlow : field2 w' 0 = field2 w 0) : instrAddress cfg (trunc cfg w') := by
  obtain ⟨h0, h1⟩ := (field2_eq w' 0 _).1 hlow
  obtain ⟨e0, e1⟩ := (field2_eq w 0 _).1 rfl
  rw [← e0] at h0
  rw [← e1] at h1
  apply eq_of_bits
  intro j
  have hj := congrArg (bit · j) h
  rw [bit_alignPc, bit_trunc]
  simp only [bit_alignPc] at hj
  match j with
  | 0 =>
    have hw : bit w 0 = false := by simpa using hj.symm
    simp [h0, hw]
  | 1 =>
    cases hc : cfg.hasC
    · have hw : bit w 1 = false := by simpa [hc] using hj.symm
      simp [h1, hw]
    · simp
  | j + 2 => simp

/-- A multiple of 4 added leaves the two low bits as they are. -/
theorem field2_add_four_mul (w c : Word) : field2 (w + 4#64 * c) 0 = field2 w 0 := by
  apply BitVec.eq_of_toNat_eq
  simp only [field2, BitVec.extractLsb'_toNat, BitVec.toNat_add, BitVec.toNat_mul, BitVec.toNat_ofNat,
    Nat.shiftRight_zero]
  omega

theorem field2_clear3 (w : Word) : field2 (w &&& ~~~3#64) 0 = field2 0#64 0 := by
  rw [field2_eq, bit_and, bit_and, bit_clear3, bit_clear3]
  exact ⟨Bool.and_false _, Bool.and_false _⟩

theorem instrAddress_clear3 (cfg : Config) (w : Word) : instrAddress cfg (trunc cfg (w &&& ~~~3#64)) :=
  instrAddress_trunc_of_field2 (instrAddress_zero cfg) (field2_clear3 w)

/-- Every handler address is a multiple of 4 (R178; assumption log 9). -/
theorem instrAddress_vector (cfg : Config) (tvec : Word) (intr : Bool) (code : Word) :
    instrAddress cfg (vector cfg tvec intr code) := by
  unfold vector
  split
  · split
    · exact instrAddress_trunc_of_field2 (instrAddress_zero cfg)
        ((field2_add_four_mul _ code).trans (field2_clear3 tvec))
    · split
      · exact instrAddress_clear3 ..
      · exact instrAddress_clear3 ..
  · exact instrAddress_clear3 ..

theorem instrAddress_pcOnM (cfg : Config) (m : TrapImage) (h : Hart) : instrAddress cfg (pcOnM cfg m h) := by
  unfold pcOnM
  split
  · exact instrAddress_alignPc ..
  · exact instrAddress_vector ..

theorem instrAddress_advancePc {cfg : Config} {h : Hart} (hp : instrAddress cfg h.pc) :
    instrAddress cfg (advancePc cfg h).pc :=
  instrAddress_trunc_of_field2 hp (field2_add_four_mul h.pc 1#64)

/-! ### Words that change below bit 32 only (assumption log 2) -/

theorem bit_high_of_xlenWide {cfg : Config} {w : Word} (hw : xlenWide cfg w) {j : Nat} (hx : cfg.xlen = .rv32)
    (hj : 32 ≤ j) : bit w j = false := by
  have hlt : ¬ j < xlenBits cfg := by simp [xlenBits, hx]; omega
  rw [← hw, bit_trunc]
  simp [hlt]

theorem xlenWide_of_bitsKept {cfg : Config} {l : List Nat} {w w' : Word} (hw : xlenWide cfg w)
    (hk : bitsKept l w w') (hl : ∀ j ∈ l, j < 32) : xlenWide cfg w' := by
  refine xlenWide_of_bits fun j hx hj => ?_
  have hjl : j ∉ l := fun hm => by have := hl j hm; omega
  rw [hk j hjl]
  exact bit_high_of_xlenWide hw hx hj

theorem bitsKept_merge_maskOf (l : List Nat) (w v : Word) : bitsKept l w (merge (maskOf l) w v) :=
  fun j hj => by simp [bit_merge, bit_maskOf, hj]

theorem vsstatusOnVs_kept (cfg : Config) (h : Hart) : bitsKept [1, 5, 8, 24] h.vs.status (vsstatusOnVs cfg h) := by
  intro j hj
  simp only [List.mem_cons, List.not_mem_nil, or_false, not_or] at hj
  cases hs : ssActiveVS cfg h <;> simp [vsstatusOnVs, hs, bitSIE, bitSDT, bitSPIE, bitSPP, hj]

theorem hstatusOnHs_kept (t : TrapRequest) (h : Hart) : bitsKept [6, 7, 8] h.hs.status (hstatusOnHs t h) := by
  intro j hj
  simp only [List.mem_cons, List.not_mem_nil, or_false, not_or] at hj
  cases hv : h.virt <;> simp [hstatusOnHs, hv, bitHGVA, bitSPV, bitSPVP, hj]

theorem mnstatusOn_kept (p : Priv) (v : Bool) (w : Word) : bitsKept [3, 7, 11, 12] w (mnstatusOn p v w) := by
  intro j hj
  simp only [List.mem_cons, List.not_mem_nil, or_false, not_or] at hj
  simp [mnstatusOn, bitNMIE, bitMNPV, loMNPP, hj]

theorem VsStatusMove.wide {cfg : Config} {h : Hart} {w : Word} (m : VsStatusMove cfg h w)
    (hw : xlenWide cfg h.vs.status) : xlenWide cfg w := by
  cases m with
  | kept => exact hw
  | onVs => exact xlenWide_of_bitsKept hw (vsstatusOnVs_kept cfg h) (by decide)
  | sret =>
    obtain ⟨_, _, _, _, hk⟩ := vsstatusAfterSret_bits h
    exact xlenWide_of_bitsKept hw hk (by decide)
  | sdtCleared => exact xlenWide_of_bitsKept hw (bitsKept_setBit _ _ _) (by decide)
  | extension v => exact xlenWide_of_bitsKept hw (extension_kept _ _) (by decide)
  | vsstatus v => exact xlenWide_of_bitsKept hw (sstatusWritten_stored _ _ _).2 (by decide)

theorem NmStatusMove.wide {cfg : Config} {h : Hart} {w : Word} (m : NmStatusMove cfg h w)
    (hw : xlenWide cfg h.nm.status) : xlenWide cfg w := by
  cases m with
  | kept => exact hw
  | entered p v => exact xlenWide_of_bitsKept hw (mnstatusOn_kept p v _) (by decide)
  | mnret => exact xlenWide_of_bitsKept hw (bitsKept_setBit _ _ _) (by decide)
  | mnstatus v =>
    obtain ⟨_, _, hk⟩ := mnstatusWritten_stored cfg h.nm.status v
    exact xlenWide_of_bitsKept hw hk (by decide)

/-! ### The registers, by the level that owns them -/

/-- The M-level registers of `XLEN` bits (R37 to R39). -/
structure MWords (cfg : Config) (m : MRegs) : Prop where
  ideleg : xlenWide cfg m.ideleg
  tvec : xlenWide cfg m.tvec
  epc : instrAddress cfg m.epc
  cause : xlenWide cfg m.cause
  tval : xlenWide cfg m.tval
  tval2 : xlenWide cfg m.tval2
  tinst : xlenWide cfg m.tinst

/-- Those of S-level (R40). -/
structure SWords (cfg : Config) (s : SRegs) : Prop where
  tvec : xlenWide cfg s.tvec
  epc : instrAddress cfg s.epc
  cause : xlenWide cfg s.cause
  tval : xlenWide cfg s.tval

/-- Those of VS-level but `vsstatus` (R40). -/
structure VsWords (cfg : Config) (vs : VsRegs) : Prop where
  tvec : xlenWide cfg vs.tvec
  epc : instrAddress cfg vs.epc
  cause : xlenWide cfg vs.cause
  tval : xlenWide cfg vs.tval

/-- Those of the hypervisor (R40, R43). -/
structure HsWords (cfg : Config) (hs : HsRegs) : Prop where
  status : xlenWide cfg hs.status
  ideleg : xlenWide cfg hs.ideleg
  tval : xlenWide cfg hs.tval
  tinst : xlenWide cfg hs.tinst

/-- Those of Smrnmi but `mnstatus` (R44). -/
structure NmWords (cfg : Config) (nm : NmRegs) : Prop where
  scratch : xlenWide cfg nm.scratch
  epc : instrAddress cfg nm.epc
  cause : xlenWide cfg nm.cause

/-- The registers of a hart that an address or an `XLEN`-bit value is put into. -/
structure HartWords (cfg : Config) (h : Hart) : Prop where
  x : ∀ (r : Nat) (v : Word), h.x[r]? = some v → xlenWide cfg v
  pc : instrAddress cfg h.pc
  m : MWords cfg h.m
  s : SWords cfg h.s
  vs : VsWords cfg h.vs
  hs : HsWords cfg h.hs
  nm : NmWords cfg h.nm
  dpc : instrAddress cfg h.dbg.dpc

/-- And with them the two status words, which change bit by bit. -/
structure AddressesAndWidths (cfg : Config) (h : Hart) : Prop extends HartWords cfg h where
  vsstatus : xlenWide cfg h.vs.status
  mnstatus : xlenWide cfg h.nm.status

/-- The two premises of the statement, in one structure. -/
theorem addressesAndWidths_iff (cfg : Config) (h : Hart) :
    AddressesAndWidths cfg h ↔ pcAligned cfg h ∧ registersXlenWide cfg h := by
  constructor
  · intro a
    exact ⟨⟨a.pc, a.m.epc, a.s.epc, a.vs.epc, a.nm.epc, a.dpc⟩,
      a.x, a.pc.wide, a.m.ideleg, a.m.tvec, a.m.epc.wide, a.m.cause, a.m.tval, a.m.tval2, a.m.tinst,
      a.s.tvec, a.s.epc.wide, a.s.cause, a.s.tval, a.vsstatus, a.vs.tvec, a.vs.epc.wide, a.vs.cause, a.vs.tval,
      a.hs.status, a.hs.ideleg, a.hs.tval, a.hs.tinst, a.nm.scratch, a.nm.epc.wide, a.nm.cause, a.mnstatus,
      a.dpc.wide⟩
  · rintro ⟨⟨hpc, hmepc, hsepc, hvsepc, hmnepc, hdpc⟩,
      hx, _, hmideleg, hmtvec, _, hmcause, hmtval, hmtval2, hmtinst, hstvec, _, hscause, hstval,
      hvsstatus, hvstvec, _, hvscause, hvstval, hhstatus, hhideleg, hhtval, hhtinst,
      hmnscratch, _, hmncause, hmnstatus, _⟩
    exact {
      x := hx, pc := hpc, dpc := hdpc, vsstatus := hvsstatus, mnstatus := hmnstatus
      m := ⟨hmideleg, hmtvec, hmepc, hmcause, hmtval, hmtval2, hmtinst⟩
      s := ⟨hstvec, hsepc, hscause, hstval⟩
      vs := ⟨hvstvec, hvsepc, hvscause, hvstval⟩
      hs := ⟨hhstatus, hhideleg, hhtval, hhtinst⟩
      nm := ⟨hmnscratch, hmnepc, hmncause⟩ }

/-! ### Traps (R171 to R194) -/

/-- What a trap into M-mode writes is an instruction address and `XLEN`-bit values. -/
structure ImageOk (cfg : Config) (m : TrapImage) : Prop where
  epc : instrAddress cfg m.epc
  cause : xlenWide cfg m.cause
  tval : xlenWide cfg m.tval
  tval2 : xlenWide cfg m.tval2
  tinst : xlenWide cfg m.tinst

theorem RequestOk.instrAddress_epc {cfg : Config} {t : TrapRequest} {h : Hart} (ht : RequestOk cfg t h)
    (hp : instrAddress cfg h.pc) : instrAddress cfg t.epc := by
  rw [ht.1]; exact hp

theorem xlenWide_mcauseOf (cfg : Config) (intr : Bool) (code : Word) : xlenWide cfg (mcauseOf cfg intr code) :=
  trunc_trunc ..

theorem img_ok {cfg : Config} {t : TrapRequest} {h : Hart} (ht : RequestOk cfg t h) (hp : instrAddress cfg h.pc) :
    ImageOk cfg (img cfg t) := by
  have hepc := ht.instrAddress_epc hp
  obtain ⟨_, _, htval, htval2, htinst⟩ := ht
  exact ⟨hepc, xlenWide_mcauseOf .., htval, htval2, htinst⟩

theorem dbl_ok {cfg : Config} {t : TrapRequest} {h : Hart} (ht : RequestOk cfg t h) (hp : instrAddress cfg h.pc) :
    ImageOk cfg (dbl cfg t) := by
  have hepc := ht.instrAddress_epc hp
  obtain ⟨_, _, htval, _, htinst⟩ := ht
  exact ⟨hepc, xlenWide_of_lt (w := doubleTrapCode) (by decide), htval, xlenWide_mcauseOf .., htinst⟩

theorem deliverM_words {cfg : Config} {m : TrapImage} {h : Hart} (hm : ImageOk cfg m) (w : HartWords cfg h) :
    HartWords cfg (deliverM cfg m h) := by
  have htval2 : xlenWide cfg (if hasMtval2 cfg then m.tval2 else h.m.tval2) := by
    split
    exacts [hm.tval2, w.m.tval2]
  have htinst : xlenWide cfg (if cfg.hasH then m.tinst else h.m.tinst) := by
    split
    exacts [hm.tinst, w.m.tinst]
  exact { w with
    pc := instrAddress_pcOnM cfg m h
    m := { w.m with epc := hm.epc, cause := hm.cause, tval := hm.tval, tval2 := htval2, tinst := htinst } }

theorem takeTrapM_words {cfg : Config} {m : TrapImage} {h : Hart} (hm : ImageOk cfg m) (w : HartWords cfg h) :
    HartWords cfg (takeTrapM cfg m h) := by
  rcases takeTrapM_cases cfg m h with ⟨_, e⟩ | ⟨_, _, _, e⟩ | ⟨_, _, e⟩ <;> rw [e]
  · exact deliverM_words hm w
  · exact { w with pc := instrAddress_alignPc .., nm := { w.nm with epc := hm.epc, cause := hm.cause } }
  · exact { w with }

theorem deliverHs_words {cfg : Config} {t : TrapRequest} {h : Hart} (ht : RequestOk cfg t h) (w : HartWords cfg h) :
    HartWords cfg (deliverHs cfg t h) := by
  have hepc := ht.instrAddress_epc w.pc
  obtain ⟨_, _, htval, htval2, htinst⟩ := ht
  have hhs : HsWords cfg (deliverHs cfg t h).hs := by
    rw [deliverHs_hs]
    split
    · exact { w.hs with
        tval := htval2, tinst := htinst
        status := xlenWide_of_bitsKept w.hs.status (hstatusOnHs_kept t h) (by decide) }
    · exact w.hs
  exact { w with
    pc := instrAddress_vector .., m := { w.m with }, hs := hhs
    s := { w.s with epc := hepc, cause := xlenWide_mcauseOf .., tval := htval } }

theorem deliverVs_words {cfg : Config} {t : TrapRequest} {h : Hart} (ht : RequestOk cfg t h) (w : HartWords cfg h) :
    HartWords cfg (deliverVs cfg t h) := by
  have hepc := ht.instrAddress_epc w.pc
  obtain ⟨_, _, htval, _⟩ := ht
  exact { w with
    pc := instrAddress_vector ..
    vs := { w.vs with epc := hepc, cause := xlenWide_mcauseOf .., tval := htval } }

theorem takeTrap_words {cfg : Config} {t : TrapRequest} {h : Hart} (ht : RequestOk cfg t h) (w : HartWords cfg h) :
    HartWords cfg (takeTrap cfg t h) := by
  rcases takeTrap_cases cfg t h with ⟨_, _, e⟩ | ⟨_, _, e⟩ | ⟨_, e⟩ | ⟨_, e⟩ <;> rw [e]
  · exact deliverVs_words ht w
  · exact deliverHs_words ht w
  · exact takeTrapM_words (img_ok ht w.pc) w
  · exact takeTrapM_words (dbl_ok ht w.pc) w

theorem xlenWide_nmiCause (cfg : Config) (c : Word) : xlenWide cfg (nmiCause cfg c) := by
  unfold nmiCause
  split
  · exact xlenWide_zero cfg
  · exact trunc_trunc ..

theorem takeNmi_words {cfg : Config} {h : Hart} (c : Word) (w : HartWords cfg h) :
    HartWords cfg (takeNmi cfg c h) := by
  rcases takeNmi_cases cfg c h with e | ⟨_, e⟩ | e <;> rw [e]
  · exact w
  · exact { w with }
  · exact { w with
      pc := instrAddress_alignPc .., m := { w.m with epc := w.pc, cause := xlenWide_nmiCause cfg c } }

theorem takeRnmi_words {cfg : Config} {h : Hart} (c : Word) (w : HartWords cfg h) :
    HartWords cfg (takeRnmi cfg c h) := by
  rcases takeRnmi_cases cfg c h with e | ⟨_, e⟩ <;> rw [e]
  · exact w
  · exact { w with
      pc := instrAddress_alignPc .., nm := { w.nm with epc := w.pc, cause := trunc_trunc .. } }

/-! ### Register and CSR writes, returns (R127 to R137, R150 to R153) -/

theorem writeReg_words {cfg : Config} {h : Hart} (r : Nat) (v : Word) (w : HartWords cfg h) :
    HartWords cfg (writeReg cfg r v h) := by
  unfold writeReg
  split
  · exact w
  · refine { w with x := fun q u hq => ?_ }
    rw [Vector.getElem?_setIfInBounds] at hq
    split at hq
    · split at hq
      · cases hq; exact trunc_trunc ..
      · cases hq
    · exact w.x q u hq

/-- An explicit write puts its `XLEN`-bit value, or the address it makes, into one register; or it changes bits of a 64-bit or a status word. -/
theorem Csr.write_words {cfg : Config} {h : Hart} {v : Word} (hv : xlenWide cfg v) (c : Csr) (w : HartWords cfg h) :
    HartWords cfg (Csr.write cfg h v c) := by
  have addr : instrAddress cfg (alignPc cfg v) := instrAddress_alignPc cfg v
  have menvcfg : ∀ mask u, HartWords cfg (writeMenvcfgDte cfg mask u h) := fun mask u => by
    rw [writeMenvcfgDte_frame]
    exact { w with m := { w.m with }, hs := { w.hs with }, vs := { w.vs with } }
  have henvcfg : ∀ mask u, HartWords cfg (writeHenvcfgDte cfg mask u h) := fun mask u => by
    rw [writeHenvcfgDte_frame]
    exact { w with hs := { w.hs with }, vs := { w.vs with } }
  cases c with
  | stvec => exact { w with s := { w.s with tvec := hv } }
  | sepc => exact { w with s := { w.s with epc := addr } }
  | scause => exact { w with s := { w.s with cause := hv } }
  | stval => exact { w with s := { w.s with tval := hv } }
  | vsstatus => exact { w with vs := { w.vs with } }
  | vstvec => exact { w with vs := { w.vs with tvec := hv } }
  | vsepc => exact { w with vs := { w.vs with epc := addr } }
  | vscause => exact { w with vs := { w.vs with cause := hv } }
  | vstval => exact { w with vs := { w.vs with tval := hv } }
  | sstatus | mstatush | medelegh => exact { w with m := { w.m with } }
  | mstatus | medeleg => unfold Csr.write; cases cfg.xlen <;> exact { w with m := { w.m with } }
  | mideleg => exact { w with m := { w.m with ideleg := hv } }
  | mtvec => exact { w with m := { w.m with tvec := hv } }
  | mepc => exact { w with m := { w.m with epc := addr } }
  | mcause => exact { w with m := { w.m with cause := hv } }
  | mtval => exact { w with m := { w.m with tval := hv } }
  | mtinst => exact { w with m := { w.m with tinst := hv } }
  | mtval2 => exact { w with m := { w.m with tval2 := hv } }
  | menvcfg =>
    unfold Csr.write
    cases cfg.xlen
    · exact { w with m := { w.m with } }
    · exact menvcfg ..
  | menvcfgh => exact menvcfg ..
  | mnscratch => exact { w with nm := { w.nm with scratch := hv } }
  | mnepc => exact { w with nm := { w.nm with epc := addr } }
  | mncause => exact { w with nm := { w.nm with cause := hv } }
  | mnstatus => exact { w with nm := { w.nm with } }
  | dcsr => exact { w with }
  | dpc => exact { w with dpc := addr }
  | hstatus =>
    exact { w with hs := { w.hs with
      status := xlenWide_of_bitsKept w.hs.status (bitsKept_merge_maskOf hstatusPlain _ v) (by decide) } }
  | hedeleg => unfold Csr.write; cases cfg.xlen <;> exact { w with hs := { w.hs with } }
  | hedelegh => exact { w with hs := { w.hs with } }
  | hideleg => exact { w with hs := { w.hs with ideleg := hv } }
  | htval => exact { w with hs := { w.hs with tval := hv } }
  | htinst => exact { w with hs := { w.hs with tinst := hv } }
  | henvcfg =>
    unfold Csr.write
    cases cfg.xlen
    · exact { w with hs := { w.hs with } }
    · exact henvcfg ..
  | henvcfgh => exact henvcfg ..

theorem returnHs_words {cfg : Config} {h : Hart} (w : HartWords cfg h) : HartWords cfg (returnHs cfg h) := by
  have hhs : HsWords cfg (returnHs cfg h).hs := by
    rw [returnHs_hs]
    split
    · exact { w.hs with status := xlenWide_of_bitsKept w.hs.status (bitsKept_setBit _ _ _) (by decide) }
    · exact w.hs
  exact { w with pc := w.s.epc, m := { w.m with }, hs := hhs }

theorem resume_words {cfg : Config} {h : Hart} (w : HartWords cfg h) : HartWords cfg (resume cfg h) := by
  have hpc : instrAddress cfg (resume cfg h).pc := (resume_resumed cfg h).1 ▸ w.dpc
  have hm : MWords cfg (resume cfg h).m := by
    rcases resume_m_cases cfg h with e | e <;> rw [e]
    · exact w.m
    · exact { w.m with }
  rw [resume_frame]
  exact { w with pc := hpc, m := hm }

/-! ### Every elementary change -/

theorem HartOp.words {cfg : Config} {h h' : Hart} (o : HartOp cfg h h') (w : HartWords cfg h) : HartWords cfg h' := by
  cases o with
  | trap _ ht => exact takeTrap_words ht w
  | reg => exact writeReg_words _ _ w
  | jump => exact { w with pc := instrAddress_alignPc .. }
  | advance => exact { w with pc := instrAddress_advancePc w.pc }
  | csr hv => exact Csr.write_words hv _ w
  | extension => exact { w with m := { w.m with }, vs := { w.vs with } }
  | mret => exact { w with pc := w.m.epc, m := { w.m with } }
  | sretHs => exact returnHs_words w
  | sretVs => exact { w with pc := w.vs.epc, vs := { w.vs with } }
  | mnret => exact { w with pc := w.nm.epc, nm := { w.nm with }, m := { w.m with } }
  | resume => exact resume_words w
  | halt | haltCritical => exact { w with dpc := w.pc }
  | rnmi => exact takeRnmi_words _ w
  | nmi => exact takeNmi_words _ w
  | retire | base | irq | haltreq => exact { w with }

theorem HartOp.keeps_addressesAndWidths {cfg : Config} {h h' : Hart} (o : HartOp cfg h h')
    (a : AddressesAndWidths cfg h) : AddressesAndWidths cfg h' :=
  { o.words a.toHartWords with
    vsstatus := o.vsStatusMove.wide a.vsstatus
    mnstatus := o.nmStatusMove.wide a.mnstatus }

theorem hartAfterReset_addressesAndWidths (cfg : Config) (h : Hart) :
    AddressesAndWidths cfg (hartAfterReset cfg h) :=
  (addressesAndWidths_iff ..).2 ⟨hartAfterReset_pcAligned cfg h, hartAfterReset_registersXlenWide cfg h⟩

/-- Settles O59: every elementary change of a hart keeps addresses and widths together (a return takes `pc` from a register that holds an address, a trap saves `pc` in one), and a reset establishes them. -/
theorem addressesAndWidthsKept : Obligations.AddressesAndWidthsKept := by
  intro s t hpc hwide ht
  have hs : allHarts AddressesAndWidths s :=
    ⟨(addressesAndWidths_iff ..).2 ⟨hpc.1, hwide.1⟩,
      fun g hg => (addressesAndWidths_iff ..).2 ⟨hpc.2 g hg, hwide.2 g hg⟩⟩
  have hkept := step_keeps (fun _ _ _ => HartOp.keeps_addressesAndWidths) hartAfterReset_addressesAndWidths hs ht
  exact ⟨allHarts_imp hkept fun g ha => ((addressesAndWidths_iff _ g).1 ha).1,
    allHarts_imp hkept fun g ha => ((addressesAndWidths_iff _ g).1 ha).2⟩

end Sys2Proof.Machine

/-! PROOF. TableInstructionsTouchOnlyTheHart: an instruction raises an exception or has its effect, and only the effect counts as retired. -/

namespace Sys2Proof.Machine

open Sys2Proof.Safety

/-- No instruction changes the identifier of its hart or an input line of it (R20, R25, R203). -/
structure InputsKept (h h' : Hart) : Prop where
  hartId : h'.hartId = h.hartId
  haltreq : h'.haltreq = h.haltreq
  irq : h'.irq = h.irq

/-- And one that is no CSR instruction no register but those of a trap or a return (R20, R150 to R154). -/
structure TrapStateOnly (h h' : Hart) : Prop extends InputsKept h h' where
  x : h'.x = h.x
  dbg : h'.dbg = h.dbg
  baseCsrs : h'.baseCsrs = h.baseCsrs

/-- An exception or interrupt touches no register but those of a trap, and retires nothing (R170, R221). -/
theorem raise_trapStateOnly (cfg : Config) (t : TrapRequest) (h : Hart) :
    TrapStateOnly h (raise cfg t h) ∧ (raise cfg t h).retired = h.retired := by
  by_cases hr : h.run = .running
  · obtain ⟨hx, hdbg, hirq, hhalt, hid, hbase, hret⟩ := takeTrap_frame cfg t h
    rw [raise_of_running cfg t hr]
    exact ⟨⟨⟨hid, hhalt, hirq⟩, hx, hdbg, hbase⟩, hret⟩
  · rw [raise_of_not_running cfg t hr]
    exact ⟨⟨⟨rfl, rfl, rfl⟩, rfl, rfl, rfl⟩, rfl⟩

/-- A resume touches no register but `pc` and those of the mode, and counts nothing (R214, R215). -/
theorem resume_trapStateOnly (cfg : Config) (h : Hart) :
    TrapStateOnly h (resume cfg h) ∧ (resume cfg h).retired = h.retired := by
  rw [resume_frame]
  exact ⟨⟨⟨rfl, rfl, rfl⟩, rfl, rfl, rfl⟩, rfl⟩

/-- What the statement says of the hart `h'` that instruction `i` leaves. -/
structure TouchesOnlyTheHart (i : Instr) (s : State) (h' : Hart) : Prop extends InputsKept s.hart h' where
  trapState : isCsrInstr i = false → TrapStateOnly s.hart h'
  retired : h'.retired = s.hart.retired + if completes i s then 1 else 0

/-- An exception in place of the effect (R108, R138). -/
theorem touchesOnlyTheHart_raise {i : Instr} {s : State} (hc : completes i s = false) (t : TrapRequest) :
    TouchesOnlyTheHart i s (raise s.cfg t s.hart) := by
  obtain ⟨hkept, hret⟩ := raise_trapStateOnly s.cfg t s.hart
  exact { hkept with trapState := fun _ => hkept, retired := by simp [hret, hc] }

/-- The effect of an instruction that is no CSR instruction. -/
theorem touchesOnlyTheHart_retire {i : Instr} {s : State} {h : Hart} (hc : completes i s = true)
    (hk : TrapStateOnly s.hart h) (hr : h.retired = s.hart.retired) : TouchesOnlyTheHart i s (retire h) :=
  { hk with trapState := fun _ => { hk with }, retired := by simp [hr, hc] }

/-- The effect of a granted CSR instruction (R120 to R125). -/
theorem touchesOnlyTheHart_csr {i : Instr} {s : State} {h : Hart} (hi : isCsrInstr i = true) (hc : completes i s = true)
    (hk : csrsOnly s.hart h) (rd : Nat) (v : Word) :
    TouchesOnlyTheHart i s (retire (advancePc s.cfg (writeReg s.cfg rd v h))) := by
  obtain ⟨hid, _, _, _, _, _, _, hhalt, hirq, hret⟩ := hk
  exact {
    hartId := by simp [hid]
    haltreq := by simp [hhalt]
    irq := by simp [hirq]
    trapState := fun hn => absurd (hi.symm.trans hn) (by decide)
    retired := by simp [hret, hc] }

/-- A CSR instruction has its effect exactly if the access check grants it (R138). -/
theorem csrInstr_touches {i : Instr} {rd : Nat} {a : CsrAddr} {form : CsrForm} {field : Nat} {m : Word} {s : State}
    (hi : isCsrInstr i = true)
    (hc : completes i s = (csrAccess s.cfg s.hart a (csrWrites form field) == .granted)) :
    ∃ h', csrInstr i rd a form field m s = s.setHart h' ∧ TouchesOnlyTheHart i s h' := by
  rcases csrInstr_cases i rd a form field m s with ⟨ha, e⟩ | ⟨ha, e⟩ | ⟨ha, e⟩ <;> rw [ha] at hc <;> rw [e]
  · exact ⟨_, rfl, touchesOnlyTheHart_raise hc _⟩
  · exact ⟨_, rfl, touchesOnlyTheHart_raise hc _⟩
  · refine ⟨_, rfl, touchesOnlyTheHart_csr hi hc ?_ rd _⟩
    split
    · exact csrWrite_csrsOnly ..
    · exact ⟨rfl, rfl, rfl, rfl, rfl, rfl, rfl, rfl, rfl, rfl⟩

/-- When `SRET` has its effect: above U-mode, and where neither `TSR` nor `VTSR` turns it away (R151). -/
theorem completes_sret_iff (s : State) :
    completes .sret s = true ↔ s.hart.priv ≠ .u ∧ ¬(s.hart.priv = .s ∧ s.hart.virt = false ∧ tsr s.hart = true)
      ∧ ¬(s.hart.virt = true ∧ vtsr s.hart = true) := by
  simp only [completes, Bool.and_eq_true, Bool.not_eq_true', bne_iff_ne, ← Bool.not_eq_true, beq_iff_eq, and_assoc]

theorem execSret_touches (s : State) :
    ∃ h', execSret s = .next (s.setHart h') ∧ TouchesOnlyTheHart .sret s h' := by
  have raises : ¬completes .sret s = true → ∀ t, TouchesOnlyTheHart .sret s (raise s.cfg t s.hart) :=
    fun hc t => touchesOnlyTheHart_raise (Bool.eq_false_iff.2 hc) t
  rw [completes_sret_iff] at raises
  unfold execSret
  split
  · exact ⟨_, rfl, raises (fun hc => hc.1 ‹_›) _⟩
  · split
    · exact ⟨_, rfl, raises (fun hc => hc.2.1 ‹_›) _⟩
    · split
      · exact ⟨_, rfl, raises (fun hc => hc.2.2 ‹_›) _⟩
      · have hc : completes .sret s = true := (completes_sret_iff s).2 ⟨‹_›, ‹_›, ‹_›⟩
        split
        · exact ⟨_, rfl, touchesOnlyTheHart_retire hc ⟨⟨rfl, rfl, rfl⟩, rfl, rfl, rfl⟩ rfl⟩
        · exact ⟨_, rfl, touchesOnlyTheHart_retire hc ⟨⟨rfl, rfl, rfl⟩, rfl, rfl, rfl⟩ rfl⟩

theorem execMret_touches (s : State) :
    ∃ h', execMret s = .next (s.setHart h') ∧ TouchesOnlyTheHart .mret s h' := by
  unfold execMret
  split
  · rename_i hcond
    have hc : completes .mret s = true := by simp [completes, hcond]
    exact ⟨_, rfl, touchesOnlyTheHart_retire hc ⟨⟨rfl, rfl, rfl⟩, rfl, rfl, rfl⟩ rfl⟩
  · rename_i hcond
    have hc : completes .mret s = false := by simp [completes, hcond]
    exact ⟨_, rfl, touchesOnlyTheHart_raise hc _⟩

theorem execMnret_touches (s : State) :
    ∃ h', execMnret s = .next (s.setHart h') ∧ TouchesOnlyTheHart .mnret s h' := by
  unfold execMnret
  split
  · rename_i hcond
    have hc : completes .mnret s = true := by simp [completes, hcond]
    exact ⟨_, rfl, touchesOnlyTheHart_retire hc ⟨⟨rfl, rfl, rfl⟩, rfl, rfl, rfl⟩ rfl⟩
  · rename_i hcond
    have hc : completes .mnret s = false := by simpa [completes] using hcond
    exact ⟨_, rfl, touchesOnlyTheHart_raise hc _⟩

theorem execDret_touches (s : State) :
    ∃ h', execDret s = .next (s.setHart h') ∧ TouchesOnlyTheHart .dret s h' := by
  unfold execDret
  split
  · rename_i hcond
    have hc : completes .dret s = true := by simp [completes, hcond]
    obtain ⟨hk, hr⟩ := resume_trapStateOnly s.cfg s.hart
    exact ⟨_, rfl, touchesOnlyTheHart_retire hc hk hr⟩
  · rename_i hcond
    have hc : completes .dret s = false := by simp [completes, hcond]
    exact ⟨_, rfl, touchesOnlyTheHart_raise hc _⟩

theorem exec_touches (i : Instr) (s : State) :
    ∃ h', exec i s = .next (s.setHart h') ∧ TouchesOnlyTheHart i s h' := by
  have csr : ∀ {rd a form field m}, isCsrInstr i = true →
      completes i s = (csrAccess s.cfg s.hart a (csrWrites form field) == .granted) →
      ∃ h', (Host.Outcome.next (csrInstr i rd a form field m s) : Host.Outcome State Fault Refusal)
        = .next (s.setHart h') ∧ TouchesOnlyTheHart i s h' := fun hi hc => by
    obtain ⟨h', e, ht⟩ := csrInstr_touches hi hc
    exact ⟨h', congrArg _ e, ht⟩
  cases i with
  | csrrw | csrrs | csrrc | csrrwi | csrrsi | csrrci => exact csr rfl rfl
  | ecall => exact ⟨_, rfl, touchesOnlyTheHart_raise rfl _⟩
  | sret => exact execSret_touches s
  | mret => exact execMret_touches s
  | mnret => exact execMnret_touches s
  | dret => exact execDret_touches s

/-- Settles O40: whatever an instruction does, it answers the state with another active hart, and that hart is one that `TouchesOnlyTheHart` describes. -/
theorem tableInstructionsTouchOnlyTheHart : Obligations.TableInstructionsTouchOnlyTheHart := by
  intro i s
  obtain ⟨h', e, ht⟩ := exec_touches i s
  refine ⟨_, e, hartOnly_onHart s fun _ => h', ht.hartId, ht.haltreq, ht.irq, fun hi => ?_, ht.retired⟩
  have hkept := ht.trapState hi
  exact ⟨hkept.x, hkept.dbg, hkept.baseCsrs⟩

end Sys2Proof.Machine

/-! PROOF. DecodeEncode, EncodeDecode, CsrWordsDecode, PrivilegedWordsDecode, WorkedEncodings: the words of the table by their fields, and `decodeWord` and `encode` as inverses of each other on them. -/

namespace Sys2Proof

/-! ### The fields of a word (R102, R105) -/

/-- Bits 1:0 of a word are those of its major opcode. -/
theorem extractLsb'_fieldOpcode_low (w : BitVec 32) : (fieldOpcode w).extractLsb' 0 2 = w.extractLsb' 0 2 := by
  apply BitVec.eq_of_getLsbD_eq
  intro j hj
  simp [fieldOpcode]

theorem fieldRd_lt (w : BitVec 32) : fieldRd w < 32 := (w.extractLsb' 7 5).isLt

theorem fieldRs1_lt (w : BitVec 32) : fieldRs1 w < 32 := (w.extractLsb' 15 5).isLt

/-- A SYSTEM word is made of its fields: no bit of it lies outside them. -/
theorem encodeFields_fields {w : BitVec 32} (ho : fieldOpcode w = opSystem) :
    encodeFields (fieldCsr w) (fieldRs1 w) (fieldFunct3 w) (fieldRd w) = w := by
  apply BitVec.eq_of_getLsbD_eq
  intro j hj
  rw [getLsbD_encodeFields, ← ho]
  simp only [fieldOpcode, fieldRd, fieldFunct3, fieldRs1, fieldCsr, BitVec.ofNat_toNat, BitVec.setWidth_eq,
    BitVec.getLsbD_extractLsb']
  split_ifs with h0 h1 h2 h3
  · simp [h0]
  · have : 7 + (j - 7) = j := by omega
    simp [h1, this]
  · have : 12 + (j - 7 - 5) = j := by omega
    simp [h2, this]
  · have : 15 + (j - 7 - 5 - 3) = j := by omega
    simp [h3, this]
  · have : 20 + (j - 7 - 5 - 3 - 5) = j := by omega
    have h4 : j - 7 - 5 - 3 - 5 < 12 := by omega
    simp [h4, this]

/-- The bits of R103's mask: those of the major opcode and of `funct3`. -/
theorem getLsbD_opcodeFunct3Mask (j : Nat) (hj : j < 32) :
    (0x0000707F#32).getLsbD j = (decide (j < 7) || (decide (12 ≤ j) && decide (j < 15))) := by
  revert j
  decide

/-- The mask of R103 leaves the major opcode and `funct3` as they are. -/
theorem fieldOpcode_and_mask (w : BitVec 32) : fieldOpcode (w &&& 0x0000707F#32) = fieldOpcode w := by
  apply BitVec.eq_of_getLsbD_eq
  intro j hj
  have hm := getLsbD_opcodeFunct3Mask j (by omega)
  simp [fieldOpcode, hj, hm]

theorem fieldFunct3_and_mask (w : BitVec 32) : fieldFunct3 (w &&& 0x0000707F#32) = fieldFunct3 w := by
  apply BitVec.eq_of_getLsbD_eq
  intro j hj
  have hm := getLsbD_opcodeFunct3Mask (12 + j) (by omega)
  have h15 : 12 + j < 15 := by omega
  simp [fieldFunct3, hj, hm, h15]

/-- R103's match and mask: a word under the mask is the word with its `funct3` and no operand exactly if it is a SYSTEM word. -/
theorem and_mask_eq_iff (w : BitVec 32) (f : BitVec 3) :
    w &&& 0x0000707F#32 = encodeFields 0#12 0 f 0 ↔ fieldOpcode w = opSystem ∧ fieldFunct3 w = f := by
  constructor
  · intro h
    rw [← fieldOpcode_and_mask, ← fieldFunct3_and_mask, h]
    exact ⟨fieldOpcode_encodeFields .., fieldFunct3_encodeFields ..⟩
  · rintro ⟨ho, rfl⟩
    apply BitVec.eq_of_getLsbD_eq
    intro j hj
    rw [BitVec.getLsbD_and, getLsbD_opcodeFunct3Mask j hj]
    conv_lhs => rw [← encodeFields_fields ho]
    rw [getLsbD_encodeFields, getLsbD_encodeFields]
    split_ifs with h0 h1 h2 h3
    · simp [h0]
    · have : ¬ 12 ≤ j := by omega
      simp [h0, this]
    · have : 12 ≤ j ∧ j < 15 := by omega
      simp [this]
    · have : ¬ j < 15 := by omega
      simp [h0, this]
    · have : ¬ j < 15 := by omega
      simp [h0, this]

/-! ### The table (R103, R104) -/

/-- The six rows of R103: `funct3`, and the instruction it makes of `rd`, `csr` and the operand field at 19:15. -/
inductive CsrRow : BitVec 3 → (Nat → CsrAddr → Nat → Instr) → Prop where
  | csrrw : CsrRow 0x1#3 .csrrw
  | csrrs : CsrRow 0x2#3 .csrrs
  | csrrc : CsrRow 0x3#3 .csrrc
  | csrrwi : CsrRow 0x5#3 .csrrwi
  | csrrsi : CsrRow 0x6#3 .csrrsi
  | csrrci : CsrRow 0x7#3 .csrrci

/-- The five rows of R104: the whole word and its instruction. -/
def privilegedRows : List (BitVec 32 × Instr) :=
  [(wordEcall, .ecall), (wordSret, .sret), (wordMret, .mret), (wordMnret, .mnret), (wordDret, .dret)]

theorem CsrRow.encode_eq {f : BitVec 3} {mk : Nat → CsrAddr → Nat → Instr} (r : CsrRow f mk) (rd : Nat)
    (csr : CsrAddr) (rs1 : Nat) : encode (mk rd csr rs1) = encodeFields csr rs1 f rd := by
  cases r <;> rfl

theorem CsrRow.wellFormed_iff {f : BitVec 3} {mk : Nat → CsrAddr → Nat → Instr} (r : CsrRow f mk) (rd : Nat)
    (csr : CsrAddr) (rs1 : Nat) : (mk rd csr rs1).wellFormed = true ↔ rd < 32 ∧ rs1 < 32 := by
  cases r <;> simp [Instr.wellFormed, fitsFive]

/-- A SYSTEM word with the row's `funct3` decodes to the row's instruction, with the operands in its fields (R103). -/
theorem CsrRow.decodeWord_eq {f : BitVec 3} {mk : Nat → CsrAddr → Nat → Instr} (r : CsrRow f mk) {w : BitVec 32}
    (ho : fieldOpcode w = opSystem) (hf : fieldFunct3 w = f) :
    decodeWord w = .ok (mk (fieldRd w) (fieldCsr w) (fieldRs1 w)) := by
  have hlow : w.extractLsb' 0 2 = 0x3#2 := by rw [← extractLsb'_fieldOpcode_low, ho]; decide
  cases r <;> simp [decodeWord, hlow, ho, hf]

/-- The decoder answers the row's instruction for each of the five words, and the encoder the word (R104). -/
theorem privilegedRows_decode_encode :
    ∀ p ∈ privilegedRows, decodeWord p.1 = .ok p.2 ∧ encode p.2 = p.1 ∧ p.2.wellFormed = true := by decide

theorem privilegedRows_fields : ∀ p ∈ privilegedRows, fieldOpcode p.1 = opSystem ∧ fieldFunct3 p.1 = 0x0#3 := by decide

theorem mem_privilegedRows_of_decodePrivileged {w : BitVec 32} {i : Instr} (h : decodePrivileged w = .ok i) :
    (w, i) ∈ privilegedRows := by
  unfold decodePrivileged at h
  split_ifs at h <;> cases h <;> subst w <;> decide

/-! ### The decoder, by its table -/

/-- What the decoder can accept, said once: one of the five words of R104, or a SYSTEM word with the `funct3` of a row of R103. -/
theorem decodeWord_ok_cases {w : BitVec 32} {i : Instr} (h : decodeWord w = .ok i) :
    (w, i) ∈ privilegedRows
      ∨ ∃ f mk, CsrRow f mk ∧ fieldOpcode w = opSystem ∧ fieldFunct3 w = f
          ∧ i = mk (fieldRd w) (fieldCsr w) (fieldRs1 w) := by
  have row : ∀ {f mk}, CsrRow f mk → fieldOpcode w = opSystem → (fieldFunct3 w).toNat = f.toNat →
      Except.ok (mk (fieldRd w) (fieldCsr w) (fieldRs1 w)) = (Except.ok i : Except DecodeError Instr) →
      ∃ f mk, CsrRow f mk ∧ fieldOpcode w = opSystem ∧ fieldFunct3 w = f
        ∧ i = mk (fieldRd w) (fieldCsr w) (fieldRs1 w) :=
    fun r ho hf e => ⟨_, _, r, ho, BitVec.eq_of_toNat_eq hf, (Except.ok.inj e).symm⟩
  unfold decodeWord at h
  split_ifs at h with hlow ho
  rw [not_not] at ho
  split at h
  case h_1 => exact .inl (mem_privilegedRows_of_decodePrivileged h)
  case h_2 hf => exact .inr (row .csrrw ho hf h)
  case h_3 hf => exact .inr (row .csrrs ho hf h)
  case h_4 hf => exact .inr (row .csrrc ho hf h)
  case h_5 hf => exact .inr (row .csrrwi ho hf h)
  case h_6 hf => exact .inr (row .csrrsi ho hf h)
  case h_7 hf => exact .inr (row .csrrci ho hf h)
  case h_8 => cases h

/-- The word of a CSR instruction whose operands fit decodes to it (R103, R105). -/
theorem CsrRow.decodeWord_encode {f : BitVec 3} {mk : Nat → CsrAddr → Nat → Instr} (r : CsrRow f mk) {rd : Nat}
    {csr : CsrAddr} {rs1 : Nat} (hw : (mk rd csr rs1).wellFormed = true) :
    decodeWord (encode (mk rd csr rs1)) = .ok (mk rd csr rs1) := by
  obtain ⟨hrd, hrs1⟩ := (r.wellFormed_iff ..).1 hw
  rw [r.encode_eq, r.decodeWord_eq (fieldOpcode_encodeFields ..) (fieldFunct3_encodeFields ..),
    fieldRd_encodeFields csr rs1 f hrd, fieldCsr_encodeFields, fieldRs1_encodeFields csr f rd hrs1]

theorem decodeWord_encode {i : Instr} (hw : i.wellFormed = true) : decodeWord (encode i) = .ok i := by
  cases i with
  | csrrw => exact CsrRow.csrrw.decodeWord_encode hw
  | csrrs => exact CsrRow.csrrs.decodeWord_encode hw
  | csrrc => exact CsrRow.csrrc.decodeWord_encode hw
  | csrrwi => exact CsrRow.csrrwi.decodeWord_encode hw
  | csrrsi => exact CsrRow.csrrsi.decodeWord_encode hw
  | csrrci => exact CsrRow.csrrci.decodeWord_encode hw
  | ecall => exact (privilegedRows_decode_encode (wordEcall, .ecall) (by decide)).1
  | sret => exact (privilegedRows_decode_encode (wordSret, .sret) (by decide)).1
  | mret => exact (privilegedRows_decode_encode (wordMret, .mret) (by decide)).1
  | mnret => exact (privilegedRows_decode_encode (wordMnret, .mnret) (by decide)).1
  | dret => exact (privilegedRows_decode_encode (wordDret, .dret) (by decide)).1

theorem encode_of_decodeWord {w : BitVec 32} {i : Instr} (h : decodeWord w = .ok i) :
    encode i = w ∧ i.wellFormed = true := by
  rcases decodeWord_ok_cases h with hp | ⟨f, mk, r, ho, rfl, rfl⟩
  · exact (privilegedRows_decode_encode _ hp).2
  · exact ⟨by rw [r.encode_eq, encodeFields_fields ho], (r.wellFormed_iff ..).2 ⟨fieldRd_lt w, fieldRs1_lt w⟩⟩

/-- The decoder and the encoder are inverse to each other on the well-formed instructions. -/
theorem decodeWord_ok_iff (w : BitVec 32) (i : Instr) :
    decodeWord w = .ok i ↔ encode i = w ∧ i.wellFormed = true :=
  ⟨encode_of_decodeWord, fun ⟨he, hw⟩ => he ▸ decodeWord_encode hw⟩

/-- R103's match and mask, for the row of any of the six CSR instructions. -/
theorem CsrRow.and_mask_iff {f : BitVec 3} {mk : Nat → CsrAddr → Nat → Instr} (r : CsrRow f mk) (w : BitVec 32) :
    w &&& 0x0000707F#32 = encodeFields 0#12 0 f 0
      ↔ decodeWord w = .ok (mk (fieldRd w) (fieldCsr w) (fieldRs1 w)) := by
  rw [and_mask_eq_iff]
  constructor
  · rintro ⟨ho, hf⟩
    exact r.decodeWord_eq ho hf
  · intro h
    have he := (encode_of_decodeWord h).1
    rw [← he, r.encode_eq]
    exact ⟨fieldOpcode_encodeFields .., fieldFunct3_encodeFields ..⟩

/-! ### The statements -/

/-- Settles O1: the bytes of the encoding join to it again, and it decodes to the instruction, by the row of the table that each constructor of `Instr` stands in. -/
theorem decodeEncode : Obligations.DecodeEncode := by
  intro i rest hw
  rw [decode_wordBytes, decodeWord_encode hw]
  rfl

/-- Settles O2: an accepted word is one of R104, or is made of the fields that its instruction holds. -/
theorem encodeDecode : Obligations.EncodeDecode :=
  fun _ _ h => encode_of_decodeWord h

/-- Settles O3: each match of R103 is the word of its row with every operand field 0. -/
theorem csrWordsDecode : Obligations.CsrWordsDecode :=
  fun w => ⟨CsrRow.csrrw.and_mask_iff w, CsrRow.csrrs.and_mask_iff w, CsrRow.csrrc.and_mask_iff w,
    CsrRow.csrrwi.and_mask_iff w, CsrRow.csrrsi.and_mask_iff w, CsrRow.csrrci.and_mask_iff w⟩

/-- Settles O4: the decoder answers an instruction without operands exactly for the word it is encoded as. -/
theorem privilegedWordsDecode : Obligations.PrivilegedWordsDecode := by
  intro w
  have fixed : ∀ i : Instr, i.wellFormed = true → (w = encode i ↔ decodeWord w = .ok i) := fun i hw => by
    rw [decodeWord_ok_iff, and_iff_left hw, eq_comm]
  exact ⟨fixed .ecall rfl, fixed .sret rfl, fixed .mret rfl, fixed .mnret rfl, fixed .dret rfl⟩

/-- Settles O6: each word is the encoding of its instruction, which is well formed and so decoded again. -/
theorem workedEncodings : Obligations.WorkedEncodings := by
  have written : ∀ {w : BitVec 32} {i : Instr}, encode i = w ∧ i.wellFormed = true →
      decodeWord w = .ok i ∧ encode i = w := fun h => ⟨(decodeWord_ok_iff ..).2 h, h.1⟩
  intro p hp
  apply written
  revert p
  decide

end Sys2Proof

/-! PROOF. OtherWordsGoToBaseISA: which words the decoder accepts, and what each answer of `BaseISA` does to the machine. -/

namespace Sys2Proof

/-- Which words are in the table (R106): SYSTEM words with a `funct3` other than 100, and with `funct3` = 000 the five of R104 only. -/
theorem exists_decodeWord_ok_iff (w : BitVec 32) :
    (∃ i, decodeWord w = .ok i) ↔ fieldOpcode w = opSystem ∧ fieldFunct3 w ≠ 0x4#3
      ∧ (fieldFunct3 w = 0x0#3 → w ∈ [wordEcall, wordSret, wordMret, wordMnret, wordDret]) := by
  constructor
  · rintro ⟨i, h⟩
    rcases decodeWord_ok_cases h with hp | ⟨f, mk, r, ho, rfl, -⟩
    · obtain ⟨ho, hf⟩ := privilegedRows_fields _ hp
      exact ⟨ho, by rw [hf]; decide, fun _ => List.mem_map_of_mem (f := Prod.fst) hp⟩
    · refine ⟨ho, ?_, fun h0 => ?_⟩
      · intro h4
        rw [h4] at r
        cases r
      · rw [h0] at r
        cases r
  · rintro ⟨ho, h4, h0⟩
    have row : ∀ {f mk}, CsrRow f mk → fieldFunct3 w = f → ∃ i, decodeWord w = .ok i :=
      fun r hf => ⟨_, r.decodeWord_eq ho hf⟩
    have cases8 : ∀ f : BitVec 3, f = 0x0#3 ∨ f = 0x1#3 ∨ f = 0x2#3 ∨ f = 0x3#3 ∨ f = 0x4#3 ∨ f = 0x5#3
      ∨ f = 0x6#3 ∨ f = 0x7#3 := by decide
    rcases cases8 (fieldFunct3 w) with hf | hf | hf | hf | hf | hf | hf | hf
    · obtain ⟨p, hp, rfl⟩ := List.mem_map.1 (show w ∈ privilegedRows.map Prod.fst from h0 hf)
      exact ⟨p.2, (privilegedRows_decode_encode p hp).1⟩
    · exact row .csrrw hf
    · exact row .csrrs hf
    · exact row .csrrc hf
    · exact absurd hf h4
    · exact row .csrrwi hf
    · exact row .csrrsi hf
    · exact row .csrrci hf

/-- The words that are none of the table's, as R106 lists them. -/
theorem forall_decodeWord_ne_ok_iff (w : BitVec 32) :
    (∀ i, decodeWord w ≠ .ok i) ↔ fieldOpcode w ≠ opSystem ∨ fieldFunct3 w = 0x4#3
      ∨ (fieldFunct3 w = 0x0#3 ∧ w ∉ [wordEcall, wordSret, wordMret, wordMnret, wordDret]) := by
  rw [← not_exists, exists_decodeWord_ok_iff]
  tauto

end Sys2Proof

namespace Sys2Proof.Machine

open Sys2Proof.Safety

/-! ### Exceptions of `BaseISA` (R81, R170, R171) -/

/-- A code below bit `XLEN`-1 that is not 16 is taken as it is (R38, R189). -/
theorem baseCode_of_lt {cfg : Config} {code : Word} (hlt : code.toNat < 2 ^ (xlenBits cfg - 1))
    (h16 : code ≠ 16#64) : baseCode cfg code = code := by
  have hhigh : ∀ j, xlenBits cfg - 1 ≤ j → bit code j = false := fun j hj =>
    Nat.testBit_lt_two_pow (Nat.lt_of_lt_of_le hlt (Nat.pow_le_pow_right (by decide) hj))
  have hsame : setBit (trunc cfg code) (xlenBits cfg - 1) false = code := by
    apply eq_of_bits
    intro j
    rw [bit_setBit, bit_trunc]
    by_cases hj : j < xlenBits cfg - 1
    · have hx : j < xlenBits cfg := by omega
      have hne : j ≠ xlenBits cfg - 1 := by omega
      simp [hx, hne]
    · simp [hhigh j (by omega)]
  unfold baseCode
  rw [hsame]
  exact if_neg h16

theorem isGuestPageFault_iff (code : Word) : isGuestPageFault code = true ↔ code ∈ [20#64, 21#64, 23#64] := by
  simp [isGuestPageFault, or_assoc]

/-- The request of such an exception (R171): its values in `XLEN` bits, `tval2` that of a guest-page fault only. -/
theorem baseRequest_of_lt {cfg : Config} {code : Word} (hlt : code.toNat < 2 ^ (xlenBits cfg - 1))
    (h16 : code ≠ 16#64) (h : Hart) (tval tval2 tinst : Word) (g : Bool) :
    baseRequest cfg h code tval tval2 tinst g =
      { intr := false, code := code, epc := h.pc, tval := trunc cfg tval
        tval2 := if code ∈ [20#64, 21#64, 23#64] then trunc cfg tval2 else 0#64
        tinst := trunc cfg tinst, gva := g } := by
  unfold baseRequest
  simp only [baseCode_of_lt hlt h16, isGuestPageFault_iff]

theorem onHart_raise_of_running {s : State} (hr : s.hart.run = .running) (t : TrapRequest) :
    s.onHart (raise s.cfg t) = s.onHart (takeTrap s.cfg t) :=
  congrArg s.setHart (raise_of_running s.cfg t hr)

theorem onHart_raise_of_not_running {s : State} (hr : s.hart.run ≠ .running) (t : TrapRequest) :
    s.onHart (raise s.cfg t) = s :=
  congrArg s.setHart (raise_of_not_running s.cfg t hr)

/-- A turn in which `BaseISA` finds an exception that nothing comes before takes it (R204). -/
theorem exceptionStep_of_undisturbed {s : State} (hr : s.hart.run = .running)
    (hh : (s.hart.haltreq && s.cfg.hasDebug) = false) (hi : selectedInterrupt s.cfg s.hart = none) (t : TrapRequest) :
    exceptionStep s t = .next (s.onHart (takeTrap s.cfg t)) := by
  rw [exceptionStep, if_pos hr, boundaryStep_of_undisturbed hh hi, onHart_raise_of_running hr]

theorem exceptionStep_of_not_running {s : State} (hr : s.hart.run ≠ .running) (t : TrapRequest) :
    exceptionStep s t = .next s := if_neg hr

/-! ### Debug Mode entry (R211) -/

/-- A running hart halts for the cause given. -/
theorem enterDebug_debugEntered {h : Hart} (hr : h.run = .running) (cfg : Config) (c : BitVec 3) :
    debugEntered cfg c h (enterDebug cfg c h) := by
  obtain ⟨hcause, hprv, hv, -, hkept⟩ := dcsrOnEntry_bits cfg c (h.run == .criticalError) h
  refine ⟨rfl, hcause, hprv, hv, fun _ => ?_, hkept, ?_⟩
  · rw [pcerr_enterDebug, hr]
    exact Bool.and_false _
  · rw [enterDebug, hr]
    rfl

/-! ### Completed instructions of `BaseISA` (assumption log 6) -/

/-- The hart after an instruction of `BaseISA` that completes: its registers, `pc`, `BaseISA`'s own CSRs, the extension-state fields of the two status words, and one more instruction counted. -/
theorem applyBase_retire_hart (s : State) (pc : Word) (regs : List (Nat × Word)) (stores : List Host.Cell)
    (csrs : List (CsrAddr × Word)) (status vsstatus : Word) :
    (applyBase s (.retire pc regs stores csrs status vsstatus)).hart =
      { s.hart with
        x := (writeRegs s.cfg regs s.hart).x, pc := alignPc s.cfg pc, baseCsrs := setBaseCsrs csrs s.hart.baseCsrs
        retired := s.hart.retired + 1
        m := { s.hart.m with status := merge extensionMask s.hart.m.status status }
        vs := { s.hart.vs with status := merge extensionMask s.hart.vs.status vsstatus } } :=
  congrArg (fun h : Hart => retire (setExtensionState status vsstatus
    { h with pc := alignPc s.cfg pc, baseCsrs := setBaseCsrs csrs s.hart.baseCsrs })) (writeRegs_x s.cfg regs s.hart)

/-- An integer register reads the same on harts with the same register file (R20). -/
theorem readReg_congr (cfg : Config) {h h' : Hart} (hx : h'.x = h.x) (r : Nat) : readReg cfg h' r = readReg cfg h r := by
  unfold readReg
  rw [hx]

/-! ### The statement -/

/-- Settles O5: the words that the decoder does not accept are those R106 names, and each of the three answers of `BaseISA` goes through the operation that bounds it. -/
theorem otherWordsGoToBaseISA : Obligations.OtherWordsGoToBaseISA := by
  refine ⟨fun w s => ⟨fun hw => ?_, fun hw => ?_⟩, fun s code tval tval2 tinst guestVa rest => ?_,
    fun s cause => ⟨fun hr hd => ?_, fun hc => ?_⟩, fun s pc regs stores csrs status vsstatus => ?_⟩
  · exact execWord_of_not_ok ((forall_decodeWord_ne_ok_iff w).2 hw) s
  · obtain ⟨i, hi⟩ := not_forall_not.1 (mt (forall_decodeWord_ne_ok_iff w).1 hw)
    exact ⟨i, hi, execWord_of_ok hi s⟩
  · refine ⟨fun hr hlt h16 => ?_, fun hr => ?_⟩
    · rw [← baseRequest_of_lt hlt h16]
      exact ⟨onHart_raise_of_running hr _, fun he hh hi =>
        (step_of_event he).trans (exceptionStep_of_undisturbed (s := hartTurn s) hr hh hi _)⟩
    · exact ⟨onHart_raise_of_not_running hr _, fun he =>
        (step_of_event he).trans (exceptionStep_of_not_running (s := hartTurn s) hr _)⟩
  · have hentry : applyBase s (.debugEntry cause) = s.onHart (enterDebug s.cfg cause) := if_pos ⟨hr, hd⟩
    rw [hentry]
    exact ⟨hartOnly_onHart .., enterDebug_debugEntered hr ..⟩
  · refine if_neg fun ⟨hr, hd⟩ => ?_
    rcases hc with hn | hn
    · exact hn hr
    · exact absurd (hn.symm.trans hd) (by decide)
  · have hhart := applyBase_retire_hart s pc regs stores csrs status vsstatus
    have hreg := readReg_congr s.cfg (congrArg Hart.x hhart)
    refine ⟨rfl, rfl, fun a => readByte_writeCells, ?_, fun n hn => ?_, ?_, ?_⟩
    · rintro k a v l rfl hl
      exact readByte_writeCells_last hl
    · rw [hreg]
      exact readReg_writeRegs hn
    · rintro k n v l rfl h0 h32 hl
      rw [hreg]
      exact readReg_writeRegs_last h0 h32 hl
    · simp only [hhart]
      exact ⟨extension_stored _ _, extension_stored _ _, extension_kept _ _, extension_kept _ _, trivial⟩

end Sys2Proof.Machine

/-! PROOF. StepStopsOnlyOnUnwrittenBytes: every part of a step but the fetch answers a next state, and a fetch that fails names an address that holds no byte. -/

namespace Sys2Proof.Machine

open Sys2Proof.Safety

/-- The outcome goes on to a next state. -/
def Continues (o : Host.Outcome State Fault Refusal) : Prop := ∃ t, o = .next t

/-- The only way for a hart's own step to stop in `s`: a running hart's fetch from an address that holds no byte. -/
def FetchFault (s : State) (o : Host.Outcome State Fault Refusal) : Prop :=
  s.hart.run = .running ∧ ∃ a, o = .fault (.unwrittenByte a) ∧ readByte s.mem a = none

/-! ### What always goes on -/

theorem exec_continues (i : Instr) (s : State) : Continues (exec i s) := by
  obtain ⟨h, e, _⟩ := exec_ops i s
  exact ⟨_, e⟩

theorem execWord_continues (w : BitVec 32) (s : State) : Continues (execWord w s) := by
  unfold execWord
  split
  · exact exec_continues _ s
  · exact ⟨_, rfl⟩

theorem debugExec_continues (w : BitVec 32) (s : State) : Continues (debugExec w s) := by
  unfold debugExec
  split
  · exact execWord_continues w s
  · exact ⟨_, rfl⟩

/-- A turn in which a halt request or an interrupt comes first goes on. -/
theorem boundaryStep_continues_or_eq (s : State) (instr : Host.Outcome State Fault Refusal) :
    Continues (boundaryStep s instr) ∨ boundaryStep s instr = instr := by
  rcases boundaryStep_cases s instr with ⟨_, e⟩ | ⟨_, _, _, e⟩ | ⟨_, _, e⟩
  · exact .inl ⟨_, e⟩
  · exact .inl ⟨_, e⟩
  · exact .inr e

theorem exceptionStep_continues (s : State) (t : TrapRequest) : Continues (exceptionStep s t) := by
  unfold exceptionStep
  split
  · rcases boundaryStep_continues_or_eq s (.next (s.onHart (raise s.cfg t))) with h | e
    · exact h
    · exact ⟨_, e⟩
  · exact ⟨_, rfl⟩

/-- Every event but the hart's own step goes on (R14). -/
theorem eventStep_continues {e : Event} (he : e ≠ .hart) (s : State) : Continues (eventStep e s) := by
  cases e with
  | hart => exact absurd rfl he
  | baseException => exact exceptionStep_continues ..
  | debugExec w => exact debugExec_continues w s
  | _ => exact ⟨_, rfl⟩

/-! ### What a fetch can name -/

/-- A read that fails names an address without a byte; one that succeeds gives as many bytes as asked for. -/
theorem readBytes_spec (cfg : Config) (m : Memory) (a n : Nat) :
    (∀ b, readBytes cfg m a n = .error b → readByte m b = none)
      ∧ ∀ bs, readBytes cfg m a n = .ok bs → bs.length = n := by
  induction n generalizing a with
  | zero => exact ⟨fun _ e => (nomatch e), fun _ e => by cases e; rfl⟩
  | succ n ih =>
    obtain ⟨ihError, ihOk⟩ := ih (a + 1)
    rw [readBytes]
    cases hb : readByte m (a % addressCount cfg) with
    | none => exact ⟨fun _ e => by cases e; exact hb, fun _ e => (nomatch e)⟩
    | some b =>
      cases hbs : readBytes cfg m (a + 1) n with
      | error c => exact ⟨fun _ e => by cases e; exact ihError _ hbs, fun _ e => (nomatch e)⟩
      | ok bs => exact ⟨fun _ e => (nomatch e), fun _ e => by cases e; simp [ihOk _ hbs]⟩

theorem readByte_of_readBytes_error {cfg : Config} {m : Memory} {a n b : Nat} (h : readBytes cfg m a n = .error b) :
    readByte m b = none := (readBytes_spec cfg m a n).1 b h

/-- Two bytes read are two bytes. -/
theorem readBytes_two_ok {cfg : Config} {m : Memory} {a : Nat} {bs : List Byte} (h : readBytes cfg m a 2 = .ok bs) :
    ∃ b0 b1, bs = [b0, b1] := List.length_eq_two.1 ((readBytes_spec cfg m a 2).2 bs h)

theorem readByte_of_fetch_error {s : State} {a : Nat} (h : fetch s = .error a) : readByte s.mem a = none := by
  unfold fetch at h
  cases hlow : readBytes s.cfg s.mem s.hart.pc.toNat 2 with
  | error b =>
    rw [hlow] at h
    cases h
    exact readByte_of_readBytes_error hlow
  | ok low =>
    obtain ⟨b0, b1, rfl⟩ := readBytes_two_ok hlow
    rw [hlow] at h
    by_cases hp : b0.extractLsb' 0 2 = 0x3#2
    · cases hhigh : readBytes s.cfg s.mem (s.hart.pc.toNat + 2) 2 with
      | error b =>
        simp only [hp, hhigh] at h
        cases h
        exact readByte_of_readBytes_error hhigh
      | ok high =>
        obtain ⟨b2, b3, rfl⟩ := readBytes_two_ok hhigh
        simp [hp, hhigh] at h
    · simp [hp] at h

/-! ### The hart's own step -/

theorem hartStep_continues_or_fetchFault (s : State) : Continues (hartStep s) ∨ FetchFault s (hartStep s) := by
  unfold hartStep
  split
  case h_1 hr =>
    rcases boundaryStep_continues_or_eq s (fetchExec s) with h | e
    · exact .inl h
    · rw [runningStep, e, fetchExec]
      cases hf : fetch s with
      | error a => exact .inr ⟨hr, a, rfl, readByte_of_fetch_error hf⟩
      | ok w => exact .inl (execWord_continues w s)
  case h_2 => exact .inl ⟨_, rfl⟩
  case h_3 => exact .inl ⟨_, rfl⟩

/-- A step goes on, or it is the hart's own and its fetch fails. -/
theorem step_continues_or_fetchFault (s : State) : Continues (step s) ∨ (hartMoves s ∧ FetchFault s (step s)) := by
  have own : hartMoves s → Continues (step s) ∨ (hartMoves s ∧ FetchFault s (step s)) := fun hm => by
    rw [step_of_hartMoves hm]
    exact (hartStep_continues_or_fetchFault (hartTurn s)).imp_right fun hf => ⟨hm, hf⟩
  cases hev : s.events with
  | nil => exact own (.inl hev)
  | cons e rest =>
    by_cases he : e = .hart
    · exact own (.inr ⟨rest, he ▸ hev⟩)
    · exact .inl (step_of_event hev ▸ eventStep_continues he _)

/-- Settles O8: what goes on neither refuses nor faults, and the fault of a failed fetch is of the kind described. -/
theorem stepStopsOnlyOnUnwrittenBytes : Obligations.StepStopsOnlyOnUnwrittenBytes := by
  intro s
  rcases step_continues_or_fetchFault s with ⟨t, e⟩ | ⟨hm, hr, a, e, ha⟩ <;> rw [e]
  · exact ⟨fun _ h => (nomatch h), fun _ h => (nomatch h)⟩
  · exact ⟨fun _ h => (nomatch h), fun _ h => by cases h; exact ⟨hm, hr, a, rfl, ha⟩⟩

end Sys2Proof.Machine

/-! PROOF. CsrAccessCheck: each of the check's three tests decides, in its order. -/

namespace Sys2Proof.Machine

open Sys2Proof.Safety

/-- R27's table gives every CSR an address of its own. -/
@[simp] theorem Csr.ofAddress_address (c : Csr) : Csr.ofAddress c.address = some c := by cases c <;> decide

theorem csrExists_address_iff (cfg : Config) (c : Csr) : csrExists cfg c.address = true ↔ Csr.present cfg c = true := by
  simp [csrExists]

theorem debugOnlyCsr_iff (a : CsrAddr) : debugOnlyCsr a = true ↔ a = 0x7B0#12 ∨ a = 0x7B1#12 := by
  simp [debugOnlyCsr, Csr.address]

/-- The privilege test of the check (R138; assumption log 11). -/
def belowCsr (cfg : Config) (h : Hart) (a : CsrAddr) : Prop :=
  h.run ≠ .debugMode ∧ (accessLevel cfg h < requiredLevel a ∨ a = 0x7B0#12 ∨ a = 0x7B1#12)

theorem belowCsr_iff (cfg : Config) (h : Hart) (a : CsrAddr) :
    (h.run != .debugMode && (decide (accessLevel cfg h < requiredLevel a) || debugOnlyCsr a)) = true
      ↔ belowCsr cfg h a := by
  simp [belowCsr, debugOnlyCsr_iff]

theorem csrAccess_of_absent {cfg : Config} {a : CsrAddr} (he : csrExists cfg a = false) (h : Hart) (writes : Bool) :
    csrAccess cfg h a writes = .illegal := by
  simp [csrAccess, he]

theorem csrAccess_of_below {cfg : Config} {h : Hart} {a : CsrAddr} (he : csrExists cfg a = true)
    (hb : belowCsr cfg h a) (writes : Bool) :
    csrAccess cfg h a writes = if h.virt = true ∧ requiredLevel a = 2 then .virtualInstruction else .illegal := by
  rw [csrAccess, he, (belowCsr_iff cfg h a).2 hb]
  simp

theorem csrAccess_of_not_below {cfg : Config} {h : Hart} {a : CsrAddr} (he : csrExists cfg a = true)
    (hb : ¬belowCsr cfg h a) (writes : Bool) :
    csrAccess cfg h a writes = if writes = true ∧ a.extractLsb' 10 2 = 0x3#2 then .illegal else .granted := by
  rw [csrAccess, he, Bool.eq_false_iff.2 (mt (belowCsr_iff cfg h a).1 hb)]
  simp [readOnlyCsr]

theorem not_belowCsr {cfg : Config} {h : Hart} {a : CsrAddr}
    (hr : h.run = .debugMode ∨ (requiredLevel a ≤ accessLevel cfg h ∧ a ≠ 0x7B0#12 ∧ a ≠ 0x7B1#12)) :
    ¬belowCsr cfg h a := by
  rintro ⟨hd, hl⟩
  rcases hr with hr | ⟨hle, h0, h1⟩
  · exact hd hr
  · rcases hl with hlt | e | e
    · exact Nat.not_lt.2 hle hlt
    · exact h0 e
    · exact h1 e

/-- Settles O15: one clause per test, then the levels and the four CSRs by R27's table. -/
theorem csrAccessCheck : Obligations.CsrAccessCheck := by
  intro cfg h a writes
  refine ⟨fun he => csrAccess_of_absent he h writes, fun he hr hl => csrAccess_of_below he ⟨hr, hl⟩ writes,
    fun he hr => csrAccess_of_not_below he (not_belowCsr hr) writes, rfl, ?_, ?_, ?_, ?_, ?_, ?_, ?_⟩
  · intro hm; simp [accessLevel, hm]
  · intro hs; simp [accessLevel, hs]
  · intro hu; simp [accessLevel, hu]
  · exact (csrExists_address_iff cfg .mstatush).trans beq_iff_eq
  · exact (csrExists_address_iff cfg .mtval2).trans (by simp [Csr.present, hasMtval2])
  · exact csrExists_address_iff cfg .mnstatus
  · exact csrExists_address_iff cfg .vsstatus

end Sys2Proof.Machine

/-! PROOF. CsrReads: the register that an access at each address reaches, and the view of each register bit by bit. -/

namespace Sys2Proof.Machine

open Sys2Proof.Safety

/-! ### Access by address (R27, R40) -/

theorem csrRead_of_virt {s : State} {b : Bool} (hv : s.hart.virt = b) (c : Csr) :
    csrRead s c.address = Csr.read s.cfg s.hart (c.redirect b) := by
  rw [csrRead_known (Csr.ofAddress_address c), hv]

/-- A register that no `vs` register stands in for is read whatever `V` is. -/
theorem csrRead_own (s : State) (c : Csr) (hc : c ∉ [Csr.sstatus, .stvec, .sepc, .scause, .stval] := by decide) :
    csrRead s c.address = Csr.read s.cfg s.hart c := by
  rw [csrRead_of_virt rfl, redirect_high hc]

theorem csrWrite_of_virt {s : State} {b : Bool} (hv : s.hart.virt = b) (c : Csr) (v : Word) :
    csrWrite s c.address v = Csr.write s.cfg s.hart (trunc s.cfg v) (c.redirect b) := by
  rw [csrWrite_known (Csr.ofAddress_address c), hv]

theorem csrWrite_own (s : State) (c : Csr) (v : Word)
    (hc : c ∉ [Csr.sstatus, .stvec, .sepc, .scause, .stval] := by decide) :
    csrWrite s c.address v = Csr.write s.cfg s.hart (trunc s.cfg v) c := by
  rw [csrWrite_of_virt rfl, redirect_high hc]

/-- With `V` = 1 an `s` address reads what the address of the `vs` register reads. -/
theorem csrRead_guest {s : State} (hv : s.hart.virt = true) (c : Csr)
    (hc : c.redirect true ∉ [Csr.sstatus, .stvec, .sepc, .scause, .stval] := by decide) :
    csrRead s c.address = csrRead s (c.redirect true).address := by
  rw [csrRead_of_virt hv, csrRead_own s _ hc]

theorem csrWrite_guest {s : State} (hv : s.hart.virt = true) (c : Csr) (v : Word)
    (hc : c.redirect true ∉ [Csr.sstatus, .stvec, .sepc, .scause, .stval] := by decide) :
    csrWrite s c.address v = csrWrite s (c.redirect true).address v := by
  rw [csrWrite_of_virt hv, csrWrite_own s _ v hc]

/-! ### Bits of an `XLEN`-bit value -/

theorem bit_trunc_of_lt {cfg : Config} {w : Word} {j : Nat} (hj : j < xlenBits cfg) : bit (trunc cfg w) j = bit w j := by
  simp [bit_trunc, hj]

theorem bit_eq_of_eq_trunc {cfg : Config} {v w : Word} (e : v = trunc cfg w) {j : Nat} (hj : j < xlenBits cfg) :
    bit v j = bit w j := by rw [e, bit_trunc_of_lt hj]

theorem bit_eq_of_eq_highHalf {v w : Word} (e : v = highHalf w) (j : Nat) : bit v j = bit w (32 + j) := by
  rw [e, bit_highHalf]

theorem xlenBits_rv64 {cfg : Config} (hx : cfg.xlen = .rv64) : xlenBits cfg = 64 := by simp [xlenBits, hx]

theorem xlenBits_rv32 {cfg : Config} (hx : cfg.xlen = .rv32) : xlenBits cfg = 32 := by simp [xlenBits, hx]

/-- The top bit of an `XLEN`-bit value is one of two. -/
theorem xlenBits_sub_one (cfg : Config) : xlenBits cfg - 1 = 31 ∨ xlenBits cfg - 1 = 63 := by
  unfold xlenBits; cases cfg.xlen <;> simp

/-- A bit that is neither of them is not the top one. -/
theorem ne_top (cfg : Config) {j : Nat} (h31 : j ≠ 31 := by decide) (h63 : j ≠ 63 := by decide) : j ≠ xlenBits cfg - 1 := by
  rcases xlenBits_sub_one cfg with e | e <;> rw [e] <;> assumption

theorem top_lt (cfg : Config) : xlenBits cfg - 1 < xlenBits cfg ∧ xlenBits cfg - 1 < 64 := by
  have := xlenBits_pos cfg
  omega

/-! ### The views of the split and computed registers (R31, R33, R36, R42, R46) -/

theorem bit_statusView_sdt (cfg : Config) (h : Hart) : bit (statusView cfg h) 24 = sdt cfg h := by
  rw [statusView, bit_setBit_other _ _ _ _ (ne_top cfg)]
  simp [bitSDT, bitMDT]

theorem bit_statusView_mdt (cfg : Config) (h : Hart) : bit (statusView cfg h) 45 = mdt cfg h := by
  rw [statusView, bit_setBit_other _ _ _ _ (ne_top cfg)]
  simp [bitMDT]

theorem bit_statusView_top (cfg : Config) (h : Hart) :
    bit (statusView cfg h) (xlenBits cfg - 1) = dirtySummary h.m.status :=
  bit_setBit_same _ _ _ (top_lt cfg).2

theorem bit_vsstatusView_sdt (cfg : Config) (h : Hart) : bit (vsstatusView cfg h) 24 = vsSdt cfg h := by
  rw [vsstatusView, bit_setBit_other _ _ _ _ (ne_top cfg)]
  simp [bitSDT]

theorem bit_vsstatusView_top (cfg : Config) (h : Hart) :
    bit (vsstatusView cfg h) (xlenBits cfg - 1) = dirtySummary h.vs.status :=
  bit_setBit_same _ _ _ (top_lt cfg).2

theorem bit_menvcfgView_dte (cfg : Config) (h : Hart) : bit (menvcfgView cfg h) 59 = ssActive cfg h :=
  bit_setBit_same _ _ _ (by decide)

theorem bit_henvcfgView_dte (cfg : Config) (h : Hart) : bit (henvcfgView cfg h) 59 = ssActiveVS cfg h :=
  bit_setBit_same _ _ _ (by decide)

theorem bit_menvcfgView {cfg : Config} {h : Hart} {j : Nat} (hj : j ≠ 59) :
    bit (menvcfgView cfg h) j = bit h.m.envcfg j := bit_setBit_other _ _ _ _ hj

theorem bit_henvcfgView {cfg : Config} {h : Hart} {j : Nat} (hj : j ≠ 59) :
    bit (henvcfgView cfg h) j = bit h.hs.envcfg j := bit_setBit_other _ _ _ _ hj

theorem bit_delegView_of_ne {w : Word} {j : Nat} (hj : j ≠ 16) : bit (delegView w) j = bit w j :=
  bit_setBit_other _ _ _ _ hj

theorem bit_dcsrView_pcerr (cfg : Config) (h : Hart) : bit (dcsrView cfg h) 19 = pcerr cfg h :=
  bit_setBit_same _ _ _ (by decide)

theorem bit_dcsrView {cfg : Config} {h : Hart} {j : Nat} (hj : j ≠ 19) :
    bit (dcsrView cfg h) j = h.dbg.dcsr.getLsbD j := by
  rw [dcsrView, bit_setBit_other _ bitPcerr _ _ hj, bit_setWidth64]

/-! ### `sstatus` with `V` = 0, a view of `mstatus` (R35) -/

theorem bit_csrRead_sstatus {s : State} (hv : s.hart.virt = false) (j : Nat) :
    bit (csrRead s 0x100#12) j
      = (decide (j < xlenBits s.cfg) && decide (j ∈ (xlenBits s.cfg - 1) :: sstatusVisible)
          && bit (statusView s.cfg s.hart) j) := by
  have e : csrRead s 0x100#12 = trunc s.cfg (statusView s.cfg s.hart
      &&& maskOf ((xlenBits s.cfg - 1) :: sstatusVisible)) := csrRead_of_virt hv .sstatus
  rw [e, bit_trunc, bit_and, bit_maskOf]
  by_cases hj : j < xlenBits s.cfg
  · have h64 : j < 64 := Nat.lt_of_lt_of_le hj (xlenBits_pos s.cfg).2
    simp [hj, h64, Bool.and_comm]
  · simp [hj]

theorem bit_csrRead_sstatus_visible {s : State} (hv : s.hart.virt = false) {j : Nat} (hj : j < xlenBits s.cfg)
    (hm : j ∈ (xlenBits s.cfg - 1) :: sstatusVisible) : bit (csrRead s 0x100#12) j = bit (statusView s.cfg s.hart) j := by
  rw [bit_csrRead_sstatus hv, decide_eq_true hj, decide_eq_true hm]; rfl

theorem bit_csrRead_sstatus_hidden {s : State} (hv : s.hart.virt = false) {j : Nat}
    (hm : j ∉ (xlenBits s.cfg - 1) :: sstatusVisible) : bit (csrRead s 0x100#12) j = false := by
  rw [bit_csrRead_sstatus hv, decide_eq_false hm]; simp

/-! ### The split and computed registers, as read -/

theorem bit_csrRead_mstatus {s : State} {j : Nat} (hj : j < xlenBits s.cfg) :
    bit (csrRead s 0x300#12) j = bit (statusView s.cfg s.hart) j :=
  bit_eq_of_eq_trunc (csrRead_own s .mstatus) hj

theorem bit_csrRead_vsstatus {s : State} {j : Nat} (hj : j < xlenBits s.cfg) :
    bit (csrRead s 0x200#12) j = bit (vsstatusView s.cfg s.hart) j :=
  bit_eq_of_eq_trunc (csrRead_own s .vsstatus) hj

theorem bit_csrRead_menvcfg {s : State} {j : Nat} (hj : j < xlenBits s.cfg) :
    bit (csrRead s 0x30A#12) j = bit (menvcfgView s.cfg s.hart) j :=
  bit_eq_of_eq_trunc (csrRead_own s .menvcfg) hj

theorem bit_csrRead_henvcfg {s : State} {j : Nat} (hj : j < xlenBits s.cfg) :
    bit (csrRead s 0x60A#12) j = bit (henvcfgView s.cfg s.hart) j :=
  bit_eq_of_eq_trunc (csrRead_own s .henvcfg) hj

theorem bit_csrRead_mstatush (s : State) (j : Nat) :
    bit (csrRead s 0x310#12) j = bit (statusView s.cfg s.hart) (32 + j) :=
  bit_eq_of_eq_highHalf (csrRead_own s .mstatush) j

theorem bit_csrRead_menvcfgh (s : State) (j : Nat) :
    bit (csrRead s 0x31A#12) j = bit (menvcfgView s.cfg s.hart) (32 + j) :=
  bit_eq_of_eq_highHalf (csrRead_own s .menvcfgh) j

theorem bit_csrRead_henvcfgh (s : State) (j : Nat) :
    bit (csrRead s 0x61A#12) j = bit (henvcfgView s.cfg s.hart) (32 + j) :=
  bit_eq_of_eq_highHalf (csrRead_own s .henvcfgh) j

theorem bit_csrRead_medelegh (s : State) (j : Nat) : bit (csrRead s 0x312#12) j = bit s.hart.m.edeleg (32 + j) :=
  bit_eq_of_eq_highHalf (csrRead_own s .medelegh) j

theorem bit_csrRead_hedelegh (s : State) (j : Nat) : bit (csrRead s 0x612#12) j = bit s.hart.hs.edeleg (32 + j) :=
  bit_eq_of_eq_highHalf (csrRead_own s .hedelegh) j

theorem csrRead_dcsr (s : State) : csrRead s 0x7B0#12 = dcsrView s.cfg s.hart := csrRead_own s .dcsr

/-- `SD` reads 1 exactly if an extension state is dirty (assumption log 7). -/
theorem bit_csrRead_mstatus_top (s : State) :
    bit (csrRead s 0x300#12) (xlenBits s.cfg - 1) = dirtySummary s.hart.m.status :=
  (bit_csrRead_mstatus (top_lt s.cfg).1).trans (bit_statusView_top ..)

theorem bit_csrRead_vsstatus_top (s : State) :
    bit (csrRead s 0x200#12) (xlenBits s.cfg - 1) = dirtySummary s.hart.vs.status :=
  (bit_csrRead_vsstatus (top_lt s.cfg).1).trans (bit_vsstatusView_top ..)

theorem bit_csrRead_sstatus_top {s : State} (hv : s.hart.virt = false) :
    bit (csrRead s 0x100#12) (xlenBits s.cfg - 1) = dirtySummary s.hart.m.status :=
  (bit_csrRead_sstatus_visible hv (top_lt s.cfg).1 List.mem_cons_self).trans (bit_statusView_top ..)

theorem lt_xlenBits_of_lt (cfg : Config) {j : Nat} (hj : j < 32) : j < xlenBits cfg :=
  Nat.lt_of_lt_of_le hj (xlenBits_pos cfg).1

theorem bit_csrRead_mstatus_sdt (s : State) : bit (csrRead s 0x300#12) 24 = sdt s.cfg s.hart :=
  (bit_csrRead_mstatus (lt_xlenBits_of_lt _ (by decide))).trans (bit_statusView_sdt ..)

theorem bit_csrRead_sstatus_sdt {s : State} (hv : s.hart.virt = false) : bit (csrRead s 0x100#12) 24 = sdt s.cfg s.hart :=
  (bit_csrRead_sstatus_visible hv (lt_xlenBits_of_lt _ (by decide)) (by simp [sstatusVisible])).trans
    (bit_statusView_sdt ..)

theorem bit_csrRead_vsstatus_sdt (s : State) : bit (csrRead s 0x200#12) 24 = vsSdt s.cfg s.hart :=
  (bit_csrRead_vsstatus (lt_xlenBits_of_lt _ (by decide))).trans (bit_vsstatusView_sdt ..)

/-- `MDT` is in `mstatus` on RV64 (R33). -/
theorem bit_csrRead_mdt {s : State} (hx : s.cfg.xlen = .rv64) : bit (csrRead s 0x300#12) 45 = mdt s.cfg s.hart :=
  (bit_csrRead_mstatus (by rw [xlenBits_rv64 hx]; decide)).trans (bit_statusView_mdt ..)

theorem bit_csrRead_dte {s : State} (hx : s.cfg.xlen = .rv64) :
    bit (csrRead s 0x30A#12) 59 = ssActive s.cfg s.hart ∧ bit (csrRead s 0x60A#12) 59 = ssActiveVS s.cfg s.hart := by
  have h59 : 59 < xlenBits s.cfg := by rw [xlenBits_rv64 hx]; decide
  exact ⟨(bit_csrRead_menvcfg h59).trans (bit_menvcfgView_dte ..), (bit_csrRead_henvcfg h59).trans (bit_henvcfgView_dte ..)⟩

/-- A visible field of `sstatus` but `SDT` reads as `mstatus` holds it (R35). -/
theorem bit_csrRead_sstatus_field {s : State} (hv : s.hart.virt = false) {j : Nat} (hj : j < xlenBits s.cfg)
    (hm : j ∈ sstatusVisible) (h24 : j ≠ 24) : bit (csrRead s 0x100#12) j = bit s.hart.m.status j := by
  obtain ⟨h31, h63, h45⟩ := (by decide : ∀ k ∈ sstatusVisible, k ≠ 31 ∧ k ≠ 63 ∧ k ≠ 45) j hm
  rw [bit_csrRead_sstatus_visible hv hj (List.mem_cons_of_mem _ hm), bit_statusView]
  simp [h24, h45, ne_top s.cfg h31 h63]

/-- Settles O16: each clause is the view at its address, and every read is an `XLEN`-bit value. -/
theorem csrReads : Obligations.CsrReads := by
  intro s c h guest dirty
  have nv : ¬guest → s.hart.virt = false := Bool.eq_false_iff.2
  refine ⟨bit_csrRead_mstatus_sdt s,
    fun hg => ⟨bit_csrRead_sstatus_sdt (nv hg), fun j hj => ?_, fun j hj => ?_, csrRead_of_virt (nv hg) .stvec,
      csrRead_of_virt (nv hg) .sepc, csrRead_of_virt (nv hg) .scause, csrRead_of_virt (nv hg) .stval⟩,
    fun hg => ⟨csrRead_guest hg .sstatus, (congrArg (bit · 24) (csrRead_guest hg .sstatus)).trans
        (bit_csrRead_vsstatus_sdt s), csrRead_of_virt hg .stvec, csrRead_of_virt hg .sepc, csrRead_of_virt hg .scause,
      csrRead_of_virt hg .stval⟩,
    csrRead_own s .vstvec, csrRead_own s .vsepc, csrRead_own s .vscause, csrRead_own s .vstval,
    csrRead_own s .mtvec, csrRead_own s .mepc, csrRead_own s .mtval, csrRead_own s .mtinst,
    csrRead_own s .htval, csrRead_own s .htinst, bit_csrRead_vsstatus_sdt s, ?_, ?_,
    fun hx => ⟨bit_csrRead_mdt hx, bit_csrRead_dte hx⟩,
    fun _ => ⟨(bit_csrRead_mstatush s 13).trans (bit_statusView_mdt ..),
      (bit_csrRead_menvcfgh s 27).trans (bit_menvcfgView_dte ..), (bit_csrRead_henvcfgh s 27).trans (bit_henvcfgView_dte ..)⟩,
    ?_, ?_, ?_, csrRead_own s .mcause, csrRead_own s .mtval2, csrRead_own s .mnepc, csrRead_own s .mncause,
    csrRead_own s .mnstatus, csrRead_own s .dpc, ?_, fun j hj => ?_, fun j hj hne => ?_, fun j hj hne => ?_,
    fun hg hx j hj => ?_, ?_, ?_, fun hg => ?_, fun j hj hne => ?_, fun j hj hne => ?_, fun hx j hj => ⟨fun hne => ?_,
      fun hne => ⟨?_, ?_⟩, bit_csrRead_medelegh s j, bit_csrRead_hedelegh s j⟩,
    csrRead_own s .mideleg, csrRead_own s .hideleg, csrRead_own s .mnscratch, csrRead_own s .hstatus,
    fun j _ hne => ?_, fun a => trunc_csrRead s a⟩
  · -- the fields of `sstatus` below bit 32
    obtain ⟨h32, hm, h24⟩ := (by decide : ∀ k ∈ [1, 5, 6, 8, 9, 10, 13, 14, 15, 16, 18, 19],
      k < 32 ∧ k ∈ sstatusVisible ∧ k ≠ 24) j hj
    exact bit_csrRead_sstatus_field (nv hg) (lt_xlenBits_of_lt _ h32) hm h24
  · -- nothing else in `sstatus`
    refine bit_csrRead_sstatus_hidden (nv hg) fun hm => hj ?_
    simp only [List.mem_cons, sstatusVisible, List.not_mem_nil] at hm ⊢
    tauto
  · -- the disable-trap bits of an absent or inactive extension
    intro ha; simp [sdt, ha]
  · intro ha; simp [vsSdt, ha]
  · intro ha; simp [mdt, ha]
  · -- bit 16 of the delegation registers
    rw [csrRead_medeleg]; exact bit_trunc_delegView ..
  · rw [csrRead_hedeleg]; exact bit_trunc_delegView ..
  · rw [csrRead_dcsr]; exact bit_dcsrView_pcerr ..
  · -- `dcsr` has 32 bits
    rw [csrRead_dcsr, bit_dcsrView (by omega)]
    exact BitVec.getLsbD_of_ge _ _ hj
  · -- every other bit of the status words
    rw [bit_csrRead_mstatus hj, bit_statusView hne]
  · rw [bit_csrRead_vsstatus hj, bit_vsstatusView hne]
  · -- `UXL`, on RV64
    obtain ⟨h64, hm, h24⟩ := (by decide : ∀ k ∈ [32, 33], k < 64 ∧ k ∈ sstatusVisible ∧ k ≠ 24) j hj
    exact bit_csrRead_sstatus_field (nv hg) (by rw [xlenBits_rv64 hx]; exact h64) hm h24
  · -- `SD`
    rw [bit_csrRead_mstatus_top]; exact dirtySummary_iff _
  · rw [bit_csrRead_vsstatus_top]; exact dirtySummary_iff _
  · rw [bit_csrRead_sstatus_top (nv hg)]; exact dirtySummary_iff _
  · -- the other 64-bit registers, on RV32 by halves
    rw [bit_csrRead_menvcfg hj, bit_csrRead_henvcfg hj, bit_menvcfgView hne, bit_henvcfgView hne]
    exact ⟨rfl, rfl⟩
  · rw [csrRead_medeleg, csrRead_hedeleg, bit_trunc_of_lt hj, bit_trunc_of_lt hj, bit_delegView_of_ne hne,
      bit_delegView_of_ne hne]
    exact ⟨rfl, rfl⟩
  · -- `mstatush`
    rw [bit_csrRead_mstatush, bit_statusView]
    simp only [xlenBits_rv32 (cfg := s.cfg) hx, List.mem_cons, List.not_mem_nil, or_false]
    omega
  · rw [bit_csrRead_menvcfgh, bit_menvcfgView (by omega)]
  · rw [bit_csrRead_henvcfgh, bit_henvcfgView (by omega)]
  · rw [csrRead_dcsr, bit_dcsrView hne]

end Sys2Proof.Machine

/-! PROOF. WriteMstatusRv64, WriteMstatusRv32, WriteSstatus, WriteVsstatus, WriteDte: what an explicit write at each address makes of the active hart, and the bits of the word it stores. -/

namespace Sys2Proof.Machine

open Sys2Proof.Safety

/-! ### `mstatus`, `mstatush`, `sstatus` and `vsstatus` (R128 to R132) -/

/-- `mstatus` after a write on the width of the configuration (R128, R129). -/
def mstatusWritten (cfg : Config) (h : Hart) (v : Word) : Word :=
  match cfg.xlen with
  | .rv64 => statusWritten64 cfg h v
  | .rv32 => statusWritten32 cfg h v

theorem mstatusWritten_rv64 {cfg : Config} (hx : cfg.xlen = .rv64) (h : Hart) (v : Word) :
    mstatusWritten cfg h v = statusWritten64 cfg h v := by rw [mstatusWritten, hx]

theorem mstatusWritten_rv32 {cfg : Config} (hx : cfg.xlen = .rv32) (h : Hart) (v : Word) :
    mstatusWritten cfg h v = statusWritten32 cfg h v := by rw [mstatusWritten, hx]

theorem csrWrite_mstatus (s : State) (v : Word) : csrWrite s 0x300#12 v
    = { s.hart with m := { s.hart.m with status := mstatusWritten s.cfg s.hart (trunc s.cfg v) } } := by
  have e : csrWrite s 0x300#12 v = Csr.write s.cfg s.hart (trunc s.cfg v) .mstatus := csrWrite_own s .mstatus v
  rw [e, Csr.write, mstatusWritten]
  cases s.cfg.xlen <;> rfl

theorem csrWrite_mstatush (s : State) (v : Word) : csrWrite s 0x310#12 v
    = { s.hart with m := { s.hart.m with status := statushWritten s.cfg s.hart (trunc s.cfg v) } } :=
  csrWrite_own s .mstatush v

theorem csrWrite_sstatus {s : State} (hv : s.hart.virt = false) (v : Word) : csrWrite s 0x100#12 v
    = { s.hart with m := { s.hart.m with
        status := sstatusWritten (ssActive s.cfg s.hart) s.hart.m.status (trunc s.cfg v) } } :=
  csrWrite_of_virt hv .sstatus v

theorem csrWrite_vsstatus (s : State) (v : Word) : csrWrite s 0x200#12 v
    = { s.hart with vs := { s.hart.vs with
        status := sstatusWritten (ssActiveVS s.cfg s.hart) s.hart.vs.status (trunc s.cfg v) } } :=
  csrWrite_own s .vsstatus v

/-- Settles O17: on RV64 the word stored is the one R128 describes. -/
theorem writeMstatusRv64 : Obligations.WriteMstatusRv64 := by
  intro s v hx h' sdt' mdt'
  have e : h' = _ := csrWrite_mstatus s v
  rw [mstatusWritten_rv64 hx, trunc_rv64 hx] at e
  obtain ⟨h24, h1, h45, h3⟩ := statusWritten64_bits s.cfg s.hart v
  rw [e]
  exact ⟨h24, h1, h45, h3, rfl⟩

/-- Settles O18: on RV32 each of the two registers keeps the half of the other, but for `MIE`. -/
theorem writeMstatusRv32 : Obligations.WriteMstatusRv32 := by
  intro s v hx h' h'' sdt' mdt'
  have e : h' = _ := csrWrite_mstatus s v
  have e' : h'' = _ := csrWrite_mstatush s v
  rw [mstatusWritten_rv32 hx] at e
  obtain ⟨h24, h1, h45, h3⟩ := statusWritten32_bits s.cfg s.hart (trunc s.cfg v)
  obtain ⟨hh45, hh3⟩ := statushWritten_bits s.cfg s.hart (trunc s.cfg v)
  rw [bit_trunc_low (by decide)] at h24 hh45
  rw [bit_trunc_low (by decide), bit_trunc_low (by decide)] at h1
  rw [bit_trunc_low (by decide)] at h3 hh3
  rw [e, e']
  refine ⟨h24, h1, h3, h45, fun j hj => statusWritten32_high _ _ _ j hj, rfl, hh45, hh3, fun j hj hne => ?_, rfl⟩
  refine statushWritten_kept s.cfg s.hart _ j ?_
  simp only [List.mem_cons, List.not_mem_nil, or_false]
  omega

/-- What an explicit write of `v` leaves in `SDT` and `SIE` of a status word, `trunc` taken away (R130, R131). -/
theorem sstatusWritten_trunc_bits (cfg : Config) (active : Bool) (old v : Word) :
    bit (sstatusWritten active old (trunc cfg v)) 24 = (active && bit v 24)
      ∧ bit (sstatusWritten active old (trunc cfg v)) 1 = (!(active && bit v 24) && bit v 1) := by
  obtain ⟨h24, h1, _⟩ := sstatusWritten_bits active old (trunc cfg v)
  rw [h24, h1, bit_trunc_low (by decide), bit_trunc_low (by decide)]
  exact ⟨rfl, rfl⟩

/-- Settles O19: with `V` = 0 the word stored is a view's write of `mstatus`, which keeps `MDT` and `MIE`. -/
theorem writeSstatus : Obligations.WriteSstatus := by
  intro s v
  refine ⟨fun hv => csrWrite_guest hv .sstatus v, fun hv => ?_⟩
  intro h' sdt'
  have e : h' = _ := csrWrite_sstatus hv v
  obtain ⟨h24, h1⟩ := sstatusWritten_trunc_bits s.cfg (ssActive s.cfg s.hart) s.hart.m.status v
  obtain ⟨_, _, hk⟩ := sstatusWritten_bits (ssActive s.cfg s.hart) s.hart.m.status (trunc s.cfg v)
  rw [e]
  exact ⟨h24, h1, hk, congrArg (s.cfg.hasSmdbltrp && ·) (hk 45 (by decide)), hk 3 (by decide), rfl⟩

/-- Settles O20: both addresses reach `vsstatus`. -/
theorem writeVsstatus : Obligations.WriteVsstatus := by
  intro s v a ha h' active sdt'
  have e : h' = csrWrite s 0x200#12 v := by
    rcases ha with rfl | ⟨rfl, hv⟩
    · rfl
    · exact csrWrite_guest hv .sstatus v
  have hactive : ssActiveVS s.cfg s.hart = active := by
    simp only [active, ssActiveVS, ssActive, bitDTE, Bool.and_assoc, Bool.and_left_comm]
  obtain ⟨h24, h1⟩ := sstatusWritten_trunc_bits s.cfg (ssActiveVS s.cfg s.hart) s.hart.vs.status v
  rw [hactive] at h24 h1
  rw [e, csrWrite_vsstatus, hactive]
  exact ⟨h24, h1, rfl⟩

/-! ### `menvcfg` and `henvcfg` (R133, R134) -/

/-- A half moved up takes nothing from above bit 31 with it (R36). -/
theorem trunc_shiftLeft (cfg : Config) (v : Word) : trunc cfg v <<< 32 = v <<< 32 := by
  apply eq_of_bits
  intro j
  simp only [bit_shiftLeft]
  by_cases hj : j < 64
  · rw [bit_trunc_low (by omega)]
  · simp [hj]

theorem csrWrite_menvcfg_rv64 {s : State} (hx : s.cfg.xlen = .rv64) (v : Word) : csrWrite s 0x30A#12 v
    = writeMenvcfgDte s.cfg (maskOf (envcfgPlainLow ++ envcfgPlainHigh)) v s.hart := by
  have e : csrWrite s 0x30A#12 v = Csr.write s.cfg s.hart (trunc s.cfg v) .menvcfg := csrWrite_own s .menvcfg v
  rw [e, Csr.write, hx, trunc_rv64 hx]

theorem csrWrite_menvcfg_rv32 {s : State} (hx : s.cfg.xlen = .rv32) (v : Word) : csrWrite s 0x30A#12 v
    = { s.hart with m := { s.hart.m with
        envcfg := merge (maskOf envcfgPlainLow) s.hart.m.envcfg (trunc s.cfg v) } } := by
  have e : csrWrite s 0x30A#12 v = Csr.write s.cfg s.hart (trunc s.cfg v) .menvcfg := csrWrite_own s .menvcfg v
  rw [e, Csr.write, hx]

theorem csrWrite_menvcfgh (s : State) (v : Word) :
    csrWrite s 0x31A#12 v = writeMenvcfgDte s.cfg (maskOf envcfgPlainHigh) (v <<< 32) s.hart := by
  rw [← trunc_shiftLeft s.cfg]; exact csrWrite_own s .menvcfgh v

theorem csrWrite_henvcfg_rv64 {s : State} (hx : s.cfg.xlen = .rv64) (v : Word) : csrWrite s 0x60A#12 v
    = writeHenvcfgDte s.cfg (maskOf (envcfgPlainLow ++ envcfgPlainHigh)) v s.hart := by
  have e : csrWrite s 0x60A#12 v = Csr.write s.cfg s.hart (trunc s.cfg v) .henvcfg := csrWrite_own s .henvcfg v
  rw [e, Csr.write, hx, trunc_rv64 hx]

theorem csrWrite_henvcfg_rv32 {s : State} (hx : s.cfg.xlen = .rv32) (v : Word) : csrWrite s 0x60A#12 v
    = { s.hart with hs := { s.hart.hs with
        envcfg := merge (maskOf envcfgPlainLow) s.hart.hs.envcfg (trunc s.cfg v) } } := by
  have e : csrWrite s 0x60A#12 v = Csr.write s.cfg s.hart (trunc s.cfg v) .henvcfg := csrWrite_own s .henvcfg v
  rw [e, Csr.write, hx]

theorem csrWrite_henvcfgh (s : State) (v : Word) :
    csrWrite s 0x61A#12 v = writeHenvcfgDte s.cfg (maskOf envcfgPlainHigh) (v <<< 32) s.hart := by
  rw [← trunc_shiftLeft s.cfg]; exact csrWrite_own s .henvcfgh v

theorem bit_shiftLeft_dte (v : Word) : bit (v <<< 32) 59 = bit v 27 := by simp [bit_shiftLeft]

/-- The write that covers `menvcfg.DTE` on either width: its value holds `DTE` at bit 59, and on RV32 it reaches the high half only. -/
theorem csrWrite_menvcfg_dte {s : State} {a : CsrAddr} {b : Nat}
    (hab : (s.cfg.xlen = .rv64 ∧ a = 0x30A#12 ∧ b = 59) ∨ (s.cfg.xlen = .rv32 ∧ a = 0x31A#12 ∧ b = 27)) (v : Word) :
    ∃ l w, csrWrite s a v = writeMenvcfgDte s.cfg (maskOf l) w s.hart ∧ bit w 59 = bit v b
      ∧ (s.cfg.xlen = .rv32 → ∀ j ∈ l, 32 ≤ j) := by
  rcases hab with ⟨hx, rfl, rfl⟩ | ⟨hx, rfl, rfl⟩
  · exact ⟨_, _, csrWrite_menvcfg_rv64 hx v, rfl, fun h32 => nomatch hx.symm.trans h32⟩
  · exact ⟨_, _, csrWrite_menvcfgh s v, bit_shiftLeft_dte v, fun _ => by decide⟩

/-- The same of `henvcfg`. -/
theorem csrWrite_henvcfg_dte {s : State} {a : CsrAddr} {b : Nat}
    (hab : (s.cfg.xlen = .rv64 ∧ a = 0x60A#12 ∧ b = 59) ∨ (s.cfg.xlen = .rv32 ∧ a = 0x61A#12 ∧ b = 27)) (v : Word) :
    ∃ l w, csrWrite s a v = writeHenvcfgDte s.cfg (maskOf l) w s.hart ∧ bit w 59 = bit v b
      ∧ (s.cfg.xlen = .rv32 → ∀ j ∈ l, 32 ≤ j) := by
  rcases hab with ⟨hx, rfl, rfl⟩ | ⟨hx, rfl, rfl⟩
  · exact ⟨_, _, csrWrite_henvcfg_rv64 hx v, rfl, fun h32 => nomatch hx.symm.trans h32⟩
  · exact ⟨_, _, csrWrite_henvcfgh s v, bit_shiftLeft_dte v, fun _ => by decide⟩

/-- A write to the high half keeps the low one (R36, R42). -/
theorem bit_envcfgWritten_low {l : List Nat} (hl : ∀ j ∈ l, 32 ≤ j) (old v : Word) (dte : Bool) {j : Nat} (hj : j < 32) :
    bit (setBit (merge (maskOf l) old v) bitDTE dte) j = bit old j := by
  have hne : j ≠ bitDTE := by unfold bitDTE; omega
  have hm : j ∉ l := fun hm => Nat.not_le.2 hj (hl j hm)
  rw [bit_setBit_other _ _ _ _ hne, bitsKept_merge_maskOf l old v j hm]

/-- A write to the low half keeps the high one (R36, R42). -/
theorem bit_envcfgLow_high (old v : Word) {j : Nat} (hj : 32 ≤ j) :
    bit (merge (maskOf envcfgPlainLow) old v) j = bit old j :=
  bitsKept_merge_maskOf _ old v j fun hm => Nat.not_lt.2 hj ((by decide : ∀ k ∈ envcfgPlainLow, k < 32) j hm)

/-- Settles O21: the two writes that cover a `DTE`, and on RV32 the two that do not. -/
theorem writeDte : Obligations.WriteDte := by
  intro s v c h
  refine ⟨fun a b hab => ?_, fun hx => ?_, fun a b hab => ?_, fun hx => ?_⟩ <;> intro h'
  · -- `menvcfg.DTE`
    intro dte'
    obtain ⟨l, w, e, hw, hl⟩ := csrWrite_menvcfg_dte hab v
    have e : h' = writeMenvcfgDte c (maskOf l) w h := e
    obtain ⟨hdte, hsie, hvsSie, hoff, hon⟩ := writeMenvcfgDte_bits c (maskOf l) w h
    rw [hw] at hdte hoff hon
    rw [e]
    refine ⟨hdte, hsie, hvsSie, fun hd => ?_, hon, fun hx j hj => ?_⟩
    · obtain ⟨hsdt, hhdte, hvsSdt, hkm, hkh, hkv⟩ := hoff hd
      exact ⟨hsdt, hhdte, hvsSdt, hkm, hkh, hkv, writeMenvcfgDte_frame ..⟩
    · rw [writeMenvcfgDte_envcfg]
      exact bit_envcfgWritten_low (hl hx) _ _ _ hj
  · -- the low half of `menvcfg` on RV32
    have e : h' = _ := csrWrite_menvcfg_rv32 hx v
    rw [e]
    exact ⟨fun j hj => bit_envcfgLow_high _ _ hj, rfl⟩
  · -- `henvcfg.DTE`
    intro hdte'
    obtain ⟨l, w, e, hw, hl⟩ := csrWrite_henvcfg_dte hab v
    have e : h' = writeHenvcfgDte c (maskOf l) w h := e
    obtain ⟨hdte, hoff, hon, hframe⟩ := writeHenvcfgDte_bits c (maskOf l) w h
    rw [hw] at hdte hoff hon
    rw [e]
    refine ⟨hdte, hoff, hon, fun hx j hj => ?_, hframe⟩
    rw [writeHenvcfgDte_envcfg]
    exact bit_envcfgWritten_low (hl hx) _ _ _ hj
  · -- the low half of `henvcfg` on RV32
    have e : h' = _ := csrWrite_henvcfg_rv32 hx v
    rw [e]
    exact ⟨fun j hj => bit_envcfgLow_high _ _ hj, rfl⟩

end Sys2Proof.Machine

/-! PROOF. PlainCsrWrites: the registers that hold the value written, and which bits of each status and configuration word an explicit write stores and which it keeps. -/

namespace Sys2Proof.Machine

open Sys2Proof.Safety

/-! ### Lists of bits -/

theorem bitsKept_mono {k l : List Nat} {w w' : Word} (hk : bitsKept k w w') (hl : ∀ j ∈ k, j ∈ l) : bitsKept l w w' :=
  fun j hj => hk j fun hm => hj (hl j hm)

theorem bitsStored_mono {k l : List Nat} {v w : Word} (hk : bitsStored k v w) (hl : ∀ j ∈ l, j ∈ k) : bitsStored l v w :=
  fun j hj => hk j (hl j hj)

/-- What is stored of the `XLEN`-bit value written is stored of the value, below bit 32. -/
theorem bitsStored_of_trunc {cfg : Config} {l : List Nat} {v w : Word} (hs : bitsStored l (trunc cfg v) w)
    (hl : ∀ j ∈ l, j < 32) : bitsStored l v w :=
  fun j hj => (hs j hj).trans (bit_trunc_low (hl j hj))

theorem field2_trunc_low {cfg : Config} {v : Word} {lo : Nat} (h : lo + 1 < 32) :
    field2 (trunc cfg v) lo = field2 v lo := by
  obtain ⟨h0, h1⟩ := (field2_eq v lo _).1 rfl
  rw [field2_eq, bit_trunc_low (Nat.lt_of_succ_lt h), bit_trunc_low h]
  exact ⟨h0, h1⟩

/-! ### `mstatus` on both widths (R128, R129; assumption logs 7 and 8) -/

theorem mstatusWritten_stored (cfg : Config) (h : Hart) (v : Word) :
    bitsStored statusPlainLow v (mstatusWritten cfg h v)
      ∧ bitsKept ([1, 3, 11, 12, 24, 45] ++ statusPlainLow ++ statusPlainHigh) h.m.status (mstatusWritten cfg h v) := by
  cases hx : cfg.xlen
  · rw [mstatusWritten_rv32 hx]
    obtain ⟨hs, hk⟩ := statusWritten32_stored cfg h v
    exact ⟨hs, bitsKept_mono hk (by decide)⟩
  · rw [mstatusWritten_rv64 hx]
    obtain ⟨hs, hk⟩ := statusWritten64_stored cfg h v
    exact ⟨bitsStored_mono hs (by decide), hk⟩

theorem mpp_mstatusWritten (cfg : Config) (h : Hart) (v : Word) :
    field2 (mstatusWritten cfg h v) 11 = privilegeStored cfg (mpp h) (field2 v 11) := by
  cases hx : cfg.xlen
  · rw [mstatusWritten_rv32 hx, mpp_statusWritten32]
  · rw [mstatusWritten_rv64 hx, mpp_statusWritten64]

theorem mpp_csrWrite_mstatus (s : State) (v : Word) :
    mpp (csrWrite s 0x300#12 v) = privilegeStored s.cfg (mpp s.hart) (field2 v 11) := by
  rw [csrWrite_mstatus]
  exact (mpp_mstatusWritten ..).trans (by rw [field2_trunc_low (by decide)])

theorem csrWrite_mstatus_stored (s : State) (v : Word) :
    bitsStored statusPlainLow v (csrWrite s 0x300#12 v).m.status
      ∧ bitsKept ([1, 3, 11, 12, 24, 45] ++ statusPlainLow ++ statusPlainHigh) s.hart.m.status
          (csrWrite s 0x300#12 v).m.status := by
  rw [csrWrite_mstatus]
  obtain ⟨hs, hk⟩ := mstatusWritten_stored s.cfg s.hart (trunc s.cfg v)
  exact ⟨bitsStored_of_trunc hs (by decide), hk⟩

/-- The named fields above bit 31: in `mstatus` on RV64, in `mstatush` on RV32 (R28, R34). -/
theorem csrWrite_mstatus_stored_high {s : State} (hx : s.cfg.xlen = .rv64) (v : Word) :
    bitsStored statusPlainHigh v (csrWrite s 0x300#12 v).m.status := by
  rw [csrWrite_mstatus, mstatusWritten_rv64 hx, trunc_rv64 hx]
  exact bitsStored_mono (statusWritten64_stored s.cfg s.hart v).1 (by decide)

theorem csrWrite_mstatush_stored (s : State) (v : Word) :
    bitsStored statusPlainHigh (v <<< 32) (csrWrite s 0x310#12 v).m.status := by
  rw [csrWrite_mstatush, ← trunc_shiftLeft s.cfg]
  exact statushWritten_stored s.cfg s.hart _

/-! ### `sstatus` and `vsstatus` (R130, R131) -/

theorem csrWrite_sstatus_stored {s : State} (hv : s.hart.virt = false) (v : Word) :
    bitsStored sstatusPlain v (csrWrite s 0x100#12 v).m.status := by
  rw [csrWrite_sstatus hv]
  exact bitsStored_of_trunc (sstatusWritten_stored ..).1 (by decide)

theorem csrWrite_vsstatus_stored (s : State) (v : Word) :
    bitsStored sstatusPlain v (csrWrite s 0x200#12 v).vs.status
      ∧ bitsKept ([1, 24] ++ sstatusPlain) s.hart.vs.status (csrWrite s 0x200#12 v).vs.status := by
  rw [csrWrite_vsstatus]
  obtain ⟨hs, hk⟩ := sstatusWritten_stored (ssActiveVS s.cfg s.hart) s.hart.vs.status (trunc s.cfg v)
  exact ⟨bitsStored_of_trunc hs (by decide), hk⟩

/-! ### `menvcfg` and `henvcfg` (R133, R134; assumption log 7) -/

theorem csrWrite_menvcfg_stored (s : State) (v : Word) :
    bitsStored envcfgPlainLow v (csrWrite s 0x30A#12 v).m.envcfg
      ∧ bitsKept (59 :: (envcfgPlainLow ++ envcfgPlainHigh)) s.hart.m.envcfg (csrWrite s 0x30A#12 v).m.envcfg
      ∧ (s.cfg.xlen = .rv64 → bitsStored envcfgPlainHigh v (csrWrite s 0x30A#12 v).m.envcfg) := by
  cases hx : s.cfg.xlen
  · rw [csrWrite_menvcfg_rv32 hx]
    obtain ⟨hs, hk⟩ := envcfgLow_stored s.hart.m.envcfg (trunc s.cfg v)
    exact ⟨bitsStored_of_trunc hs (by decide), bitsKept_mono hk (by decide), nofun⟩
  · rw [csrWrite_menvcfg_rv64 hx, writeMenvcfgDte_envcfg]
    obtain ⟨hs, hk⟩ := envcfg_stored (envcfgPlainLow ++ envcfgPlainHigh) (by decide) s.hart.m.envcfg v
      (s.cfg.hasSsdbltrp && bit v bitDTE)
    exact ⟨bitsStored_mono hs (by decide), hk, fun _ => bitsStored_mono hs (by decide)⟩

theorem csrWrite_henvcfg_stored (s : State) (v : Word) :
    bitsStored envcfgPlainLow v (csrWrite s 0x60A#12 v).hs.envcfg
      ∧ bitsKept (59 :: (envcfgPlainLow ++ envcfgPlainHigh)) s.hart.hs.envcfg (csrWrite s 0x60A#12 v).hs.envcfg
      ∧ (s.cfg.xlen = .rv64 → bitsStored envcfgPlainHigh v (csrWrite s 0x60A#12 v).hs.envcfg) := by
  cases hx : s.cfg.xlen
  · rw [csrWrite_henvcfg_rv32 hx]
    obtain ⟨hs, hk⟩ := envcfgLow_stored s.hart.hs.envcfg (trunc s.cfg v)
    exact ⟨bitsStored_of_trunc hs (by decide), bitsKept_mono hk (by decide), nofun⟩
  · rw [csrWrite_henvcfg_rv64 hx, writeHenvcfgDte_envcfg]
    obtain ⟨hs, hk⟩ := envcfg_stored (envcfgPlainLow ++ envcfgPlainHigh) (by decide) s.hart.hs.envcfg v
      (ssActive s.cfg s.hart && s.cfg.hasH && bit v bitDTE)
    exact ⟨bitsStored_mono hs (by decide), hk, fun _ => bitsStored_mono hs (by decide)⟩

theorem csrWrite_menvcfgh_stored (s : State) (v : Word) :
    bitsStored envcfgPlainHigh (v <<< 32) (csrWrite s 0x31A#12 v).m.envcfg := by
  rw [csrWrite_menvcfgh, writeMenvcfgDte_envcfg]
  exact (envcfg_stored envcfgPlainHigh (by decide) _ _ _).1

theorem csrWrite_henvcfgh_stored (s : State) (v : Word) :
    bitsStored envcfgPlainHigh (v <<< 32) (csrWrite s 0x61A#12 v).hs.envcfg := by
  rw [csrWrite_henvcfgh, writeHenvcfgDte_envcfg]
  exact (envcfg_stored envcfgPlainHigh (by decide) _ _ _).1

/-! ### `hstatus`, `mnstatus` and `dcsr` (R40, R44, R45, R136, R137) -/

theorem csrWrite_hstatus (s : State) (v : Word) : csrWrite s 0x600#12 v
    = { s.hart with hs := { s.hart.hs with status := merge (maskOf hstatusPlain) s.hart.hs.status (trunc s.cfg v) } } :=
  csrWrite_own s .hstatus v

theorem csrWrite_mnstatus (s : State) (v : Word) : csrWrite s 0x744#12 v
    = { s.hart with nm := { s.hart.nm with status := mnstatusWritten s.cfg s.hart.nm.status (trunc s.cfg v) } } :=
  csrWrite_own s .mnstatus v

theorem csrWrite_dcsr (s : State) (v : Word) : csrWrite s 0x7B0#12 v
    = { s.hart with dbg := { s.hart.dbg with dcsr := dcsrWritten s.cfg s.hart.dbg.dcsr (trunc s.cfg v) } } :=
  csrWrite_own s .dcsr v

theorem bitsStored_merge_maskOf {l : List Nat} (hl : ∀ j ∈ l, j < 64) (w v : Word) :
    bitsStored l v (merge (maskOf l) w v) :=
  fun j hj => by simp [bit_merge, bit_maskOf, hl j hj, hj]

theorem csrWrite_hstatus_stored (s : State) (v : Word) :
    bitsStored hstatusPlain v (csrWrite s 0x600#12 v).hs.status
      ∧ bitsKept hstatusPlain s.hart.hs.status (csrWrite s 0x600#12 v).hs.status := by
  rw [csrWrite_hstatus]
  exact ⟨bitsStored_of_trunc (bitsStored_merge_maskOf (by decide) _ _) (by decide), bitsKept_merge_maskOf _ _ _⟩

/-- `NMIE` can be set and not cleared (R137). -/
theorem nmie_csrWrite_mnstatus (s : State) (v : Word) :
    nmie (csrWrite s 0x744#12 v) = (nmie s.hart || bit v 3) := by
  rw [csrWrite_mnstatus]
  have e : bit (mnstatusWritten s.cfg s.hart.nm.status (trunc s.cfg v)) 3
      = (bit s.hart.nm.status 3 || bit (trunc s.cfg v) 3) := bit_setBit_same _ _ _ (by decide)
  rw [bit_trunc_low (by decide)] at e
  exact e

theorem csrWrite_mnstatus_stored (s : State) (v : Word) :
    mnpv (csrWrite s 0x744#12 v) = bit v 7
      ∧ mnpp (csrWrite s 0x744#12 v) = privilegeStored s.cfg (mnpp s.hart) (field2 v 11)
      ∧ bitsKept [3, 7, 11, 12] s.hart.nm.status (csrWrite s 0x744#12 v).nm.status := by
  rw [csrWrite_mnstatus]
  obtain ⟨hv, hp, hk⟩ := mnstatusWritten_stored s.cfg s.hart.nm.status (trunc s.cfg v)
  rw [bit_trunc_low (by decide)] at hv
  rw [field2_trunc_low (by decide)] at hp
  exact ⟨hv, hp, hk⟩

theorem csrWrite_dcsr_stored (s : State) (v : Word) :
    (∀ j ∈ dcsrPlain, (csrWrite s 0x7B0#12 v).dbg.dcsr.getLsbD j = bit v j)
      ∧ dcsrPrv (csrWrite s 0x7B0#12 v) = privilegeStored s.cfg (dcsrPrv s.hart) (field2 v 0)
      ∧ dcsrV (csrWrite s 0x7B0#12 v)
          = (s.cfg.hasH && bit v 5 && Priv.ofCode (dcsrPrv (csrWrite s 0x7B0#12 v)) != .m)
      ∧ dcsrKept ([0, 1, 5] ++ dcsrPlain) s.hart (csrWrite s 0x7B0#12 v) := by
  rw [csrWrite_dcsr]
  obtain ⟨hs, hp, hv, hk⟩ := dcsrWritten_bits s.cfg s.hart.dbg.dcsr (trunc s.cfg v)
  rw [field2_trunc_low (by decide)] at hp
  rw [bit_trunc_low (by decide)] at hv
  exact ⟨fun j hj => (hs j hj).trans (bit_trunc_low ((by decide : ∀ k ∈ dcsrPlain, k < 32) j hj)), hp, hv, hk⟩

/-- `pcerr` reads the same after an explicit write to `dcsr` (R136). -/
theorem pcerr_read_after_csrWrite_dcsr (s : State) (v : Word) :
    bit (csrRead { s with hart := csrWrite s 0x7B0#12 v } 0x7B0#12) 19 = pcerr s.cfg s.hart := by
  rw [csrRead_dcsr, bit_dcsrView_pcerr]
  show pcerr s.cfg (csrWrite s (Csr.address .dcsr) v) = _
  rw [csrWrite_own s .dcsr, pcerr_csrWrite]

/-- Settles O23: each clause is the write at its address; of a word that is not wholly writable, its bits. -/
theorem plainCsrWrites : Obligations.PlainCsrWrites := by
  intro s v h w guest
  have nv : ¬guest → s.hart.virt = false := Bool.eq_false_iff.2
  have legal : ∀ {old : BitVec 2} {lo : Nat}, legalPrivilege s.cfg (field2 v lo) = true →
      privilegeStored s.cfg old (field2 v lo) = field2 v lo := fun hl => privilegeStored_of_legal _ hl
  obtain ⟨mstatusStored, mstatusKept⟩ := csrWrite_mstatus_stored s v
  obtain ⟨vsstatusStored, vsstatusKept⟩ := csrWrite_vsstatus_stored s v
  obtain ⟨menvcfgStored, menvcfgKept, menvcfgHigh⟩ := csrWrite_menvcfg_stored s v
  obtain ⟨henvcfgStored, henvcfgKept, henvcfgHigh⟩ := csrWrite_henvcfg_stored s v
  obtain ⟨hstatusStored, hstatusKept⟩ := csrWrite_hstatus_stored s v
  obtain ⟨mnpvStored, mnppStored, mnstatusKept⟩ := csrWrite_mnstatus_stored s v
  obtain ⟨dcsrStored, prvStored, dcsrVStored, dcsrKept⟩ := csrWrite_dcsr_stored s v
  have mstatushKept : bitsKept [3, 36, 37, 38, 39, 45] h.m.status (csrWrite s 0x310#12 v).m.status := by
    rw [csrWrite_mstatush]; exact statushWritten_kept s.cfg h _
  exact ⟨pcerr_read_after_csrWrite_dcsr s v, by rw [csrWrite_dcsr], csrWrite_own s .dpc v,
    nmie_csrWrite_mnstatus s v, by rw [csrWrite_mnstatus], fun hl => (mpp_csrWrite_mstatus s v).trans (legal hl),
    mstatushKept, csrWrite_own s .mtvec v, csrWrite_own s .mideleg v, csrWrite_own s .mcause v,
    csrWrite_own s .mtval2 v, csrWrite_own s .mtinst v, csrWrite_own s .mtval v, csrWrite_own s .mepc v,
    csrWrite_own s .mncause v, csrWrite_own s .mnepc v, csrWrite_own s .mnscratch v,
    fun hg => ⟨csrWrite_of_virt (nv hg) .stvec v, csrWrite_of_virt (nv hg) .sepc v,
      csrWrite_of_virt (nv hg) .scause v, csrWrite_of_virt (nv hg) .stval v⟩,
    fun hg => ⟨csrWrite_guest hg .stvec v, csrWrite_guest hg .sepc v, csrWrite_guest hg .scause v,
      csrWrite_guest hg .stval v⟩,
    csrWrite_own s .vstvec v, csrWrite_own s .vsepc v, csrWrite_own s .vscause v, csrWrite_own s .vstval v,
    csrWrite_own s .hideleg v, csrWrite_own s .htval v, csrWrite_own s .htinst v,
    hstatusStored, hstatusKept, by rw [csrWrite_hstatus],
    mstatusStored, fun hx => csrWrite_mstatus_stored_high hx v, fun _ => csrWrite_mstatush_stored s v,
    bitsKept_mono mstatusKept (by decide), fun hg => csrWrite_sstatus_stored (nv hg) v, vsstatusStored,
    bitsKept_mono vsstatusKept (by decide), menvcfgStored, henvcfgStored,
    fun hx => ⟨menvcfgHigh hx, henvcfgHigh hx⟩,
    fun _ => ⟨csrWrite_menvcfgh_stored s v, csrWrite_henvcfgh_stored s v⟩,
    bitsKept_mono menvcfgKept (by decide), bitsKept_mono henvcfgKept (by decide),
    mnpvStored, fun hl => mnppStored.trans (legal hl), mnstatusKept,
    fun j hj => dcsrStored j ((by decide : ∀ k ∈ [2, 4, 9, 10, 11, 12, 13, 15, 16, 17], k ∈ dcsrPlain) j hj),
    fun hl => prvStored.trans (legal hl), dcsrVStored,
    fun j hj => dcsrKept j fun hm => hj ((by decide : ∀ k ∈ [0, 1, 5] ++ dcsrPlain,
      k ∈ [0, 1, 2, 4, 5, 9, 10, 11, 12, 13, 15, 16, 17]) j hm)⟩

end Sys2Proof.Machine

/-! PROOF. Csrrw, Csrrs, Csrrc, Csrrwi, Csrrsi, Csrrci: what all six have in common, what the value written holds bit by bit, and what that leaves in the status words. -/

namespace Sys2Proof.Machine

open Sys2Proof.Safety

/-! ### The effect and the failures, for every form (R120 to R125, R138) -/

theorem csrInstr_of_granted {a : CsrAddr} {form : CsrForm} {field : Nat} {s : State}
    (hg : csrAccess s.cfg s.hart a (csrWrites form field) = .granted) (i : Instr) (rd : Nat) (m : Word) :
    csrInstr i rd a form field m s = s.setHart (retire (advancePc s.cfg (writeReg s.cfg rd (csrRead s a)
      (if csrWrites form field then csrWrite s a (csrNewValue form (csrRead s a) m) else s.hart)))) := by
  unfold csrInstr; rw [hg]

/-- The end of a CSR instruction touches `x[rd]`, `pc` and the count of retired instructions only. -/
theorem retire_advancePc_writeReg_frame (cfg : Config) (rd : Nat) (v : Word) (h : Hart) :
    { retire (advancePc cfg (writeReg cfg rd v h)) with x := h.x, pc := h.pc, retired := h.retired } = h := by
  unfold writeReg; split <;> rfl

theorem csrEffect_of_exec {i : Instr} {rd : Nat} {a : CsrAddr} {form : CsrForm} {field : Nat} {m : Word} {s : State}
    (he : exec i s = .next (csrInstr i rd a form field m s)) (hrd : rd < 32) :
    csrEffect i rd a (csrWrites form field) (csrNewValue form · m) s := by
  intro hg
  rw [csrInstr_of_granted hg] at he
  generalize hh : (if csrWrites form field then csrWrite s a (csrNewValue form (csrRead s a) m) else s.hart) = h at he ⊢
  obtain ⟨hx, hpc, hret⟩ : h.x = s.hart.x ∧ h.pc = s.hart.pc ∧ h.retired = s.hart.retired := by
    rw [← hh]
    split
    · exact ⟨csrWrite_x .., csrWrite_pc .., csrWrite_retired ..⟩
    · exact ⟨rfl, rfl, rfl⟩
  refine ⟨_, he, ⟨rfl, rfl, rfl, rfl, rfl, fun _ => rfl⟩, ?_, fun r => ?_, ?_⟩
  · simp [hpc]
  · have hcongr : readReg s.cfg (retire (advancePc s.cfg (writeReg s.cfg rd (csrRead s a) h))) r
        = readReg s.cfg (writeReg s.cfg rd (csrRead s a) h) r := readReg_congr _ rfl r
    rw [State.setHart_hart, hcongr, readReg_writeReg, trunc_csrRead, readReg_congr _ hx]
    simp [hrd]
  · rw [← hx, ← hpc, ← hret]
    exact retire_advancePc_writeReg_frame ..

theorem csrTurnedAway_of_exec {i : Instr} {rd : Nat} {a : CsrAddr} {form : CsrForm} {field : Nat} {m : Word} {s : State}
    (he : exec i s = .next (csrInstr i rd a form field m s)) : csrTurnedAway i a (csrWrites form field) s := by
  refine ⟨fun ha => ?_, fun ha => ?_⟩ <;> rw [he, csrInstr, ha] <;> rfl

/-- `P` looks at no integer register, not at `pc` and not at the count of retired instructions. -/
def SeesCsrsOnly (P : Config → Hart → Prop) : Prop :=
  ∀ cfg h x pc retired, P cfg { h with x := x, pc := pc, retired := retired } → P cfg h

/-- What holds of the CSRs after the explicit write of a granted instruction holds after the instruction. -/
theorem exec_granted {P : Config → Hart → Prop} {i : Instr} {rd : Nat} {a : CsrAddr} {form : CsrForm} {field : Nat}
    {m : Word} {s : State} (he : exec i s = .next (csrInstr i rd a form field m s)) (hP : SeesCsrsOnly P)
    (hg : csrAccess s.cfg s.hart a (csrWrites form field) = .granted)
    (h : P s.cfg (if csrWrites form field then csrWrite s a (csrNewValue form (csrRead s a) m) else s.hart)) :
    ∃ t, exec i s = .next t ∧ P t.cfg t.hart := by
  rw [csrInstr_of_granted hg] at he
  exact ⟨_, he, hP _ _ _ _ _ ((congrArg (P s.cfg) (retire_advancePc_writeReg_frame ..)).mpr h)⟩

theorem exec_granted_write {P : Config → Hart → Prop} {i : Instr} {rd : Nat} {a : CsrAddr} {form : CsrForm} {field : Nat}
    {m : Word} {s : State} (he : exec i s = .next (csrInstr i rd a form field m s)) (hP : SeesCsrsOnly P)
    (hw : csrWrites form field = true) (hg : csrAccess s.cfg s.hart a true = .granted)
    (h : P s.cfg (csrWrite s a (csrNewValue form (csrRead s a) m))) : ∃ t, exec i s = .next t ∧ P t.cfg t.hart :=
  exec_granted he hP (by rw [hw]; exact hg) (by rw [if_pos hw]; exact h)

/-! ### The operand and the value written (R105, R127, R139) -/

theorem immediate_eq {uimm : Nat} (hu : uimm < 32) : immediate uimm = BitVec.ofNat 64 uimm := by
  apply BitVec.eq_of_toNat_eq
  simp [immediate]
  omega

theorem bit_ofNat {n j : Nat} (hj : j < 64) : bit (BitVec.ofNat 64 n) j = n.testBit j := by
  rw [bit, BitVec.getLsbD_ofNat, decide_eq_true hj, Bool.true_and]

/-- A 5-bit immediate has no bit above bit 4. -/
theorem bit_ofNat_high {uimm j : Nat} (hu : uimm < 32) (hj : 5 ≤ j) : bit (BitVec.ofNat 64 uimm) j = false := by
  have hlt : uimm < 2 ^ j := Nat.lt_of_lt_of_le hu (Nat.pow_le_pow_right (n := 2) (by decide) hj)
  rw [bit, BitVec.getLsbD_ofNat, Nat.testBit_lt_two_pow hlt, Bool.and_false]

theorem xlenWide_ofNat (cfg : Config) {uimm : Nat} (hu : uimm < 32) : xlenWide cfg (BitVec.ofNat 64 uimm) :=
  xlenWide_of_bits fun _ _ hj => bit_ofNat_high hu (by omega)

/-- What a form makes of an old bit and a bit of the operand. -/
def CsrForm.combine : CsrForm → Bool → Bool → Bool
  | .write => fun _ c => c
  | .set => fun b c => b || c
  | .clear => fun b c => b && !c

theorem bit_csrNewValue (form : CsrForm) (t m : Word) (j : Nat) :
    bit (csrNewValue form t m) j = form.combine (bit t j) (bit m j) := by
  cases form with
  | write => rfl
  | set => exact bit_or t m j
  | clear =>
    rw [csrNewValue, bit_and, bit_not, CsrForm.combine]
    by_cases hj : j < 64
    · simp [hj]
    · simp [bit_ge _ _ (Nat.le_of_not_lt hj)]

/-- A set or clear form keeps a bit that its mask does not touch (R127). -/
theorem combine_false {form : CsrForm} (hf : form ≠ .write) (b : Bool) : form.combine b false = b := by
  cases form with
  | write => exact absurd rfl hf
  | set => exact Bool.or_false b
  | clear => exact Bool.and_true b

/-- A clear form clears the bits of its mask. -/
theorem combine_clear_true (b : Bool) : CsrForm.clear.combine b true = false := Bool.and_false b

/-! ### `SDT`, `SIE`, `MDT` and `MIE` after an explicit write (R128 to R132) -/

/-- The stored bits of R128, R131, as the fields that an inactive extension makes 0. -/
theorem flags_of_bits {active : Bool} {w v : Word} (h24 : bit w 24 = (active && bit v 24))
    (h1 : bit w 1 = (!(active && bit v 24) && bit v 1)) :
    (active && bit w 24) = (active && bit v 24) ∧ bit w 1 = (!(active && bit w 24) && bit v 1) := by
  rw [h24, Bool.and_self_left]
  exact ⟨rfl, h1⟩

theorem mstatusWritten_bits (cfg : Config) (h : Hart) (v : Word) :
    bit (mstatusWritten cfg h v) 24 = (ssActive cfg h && bit v 24)
      ∧ bit (mstatusWritten cfg h v) 1 = (!(ssActive cfg h && bit v 24) && bit v 1)
      ∧ bit (mstatusWritten cfg h v) 3 = (!(cfg.hasSmdbltrp && bit (mstatusWritten cfg h v) 45) && bit v 3) := by
  cases hx : cfg.xlen
  · rw [mstatusWritten_rv32 hx]
    obtain ⟨h24, h1, h45, h3⟩ := statusWritten32_bits cfg h v
    exact ⟨h24, h1, by rw [h3, h45]; rfl⟩
  · rw [mstatusWritten_rv64 hx]
    obtain ⟨h24, h1, h45, h3⟩ := statusWritten64_bits cfg h v
    exact ⟨h24, h1, by rw [h3, h45]; cases cfg.hasSmdbltrp <;> rfl⟩

/-- On either width an enable bit is what is written, and 0 beside a disable-trap bit of 1 (R128, R129). -/
theorem csrWrite_mstatus_flags (s : State) (v : Word) : let h' := csrWrite s 0x300#12 v
    sdt s.cfg h' = (ssActive s.cfg s.hart && bit v 24) ∧ sie h' = (!sdt s.cfg h' && bit v 1)
      ∧ mie h' = (!mdt s.cfg h' && bit v 3) := by
  obtain ⟨h24, h1, h3⟩ := mstatusWritten_bits s.cfg s.hart (trunc s.cfg v)
  rw [bit_trunc_low (by decide)] at h24 h3
  rw [bit_trunc_low (by decide), bit_trunc_low (by decide)] at h1
  obtain ⟨hsdt, hsie⟩ := flags_of_bits h24 h1
  rw [csrWrite_mstatus]
  exact ⟨hsdt, hsie, h3⟩

theorem mdt_csrWrite_mstatus_rv64 {s : State} (hx : s.cfg.xlen = .rv64) (v : Word) :
    mdt s.cfg (csrWrite s 0x300#12 v) = (s.cfg.hasSmdbltrp && bit v 45) := by
  obtain ⟨_, _, h45, _⟩ := statusWritten64_bits s.cfg s.hart v
  rw [csrWrite_mstatus, mstatusWritten_rv64 hx, trunc_rv64 hx]
  show (_ && bit (statusWritten64 s.cfg s.hart v) 45) = _
  rw [h45, Bool.and_self_left]

theorem mdt_csrWrite_mstatus_rv32 {s : State} (hx : s.cfg.xlen = .rv32) (v : Word) :
    mdt s.cfg (csrWrite s 0x300#12 v) = mdt s.cfg s.hart := by
  obtain ⟨_, _, h45, _⟩ := statusWritten32_bits s.cfg s.hart (trunc s.cfg v)
  rw [csrWrite_mstatus, mstatusWritten_rv32 hx]
  exact congrArg (s.cfg.hasSmdbltrp && ·) h45

theorem csrWrite_sstatus_flags {s : State} (hv : s.hart.virt = false) (v : Word) : let h' := csrWrite s 0x100#12 v
    sdt s.cfg h' = (ssActive s.cfg s.hart && bit v 24) ∧ sie h' = (!sdt s.cfg h' && bit v 1) := by
  obtain ⟨h24, h1⟩ := sstatusWritten_trunc_bits s.cfg (ssActive s.cfg s.hart) s.hart.m.status v
  rw [csrWrite_sstatus hv]
  exact flags_of_bits h24 h1

theorem csrWrite_vsstatus_flags (s : State) (v : Word) : let h' := csrWrite s 0x200#12 v
    vsSdt s.cfg h' = (ssActiveVS s.cfg s.hart && bit v 24) ∧ vsSie h' = (!vsSdt s.cfg h' && bit v 1) := by
  obtain ⟨h24, h1⟩ := sstatusWritten_trunc_bits s.cfg (ssActiveVS s.cfg s.hart) s.hart.vs.status v
  rw [csrWrite_vsstatus]
  exact flags_of_bits h24 h1

theorem mdt_csrWrite_mstatush (s : State) (v : Word) :
    mdt s.cfg (csrWrite s 0x310#12 v) = (s.cfg.hasSmdbltrp && bit v 13) := by
  obtain ⟨h45, _⟩ := statushWritten_bits s.cfg s.hart (trunc s.cfg v)
  rw [bit_trunc_low (by decide)] at h45
  rw [csrWrite_mstatush]
  show (_ && bit (statushWritten s.cfg s.hart (trunc s.cfg v)) 45) = _
  rw [h45, Bool.and_self_left]

/-! ### A set or clear form on `mstatus` (R127) -/

theorem bit_csrRead_mstatus_field {s : State} {j : Nat} (hj : j < xlenBits s.cfg)
    (hne : j ≠ 24 ∧ j ≠ 45 ∧ j ≠ 31 ∧ j ≠ 63) : bit (csrRead s 0x300#12) j = bit s.hart.m.status j := by
  obtain ⟨h24, h45, h31, h63⟩ := hne
  rw [bit_csrRead_mstatus hj, bit_statusView]
  simp [h24, h45, ne_top s.cfg h31 h63]

theorem active_and_sdt (cfg : Config) (h : Hart) : (ssActive cfg h && sdt cfg h) = sdt cfg h := by
  rw [sdt, Bool.and_self_left]

theorem active_and_vsSdt (cfg : Config) (h : Hart) : (ssActiveVS cfg h && vsSdt cfg h) = vsSdt cfg h := by
  rw [vsSdt, Bool.and_self_left]

theorem active_and_mdt (cfg : Config) (h : Hart) : (cfg.hasSmdbltrp && mdt cfg h) = mdt cfg h := by
  rw [mdt, Bool.and_self_left]

/-- `MDT` after a set or clear form on `mstatus`: on RV32 an `XLEN`-bit operand does not reach it. -/
theorem mdt_combined {form : CsrForm} (hf : form ≠ .write) {s : State} {m : Word} (hm : xlenWide s.cfg m) :
    mdt s.cfg (csrWrite s 0x300#12 (csrNewValue form (csrRead s 0x300#12) m))
      = (s.cfg.hasSmdbltrp && form.combine (mdt s.cfg s.hart) (bit m 45)) := by
  cases hx : s.cfg.xlen
  · rw [mdt_csrWrite_mstatus_rv32 hx, bit_high_of_xlenWide hm hx (by decide), combine_false hf, active_and_mdt]
  · rw [mdt_csrWrite_mstatus_rv64 hx, bit_csrNewValue, bit_csrRead_mdt hx]

/-- Every plain field ends as the form combines its old bit with the operand's (assumption log 7). -/
theorem plain_combined {form : CsrForm} (hf : form ≠ .write) {s : State} {m : Word} (hm : xlenWide s.cfg m) :
    ∀ j ∈ statusPlainLow ++ statusPlainHigh,
      bit (csrWrite s 0x300#12 (csrNewValue form (csrRead s 0x300#12) m)).m.status j
        = form.combine (bit s.hart.m.status j) (bit m j) := by
  intro j hj
  have stored : j < xlenBits s.cfg → j ∈ statusPlainLow ++ statusPlainHigh →
      bit (csrNewValue form (csrRead s 0x300#12) m) j = form.combine (bit s.hart.m.status j) (bit m j) := fun hlt hj => by
    rw [bit_csrNewValue, bit_csrRead_mstatus_field hlt
      ((by decide : ∀ k ∈ statusPlainLow ++ statusPlainHigh, k ≠ 24 ∧ k ≠ 45 ∧ k ≠ 31 ∧ k ≠ 63) j hj)]
  rcases List.mem_append.1 hj with hlow | hhigh
  · have h32 : j < 32 := (by decide : ∀ k ∈ statusPlainLow, k < 32) j hlow
    exact ((csrWrite_mstatus_stored s _).1 j hlow).trans (stored (lt_xlenBits_of_lt _ h32) hj)
  · obtain ⟨h32, h64⟩ := (by decide : ∀ k ∈ statusPlainHigh, 32 ≤ k ∧ k < 64) j hhigh
    cases hx : s.cfg.xlen
    · rw [csrWrite_mstatus, mstatusWritten_rv32 hx, bit_high_of_xlenWide hm hx h32, combine_false hf]
      exact statusWritten32_high _ _ _ j h32
    · exact (csrWrite_mstatus_stored_high hx _ j hhigh).trans (stored (by rw [xlenBits_rv64 hx]; exact h64) hj)

/-- A legal `MPP` that the mask does not touch is written with its old value, and stays (assumption log 8). -/
theorem mpp_combined {form : CsrForm} (hf : form ≠ .write) {s : State} {m : Word} (hm : field2 m 11 = 0x0#2)
    (hl : legalPrivilege s.cfg (mpp s.hart) = true) :
    mpp (csrWrite s 0x300#12 (csrNewValue form (csrRead s 0x300#12) m)) = mpp s.hart := by
  obtain ⟨m11, m12⟩ := (field2_eq m 11 _).1 hm
  have kept : ∀ j, bit m j = false → j < 32 → j ≠ 24 ∧ j ≠ 45 ∧ j ≠ 31 ∧ j ≠ 63 →
      bit (csrNewValue form (csrRead s 0x300#12) m) j = bit s.hart.m.status j := fun j h0 hj hne => by
    rw [bit_csrNewValue, h0, combine_false hf, bit_csrRead_mstatus_field (lt_xlenBits_of_lt _ hj) hne]
  obtain ⟨e11, e12⟩ := (field2_eq s.hart.m.status 11 _).1 rfl
  have hv : field2 (csrNewValue form (csrRead s 0x300#12) m) 11 = mpp s.hart :=
    (field2_eq _ _ _).2 ⟨(kept 11 m11 (by decide) (by decide)).trans e11, (kept 12 m12 (by decide) (by decide)).trans e12⟩
  rw [mpp_csrWrite_mstatus, hv, privilegeStored_of_legal _ hl]

/-- R127 for `mstatus`, every field at once. -/
theorem statusCombined_csrWrite {form : CsrForm} (hf : form ≠ .write) {s : State} {m : Word} (hm : xlenWide s.cfg m) :
    statusCombined s.cfg form.combine m s.hart (csrWrite s 0x300#12 (csrNewValue form (csrRead s 0x300#12) m)) := by
  obtain ⟨hsdt, hsie, hmie⟩ := csrWrite_mstatus_flags s (csrNewValue form (csrRead s 0x300#12) m)
  have h1 : bit (csrRead s 0x300#12) 1 = sie s.hart :=
    bit_csrRead_mstatus_field (lt_xlenBits_of_lt _ (by decide)) (by decide)
  have h3 : bit (csrRead s 0x300#12) 3 = mie s.hart :=
    bit_csrRead_mstatus_field (lt_xlenBits_of_lt _ (by decide)) (by decide)
  rw [bit_csrNewValue, bit_csrRead_mstatus_sdt] at hsdt
  rw [bit_csrNewValue, h1] at hsie
  rw [bit_csrNewValue, h3] at hmie
  exact ⟨hsdt, mdt_combined hf hm, hsie, hmie, plain_combined hf hm, fun h0 hl => mpp_combined hf h0 hl⟩

end Sys2Proof.Machine

/-! PROOF. Csrrci: a value that agrees with the one read above bit 4 changes no disable-trap bit and no `DTE`, at whatever address it is written. -/

namespace Sys2Proof.Machine

open Sys2Proof.Safety

/-- Every disable-trap bit and both `DTE` bits are as they were (R31, R33, R36, R41, R42). -/
structure TrapDisablesKept (cfg : Config) (h h' : Hart) : Prop where
  sdt : sdt cfg h' = sdt cfg h
  vsSdt : vsSdt cfg h' = vsSdt cfg h
  mdt : mdt cfg h' = mdt cfg h
  ssActive : ssActive cfg h' = ssActive cfg h
  ssActiveVS : ssActiveVS cfg h' = ssActiveVS cfg h

/-- An `SDT` counts only while its extension is active (R175). -/
theorem trapDisablesKept_of_stored {cfg : Config} {h h' : Hart} (ha : ssActive cfg h' = ssActive cfg h)
    (hv : ssActiveVS cfg h' = ssActiveVS cfg h)
    (hs : ssActive cfg h = true → bit h'.m.status 24 = bit h.m.status 24)
    (hvs : ssActiveVS cfg h = true → bit h'.vs.status 24 = bit h.vs.status 24)
    (hm : bit h'.m.status 45 = bit h.m.status 45) : TrapDisablesKept cfg h h' where
  sdt := by
    rw [sdt, sdt, ha]
    cases hb : ssActive cfg h
    · rfl
    · exact hs hb
  vsSdt := by
    rw [vsSdt, vsSdt, hv]
    cases hb : ssActiveVS cfg h
    · rfl
    · exact hvs hb
  mdt := congrArg (cfg.hasSmdbltrp && ·) hm
  ssActive := ha
  ssActiveVS := hv

/-- A write of `menvcfg.DTE` with the value it reads (R133). -/
theorem writeMenvcfgDte_trapDisablesKept {cfg : Config} {h : Hart} {v : Word} (hv : bit v 59 = ssActive cfg h)
    (mask : Word) : TrapDisablesKept cfg h (writeMenvcfgDte cfg mask v h) := by
  obtain ⟨hdte, _, _, hoff, hon⟩ := writeMenvcfgDte_bits cfg mask v h
  have hw : (cfg.hasSsdbltrp && bit v 59) = ssActive cfg h := by rw [hv, ssActive, Bool.and_self_left]
  rw [hw] at hdte hoff hon
  have hactive : ssActive cfg (writeMenvcfgDte cfg mask v h) = ssActive cfg h := by
    rw [ssActive, bitDTE, hdte, ssActive, Bool.and_self_left]
  cases ha : ssActive cfg h
  · obtain ⟨_, _, _, hk, _, _⟩ := hoff ha
    have hvs : ssActiveVS cfg h = false := by rw [ssActiveVS, ha]; rfl
    refine trapDisablesKept_of_stored hactive ?_ (fun h1 => absurd (ha.symm.trans h1) (by decide))
      (fun h1 => absurd (hvs.symm.trans h1) (by decide)) (hk 45 (by decide))
    rw [ssActiveVS, hactive, hvs, ha]; rfl
  · have e := hon ha
    have hm : (writeMenvcfgDte cfg mask v h).m.status = h.m.status := by rw [e]
    have hs : (writeMenvcfgDte cfg mask v h).hs = h.hs := by rw [e]
    have hvs : (writeMenvcfgDte cfg mask v h).vs = h.vs := by rw [e]
    refine trapDisablesKept_of_stored hactive ?_ (fun _ => by rw [hm]) (fun _ => by rw [hvs]) (by rw [hm])
    rw [ssActiveVS, hactive, hs, ssActiveVS]

/-- A write of `henvcfg.DTE` with the value it reads (R134). -/
theorem writeHenvcfgDte_trapDisablesKept {cfg : Config} {h : Hart} {v : Word} (hv : bit v 59 = ssActiveVS cfg h)
    (mask : Word) : TrapDisablesKept cfg h (writeHenvcfgDte cfg mask v h) := by
  obtain ⟨hdte, _, hon, _⟩ := writeHenvcfgDte_bits cfg mask v h
  have hm := writeHenvcfgDte_m cfg mask v h
  have hw : (cfg.hasSsdbltrp && cfg.hasH && bit h.m.envcfg 59 && bit v 59) = ssActiveVS cfg h := by
    rw [hv, ssActiveVS, ssActive, bitDTE]
    cases cfg.hasSsdbltrp <;> cases cfg.hasH <;> simp
  rw [hw] at hdte hon
  have hactive : ssActive cfg (writeHenvcfgDte cfg mask v h) = ssActive cfg h := by rw [ssActive, hm]; rfl
  refine trapDisablesKept_of_stored hactive ?_ (fun _ => by rw [hm]) (fun h1 => by rw [hon h1]) (by rw [hm])
  rw [ssActiveVS, hactive, bitDTE, hdte, ssActiveVS, Bool.and_self_left]

/-- The CSRs whose write can reach one of these bits. -/
def trapDisableCsrs : List Csr := [.sstatus, .vsstatus, .mstatus, .mstatush, .menvcfg, .menvcfgh, .henvcfg, .henvcfgh]

theorem Csr.write_trapDisablesKept {c : Csr} (hc : c ∉ trapDisableCsrs) (cfg : Config) (h : Hart) (v : Word) :
    TrapDisablesKept cfg h (Csr.write cfg h v c) := by
  cases c with
  | sstatus | vsstatus | mstatus | mstatush | menvcfg | menvcfgh | henvcfg | henvcfgh => exact absurd (by decide) hc
  | medeleg | hedeleg => unfold Csr.write; cases cfg.xlen <;> exact ⟨rfl, rfl, rfl, rfl, rfl⟩
  | _ => exact ⟨rfl, rfl, rfl, rfl, rfl⟩

theorem redirect_not_mem_trapDisableCsrs {c : Csr} (hc : c ∉ trapDisableCsrs) (b : Bool) :
    c.redirect b ∉ trapDisableCsrs := by
  revert hc; cases b <;> cases c <;> decide

/-- `v` agrees above bit 4 with the CSR at `a`, as an immediate's set or clear does. -/
def agreesAbove4 (s : State) (a : CsrAddr) (v : Word) : Prop := ∀ j, 5 ≤ j → bit v j = bit (csrRead s a) j

theorem csrWrite_mstatus_trapDisablesKept {s : State} {v : Word} (hv : agreesAbove4 s 0x300#12 v) :
    TrapDisablesKept s.cfg s.hart (csrWrite s 0x300#12 v) := by
  obtain ⟨hsdt, _, _⟩ := csrWrite_mstatus_flags s v
  rw [hv 24 (by decide), bit_csrRead_mstatus_sdt, active_and_sdt] at hsdt
  have hmdt : mdt s.cfg (csrWrite s 0x300#12 v) = mdt s.cfg s.hart := by
    cases hx : s.cfg.xlen
    · exact mdt_csrWrite_mstatus_rv32 hx v
    · rw [mdt_csrWrite_mstatus_rv64 hx, hv 45 (by decide), bit_csrRead_mdt hx, active_and_mdt]
  rw [csrWrite_mstatus] at hsdt hmdt ⊢
  exact ⟨hsdt, rfl, hmdt, rfl, rfl⟩

theorem csrWrite_mstatush_trapDisablesKept {s : State} {v : Word} (hv : agreesAbove4 s 0x310#12 v) :
    TrapDisablesKept s.cfg s.hart (csrWrite s 0x310#12 v) := by
  have hmdt := mdt_csrWrite_mstatush s v
  rw [hv 13 (by decide), bit_csrRead_mstatush, bit_statusView_mdt, active_and_mdt] at hmdt
  rw [csrWrite_mstatush] at hmdt ⊢
  have hk : bit (statushWritten s.cfg s.hart (trunc s.cfg v)) 24 = bit s.hart.m.status 24 :=
    statushWritten_kept s.cfg s.hart _ 24 (by decide)
  exact ⟨congrArg (ssActive s.cfg s.hart && ·) hk, rfl, hmdt, rfl, rfl⟩

theorem csrWrite_vsstatus_trapDisablesKept {s : State} {v : Word} (hv : agreesAbove4 s 0x200#12 v) :
    TrapDisablesKept s.cfg s.hart (csrWrite s 0x200#12 v) := by
  obtain ⟨hsdt, _⟩ := csrWrite_vsstatus_flags s v
  rw [hv 24 (by decide), bit_csrRead_vsstatus_sdt, active_and_vsSdt] at hsdt
  rw [csrWrite_vsstatus] at hsdt ⊢
  exact ⟨rfl, hsdt, rfl, rfl, rfl⟩

theorem csrWrite_sstatus_trapDisablesKept {s : State} {v : Word} (hv : agreesAbove4 s 0x100#12 v) :
    TrapDisablesKept s.cfg s.hart (csrWrite s 0x100#12 v) := by
  cases hvirt : s.hart.virt
  · obtain ⟨hsdt, _⟩ := csrWrite_sstatus_flags hvirt v
    rw [hv 24 (by decide), bit_csrRead_sstatus_sdt hvirt, active_and_sdt] at hsdt
    rw [csrWrite_sstatus hvirt] at hsdt ⊢
    have hk : bit (sstatusWritten (ssActive s.cfg s.hart) s.hart.m.status (trunc s.cfg v)) 45 = bit s.hart.m.status 45 :=
      (sstatusWritten_stored ..).2 45 (by decide)
    exact ⟨hsdt, rfl, congrArg (s.cfg.hasSmdbltrp && ·) hk, rfl, rfl⟩
  · have er : csrRead s 0x100#12 = csrRead s 0x200#12 := csrRead_guest hvirt .sstatus
    have ew : csrWrite s 0x100#12 v = csrWrite s 0x200#12 v := csrWrite_guest hvirt .sstatus v
    rw [ew]
    exact csrWrite_vsstatus_trapDisablesKept fun j hj => (hv j hj).trans (by rw [er])

theorem csrWrite_menvcfg_trapDisablesKept {s : State} {v : Word} (hv : agreesAbove4 s 0x30A#12 v) :
    TrapDisablesKept s.cfg s.hart (csrWrite s 0x30A#12 v) := by
  cases hx : s.cfg.xlen
  · have hk := bit_envcfgLow_high s.hart.m.envcfg (trunc s.cfg v) (j := 59) (by decide)
    rw [csrWrite_menvcfg_rv32 hx]
    exact trapDisablesKept_of_stored (ssActive_congr _ hk) (ssActiveVS_congr _ hk rfl) (fun _ => rfl) (fun _ => rfl) rfl
  · rw [csrWrite_menvcfg_rv64 hx]
    exact writeMenvcfgDte_trapDisablesKept ((hv 59 (by decide)).trans (bit_csrRead_dte hx).1) _

theorem csrWrite_henvcfg_trapDisablesKept {s : State} {v : Word} (hv : agreesAbove4 s 0x60A#12 v) :
    TrapDisablesKept s.cfg s.hart (csrWrite s 0x60A#12 v) := by
  cases hx : s.cfg.xlen
  · have hk := bit_envcfgLow_high s.hart.hs.envcfg (trunc s.cfg v) (j := 59) (by decide)
    rw [csrWrite_henvcfg_rv32 hx]
    exact trapDisablesKept_of_stored rfl (ssActiveVS_congr _ rfl hk) (fun _ => rfl) (fun _ => rfl) rfl
  · rw [csrWrite_henvcfg_rv64 hx]
    exact writeHenvcfgDte_trapDisablesKept ((hv 59 (by decide)).trans (bit_csrRead_dte hx).2) _

theorem csrWrite_menvcfgh_trapDisablesKept {s : State} {v : Word} (hv : agreesAbove4 s 0x31A#12 v) :
    TrapDisablesKept s.cfg s.hart (csrWrite s 0x31A#12 v) := by
  rw [csrWrite_menvcfgh]
  refine writeMenvcfgDte_trapDisablesKept ?_ _
  rw [bit_shiftLeft_dte, hv 27 (by decide), bit_csrRead_menvcfgh, bit_menvcfgView_dte]

theorem csrWrite_henvcfgh_trapDisablesKept {s : State} {v : Word} (hv : agreesAbove4 s 0x61A#12 v) :
    TrapDisablesKept s.cfg s.hart (csrWrite s 0x61A#12 v) := by
  rw [csrWrite_henvcfgh]
  refine writeHenvcfgDte_trapDisablesKept ?_ _
  rw [bit_shiftLeft_dte, hv 27 (by decide), bit_csrRead_henvcfgh, bit_henvcfgView_dte]

/-- An explicit write of such a value, at any address (R125). -/
theorem csrWrite_trapDisablesKept {s : State} {a : CsrAddr} {v : Word} (hv : agreesAbove4 s a v) :
    TrapDisablesKept s.cfg s.hart (csrWrite s a v) := by
  cases ho : Csr.ofAddress a with
  | none =>
    rw [csrWrite, csrWriteVia, ho]
    exact ⟨rfl, rfl, rfl, rfl, rfl⟩
  | some c =>
    obtain rfl := ofAddress_address ho
    by_cases hc : c ∈ trapDisableCsrs
    · simp only [trapDisableCsrs, List.mem_cons, List.not_mem_nil, or_false] at hc
      rcases hc with rfl | rfl | rfl | rfl | rfl | rfl | rfl | rfl
      · exact csrWrite_sstatus_trapDisablesKept hv
      · exact csrWrite_vsstatus_trapDisablesKept hv
      · exact csrWrite_mstatus_trapDisablesKept hv
      · exact csrWrite_mstatush_trapDisablesKept hv
      · exact csrWrite_menvcfg_trapDisablesKept hv
      · exact csrWrite_menvcfgh_trapDisablesKept hv
      · exact csrWrite_henvcfg_trapDisablesKept hv
      · exact csrWrite_henvcfgh_trapDisablesKept hv
    · rw [csrWrite_of_virt rfl]
      exact Csr.write_trapDisablesKept (redirect_not_mem_trapDisableCsrs hc _) ..

end Sys2Proof.Machine

/-! PROOF. The six CSR instructions: each is `csrInstr` with its form, and each corner case is one write of the value that the form makes. -/

namespace Sys2Proof.Machine

open Sys2Proof.Safety

/-! ### The register forms and the immediate forms (R105, R120 to R125) -/

theorem exec_csrrw (rd : Nat) (a : CsrAddr) (rs1 : Nat) (s : State) : exec (.csrrw rd a rs1) s
    = .next (csrInstr (.csrrw rd a rs1) rd a .write rs1 (readReg s.cfg s.hart rs1) s) := rfl

theorem exec_csrrs (rd : Nat) (a : CsrAddr) (rs1 : Nat) (s : State) : exec (.csrrs rd a rs1) s
    = .next (csrInstr (.csrrs rd a rs1) rd a .set rs1 (readReg s.cfg s.hart rs1) s) := rfl

theorem exec_csrrc (rd : Nat) (a : CsrAddr) (rs1 : Nat) (s : State) : exec (.csrrc rd a rs1) s
    = .next (csrInstr (.csrrc rd a rs1) rd a .clear rs1 (readReg s.cfg s.hart rs1) s) := rfl

theorem exec_csrrwi {uimm : Nat} (hu : uimm < 32) (rd : Nat) (a : CsrAddr) (s : State) :
    exec (.csrrwi rd a uimm) s = .next (csrInstr (.csrrwi rd a uimm) rd a .write uimm (BitVec.ofNat 64 uimm) s) := by
  rw [← immediate_eq hu]; rfl

theorem exec_csrrsi {uimm : Nat} (hu : uimm < 32) (rd : Nat) (a : CsrAddr) (s : State) :
    exec (.csrrsi rd a uimm) s = .next (csrInstr (.csrrsi rd a uimm) rd a .set uimm (BitVec.ofNat 64 uimm) s) := by
  rw [← immediate_eq hu]; rfl

theorem exec_csrrci {uimm : Nat} (hu : uimm < 32) (rd : Nat) (a : CsrAddr) (s : State) :
    exec (.csrrci rd a uimm) s = .next (csrInstr (.csrrci rd a uimm) rd a .clear uimm (BitVec.ofNat 64 uimm) s) := by
  rw [← immediate_eq hu]; rfl

/-- A set or clear form whose operand field is not 0 writes (R121, R124, R127). -/
theorem csrWrites_of_ne_zero {field : Nat} (h : field ≠ 0) (form : CsrForm) : csrWrites form field = true := by
  cases form with
  | write => rfl
  | set | clear => exact bne_iff_ne.2 h

/-- R127 for a set or clear form on `mstatus`. -/
theorem exec_statusCombined {i : Instr} {rd : Nat} {form : CsrForm} {field : Nat} {m : Word} {s : State}
    (hf : form ≠ .write) (he : exec i s = .next (csrInstr i rd 0x300#12 form field m s)) (hm : xlenWide s.cfg m)
    (hg : csrAccess s.cfg s.hart 0x300#12 true = .granted) (h0 : field ≠ 0) :
    ∃ t, exec i s = .next t ∧ statusCombined s.cfg form.combine m s.hart t.hart :=
  exec_granted_write (P := fun _ h => statusCombined s.cfg form.combine m s.hart h) he (fun _ _ _ _ _ hp => hp)
    (csrWrites_of_ne_zero h0 form) hg (statusCombined_csrWrite hf hm)

/-! ### Writes that leave a disable-trap bit 1 (R128 to R131) -/

theorem csrWrite_mstatus_sets_sdt {s : State} {v : Word} (ha : ssActive s.cfg s.hart = true) (hv : bit v 24 = true) :
    sdt s.cfg (csrWrite s 0x300#12 v) = true ∧ sie (csrWrite s 0x300#12 v) = false := by
  obtain ⟨hsdt, hsie, _⟩ := csrWrite_mstatus_flags s v
  rw [ha, hv] at hsdt
  exact ⟨hsdt, by rw [hsie, hsdt]; rfl⟩

theorem csrWrite_sstatus_sets_sdt {s : State} {v : Word} (hvirt : s.hart.virt = false)
    (ha : ssActive s.cfg s.hart = true) (hv : bit v 24 = true) :
    sdt s.cfg (csrWrite s 0x100#12 v) = true ∧ sie (csrWrite s 0x100#12 v) = false := by
  obtain ⟨hsdt, hsie⟩ := csrWrite_sstatus_flags hvirt v
  rw [ha, hv] at hsdt
  exact ⟨hsdt, by rw [hsie, hsdt]; rfl⟩

theorem csrWrite_guest_sstatus_sets_sdt {s : State} {v : Word} (hvirt : s.hart.virt = true)
    (ha : ssActiveVS s.cfg s.hart = true) (hv : bit v 24 = true) :
    vsSdt s.cfg (csrWrite s 0x100#12 v) = true ∧ vsSie (csrWrite s 0x100#12 v) = false := by
  have e : csrWrite s 0x100#12 v = csrWrite s 0x200#12 v := csrWrite_guest hvirt .sstatus v
  obtain ⟨hsdt, hsie⟩ := csrWrite_vsstatus_flags s v
  rw [ha, hv] at hsdt
  rw [e]
  exact ⟨hsdt, by rw [hsie, hsdt]; rfl⟩

theorem ssActive_of_sdt {cfg : Config} {h : Hart} (hs : sdt cfg h = true) : ssActive cfg h = true :=
  (Bool.and_eq_true_iff.1 hs).1

theorem ssActiveVS_of_vsSdt {cfg : Config} {h : Hart} (hs : vsSdt cfg h = true) : ssActiveVS cfg h = true :=
  (Bool.and_eq_true_iff.1 hs).1

/-- A set form keeps `MDT` = 1 on `mstatus`, and then `MIE` stays out of reach (R128, R129). -/
theorem csrWrite_mstatus_keeps_mdt {s : State} {m : Word} (hm : xlenWide s.cfg m) (hmdt : mdt s.cfg s.hart = true) :
    let h' := csrWrite s 0x300#12 (csrNewValue .set (csrRead s 0x300#12) m)
    mdt s.cfg h' = true ∧ mie h' = false := by
  obtain ⟨_, hmdt', _, hmie, _⟩ := statusCombined_csrWrite (form := .set) (by decide) hm
  have hs : s.cfg.hasSmdbltrp = true := (Bool.and_eq_true_iff.1 hmdt).1
  rw [hmdt, hs] at hmdt'
  exact ⟨hmdt', by rw [hmie, hmdt']; rfl⟩

/-! ### The statements -/

/-- Settles O9: the form is a write of `x[rs1]`. -/
theorem csrrw : Obligations.Csrrw := by
  intro s rd rs1 a hrd _
  have he := fun a => exec_csrrw rd a rs1 s
  exact ⟨csrEffect_of_exec (he a) hrd, csrTurnedAway_of_exec (he a), rfl, fun hg ha hv =>
    exec_granted_write (P := fun c h => sdt c h = true ∧ sie h = false) (he _) (fun _ _ _ _ _ hp => hp) rfl hg
      (csrWrite_mstatus_sets_sdt ha hv)⟩

/-- Settles O10: the value written has bit 24 set if `SDT` or the operand's bit is 1. -/
theorem csrrs : Obligations.Csrrs := by
  intro s rd rs1 a hrd _
  have he := fun a => exec_csrrs rd a rs1 s
  refine ⟨csrEffect_of_exec (he a) hrd, csrTurnedAway_of_exec (he a), fun hg h0 ha hv => ?_, fun hg h0 =>
    exec_statusCombined (form := .set) (by decide) (he _) (trunc_readReg ..) hg h0⟩
  refine exec_granted_write (P := fun c h => sdt c h = true ∧ sie h = false) (he _) (fun _ _ _ _ _ hp => hp)
    (csrWrites_of_ne_zero h0 .set) hg (csrWrite_mstatus_sets_sdt ha ?_)
  rw [bit_csrNewValue, bit_csrRead_mstatus_sdt]
  exact Bool.or_eq_true_iff.2 hv

/-- Settles O11: the value written to `sstatus` has bit 24 clear, and bit 1 as `SIE` and the operand make it. -/
theorem csrrc : Obligations.Csrrc := by
  intro s rd rs1 a hrd _
  have he := fun a => exec_csrrc rd a rs1 s
  refine ⟨csrEffect_of_exec (he a) hrd, csrTurnedAway_of_exec (he a), fun hg h0 hvirt hv => ?_, fun hg h0 =>
    exec_statusCombined (form := .clear) (by decide) (he _) (trunc_readReg ..) hg h0⟩
  refine exec_granted_write
    (P := fun c h => sdt c h = false ∧ sie h = (sie s.hart && !bit (readReg s.cfg s.hart rs1) 1)) (he _)
    (fun _ _ _ _ _ hp => hp) (csrWrites_of_ne_zero h0 .clear) hg ?_
  obtain ⟨hsdt, hsie⟩ := csrWrite_sstatus_flags hvirt
    (csrNewValue .clear (csrRead s 0x100#12) (readReg s.cfg s.hart rs1))
  have h1 : bit (csrRead s 0x100#12) 1 = sie s.hart :=
    bit_csrRead_sstatus_field hvirt (lt_xlenBits_of_lt _ (by decide)) (by decide) (by decide)
  rw [bit_csrNewValue, hv, combine_clear_true, Bool.and_false] at hsdt
  rw [hsdt, bit_csrNewValue, h1] at hsie
  exact ⟨hsdt, hsie⟩

/-- Settles O12: an immediate has no bit 24 and no bit 45. -/
theorem csrrwi : Obligations.Csrrwi := by
  intro s rd uimm a hrd hu
  have he := fun a => exec_csrrwi hu rd a s
  refine ⟨csrEffect_of_exec (he a) hrd, csrTurnedAway_of_exec (he a), fun hg hx => ?_⟩
  refine exec_granted_write (P := fun c h => sdt c h = false ∧ mdt c h = false ∧ sie h = uimm.testBit 1
    ∧ mie h = uimm.testBit 3) (he _) (fun _ _ _ _ _ hp => hp) rfl hg ?_
  obtain ⟨hsdt, hsie, hmie⟩ := csrWrite_mstatus_flags s (BitVec.ofNat 64 uimm)
  have hmdt := mdt_csrWrite_mstatus_rv64 hx (BitVec.ofNat 64 uimm)
  rw [bit_ofNat_high hu (by decide), Bool.and_false] at hsdt hmdt
  rw [hsdt, bit_ofNat (by decide)] at hsie
  rw [hmdt, bit_ofNat (by decide)] at hmie
  exact ⟨hsdt, hmdt, hsie, hmie⟩

/-- Settles O13: a set form keeps every disable-trap bit that is 1. -/
theorem csrrsi : Obligations.Csrrsi := by
  intro s rd uimm a hrd hu
  have he := fun a => exec_csrrsi hu rd a s
  have hset : ∀ t : Word, bit t 24 = true → bit (csrNewValue .set t (BitVec.ofNat 64 uimm)) 24 = true := fun t ht => by
    rw [bit_csrNewValue, ht]; rfl
  refine ⟨csrEffect_of_exec (he a) hrd, csrTurnedAway_of_exec (he a), fun hg h0 hmdt => ?_, fun hg h0 hvirt hs => ?_,
    fun hg h0 hvirt hs => ?_, fun hg h0 =>
      exec_statusCombined (form := .set) (by decide) (he _) (xlenWide_ofNat _ hu) hg h0⟩
  · exact exec_granted_write (P := fun c h => mdt c h = true ∧ mie h = false) (he _) (fun _ _ _ _ _ hp => hp)
      (csrWrites_of_ne_zero h0 .set) hg (csrWrite_mstatus_keeps_mdt (xlenWide_ofNat _ hu) hmdt)
  · exact exec_granted_write (P := fun c h => sdt c h = true ∧ sie h = false) (he _) (fun _ _ _ _ _ hp => hp)
      (csrWrites_of_ne_zero h0 .set) hg
      (csrWrite_sstatus_sets_sdt hvirt (ssActive_of_sdt hs) (hset _ ((bit_csrRead_sstatus_sdt hvirt).trans hs)))
  · have er : csrRead s 0x100#12 = csrRead s 0x200#12 := csrRead_guest hvirt .sstatus
    exact exec_granted_write (P := fun c h => vsSdt c h = true ∧ vsSie h = false) (he _) (fun _ _ _ _ _ hp => hp)
      (csrWrites_of_ne_zero h0 .set) hg (csrWrite_guest_sstatus_sets_sdt hvirt (ssActiveVS_of_vsSdt hs)
        (hset _ (by rw [er, bit_csrRead_vsstatus_sdt, hs])))

/-- The value an immediate's clear form writes agrees above bit 4 with the one read. -/
theorem agreesAbove4_clear {uimm : Nat} (hu : uimm < 32) (s : State) (a : CsrAddr) :
    agreesAbove4 s a (csrNewValue .clear (csrRead s a) (BitVec.ofNat 64 uimm)) := fun j hj => by
  rw [bit_csrNewValue, bit_ofNat_high hu hj, combine_false (by decide)]

/-- Settles O14: an immediate reaches no disable-trap bit, but it reaches `SIE` and `MIE`. -/
theorem csrrci : Obligations.Csrrci := by
  intro s rd uimm a hrd hu
  have he := fun a => exec_csrrci hu rd a s
  refine ⟨csrEffect_of_exec (he a) hrd, csrTurnedAway_of_exec (he a), fun hg h0 => ?_, fun hg => ?_, fun hg h0 =>
    exec_statusCombined (form := .clear) (by decide) (he _) (xlenWide_ofNat _ hu) hg h0⟩
  · refine exec_granted_write (P := fun c h => sdt c h = sdt s.cfg s.hart ∧ mdt c h = mdt s.cfg s.hart
      ∧ (uimm.testBit 1 = true → sie h = false) ∧ (uimm.testBit 3 = true → mie h = false)) (he _)
      (fun _ _ _ _ _ hp => hp) (csrWrites_of_ne_zero h0 .clear) hg ?_
    have kept := csrWrite_mstatus_trapDisablesKept (agreesAbove4_clear hu s 0x300#12)
    obtain ⟨_, _, hsie, hmie, _⟩ :=
      statusCombined_csrWrite (form := .clear) (by decide) (xlenWide_ofNat s.cfg hu)
    refine ⟨kept.sdt, kept.mdt, fun h1 => ?_, fun h3 => ?_⟩
    · rw [hsie, bit_ofNat (by decide), h1, combine_clear_true, Bool.and_false]
    · rw [hmie, bit_ofNat (by decide), h3, combine_clear_true, Bool.and_false]
  · refine exec_granted (P := fun c h => sdt c h = sdt s.cfg s.hart ∧ vsSdt c h = vsSdt s.cfg s.hart
      ∧ mdt c h = mdt s.cfg s.hart ∧ ssActive c h = ssActive s.cfg s.hart
      ∧ ssActiveVS c h = ssActiveVS s.cfg s.hart) (he a) (fun _ _ _ _ _ hp => hp) hg ?_
    split
    · have kept := csrWrite_trapDisablesKept (agreesAbove4_clear hu s a)
      exact ⟨kept.sdt, kept.vsSdt, kept.mdt, kept.ssActive, kept.ssActiveVS⟩
    · exact ⟨rfl, rfl, rfl, rfl, rfl⟩

end Sys2Proof.Machine

/-! PROOF. Ecall, Mret, Sret, Mnret, DretAndResume, ReturnsAndDisableTrapBits: what each instruction answers in each of its cases, and what each return leaves in the registers it writes. -/

namespace Sys2Proof.Machine

open Sys2Proof.Safety

/-! ### What each instruction answers (R150 to R154, R214, R215) -/

theorem exec_ecall (s : State) :
    exec .ecall s = .next (s.onHart (raise s.cfg (exceptionAt s.hart (ecallCode s.hart) 0#64))) := rfl

theorem exec_mret_of_m {s : State} (hp : s.hart.priv = .m) :
    exec .mret s = .next (s.onHart fun h => retire (returnM s.cfg h)) := if_pos hp

theorem exec_mret_of_not_m {s : State} (hp : s.hart.priv ≠ .m) : exec .mret s = raised .mret 2#64 s := if_neg hp

theorem exec_mnret_of_m {s : State} (hp : s.hart.priv = .m) (hn : s.cfg.hasSmrnmi = true) :
    exec .mnret s = .next (s.onHart fun h => retire (returnNm s.cfg h)) := if_pos ⟨hp, hn⟩

theorem exec_mnret_of_illegal {s : State} (h : s.hart.priv ≠ .m ∨ s.cfg.hasSmrnmi = false) :
    exec .mnret s = raised .mnret 2#64 s := by
  refine if_neg fun ⟨hp, hn⟩ => ?_
  rcases h with hp' | hn'
  · exact hp' hp
  · exact absurd (hn'.symm.trans hn) (by decide)

theorem exec_dret_of_debugMode {s : State} (hr : s.hart.run = .debugMode) :
    exec .dret s = .next (s.onHart fun h => retire (resume s.cfg h)) := if_pos hr

theorem exec_dret_of_not_debugMode {s : State} (hr : s.hart.run ≠ .debugMode) :
    exec .dret s = raised .dret 2#64 s := if_neg hr

theorem step_of_resume {s : State} {rest : List Event} (he : s.events = .resume :: rest) :
    step s = .next (if s.hart.run = .debugMode then (hartTurn s).onHart (resume s.cfg) else hartTurn s) :=
  step_of_event he

theorem exec_sret_of_u {s : State} (hp : s.hart.priv = .u) : exec .sret s = raised .sret 2#64 s := if_pos hp

theorem exec_sret_of_tsr {s : State} (hp : s.hart.priv = .s) (hv : s.hart.virt = false) (ht : tsr s.hart = true) :
    exec .sret s = raised .sret 2#64 s :=
  (if_neg (by rw [hp]; decide)).trans (if_pos ⟨hp, hv, ht⟩)

/-- With `V` = 1 the test of `TSR` does not apply (R151). -/
theorem not_tsr_applies_of_virt {h : Hart} (hv : h.virt = true) :
    ¬(h.priv = .s ∧ h.virt = false ∧ tsr h = true) := fun ⟨_, hv', _⟩ => absurd (hv.symm.trans hv') (by decide)

theorem exec_sret_of_vtsr {s : State} (hp : s.hart.priv ≠ .u) (hv : s.hart.virt = true) (ht : vtsr s.hart = true) :
    exec .sret s = raised .sret 22#64 s :=
  (if_neg hp).trans ((if_neg (not_tsr_applies_of_virt hv)).trans (if_pos ⟨hv, ht⟩))

theorem exec_sret_of_virt {s : State} (hp : s.hart.priv ≠ .u) (hv : s.hart.virt = true) (ht : vtsr s.hart = false) :
    exec .sret s = .next (s.onHart fun h => retire (returnVs h)) := by
  show execSret s = _
  rw [execSret, if_neg hp, if_neg (not_tsr_applies_of_virt hv), if_neg (by simp [ht]), if_pos hv]

theorem exec_sret_of_not_virt {s : State} (hp : s.hart.priv ≠ .u) (hv : s.hart.virt = false)
    (ht : s.hart.priv = .s → tsr s.hart = false) :
    exec .sret s = .next (s.onHart fun h => retire (returnHs s.cfg h)) := by
  have hnt : ¬(s.hart.priv = .s ∧ s.hart.virt = false ∧ tsr s.hart = true) := fun ⟨hs, _, htsr⟩ =>
    absurd ((ht hs).symm.trans htsr) (by decide)
  show execSret s = _
  rw [execSret, if_neg hp, if_neg hnt, if_neg (by simp [hv]), if_neg (by simp [hv])]

/-! ### What each return leaves in the registers it writes -/

/-- A return to mode `p` that clears `MPRV` below M-mode reaches no other bit (R152, R215). -/
theorem mprvAfterReturn_bits (p : Priv) (w : Word) :
    let w' := if p = .m then w else setBit w bitMPRV false
    bit w' bitMPRV = (if p = .m then bit w bitMPRV else false) ∧ bitsKept [17] w w' := by
  by_cases hp : p = .m
  · subst hp
    exact ⟨rfl, fun _ _ => rfl⟩
  · simp only [if_neg hp]
    exact ⟨bit_setBit_same _ _ _ (by decide), bitsKept_setBit _ _ _⟩

/-- `hstatus` after an `SRET` with `V` = 0: `SPV` is cleared where it exists (R151). -/
theorem returnHs_hs_status (cfg : Config) (h : Hart) :
    spv (returnHs cfg h) = (!cfg.hasH && spv h) ∧ bitsKept [7] h.hs.status (returnHs cfg h).hs.status
      ∧ (returnHs cfg h).hs = { h.hs with status := (returnHs cfg h).hs.status } := by
  rw [spv, returnHs_hs]
  cases cfg.hasH
  · exact ⟨rfl, fun _ _ => rfl, rfl⟩
  · exact ⟨bit_setBit_same _ _ _ (by decide), bitsKept_setBit _ _ _, rfl⟩

/-- An `SRET` with `V` = 1 stays there (R151). -/
theorem returnVs_frame {h : Hart} (hv : h.virt = true) :
    returnVs h = { h with
      vs := { h.vs with status := (returnVs h).vs.status }, priv := (returnVs h).priv, pc := (returnVs h).pc } := by
  rw [returnVs, hv]

theorem resume_m_status_kept (cfg : Config) (h : Hart) : bitsKept [17] h.m.status (resume cfg h).m.status := by
  rcases resume_m_cases cfg h with e | e <;> rw [e]
  · exact fun _ _ => rfl
  · exact bitsKept_setBit _ _ _

/-- Counting an instruction is no part of a resume (assumption log 26). -/
theorem resumed_retire {cfg : Config} {h h' : Hart} (hr : resumed cfg h h') : resumed cfg h (retire h') := by
  obtain ⟨hpc, hpriv, hvirt, hcritical, hrunning, hframe⟩ := hr
  exact ⟨hpc, hpriv, hvirt, hcritical, hrunning, congrArg retire hframe⟩

/-- A change of `MPRV` alone in `mstatus` leaves the three disable-trap bits (R155). -/
theorem disableTrapBits_of_kept {h h' : Hart} (hm : bitsKept [17] h.m.status h'.m.status) (hvs : h'.vs = h.vs) :
    bit h'.m.status 24 = bit h.m.status 24 ∧ bit h'.vs.status 24 = bit h.vs.status 24
      ∧ bit h'.m.status 45 = bit h.m.status 45 :=
  ⟨hm 24 (by decide), by rw [hvs], hm 45 (by decide)⟩

/-- Two answers of the same state are the same state. -/
theorem next_unique {o : Host.Outcome State Fault Refusal} {t t' : State} (h : o = .next t) (h' : o = .next t') :
    t = t' := Host.Outcome.next.inj (h.symm.trans h')

/-! ### The statements -/

/-- Settles O34: a running hart takes the exception of its mode, and one in Debug Mode takes none. -/
theorem ecall : Obligations.Ecall := by
  intro s
  refine ⟨fun hr => ?_, fun hr => ?_⟩
  · rw [exec_ecall, onHart_raise_of_running hr, ecallCode]
    cases s.hart.priv with
    | u | m => rfl
    | s => cases s.hart.virt <;> rfl
  · rw [exec_ecall, onHart_raise_of_not_running (by rw [hr]; decide)]

/-- Settles O35: the word that `MRET` writes to `mstatus`, bit by bit. -/
theorem mret : Obligations.Mret := by
  intro s
  refine ⟨exec_mret_of_not_m, fun hp _ => ?_⟩
  obtain ⟨hmie, hmpie, hmpp, hmpv, hmprv, hmdt, hkept⟩ := statusAfterMret_bits s.cfg s.hart
  exact ⟨_, exec_mret_of_m hp, hartOnly_onHart .., rfl, rfl, rfl, hmie, hmpie, hmpp, hmpv, hmprv, hmdt, hkept, rfl⟩

/-- Settles O36: the three exceptions in the order of R151, then the return from HS-mode's trap and from VS-mode's. -/
theorem sret : Obligations.Sret := by
  intro s
  refine ⟨exec_sret_of_u, exec_sret_of_tsr, exec_sret_of_vtsr, fun hp hv ht => ?_, fun hp hv ht => ?_⟩
  · obtain ⟨hsie, hspie, hspp, hmprv, hsdt, hkept⟩ := statusAfterSret_bits s.hart
    obtain ⟨hspv, hhs, hframe⟩ := returnHs_hs_status s.cfg s.hart
    refine ⟨_, exec_sret_of_not_virt hp hv ht, hartOnly_onHart .., rfl, rfl, rfl, hsie, hspie, hspp, hmprv, hsdt,
      hkept, hspv, hhs, ?_⟩
    exact congrArg (fun hs => { retire (returnHs s.cfg s.hart) with hs := hs }) hframe
  · obtain ⟨hsie, hspie, hspp, hsdt, hkept⟩ := vsstatusAfterSret_bits s.hart
    exact ⟨_, exec_sret_of_virt hp hv ht, hartOnly_onHart .., rfl, rfl, rfl, hsie, hspie, hspp, hsdt, hkept,
      congrArg retire (returnVs_frame hv)⟩

/-- Settles O37: `MNRET` sets `NMIE`, and of `mstatus` it reaches `MPRV` only. -/
theorem mnret : Obligations.Mnret := by
  intro s
  refine ⟨exec_mnret_of_illegal, fun hp hn _ => ?_⟩
  obtain ⟨hmprv, hkept⟩ := mprvAfterReturn_bits (Priv.ofCode (mnpp s.hart)) s.hart.m.status
  exact ⟨_, exec_mnret_of_m hp hn, hartOnly_onHart .., rfl, rfl, rfl, bit_setBit_same _ _ _ (by decide),
    bitsKept_setBit _ _ _, hmprv, hkept, rfl⟩

/-- Settles O38: `DRET` and the DM's request are the same resume, and only `DRET` counts as an instruction. -/
theorem dretAndResume : Obligations.DretAndResume := by
  intro s
  have hres := resume_resumed s.cfg s.hart
  obtain ⟨_, hretired⟩ := resume_trapStateOnly s.cfg s.hart
  refine ⟨exec_dret_of_not_debugMode, fun hr => ?_, fun rest he hr => ?_, fun rest he hr => ?_⟩
  · exact ⟨_, exec_dret_of_debugMode hr, hartOnly_onHart .., resumed_retire hres, congrArg (· + 1) hretired⟩
  · exact ⟨_, (step_of_resume he).trans (by rw [if_pos hr]), hartOnly_onHart .., hres, hretired⟩
  · rw [step_of_resume he, if_neg hr]

/-- Settles O39: each return's status word, at the bits of `SDT` and `MDT`. -/
theorem returnsAndDisableTrapBits : Obligations.ReturnsAndDisableTrapBits := by
  intro s t
  refine ⟨fun e hp hv ht => ?_, fun e hp hv ht => ?_, fun e hp => ?_, fun e hp hn => ?_, fun e hr => ?_,
    fun rest he e => ?_⟩
  · obtain ⟨_, _, _, _, hsdt, hkept⟩ := statusAfterSret_bits s.hart
    obtain rfl := next_unique e (exec_sret_of_not_virt hp hv ht)
    exact ⟨hsdt, rfl, hkept 45 (by decide)⟩
  · obtain ⟨_, _, _, hsdt, _⟩ := vsstatusAfterSret_bits s.hart
    obtain rfl := next_unique e (exec_sret_of_virt hp hv ht)
    exact ⟨rfl, hsdt, rfl⟩
  · obtain ⟨_, _, _, _, _, hmdt, hkept⟩ := statusAfterMret_bits s.cfg s.hart
    obtain rfl := next_unique e (exec_mret_of_m hp)
    refine ⟨hkept 24 (by decide), rfl, ?_⟩
    show (s.cfg.hasSmdbltrp && bit (statusAfterMret s.cfg s.hart) 45) = false
    rw [hmdt, ← Bool.and_assoc, Bool.and_not_self, Bool.false_and]
  · obtain ⟨_, hkept⟩ := mprvAfterReturn_bits (Priv.ofCode (mnpp s.hart)) s.hart.m.status
    obtain rfl := next_unique e (exec_mnret_of_m hp hn)
    exact disableTrapBits_of_kept hkept rfl
  · obtain rfl := next_unique e (exec_dret_of_debugMode hr)
    exact disableTrapBits_of_kept (resume_m_status_kept _ _) (resume_vs ..)
  · obtain rfl := next_unique e (step_of_resume he)
    split
    · exact disableTrapBits_of_kept (resume_m_status_kept _ _) (resume_vs ..)
    · exact ⟨rfl, rfl, rfl⟩

end Sys2Proof.Machine

/-! PROOF. TrapDestination, HandlerAddress: the delegation bits that decide where a trap goes, and what a handler address is built from. -/

namespace Sys2Proof.Machine

open Sys2Proof.Safety

/-! ### The destination (R173) -/

/-- A delegation register as read, at the bit of a code: bit 16 counts as 0 (R37, R43). -/
theorem delegated_delegView (w code : Word) :
    delegated (delegView w) code = (bit w code.toNat && code.toNat != 16) := by
  rw [delegated, delegView, bit_setBit]
  by_cases h : code.toNat = 16 <;> simp [h]

/-- `dm` of R173: the trap is delegated below M-mode. -/
def delegatedByM (h : Hart) (intr : Bool) (code : Word) : Bool :=
  if intr then bit h.m.ideleg code.toNat else bit h.m.edeleg code.toNat && code.toNat != 16

/-- `dh` of R173, without regard to H: the trap is delegated to VS-mode. -/
def delegatedByHs (h : Hart) (intr : Bool) (code : Word) : Bool :=
  if intr then bit h.hs.ideleg code.toNat else bit h.hs.edeleg code.toNat && code.toNat != 16

/-- R173 with its two delegation bits spelled out. -/
theorem dest_eq (cfg : Config) (h : Hart) (intr : Bool) (code : Word) :
    dest cfg h intr code =
      if h.priv = .m ∨ delegatedByM h intr code = false ∨ cfg.hasS = false then .m
      else if h.virt && (cfg.hasH && delegatedByHs h intr code) then .vs else .hs := by
  simp only [dest, delegated_delegView]
  rfl

theorem dest_eq_m_iff (cfg : Config) (h : Hart) (intr : Bool) (code : Word) :
    dest cfg h intr code = .m ↔ h.priv = .m ∨ delegatedByM h intr code = false ∨ cfg.hasS = false := by
  rw [dest_eq]
  split
  · exact iff_of_true rfl ‹_›
  · split <;> exact iff_of_false nofun ‹_›

theorem dest_eq_vs_iff (cfg : Config) (h : Hart) (intr : Bool) (code : Word) :
    dest cfg h intr code = .vs ↔ h.priv ≠ .m ∧ delegatedByM h intr code = true ∧ cfg.hasS = true ∧ h.virt = true
      ∧ (cfg.hasH && delegatedByHs h intr code) = true := by
  rw [dest_eq]
  by_cases hm : h.priv = .m ∨ delegatedByM h intr code = false ∨ cfg.hasS = false
  · rw [if_pos hm]
    refine iff_of_false nofun fun ⟨hp, hd, hs, _⟩ => ?_
    rcases hm with hm | hm | hm
    · exact hp hm
    · exact absurd (hm.symm.trans hd) (by decide)
    · exact absurd (hm.symm.trans hs) (by decide)
  · rw [if_neg hm]
    simp only [not_or, Bool.not_eq_false] at hm
    obtain ⟨hp, hd, hs⟩ := hm
    simp [hp, hd, hs]

/-- A trap destined below M-mode arose below M-mode (R173). -/
theorem priv_ne_m_of_dest {cfg : Config} {h : Hart} {intr : Bool} {code : Word} (hd : dest cfg h intr code ≠ .m) :
    h.priv ≠ .m := fun hp => hd ((dest_eq_m_iff ..).2 (.inl hp))

/-- A trap destined for VS-mode arose with `V` = 1 (R173). -/
theorem virt_of_dest {cfg : Config} {h : Hart} {intr : Bool} {code : Word} (hd : dest cfg h intr code = .vs) :
    h.virt = true := by
  obtain ⟨_, _, _, hv, _⟩ := (dest_eq_vs_iff ..).1 hd
  exact hv

theorem modeRank_le_three (h : Hart) : modeRank h ≤ 3 := by
  unfold modeRank
  cases h.priv <;> cases h.virt <;> decide

theorem modeRank_of_m {h : Hart} (hp : h.priv = .m) : modeRank h = 3 := by rw [modeRank, hp]

theorem modeRank_of_s {h : Hart} (hp : h.priv = .s) : modeRank h = if h.virt = true then 1 else 2 := by
  rw [modeRank, hp]

theorem modeRank_of_u {h : Hart} (hp : h.priv = .u) : modeRank h = 0 := by rw [modeRank, hp]

/-- Below M-mode the rank is that of HS-mode at most, and with `V` = 1 that of VS-mode. -/
theorem modeRank_of_not_m {h : Hart} (hp : h.priv ≠ .m) :
    modeRank h ≤ 2 ∧ (h.virt = true → modeRank h ≤ 1) := by
  cases hpriv : h.priv with
  | m => exact absurd hpriv hp
  | s => rw [modeRank_of_s hpriv]; cases h.virt <;> decide
  | u => rw [modeRank_of_u hpriv]; exact ⟨Nat.zero_le _, fun _ => Nat.zero_le _⟩

/-- A trap into M-mode ends there, or leaves the mode as it is (R181, R194, R197). -/
theorem modeRank_le_takeTrapM (cfg : Config) (m : TrapImage) (h : Hart) :
    modeRank h ≤ modeRank (takeTrapM cfg m h) := by
  rcases takeTrapM_cases cfg m h with ⟨_, e⟩ | ⟨_, _, _, e⟩ | ⟨_, _, e⟩ <;> rw [e]
  · exact modeRank_le_three h
  · exact modeRank_le_three h
  · exact Nat.le_refl _

theorem modeRank_le_takeTrap (cfg : Config) (t : TrapRequest) (h : Hart) :
    modeRank h ≤ modeRank (takeTrap cfg t h) := by
  rcases takeTrap_cases cfg t h with ⟨hd, _, e⟩ | ⟨hd, _, e⟩ | ⟨_, e⟩ | ⟨_, e⟩ <;> rw [e]
  · exact (modeRank_of_not_m (priv_ne_m_of_dest (by rw [hd]; decide))).2 (virt_of_dest hd)
  · exact (modeRank_of_not_m (priv_ne_m_of_dest (by rw [hd]; decide))).1
  · exact modeRank_le_takeTrapM ..
  · exact modeRank_le_takeTrapM ..

/-- Settles O24: the two delegation bits of R173, and the mode that each delivery ends in. -/
theorem trapDestination : Obligations.TrapDestination :=
  fun cfg h t => ⟨dest_eq_m_iff cfg h t.intr t.code, dest_eq_vs_iff cfg h t.intr t.code, modeRank_le_takeTrap cfg t h⟩

/-! ### The handler address (R178) -/

/-- The base of a trap vector: its bits from 2 on, in place. -/
theorem shiftRight_shiftLeft_two (w : Word) : (w >>> 2) <<< 2 = w &&& ~~~3#64 := by
  apply eq_of_bits
  intro j
  rw [bit_shiftLeft, bit_shiftRight, bit_and, bit_clear3]
  by_cases hj : 2 ≤ j
  · have hadd : 2 + (j - 2) = j := by omega
    have hlt : ¬ j < 2 := by omega
    simp [hj, hlt, hadd, Bool.and_comm]
  · have hlt : j < 2 := by omega
    simp [hj, hlt]

/-- The formula of R178, which leaves only an interrupt under a reserved MODE open (assumption log 9). -/
theorem vector_eq {cfg : Config} {tvec : Word} {intr : Bool}
    (hm : field2 tvec 0 = 0x0#2 ∨ field2 tvec 0 = 0x1#2 ∨ intr = false) (code : Word) :
    vector cfg tvec intr code = trunc cfg (((tvec >>> 2) <<< 2)
      + (if field2 tvec 0 = 0x1#2 ∧ intr = true then 4#64 * code else 0#64)) := by
  rw [shiftRight_shiftLeft_two, vector]
  cases intr
  · simp
  · rcases hm with h0 | h1 | h
    · simp [h0]
    · simp [h1]
    · cases h

/-- An exception goes to the base address (R178). -/
theorem vector_exception (cfg : Config) (tvec code : Word) :
    vector cfg tvec false code = trunc cfg ((tvec >>> 2) <<< 2) :=
  (vector_eq (.inr (.inr rfl)) code).trans (by simp)

/-- Every handler address is a word without its two low bits, with a multiple of 4 added, under every MODE. -/
theorem vector_eq_trunc (cfg : Config) (tvec : Word) (intr : Bool) (code : Word) :
    ∃ w, field2 w 0 = 0x0#2 ∧ vector cfg tvec intr code = trunc cfg w := by
  have base : ∀ v : Word, field2 (v &&& ~~~3#64) 0 = 0x0#2 := field2_clear3
  unfold vector
  split
  · split
    · exact ⟨_, (field2_add_four_mul _ code).trans (base _), rfl⟩
    · split <;> exact ⟨_, base _, rfl⟩
  · exact ⟨_, base _, rfl⟩

theorem bit_vector_low (cfg : Config) (tvec : Word) (intr : Bool) (code : Word) :
    bit (vector cfg tvec intr code) 0 = false ∧ bit (vector cfg tvec intr code) 1 = false := by
  obtain ⟨w, hw, e⟩ := vector_eq_trunc cfg tvec intr code
  obtain ⟨h0, h1⟩ := (field2_eq w 0 _).1 hw
  rw [e, bit_trunc_low (by decide), bit_trunc_low (by decide)]
  exact ⟨h0, h1⟩

/-- Settles O25: the formula, and the two low bits that no case of it sets. -/
theorem handlerAddress : Obligations.HandlerAddress :=
  fun cfg tvec code intr => ⟨fun hm => vector_eq hm code, bit_vector_low cfg tvec intr code⟩

end Sys2Proof.Machine

/-! PROOF. TrapIntoHs, TrapIntoVs: what a trap that is delivered below M-mode writes, bit by bit. -/

namespace Sys2Proof.Machine

open Sys2Proof.Safety

/-- A trap destined for S/HS-mode that finds `SDT` 0 is delivered there (R172, R176). -/
theorem takeTrap_of_hs {cfg : Config} {t : TrapRequest} {h : Hart} (hd : dest cfg h t.intr t.code = .hs)
    (hs : sdt cfg h = false) : takeTrap cfg t h = deliverHs cfg t h := by
  unfold takeTrap
  rw [hd, hs]
  rfl

/-- A trap destined for VS-mode that finds `vsstatus.SDT` 0 is delivered there (R172, R177). -/
theorem takeTrap_of_vs {cfg : Config} {t : TrapRequest} {h : Hart} (hd : dest cfg h t.intr t.code = .vs)
    (hs : vsSdt cfg h = false) : takeTrap cfg t h = deliverVs cfg t h := by
  unfold takeTrap
  rw [hd, hs]
  rfl

/-- `SPP` and `SPIE` after a delivery into S/HS-mode: the previous mode and the previous `SIE` (R179). -/
theorem statusOnHs_previous (cfg : Config) (h : Hart) :
    bit (statusOnHs cfg h) bitSPP = (h.priv == .s) ∧ bit (statusOnHs cfg h) bitSPIE = sie h := by
  unfold statusOnHs
  cases ssActive cfg h <;> simp [bitSPP, bitSPIE, bitSIE, bitSDT]

/-- `SPP` and `SPIE` of `vsstatus` after a delivery into VS-mode (R180). -/
theorem vsstatusOnVs_previous (cfg : Config) (h : Hart) :
    bit (vsstatusOnVs cfg h) bitSPP = (h.priv == .s) ∧ bit (vsstatusOnVs cfg h) bitSPIE = vsSie h := by
  unfold vsstatusOnVs
  cases ssActiveVS cfg h <;> simp [bitSPP, bitSPIE, bitSIE, bitSDT]

/-- `GVA`, `SPV` and `SPVP` of `hstatus` after a delivery into HS-mode (R179). -/
theorem hstatusOnHs_bits (t : TrapRequest) (h : Hart) :
    bit (hstatusOnHs t h) bitHGVA = t.gva ∧ bit (hstatusOnHs t h) bitSPV = h.virt
      ∧ bit (hstatusOnHs t h) bitSPVP = (if h.virt = true then decide (h.priv = .s) else spvp h) := by
  unfold hstatusOnHs spvp
  cases h.virt <;> simp [bitHGVA, bitSPV, bitSPVP]
  rfl

/-- What the hypervisor registers hold after a delivery into HS-mode, with H and without (R179). -/
theorem deliverHs_hs_cases (cfg : Config) (t : TrapRequest) (h : Hart) : let h' := deliverHs cfg t h
    (cfg.hasH = true → h'.hs = { h.hs with tval := t.tval2, tinst := t.tinst, status := hstatusOnHs t h })
      ∧ (cfg.hasH = false → h'.hs = h.hs) := by
  simp only [deliverHs_hs]
  exact ⟨fun hH => if_pos hH, fun hH => by rw [hH]; rfl⟩

/-- Settles O26: the delivery into S/HS-mode, register by register. -/
theorem trapIntoHs : Obligations.TrapIntoHs := by
  intro cfg h t hd hs h'
  have e : h' = deliverHs cfg t h := takeTrap_of_hs hd hs
  obtain ⟨hsie, hsdt, hkept⟩ := statusOnHs_bits cfg h
  obtain ⟨hspp, hspie⟩ := statusOnHs_previous cfg h
  obtain ⟨hgva, hspv, hspvp⟩ := hstatusOnHs_bits t h
  obtain ⟨hH, hnH⟩ := deliverHs_hs_cases cfg t h
  rw [e]
  refine ⟨rfl, fun hh => ?_, hnH, hspp, hspie, hsie, hsdt, hkept, rfl, rfl, rfl, rfl⟩
  simp only [hGva, spv, spvp, hH hh]
  exact ⟨trivial, hgva, hspv, hspvp, hstatusOnHs_kept t h⟩

/-- The code a VS-mode handler sees (R180), as the statement spells it. -/
theorem vsCode_eq (intr : Bool) (code : Word) :
    vsCode intr code
      = if intr = true ∧ (code = 2#64 ∨ code = 6#64 ∨ code = 10#64) then code - 1#64 else code := by
  simp [vsCode, or_assoc]

/-- A delivery into VS-mode of a trap that arose there changes `vsstatus` and the VS-level trap registers, the mode and `pc` (R180). -/
theorem deliverVs_frame {h : Hart} (hv : h.virt = true) (cfg : Config) (t : TrapRequest) :
    deliverVs cfg t h = { h with
      vs := (deliverVs cfg t h).vs, priv := (deliverVs cfg t h).priv, pc := (deliverVs cfg t h).pc } := by
  rw [deliverVs, hv]

/-- Settles O27: the delivery into VS-mode, register by register. -/
theorem trapIntoVs : Obligations.TrapIntoVs := by
  intro cfg h t hd hs h' code'
  have e : h' = deliverVs cfg t h := takeTrap_of_vs hd hs
  have hcode : code' = vsCode t.intr t.code := (vsCode_eq t.intr t.code).symm
  obtain ⟨hsie, hsdt⟩ := vsstatusOnVs_bits cfg h
  obtain ⟨hspp, hspie⟩ := vsstatusOnVs_previous cfg h
  have hv := virt_of_dest hd
  rw [e, hcode]
  exact ⟨rfl, hspp, hspie, hsie, hsdt, vsstatusOnVs_kept cfg h, rfl, rfl, hv, rfl, deliverVs_frame hv cfg t⟩

end Sys2Proof.Machine

/-! PROOF. TrapIntoM, DoubleTrapDelivery, RnmiHandlerInvoked, CriticalErrorEntry: the traps that are to be taken into M-mode, double traps among them, and which of the three outcomes each has. -/

namespace Sys2Proof.Machine

open Sys2Proof.Safety

/-! ### Which image a trap into M-mode has (R172, R174, R182) -/

/-- The trap is to be taken into M-mode: it is destined for it, or it is a double trap (R173, R182). -/
def intoM (cfg : Config) (t : TrapRequest) (h : Hart) : Prop := dest cfg h t.intr t.code = .m ∨ doubleTrap cfg t h

/-- Only a trap that arose below M-mode is a double trap (R173, R176, R177). -/
theorem doubleTrap_dest_ne_m {cfg : Config} {t : TrapRequest} {h : Hart} (hd : doubleTrap cfg t h) :
    dest cfg h t.intr t.code ≠ .m := by
  rcases hd with ⟨hd, _⟩ | ⟨hd, _⟩ <;> rw [hd] <;> decide

theorem doubleTrap_priv_ne_m {cfg : Config} {t : TrapRequest} {h : Hart} (hd : doubleTrap cfg t h) :
    h.priv ≠ .m := priv_ne_m_of_dest (doubleTrap_dest_ne_m hd)

/-- A double trap needs Ssdbltrp (R175). -/
theorem doubleTrap_hasSsdbltrp {cfg : Config} {t : TrapRequest} {h : Hart} (hd : doubleTrap cfg t h) :
    cfg.hasSsdbltrp = true := by
  have ha : ssActive cfg h = true := by
    rcases hd with ⟨_, hs⟩ | ⟨_, hs⟩
    · exact ssActive_of_sdt hs
    · exact ssActive_of_ssActiveVS (ssActiveVS_of_vsSdt hs)
  exact (Bool.and_eq_true_iff.1 ha).1

theorem takeTrap_of_m {cfg : Config} {t : TrapRequest} {h : Hart} (hd : dest cfg h t.intr t.code = .m) :
    takeTrap cfg t h = takeTrapM cfg (img cfg t) h := by
  unfold takeTrap
  rw [hd]

theorem takeTrap_of_doubleTrap {cfg : Config} {t : TrapRequest} {h : Hart} (hd : doubleTrap cfg t h) :
    takeTrap cfg t h = takeTrapM cfg (dbl cfg t) h := by
  unfold takeTrap
  rcases hd with ⟨hd, hs⟩ | ⟨hd, hs⟩ <;> rw [hd, hs] <;> rfl

/-- A trap that meets no critical error condition: neither `MDT` = 1 nor an exception in M-mode with `NMIE` = 0, or no Smdbltrp (R190, R191). -/
theorem takeTrapM_of_not_critical {cfg : Config} {m : TrapImage} {h : Hart}
    (hc : ¬(cfg.hasSmdbltrp = true
      ∧ (bit h.m.status 45 = true ∨ (cfg.hasSmrnmi = true ∧ nmie h = false ∧ h.priv = .m ∧ m.intr = false)))) :
    takeTrapM cfg m h = deliverM cfg m h :=
  if_neg fun hm => hc ((mLevelCritical_iff cfg m.intr h).1 hm)

/-- A trap that meets one with `NMIE` = 1 invokes the RNMI handler (R192, R194). -/
theorem takeTrapM_of_rnmi {cfg : Config} {m : TrapImage} {h : Hart} (hc : mLevelCritical cfg m.intr h = true)
    (hs : cfg.hasSmrnmi = true) (hn : nmie h = true) : takeTrapM cfg m h = invokeRnmi cfg m h := by
  simp [takeTrapM, criticalErrorCondition, hc, hs, hn]

/-! ### Delivery into M-mode (R181, R182) -/

/-- `mtval2` exists with H or Ssdbltrp (R39). -/
theorem deliverM_tval2 (cfg : Config) (m : TrapImage) (h : Hart) :
    (deliverM cfg m h).m.tval2 = if cfg.hasH = true ∨ cfg.hasSsdbltrp = true then m.tval2 else h.m.tval2 := by
  simp [hasMtval2]

/-- Where a delivery into M-mode goes: only without Smdbltrp is there an RNMI exception handler (R181). -/
theorem pcOnM_eq {cfg : Config} {m : TrapImage} {h : Hart} (ha : alignPc cfg cfg.rnmiExcHandler = cfg.rnmiExcHandler)
    (hc : cfg.hasSmdbltrp = true → ¬(cfg.hasSmrnmi = true ∧ nmie h = false ∧ h.priv = .m ∧ m.intr = false)) :
    pcOnM cfg m h = if cfg.hasSmrnmi = true ∧ nmie h = false ∧ h.priv = .m ∧ m.intr = false then cfg.rnmiExcHandler
      else vector cfg h.m.tvec m.intr m.code := by
  rw [pcOnM, ha]
  cases hs : cfg.hasSmdbltrp
  · simp [and_assoc]
  · rw [if_neg (hc hs)]
    simp

/-- A trap that arose below M-mode never goes to the RNMI exception handler (R181). -/
theorem pcOnM_of_not_m {h : Hart} (hp : h.priv ≠ .m) (cfg : Config) (m : TrapImage) :
    pcOnM cfg m h = vector cfg h.m.tvec m.intr m.code := by
  simp [pcOnM, hp]

/-- Settles O28: the delivery of an ordinary trap's image into M-mode. -/
theorem trapIntoM : Obligations.TrapIntoM := by
  intro cfg h t hd hc ha h'
  have hcritical : ¬(cfg.hasSmdbltrp = true
      ∧ (bit h.m.status 45 = true ∨ (cfg.hasSmrnmi = true ∧ nmie h = false ∧ h.priv = .m ∧ t.intr = false))) := by
    rintro ⟨hs, hmdt | hn⟩
    · exact absurd ((hc hs).1.symm.trans hmdt) (by decide)
    · exact (hc hs).2 hn
  have e : h' = deliverM cfg (img cfg t) h := (takeTrap_of_m hd).trans (takeTrapM_of_not_critical hcritical)
  obtain ⟨hgva, hmpv, hmpp, hmpie, hmie, hmdt, hkept⟩ := statusOnM_bits cfg (img cfg t) h
  rw [e]
  exact ⟨rfl, rfl, rfl, bit_mcauseOf cfg t.intr t.code, deliverM_tval2 .., rfl, hgva, hmpv, hmpp, hmpie, hmie, hmdt,
    hkept, rfl, rfl, pcOnM_eq ha fun hs => (hc hs).2, rfl⟩

/-- Settles O29: the delivery of a double trap's image into M-mode. -/
theorem doubleTrapDelivery : Obligations.DoubleTrapDelivery := by
  intro cfg h t hd hmdt0 h'
  have hp := doubleTrap_priv_ne_m hd
  have hcritical : ¬(cfg.hasSmdbltrp = true
      ∧ (bit h.m.status 45 = true ∨ (cfg.hasSmrnmi = true ∧ nmie h = false ∧ h.priv = .m ∧ false = false))) := by
    rintro ⟨hs, hmdt | ⟨_, _, hm, _⟩⟩
    · exact absurd (hmdt0.symm.trans (Bool.and_eq_true_iff.2 ⟨hs, hmdt⟩)) (by decide)
    · exact hp hm
  have e : h' = deliverM cfg (dbl cfg t) h := (takeTrap_of_doubleTrap hd).trans (takeTrapM_of_not_critical hcritical)
  have hpc : pcOnM cfg (dbl cfg t) h = trunc cfg ((h.m.tvec >>> 2) <<< 2) :=
    (pcOnM_of_not_m hp cfg _).trans (vector_exception ..)
  have htval2 : (deliverM cfg (dbl cfg t) h).m.tval2 = mcauseOf cfg t.intr t.code :=
    (deliverM_tval2 ..).trans (if_pos (.inr (doubleTrap_hasSsdbltrp hd)))
  obtain ⟨hgva, hmpv, hmpp, hmpie, hmie, hmdt, hkept⟩ := statusOnM_bits cfg (dbl cfg t) h
  rw [e]
  exact ⟨rfl, rfl, rfl, htval2, rfl, hgva, hmpv, hmpp, hmpie, hmie, hmdt, hkept, rfl, rfl, hpc, rfl, rfl, rfl, rfl, rfl⟩

/-! ### Critical error conditions (R190 to R197) -/

/-- A trap into M-mode, with the image it has there. A double trap arose below M-mode, so that the second condition of R191 is the same for it as for its unexpected trap. -/
theorem takeTrap_of_intoM {cfg : Config} {t : TrapRequest} {h : Hart} (hto : intoM cfg t h) :
    ∃ m, takeTrap cfg t h = takeTrapM cfg m h ∧ (mLevelCritical cfg m.intr h = true ↔ cfg.hasSmdbltrp = true
      ∧ (bit h.m.status 45 = true ∨ (cfg.hasSmrnmi = true ∧ nmie h = false ∧ h.priv = .m ∧ t.intr = false))) := by
  rcases hto with hd | hd
  · exact ⟨_, takeTrap_of_m hd, mLevelCritical_iff cfg t.intr h⟩
  · refine ⟨_, takeTrap_of_doubleTrap hd, (mLevelCritical_iff cfg false h).trans ?_⟩
    simp [doubleTrap_priv_ne_m hd]

/-- `MNPP`, `MNPV` and `NMIE` where the RNMI handler is entered (R194, R201). -/
theorem mnstatusOn_bits (p : Priv) (v : Bool) (w : Word) :
    field2 (mnstatusOn p v w) loMNPP = p.code ∧ bit (mnstatusOn p v w) bitMNPV = v
      ∧ bit (mnstatusOn p v w) bitNMIE = false :=
  ⟨mnpp_mnstatusOn p v w, by simp [mnstatusOn, bitMNPV, bitNMIE], by simp [mnstatusOn, bitNMIE]⟩

/-- Settles O30: the RNMI handler, with the image of the trap or of the double trap. -/
theorem rnmiHandlerInvoked : Obligations.RnmiHandlerInvoked := by
  intro cfg h t hto hs hmdt hr hn ha h'
  have invoked : ∀ m, takeTrap cfg t h = takeTrapM cfg m h → h' = invokeRnmi cfg m h := fun m e =>
    e.trans (takeTrapM_of_rnmi ((mLevelCritical_iff cfg m.intr h).2 ⟨hs, .inl hmdt⟩) hr hn)
  obtain ⟨hmnpp, hmnpv, hnmie⟩ := mnstatusOn_bits .m false h.nm.status
  have frame : ∀ m, invokeRnmi cfg m h = { h with
      nm := { h.nm with epc := m.epc, cause := m.cause, status := mnstatusOn .m false h.nm.status }
      priv := .m, virt := false, pc := cfg.rnmiDbltrpHandler } := fun m => by rw [invokeRnmi, ha]
  rcases hto with hd | hd
  · rw [invoked _ (takeTrap_of_m hd)]
    exact ⟨rfl, fun hd' => absurd hd (doubleTrap_dest_ne_m hd'), fun _ => rfl, hmnpp, hmnpv, hnmie,
      mnstatusOn_kept _ _ _, frame _⟩
  · rw [invoked _ (takeTrap_of_doubleTrap hd)]
    exact ⟨rfl, fun _ => rfl, fun hd' => absurd hd' (doubleTrap_dest_ne_m hd), hmnpp, hmnpv, hnmie,
      mnstatusOn_kept _ _ _, frame _⟩

/-- Settles O31: of the three outcomes of a trap into M-mode only one is the critical-error state, and no delivery below M-mode reaches it. -/
theorem criticalErrorEntry : Obligations.CriticalErrorEntry := by
  intro cfg h t critical
  refine ⟨fun ⟨hto, hs, hcond, hn⟩ => ?_, fun hnot => ?_⟩
  · obtain ⟨m, e, hiff⟩ := takeTrap_of_intoM hto
    rcases takeTrapM_cases cfg m h with ⟨hc, _⟩ | ⟨_, hr, hn', _⟩ | ⟨_, _, e'⟩
    · exact absurd (hc.symm.trans (hiff.2 ⟨hs, hcond⟩)) (by decide)
    · rcases hn with hn | hn
      · exact absurd (hn.symm.trans hr) (by decide)
      · exact absurd (hn.symm.trans hn') (by decide)
    · exact e.trans e'
  · have ofM : intoM cfg t h → (takeTrap cfg t h).run = h.run ∧ (takeTrap cfg t h).cerr = h.cerr := fun hto => by
      obtain ⟨m, e, hiff⟩ := takeTrap_of_intoM hto
      rcases takeTrapM_cases cfg m h with ⟨_, e'⟩ | ⟨_, _, _, e'⟩ | ⟨hc, hn, _⟩
      · rw [e, e']; exact ⟨rfl, rfl⟩
      · rw [e, e']; exact ⟨rfl, rfl⟩
      · obtain ⟨hs, hcond⟩ := hiff.1 hc
        exact absurd ⟨hto, hs, hcond, Bool.and_eq_false_iff.1 hn⟩ hnot
    rcases takeTrap_cases cfg t h with ⟨_, _, e⟩ | ⟨_, _, e⟩ | ⟨hd, _⟩ | ⟨hd, _⟩
    · rw [e]; exact ⟨rfl, rfl⟩
    · rw [e]; exact ⟨rfl, rfl⟩
    · exact ofM (.inl hd)
    · exact ofM (.inr hd)

end Sys2Proof.Machine

/-! PROOF. MdtProtectsMLevelState, CauseSixteenOnlyByDoubleTrap: which traps reach the M-level trap registers, and where a cause of 16 comes from. -/

namespace Sys2Proof.Machine

open Sys2Proof.Safety

/-- Settles O32: of the deliveries only that into M-mode reaches a register other than `mstatus`, and it finds `MDT` 0. -/
theorem mdtProtectsMLevelState : Obligations.MdtProtectsMLevelState := by
  intro cfg h t hs hmdt
  have hmdt1 : mdt cfg h = true := Bool.and_eq_true_iff.2 ⟨hs, hmdt⟩
  have ofM : ∀ m, { (takeTrapM cfg m h).m with status := h.m.status } = h.m := fun m => by
    rcases takeTrapM_m cfg m h with e | ⟨hmdt0, _⟩
    · rw [e]
    · exact absurd (hmdt0.symm.trans hmdt1) (by decide)
  rcases takeTrap_cases cfg t h with ⟨_, _, e⟩ | ⟨_, _, e⟩ | ⟨_, e⟩ | ⟨_, e⟩ <;> rw [e]
  · rfl
  · rfl
  · exact ofM _
  · exact ofM _

/-- No other code gives the `mcause` of a double trap: 16 has no bit at `XLEN`-1 or above (R171, R189). -/
theorem mcauseOf_ne_sixteen {cfg : Config} {code : Word} (hw : xlenWide cfg code) (h16 : code ≠ 16#64) (intr : Bool) :
    mcauseOf cfg intr code ≠ 16#64 := by
  intro e
  refine h16 (eq_of_bits fun j => ?_)
  have hj := congrArg (bit · j) e
  have htop : bit (16#64) (xlenBits cfg - 1) = false := by unfold xlenBits; cases cfg.xlen <;> decide
  simp only [bit_mcauseOf] at hj
  by_cases hlast : j = xlenBits cfg - 1
  · rw [if_pos hlast] at hj
    rw [hlast, htop] at hj
    rw [hlast, htop]
    exact (Bool.or_eq_false_iff.1 hj).2
  · rw [if_neg hlast] at hj
    by_cases hlow : j < xlenBits cfg - 1
    · simpa [hlow] using hj
    · have hhigh : ¬ j < xlenBits cfg := by have := xlenBits_pos cfg; omega
      have hcode : bit code j = false := by rw [← hw, bit_trunc]; simp [hhigh]
      rw [hcode]
      simpa [hlow] using hj

theorem takeTrapM_cause {cfg : Config} {m : TrapImage} {h : Hart} (hm : m.cause ≠ 16#64)
    (hc : (takeTrapM cfg m h).m.cause = 16#64) : h.m.cause = 16#64 := by
  rcases takeTrapM_m cfg m h with e | ⟨_, e⟩
  · rwa [e] at hc
  · rw [e] at hc
    exact absurd hc hm

/-- An NMI never writes 16 to `mcause` (assumption log 17). -/
theorem nmiCause_ne_sixteen (cfg : Config) (cause : Word) : nmiCause cfg cause ≠ 16#64 := by
  unfold nmiCause
  split
  · decide
  · assumption

/-- Settles O33: who writes `mcause` and `scause`, and with what. -/
theorem causeSixteenOnlyByDoubleTrap : Obligations.CauseSixteenOnlyByDoubleTrap := by
  refine ⟨fun cfg h t hw h16 => ?_, fun cfg h code tval tval2 tinst guestVa => ?_, fun cfg h cause hc => ?_⟩
  · have hcause := mcauseOf_ne_sixteen hw h16 t.intr
    have sOfM : ∀ m, (takeTrapM cfg m h).s = h.s := fun m => by
      obtain ⟨_, _, _, _, _, _, _, es, _⟩ := takeTrapM_frame cfg m h
      exact es
    rcases takeTrap_cases cfg t h with ⟨_, _, e⟩ | ⟨_, _, e⟩ | ⟨_, e⟩ | ⟨hd, e⟩
    · rw [e]; exact ⟨.inl, id⟩
    · rw [e]; exact ⟨.inl, fun hc => absurd hc hcause⟩
    · rw [e, sOfM]; exact ⟨fun hc => .inl (takeTrapM_cause (m := img cfg t) hcause hc), id⟩
    · rw [e, sOfM]; exact ⟨fun _ => .inr hd, id⟩
  · obtain ⟨h16, hhigh⟩ := baseCode_bits cfg code
    exact ⟨rfl, h16, hhigh⟩
  · rcases takeNmi_cases cfg cause h with e | ⟨_, e⟩ | e <;> rw [e] at hc
    · exact hc
    · exact hc
    · exact absurd hc (nmiCause_ne_sixteen cfg cause)

end Sys2Proof.Machine

/-! PROOF. InterruptSelection, DisableTrapBitsBlockInterrupts: when an interrupt can be taken, which of those that can is selected, and when the hart takes it. -/

namespace Sys2Proof.Machine

open Sys2Proof.Safety

/-! ### Which interrupts can be taken (R203) -/

/-- The destination of interrupt `c` (R173). -/
def interruptDest (cfg : Config) (h : Hart) (c : Nat) : Dest := dest cfg h true (BitVec.ofNat 64 c)

/-- The enable of R203 on the scale of privilege: a more privileged destination, or the same one with its global enable. VS-mode is a destination with `V` = 1 only. -/
theorem enabledFor_iff {h : Hart} {d : Dest} (hv : d = .vs → h.virt = true) :
    enabledFor h d = true ↔ modeRank h < destRank d ∨ (modeRank h = destRank d ∧ globalEnable h d = true) := by
  cases d with
  | m => cases hp : h.priv <;> cases hvirt : h.virt <;> simp [enabledFor, modeRank, destRank, globalEnable, hp, hvirt]
  | hs => cases hp : h.priv <;> cases hvirt : h.virt <;> simp [enabledFor, modeRank, destRank, globalEnable, hp, hvirt]
  | vs => cases hp : h.priv <;> simp [enabledFor, modeRank, destRank, globalEnable, hp, hv rfl]

theorem canInterrupt_iff (cfg : Config) (h : Hart) (c : Nat) :
    canInterrupt cfg h c ↔ c ∈ interruptOrder cfg ∧ takeable cfg h (interruptDest cfg h c) c = true := by
  have hen := enabledFor_iff (h := h) (d := interruptDest cfg h c) virt_of_dest
  unfold canInterrupt
  rw [takeable, Bool.and_eq_true, Bool.and_eq_true, hen, interruptDest, beq_self_eq_true]
  tauto

theorem interruptDest_of_takeable {cfg : Config} {h : Hart} {d : Dest} {c : Nat} (ht : takeable cfg h d c = true) :
    interruptDest cfg h c = d := by
  simp only [takeable, Bool.and_eq_true, beq_iff_eq] at ht
  obtain ⟨⟨_, hd⟩, _⟩ := ht
  exact hd

/-! ### Which of them is selected (R204) -/

/-- What `find?` answers comes before everything else it could have answered. -/
theorem idxOf_le_of_find? {l : List Nat} {p : Nat → Bool} {c c' : Nat} (hf : l.find? p = some c) (hc' : p c' = true) :
    l.idxOf c ≤ l.idxOf c' := by
  induction l with
  | nil => cases hf
  | cons x l ih =>
    cases hx : p x
    · have hfl : l.find? p = some c := by rwa [List.find?_cons_of_neg (by simp [hx])] at hf
      have hne : ∀ b, p b = true → x ≠ b := fun b hb e => absurd (hx.symm.trans (e ▸ hb)) (by decide)
      rw [List.idxOf_cons_ne _ (hne c (List.find?_some hfl)), List.idxOf_cons_ne _ (hne c' hc')]
      exact Nat.succ_le_succ (ih hfl)
    · rw [List.find?_cons_of_pos hx] at hf
      cases hf
      rw [List.idxOf_cons_self]
      exact Nat.zero_le _

/-- The interrupt first in the order of codes among those with destination `d` that can be taken (assumption log 16). -/
def firstInterrupt (cfg : Config) (h : Hart) (d : Dest) : Option Nat := (interruptOrder cfg).find? (takeable cfg h d)

theorem firstInterrupt_none {cfg : Config} {h : Hart} {d : Dest} (hf : firstInterrupt cfg h d = none) {c : Nat}
    (hc : canInterrupt cfg h c) : interruptDest cfg h c ≠ d := by
  rintro rfl
  obtain ⟨hmem, ht⟩ := (canInterrupt_iff ..).1 hc
  exact List.find?_eq_none.1 hf c hmem ht

theorem firstInterrupt_some {cfg : Config} {h : Hart} {d : Dest} {c : Nat} (hf : firstInterrupt cfg h d = some c) :
    canInterrupt cfg h c ∧ interruptDest cfg h c = d ∧ ∀ c', canInterrupt cfg h c' → interruptDest cfg h c' = d →
      (interruptOrder cfg).idxOf c ≤ (interruptOrder cfg).idxOf c' := by
  have ht := List.find?_some hf
  have hd := interruptDest_of_takeable ht
  refine ⟨(canInterrupt_iff ..).2 ⟨List.mem_of_find?_eq_some hf, hd.symm ▸ ht⟩, hd, fun c' hc' hd' => ?_⟩
  exact idxOf_le_of_find? hf (hd' ▸ ((canInterrupt_iff ..).1 hc').2)

/-- The three destinations are tried from the most privileged down, unless NMIs are disabled (R44, R204). -/
theorem selectedInterrupt_cases (cfg : Config) (h : Hart) :
    ((cfg.hasSmrnmi = true ∧ nmie h = false) ∧ selectedInterrupt cfg h = none)
    ∨ (¬(cfg.hasSmrnmi = true ∧ nmie h = false) ∧ selectedInterrupt cfg h = none ∧ ∀ d, firstInterrupt cfg h d = none)
    ∨ (¬(cfg.hasSmrnmi = true ∧ nmie h = false) ∧ ∃ d c, selectedInterrupt cfg h = some c
        ∧ firstInterrupt cfg h d = some c ∧ ∀ d', destRank d < destRank d' → firstInterrupt cfg h d' = none) := by
  have hsel : selectedInterrupt cfg h =
      if cfg.hasSmrnmi = true ∧ nmie h = false then none
      else (firstInterrupt cfg h .m).or ((firstInterrupt cfg h .hs).or (firstInterrupt cfg h .vs)) := by
    unfold selectedInterrupt firstInterrupt
    simp only [Bool.and_eq_true, Bool.not_eq_true']
    split
    · rfl
    · cases (interruptOrder cfg).find? (takeable cfg h .m) <;>
        cases (interruptOrder cfg).find? (takeable cfg h .hs) <;> rfl
  rw [hsel]
  by_cases hb : cfg.hasSmrnmi = true ∧ nmie h = false
  · exact .inl ⟨hb, if_pos hb⟩
  · rw [if_neg hb]
    refine .inr ?_
    cases hm : firstInterrupt cfg h .m with
    | some c => exact .inr ⟨hb, .m, c, rfl, hm, fun d' hd' => by cases d' <;> exact absurd hd' (by decide)⟩
    | none =>
      cases hhs : firstInterrupt cfg h .hs with
      | some c =>
        refine .inr ⟨hb, .hs, c, rfl, hhs, fun d' hd' => ?_⟩
        cases d' with
        | m => exact hm
        | hs | vs => exact absurd hd' (by decide)
      | none =>
        cases hvs : firstInterrupt cfg h .vs with
        | some c =>
          refine .inr ⟨hb, .vs, c, rfl, hvs, fun d' hd' => ?_⟩
          cases d' with
          | m => exact hm
          | hs => exact hhs
          | vs => exact absurd hd' (by decide)
        | none => exact .inl ⟨hb, rfl, fun d => by cases d <;> assumption⟩

theorem selectedInterrupt_eq_none_iff (cfg : Config) (h : Hart) :
    selectedInterrupt cfg h = none ↔ (cfg.hasSmrnmi = true ∧ nmie h = false) ∨ ∀ c, ¬canInterrupt cfg h c := by
  rcases selectedInterrupt_cases cfg h with ⟨hb, e⟩ | ⟨_, e, hf⟩ | ⟨hb, d, c, e, hf, _⟩
  · exact iff_of_true e (.inl hb)
  · exact iff_of_true e (.inr fun c hc => firstInterrupt_none (hf (interruptDest cfg h c)) hc rfl)
  · refine iff_of_false (by rw [e]; exact nofun) ?_
    rintro (hb' | hn)
    · exact hb hb'
    · exact hn c (firstInterrupt_some hf).1

theorem destRank_injective : Function.Injective destRank := by
  intro d d'
  cases d <;> cases d' <;> decide

/-- The one selected can be taken, and comes first: by the rank of its destination, then by the order of codes (R204). -/
theorem selectedInterrupt_first {cfg : Config} {h : Hart} {c : Nat} (hs : selectedInterrupt cfg h = some c) :
    canInterrupt cfg h c ∧ ∀ c', canInterrupt cfg h c' →
      destRank (interruptDest cfg h c') < destRank (interruptDest cfg h c)
        ∨ (interruptDest cfg h c' = interruptDest cfg h c
            ∧ (interruptOrder cfg).idxOf c ≤ (interruptOrder cfg).idxOf c') := by
  rcases selectedInterrupt_cases cfg h with ⟨_, e⟩ | ⟨_, e, _⟩ | ⟨_, d, c₀, e, hf, habove⟩
  · cases e.symm.trans hs
  · cases e.symm.trans hs
  · cases e.symm.trans hs
    obtain ⟨hc, hd, hfirst⟩ := firstInterrupt_some hf
    refine ⟨hc, fun c' hc' => ?_⟩
    rw [hd]
    rcases Nat.lt_trichotomy (destRank (interruptDest cfg h c')) (destRank d) with hlt | heq | hgt
    · exact .inl hlt
    · have hd' := destRank_injective heq
      exact .inr ⟨hd', hfirst c' hc' hd'⟩
    · exact absurd rfl (firstInterrupt_none (habove _ hgt) hc')

/-! ### When it is taken (R204, R211) -/

/-- A running hart's turn, its own or one with an exception of `BaseISA`, starts at the boundary between two instructions. -/
theorem step_of_hartTurns {s : State} (ht : hartTurns s) (hr : s.hart.run = .running) :
    ∃ instr, step s = boundaryStep (hartTurn s) instr := by
  have hr' : (hartTurn s).hart.run = .running := hr
  rcases ht with hm | ⟨code, tval, tval2, tinst, g, rest, he⟩
  · exact ⟨_, (step_of_hartMoves hm).trans (by rw [hartStep, hr']; rfl)⟩
  · exact ⟨_, (step_of_event he).trans (if_pos hr')⟩

/-- A running hart without a halt request takes the interrupt selected, whatever its instruction would do (R204). -/
theorem step_of_selectedInterrupt {s : State} {c : Nat} (ht : hartTurns s) (hr : s.hart.run = .running)
    (hh : (s.hart.haltreq && s.cfg.hasDebug) = false) (hs : selectedInterrupt s.cfg s.hart = some c) :
    step s = .next ((hartTurn s).onHart (takeTrap s.cfg (interruptRequest s.hart c))) := by
  obtain ⟨instr, e⟩ := step_of_hartTurns ht hr
  rw [e]
  rcases boundaryStep_cases (hartTurn s) instr with ⟨hh', _⟩ | ⟨_, c', hc', e'⟩ | ⟨_, hn, _⟩
  · exact absurd (hh.symm.trans hh') (by decide)
  · cases hs.symm.trans hc'
    rw [e']
    exact congrArg _ (onHart_raise_of_running (s := hartTurn s) hr _)
  · cases hs.symm.trans hn

/-- Settles O41: selection by destination and then by code, and the turn in which the hart takes what is selected. -/
theorem interruptSelection : Obligations.InterruptSelection := by
  refine fun cfg h => ⟨selectedInterrupt_eq_none_iff cfg h, fun c hc => selectedInterrupt_first hc, ?_⟩
  rintro s c rfl rfl ht hr hh hs
  exact step_of_selectedInterrupt ht hr hh hs

/-! ### The disable-trap bits (R52, R53, R185) -/

/-- Settles O42: beside a disable-trap bit of 1 the global enable of the hart's own mode is 0, so that only a more privileged destination is left. -/
theorem disableTrapBitsBlockInterrupts : Obligations.DisableTrapBitsBlockInterrupts := by
  refine fun cfg h => ⟨fun hp hv hsdt hmask c hs => ?_, fun hp hmdt hmask => ?_⟩
  · obtain ⟨⟨_, _, hen⟩, _⟩ := selectedInterrupt_first hs
    have hsie : sie h = false := hmask.1 hsdt
    have hrank : modeRank h = 2 := (modeRank_of_s hp).trans (by simp [hv])
    rw [hrank] at hen
    cases hd : dest cfg h true (BitVec.ofNat 64 c) with
    | m => rfl
    | hs => simp [hd, destRank, globalEnable, hsie] at hen
    | vs => simp [hd, destRank] at hen
  · refine (selectedInterrupt_eq_none_iff cfg h).2 (.inr fun c ⟨_, _, hen⟩ => ?_)
    have hmie : mie h = false := hmask hmdt
    rw [modeRank_of_m hp] at hen
    cases hd : dest cfg h true (BitVec.ofNat 64 c) with
    | m => simp [hd, destRank, globalEnable, hmie] at hen
    | hs | vs => simp [hd, destRank] at hen

end Sys2Proof.Machine

/-! PROOF. ResumableNmi, NonResumableNmi: when each kind of NMI is taken, and what its delivery writes. -/

namespace Sys2Proof.Machine

open Sys2Proof.Safety

/-- A change that leaves the active hart as it was leaves the state as it was. -/
theorem onHart_of_eq {s : State} {f : Hart → Hart} (hf : f s.hart = s.hart) : s.onHart f = s :=
  congrArg s.setHart hf

/-! ### RNMIs (R201) -/

theorem takeRnmi_of_lost {cfg : Config} {h : Hart} (hl : h.run ≠ .running ∨ cfg.hasSmrnmi = false ∨ nmie h = false)
    (cause : Word) : takeRnmi cfg cause h = h := by
  refine if_neg fun ⟨hr, hs, hn⟩ => ?_
  rcases hl with hl | hl | hl
  · exact hl hr
  · exact absurd (hl.symm.trans hs) (by decide)
  · exact absurd (hl.symm.trans hn) (by decide)

theorem takeRnmi_of_taken {cfg : Config} {h : Hart} (hr : h.run = .running) (hs : cfg.hasSmrnmi = true)
    (hn : nmie h = true) (ha : alignPc cfg cfg.rnmiIntHandler = cfg.rnmiIntHandler) (cause : Word) :
    takeRnmi cfg cause h = { h with
      nm := { h.nm with epc := h.pc, cause := trunc cfg cause, status := mnstatusOn h.priv h.virt h.nm.status }
      priv := .m, virt := false, pc := cfg.rnmiIntHandler } :=
  (if_pos ⟨hr, hs, hn⟩).trans (by rw [ha])

/-- Settles O43: an RNMI is lost, or enters its handler with the previous mode in `mnstatus`. -/
theorem resumableNmi : Obligations.ResumableNmi := by
  intro s cause rest he ha
  refine ⟨_, step_of_event he, hartOnly_onHart .., fun hl => takeRnmi_of_lost hl cause, fun hr hs hn => ?_⟩
  have e : takeRnmi s.cfg cause s.hart = _ := takeRnmi_of_taken hr hs hn ha cause
  obtain ⟨hmnpp, hmnpv, hnmie⟩ := mnstatusOn_bits s.hart.priv s.hart.virt s.hart.nm.status
  simp only [State.onHart_hart, hartTurn_hart, hartTurn_cfg, e]
  exact ⟨trivial, trivial, hmnpp, hmnpv, hnmie, mnstatusOn_kept _ _ _, trivial⟩

/-! ### Non-resumable NMIs (R202) -/

theorem takeNmi_of_lost {cfg : Config} {h : Hart} (hl : h.run ≠ .running ∨ cfg.hasSmrnmi = true) (cause : Word) :
    takeNmi cfg cause h = h := by
  refine if_neg fun ⟨hr, hs⟩ => ?_
  rcases hl with hl | hl
  · exact hl hr
  · exact absurd (hs.symm.trans hl) (by decide)

/-- Only where NMIs check `MDT` can one meet a critical error condition (R202, D13). -/
theorem takeNmi_of_taken {cfg : Config} {h : Hart} (hr : h.run = .running) (hs : cfg.hasSmrnmi = false) (cause : Word) :
    takeNmi cfg cause h
      = if cfg.nmiChecksMdt = true ∧ mdt cfg h = true then enterCriticalError h else deliverNmi cfg cause h :=
  (if_pos ⟨hr, hs⟩).trans (by simp only [Bool.and_eq_true])

/-- `mstatus` after the delivery of an NMI: `MDT` is set only where NMIs count as traps into M-mode (R202; assumption log 17). -/
theorem deliverNmi_status (cfg : Config) (cause : Word) (h : Hart) : let h' := deliverNmi cfg cause h
    mdt cfg h' = ((cfg.hasSmdbltrp && cfg.nmiChecksMdt) || mdt cfg h)
      ∧ bitsKept (if cfg.hasSmdbltrp && cfg.nmiChecksMdt then [3, 45] else []) h.m.status h'.m.status := by
  simp only [mdt, deliverNmi_m]
  cases hc : cfg.hasSmdbltrp && cfg.nmiChecksMdt
  · exact ⟨rfl, fun _ _ => rfl⟩
  · obtain ⟨hs, -⟩ := Bool.and_eq_true_iff.1 hc
    refine ⟨by simp [hs, bitMDT, bitMIE], fun j hj => ?_⟩
    obtain ⟨h3, h45⟩ : j ≠ 3 ∧ j ≠ 45 := by simpa using hj
    simp [bitMDT, bitMIE, h3, h45]

/-- Settles O44: an NMI is lost, ends in the critical-error state, or is delivered. -/
theorem nonResumableNmi : Obligations.NonResumableNmi := by
  refine ⟨fun s cause rest he hl => ?_, fun s cause rest he hr hs ha => ?_⟩
  · have e : takeNmi s.cfg cause (hartTurn s).hart = (hartTurn s).hart := takeNmi_of_lost hl cause
    exact (step_of_event he).trans (congrArg _ (onHart_of_eq e))
  · have htaken := takeNmi_of_taken hr hs cause
    refine ⟨_, step_of_event he, hartOnly_onHart .., fun hn hm => ?_, fun hnot => ?_⟩
    · exact htaken.trans (if_pos ⟨hn, hm⟩)
    · have e : takeNmi s.cfg cause s.hart = deliverNmi s.cfg cause s.hart := htaken.trans (if_neg hnot)
      obtain ⟨hmdt, hkept⟩ := deliverNmi_status s.cfg cause s.hart
      simp only [State.onHart_hart, hartTurn_hart, hartTurn_cfg, e]
      exact ⟨rfl, rfl, hmdt, hkept, by rw [deliverNmi, ha]⟩

end Sys2Proof.Machine

/-! PROOF. HaltOfARunningHart, HaltInTheCriticalErrorState: Debug Mode entry from each run state, and the turns that change nothing. -/

namespace Sys2Proof.Machine

open Sys2Proof.Safety

/-! ### From `Running` (R211, R216) -/

/-- A halt request comes before an interrupt and before the instruction (R211; assumption log 16). -/
theorem step_of_haltreq {s : State} (ht : hartTurns s) (hr : s.hart.run = .running)
    (hh : (s.hart.haltreq && s.cfg.hasDebug) = true) :
    step s = .next ((hartTurn s).onHart (enterDebug s.cfg 0x3#3)) := by
  obtain ⟨instr, e⟩ := step_of_hartTurns ht hr
  exact e.trans (if_pos hh)

theorem step_of_debugEntry {s : State} {cause : BitVec 3} {rest : List Event}
    (he : s.events = .debugEntry cause :: rest) : step s = .next (otherDebugEntry (hartTurn s) cause) :=
  step_of_event he

theorem otherDebugEntry_of_running {s : State} (hr : s.hart.run = .running) (hd : s.cfg.hasDebug = true)
    (cause : BitVec 3) : otherDebugEntry s cause = s.onHart (enterDebug s.cfg cause) := if_pos ⟨hr, hd⟩

theorem otherDebugEntry_of_refused {s : State} (h : s.hart.run ≠ .running ∨ s.cfg.hasDebug = false)
    (cause : BitVec 3) : otherDebugEntry s cause = s := by
  refine if_neg fun ⟨hr, hd⟩ => ?_
  rcases h with h | h
  · exact h hr
  · exact absurd (h.symm.trans hd) (by decide)

/-- A hart in Debug Mode waits for the debugger, in its own turn and in one with an exception (R216; assumption log 15). -/
theorem step_of_debugMode {s : State} (ht : hartTurns s) (hr : s.hart.run = .debugMode) :
    step s = .next (hartTurn s) := by
  have hr' : (hartTurn s).hart.run = .debugMode := hr
  rcases ht with hm | ⟨code, tval, tval2, tinst, g, rest, he⟩
  · exact (step_of_hartMoves hm).trans (by rw [hartStep, hr'])
  · exact (step_of_event he).trans (exceptionStep_of_not_running (by rw [hr']; decide) _)

/-- Settles O45: both ways into Debug Mode are the same entry, and a halted hart's turn does nothing. -/
theorem haltOfARunningHart : Obligations.HaltOfARunningHart := by
  refine ⟨fun s cause hr hd hway => ?_, fun s => ⟨step_of_debugMode, fun cause rest he hrefused => ?_⟩⟩
  · have e : step s = .next ((hartTurn s).onHart (enterDebug s.cfg cause)) := by
      rcases hway with ⟨ht, hq, rfl⟩ | ⟨rest, he⟩
      · exact step_of_haltreq ht hr (Bool.and_eq_true_iff.2 ⟨hq, hd⟩)
      · rw [step_of_debugEntry he, otherDebugEntry_of_running (s := hartTurn s) hr hd]
        rfl
    exact ⟨_, e, hartOnly_onHart .., enterDebug_debugEntered hr s.cfg cause⟩
  · rw [step_of_debugEntry he, otherDebugEntry_of_refused (s := hartTurn s) hrefused]

/-! ### From the critical-error state (R212, R213) -/

/-- A hart in the critical-error state moves only where a halt request finds Sddbltrp (R198, R212, R213). -/
theorem step_of_criticalError {s : State} (hm : hartMoves s) (hr : s.hart.run = .criticalError) :
    step s = .next (if (s.hart.haltreq && s.cfg.hasSddbltrp) = true then (hartTurn s).onHart (enterDebug s.cfg 0x3#3)
      else hartTurn s) := by
  have hr' : (hartTurn s).hart.run = .criticalError := hr
  exact (step_of_hartMoves hm).trans (by rw [hartStep, hr']; rfl)

/-- A Debug Mode entry from there writes the debug registers and the run state, and keeps `critical-error` asserted as `CERR_HELD_IN_DEBUG` says (R212). -/
theorem enterDebug_frame_of_criticalError {h : Hart} (hr : h.run = .criticalError) (cfg : Config) (c : BitVec 3) :
    enterDebug cfg c h
      = { h with dbg := (enterDebug cfg c h).dbg, run := .debugMode, cerr := cfg.cerrHeldInDebug } := by
  have hcerr : (enterDebug cfg c h).cerr = cfg.cerrHeldInDebug := by
    rw [enterDebug_cerr, hr]
    rfl
  exact congrArg (fun b => { enterDebug cfg c h with cerr := b }) hcerr

/-- Settles O46: without Sddbltrp the turn changes nothing, with it the entry says in `pcerr` where the hart came from. -/
theorem haltInTheCriticalErrorState : Obligations.HaltInTheCriticalErrorState := by
  intro s hm hr hq
  have hstep := step_of_criticalError hm hr
  refine ⟨fun hs => ?_, fun hs => ?_⟩
  · rw [hstep, hq, hs]
    rfl
  · have e : step s = .next ((hartTurn s).onHart (enterDebug s.cfg 0x3#3)) := by
      rw [hstep, hq, hs]
      rfl
    have hpcerr : pcerr s.cfg (enterDebug s.cfg 0x3#3 s.hart) = true := by
      rw [pcerr_enterDebug, hs, hr]
      rfl
    obtain ⟨hcause, hprv, hv, -, hkept⟩ := dcsrOnEntry_bits s.cfg 0x3#3 (s.hart.run == .criticalError) s.hart
    exact ⟨_, e, hartOnly_onHart .., hpcerr, rfl, hcause, hprv, hv, hkept, enterDebug_frame_of_criticalError hr ..⟩

end Sys2Proof.Machine

/-! PROOF. CriticalErrorStateIsLeftOnlyByResetOrHalt, CondemnedUntilReset: what a hart in the critical-error state still undergoes, and which elementary changes it could leave by. -/

namespace Sys2Proof.Machine

open Sys2Proof.Safety

/-! ### The state itself (R198, R221) -/

/-- `h'` is `h` but for its input lines (R25, R203). -/
def inputsOnly (h h' : Hart) : Prop := { h' with irq := h.irq, haltreq := h.haltreq } = h

/-- The input lines are no part of what an instruction-retired counter shows (R221; assumption log 26). -/
theorem inputsOnly.counted {h h' : Hart} (hin : inputsOnly h h') :
    h'.hartId = h.hartId ∧ h'.retired = h.retired ∧ h'.baseCsrs = h.baseCsrs := by
  unfold inputsOnly at hin
  rw [← hin]
  exact ⟨rfl, rfl, rfl⟩

/-- The outcome is a next state whose active hart is `h` but for its input lines. -/
def NextInputsOnly (h : Hart) (o : Host.Outcome State Fault Refusal) : Prop := ∃ t, o = .next t ∧ inputsOnly h t.hart

theorem nextInputsOnly_of_hart_eq {h : Hart} {t : State} (ht : t.hart = h) : NextInputsOnly h (.next t) :=
  ⟨t, rfl, by rw [ht]; rfl⟩

theorem dmRegisterWrite_hart (s : State) (n : Nat) (v : BitVec 32) : (dmRegisterWrite s n v).hart = s.hart := by
  rw [(dmRegisterWrite_frame s n v).1]

/-- An action of the platform that resets no hart leaves the active one alone (R199). -/
theorem platformReact_hart {s : State} {a : PlatformAction} (ha : resets (.platform a) = false) :
    (platformReact s a).hart = s.hart := by
  unfold platformReact
  split
  · cases a with
    | nothing | other => rfl
    | resetHart | resetAll => cases ha
  · rfl

/-- No event but a reset, a selection or the hart's own turn changes more than the input lines of a hart in the critical-error state: no NMI, no exception and no debugger command (R198). -/
theorem eventStep_of_criticalError {e : Event} {s : State} (hr : s.hart.run = .criticalError) (hreset : resets e = false)
    (hselect : selects e = false) (hne : e ≠ .hart) : NextInputsOnly s.hart (eventStep e s) := by
  have hnr : s.hart.run ≠ .running := by rw [hr]; decide
  have hnd : s.hart.run ≠ .debugMode := by rw [hr]; decide
  cases e with
  | hart => exact absurd rfl hne
  | select | resetHart | resetAll => contradiction
  | irqLine | haltRequest => exact ⟨_, rfl, rfl⟩
  | rnmi c => exact nextInputsOnly_of_hart_eq (takeRnmi_of_lost (.inl hnr) c)
  | nmi c => exact nextInputsOnly_of_hart_eq (takeNmi_of_lost (.inl hnr) c)
  | baseException =>
    show NextInputsOnly s.hart (exceptionStep s _)
    rw [exceptionStep_of_not_running hnr]
    exact nextInputsOnly_of_hart_eq rfl
  | debugEntry c => exact nextInputsOnly_of_hart_eq (congrArg State.hart (otherDebugEntry_of_refused (.inl hnr) c))
  | resume => exact nextInputsOnly_of_hart_eq (congrArg State.hart (if_neg hnd))
  | debugExec w =>
    show NextInputsOnly s.hart (debugExec w s)
    rw [debugExec, if_neg hnd]
    exact nextInputsOnly_of_hart_eq rfl
  | debugCsrRead | debugCsrWrite =>
    exact nextInputsOnly_of_hart_eq (congrArg State.hart (if_neg fun h => hnd h.1))
  | debugRegRead | debugRegWrite => exact nextInputsOnly_of_hart_eq (congrArg State.hart (if_neg hnd))
  | dmWrite n v => exact nextInputsOnly_of_hart_eq (dmRegisterWrite_hart s n v)
  | platform a => exact nextInputsOnly_of_hart_eq (platformReact_hart hreset)
  | memWrite | dmRead | resetDm => exact nextInputsOnly_of_hart_eq rfl

/-- Settles O47: the hart's own turn changes nothing, an event its input lines at most, and a counter reads neither. -/
theorem criticalErrorStateIsLeftOnlyByResetOrHalt : Obligations.CriticalErrorStateIsLeftOnlyByResetOrHalt := by
  intro s hr hnohalt hn
  have hmoved : NextInputsOnly s.hart (step s) := by
    have own : hartMoves s → NextInputsOnly s.hart (step s) := fun hm => by
      have hc : ¬((s.hart.haltreq && s.cfg.hasSddbltrp) = true) := fun hc => by
        obtain ⟨hq, hs⟩ := Bool.and_eq_true_iff.1 hc
        exact hnohalt ⟨hm, hq, hs⟩
      rw [step_of_criticalError hm hr, if_neg hc]
      exact nextInputsOnly_of_hart_eq rfl
    cases hev : s.events with
    | nil => exact own (.inl hev)
    | cons e rest =>
      by_cases he : e = .hart
      · exact own (.inr ⟨rest, he ▸ hev⟩)
      · obtain ⟨hreset, hselect⟩ := hn e rest hev
        rw [step_of_event hev]
        exact eventStep_of_criticalError (s := hartTurn s) hr hreset hselect he
  obtain ⟨t, ht, hin⟩ := hmoved
  obtain ⟨hid, hretired, hbase⟩ := hin.counted
  exact ⟨t, ht, hin, fun a ha hb => csrReadVia_retiredCounter _ _ ha hb (step_cfg ht) hid hretired hbase⟩

/-! ### Halted out of it (R198, R212, R214) -/

theorem not_running_of_condemned {cfg : Config} {h : Hart} (hc : condemned cfg h) : h.run ≠ .running := by
  rcases hc with hr | ⟨hr, _⟩ <;> rw [hr] <;> decide

/-- What `condemned` reads of a hart. -/
theorem condemned_congr {cfg : Config} {h h' : Hart} (hr : h'.run = h.run) (hp : pcerr cfg h' = pcerr cfg h) :
    condemned cfg h' ↔ condemned cfg h := by
  unfold condemned
  rw [hr, hp]

/-- An elementary change of a condemned hart leaves the run state and `pcerr`, halts it with `pcerr` = 1, or returns it to the critical-error state (R46, R212, R214). -/
theorem HartOp.keeps_condemned {cfg : Config} {h h' : Hart} (o : HartOp cfg h h') (hc : condemned cfg h) :
    condemned cfg h' := by
  have hnr := not_running_of_condemned hc
  cases o with
  | trap hr | halt hr => exact absurd hr hnr
  | reg => exact (condemned_congr (writeReg_run ..) (pcerr_congr cfg (writeReg_dbg ..))).2 hc
  | @csr c v =>
    obtain ⟨_, _, _, _, _, er, _⟩ := Csr.write_csrsOnly cfg h v c
    exact (condemned_congr er (pcerr_csrWrite cfg h v c)).2 hc
  | resume hr =>
    rcases hc with hr' | ⟨_, hp⟩
    · cases hr.symm.trans hr'
    · obtain ⟨_, _, _, hcritical, _⟩ := resume_resumed cfg h
      exact .inl (hcritical hp).1
  | haltCritical hr hd =>
    refine .inr ⟨rfl, ?_⟩
    rw [pcerr_enterDebug, hd, hr]
    rfl
  | rnmi => rw [takeRnmi_of_lost (.inl hnr)]; exact hc
  | nmi => rw [takeNmi_of_lost (.inl hnr)]; exact hc
  | _ => exact hc

/-- Settles O48: whatever a step does to the active hart is a row of elementary changes. -/
theorem condemnedUntilReset : Obligations.CondemnedUntilReset := by
  intro s t hc ht hn
  have moved : ∀ u : State, condemned u.cfg u.hart → hartMoved u t → condemned t.cfg t.hart := by
    rintro u hu ⟨hcfg, _, _, _, ho⟩
    rw [hcfg]
    exact ho.keeps (fun _ _ => HartOp.keeps_condemned) hu
  rcases step_moves ht with ⟨_, m⟩ | ⟨e, rest, he, m⟩
  · exact moved s.tick hc m
  · obtain ⟨hreset, hselect⟩ := hn e rest he
    cases m with
    | hart _ m => exact moved { s.tick with events := rest } hc m
    | swap n h' he' => subst he'; cases hselect
    | resetHart he' | resetAll he' => rcases he' with rfl | rfl <;> cases hreset
    | reschedule l _ e => subst e; exact hc

end Sys2Proof.Machine

/-! PROOF. HartsAreIndependent: what a step leaves of the parked harts, and the two events that drive an input line. -/

namespace Sys2Proof.Machine

open Sys2Proof.Safety

/-- What a step does to the parked harts: nothing, one of them changes places with the active hart, or all are reset (R14, R219, R240). -/
theorem step_parked_cases {s t : State} (h : step s = .next t) :
    t.parked = s.parked
      ∨ ∃ e rest, s.events = e :: rest ∧ ((∃ n, e = .select n ∧ t.parked = s.parked.set n s.hart)
          ∨ ((e = .resetAll ∨ e = .platform .resetAll) ∧ t.parked = s.parked.map (hartAfterReset s.cfg))) := by
  rcases step_moves h with ⟨_, _, hp, _⟩ | ⟨e, rest, he, m⟩
  · exact .inl hp
  · cases m with
    | hart _ m =>
      obtain ⟨_, hp, _⟩ := m
      exact .inl hp
    | swap n _ he' _ ht => exact .inr ⟨e, rest, he, .inl ⟨n, he', by rw [ht]; rfl⟩⟩
    | resetHart _ ht => exact .inl (by rw [ht]; rfl)
    | resetAll he' ht => exact .inr ⟨e, rest, he, .inr ⟨he', by rw [ht]; rfl⟩⟩
    | reschedule _ _ ht => exact .inl (by rw [ht]; rfl)

/-- Settles O51: a step that changes a parked hart is a selection or a reset of all, and neither changes how many there are. -/
theorem hartsAreIndependent : Obligations.HartsAreIndependent := by
  refine ⟨fun s t ht => ⟨step_cfg ht, ?_⟩, fun s level rest => ⟨fun he => ?_, fun code he => ?_⟩⟩
  · rcases step_parked_cases ht with hp | ⟨e, rest, he, ⟨n, hn, hp⟩ | ⟨hall, hp⟩⟩
    · rw [hp]
      exact ⟨rfl, fun _ => rfl⟩
    · refine ⟨by rw [hp, List.length_set], fun hother => ?_⟩
      obtain ⟨hselect, _⟩ := hother e rest he
      subst hn
      cases hselect
    · refine ⟨by rw [hp, List.length_map], fun hother => ?_⟩
      obtain ⟨_, hreset, hplatform⟩ := hother e rest he
      rcases hall with hall | hall
      · exact absurd hall hreset
      · exact absurd hall hplatform
  · exact step_of_event he
  · exact ⟨_, step_of_event he, fun j => bit_setBit s.hart.irq code j level⟩

end Sys2Proof.Machine

/-! PROOF. ResetOfAHart: what a configuration's constraints make of its reset parameters, and the one hart that every kind of reset leaves. -/

namespace Sys2Proof.Machine

open Sys2Proof.Safety

/-- A reset parameter that is 1 has the extension, and the parameter above it, that it needs, so a reset stores each parameter as it is (R241). -/
theorem resetParameters_of_wf {cfg : Config} (hwf : cfg.wf = true) :
    resetDte cfg = cfg.resetMenvcfgDte ∧ resetHdte cfg = cfg.resetHenvcfgDte
      ∧ (cfg.resetMenvcfgDte && cfg.resetSdt) = cfg.resetSdt
      ∧ (cfg.resetHenvcfgDte && cfg.resetVssdt) = cfg.resetVssdt := by
  simp only [Config.wf, Bool.and_eq_true, Bool.or_eq_true, Bool.not_eq_true', ← Bool.not_eq_true,
    ← imp_iff_not_or] at hwf
  obtain ⟨⟨⟨⟨_, hdte⟩, hhdte⟩, hsdt⟩, hvssdt⟩ := hwf
  have dte : resetDte cfg = cfg.resetMenvcfgDte := Bool.and_eq_right_iff_imp.2 hdte
  refine ⟨dte, ?_, Bool.and_eq_right_iff_imp.2 hsdt, Bool.and_eq_right_iff_imp.2 hvssdt⟩
  rw [resetHdte, dte]
  exact Bool.and_eq_right_iff_imp.2 fun h => Bool.and_eq_true_iff.2 (hhdte h)

/-- What R54, R240, R241 and R242 say of a hart right after its reset, with the one cause that the model leaves in `mcause` (assumption log 27). -/
def holdsResetValues (cfg : Config) (h : Hart) : Prop :=
  bit h.m.status 45 = cfg.hasSmdbltrp ∧ mie h = false ∧ mprv h = false ∧ nmie h = false
    ∧ h.priv = .m ∧ h.virt = false ∧ h.pc = cfg.resetVector ∧ h.run = .running ∧ h.cerr = false
    ∧ ssActive cfg h = cfg.resetMenvcfgDte ∧ ssActiveVS cfg h = cfg.resetHenvcfgDte
    ∧ sdt cfg h = cfg.resetSdt ∧ vsSdt cfg h = cfg.resetVssdt
    ∧ h.m.cause = cfg.resetCause ∧ bit h.m.edeleg 16 = false ∧ bit h.hs.edeleg 16 = false
    ∧ pcerr cfg h = false

/-- The hypotheses are those of `ResetOfAHart`: without them `pc` and `mcause` hold what their registers can of the configuration's values. -/
theorem hartAfterReset_holdsResetValues {cfg : Config} (hwf : cfg.wf = true)
    (hpc : alignPc cfg cfg.resetVector = cfg.resetVector) (hcause : xlenWide cfg cfg.resetCause) (h : Hart) :
    holdsResetValues cfg (hartAfterReset cfg h) := by
  obtain ⟨hmdt, hmie, _, hmprv, hbitSdt, _⟩ := resetMstatus_bits cfg
  obtain ⟨hbitVsSdt, _⟩ := resetVsstatus_bits cfg
  obtain ⟨hactive, hactiveVS⟩ := resetHart_active cfg h.hartId h.haltreq h.irq
  obtain ⟨hdte, hhdte, hsdt, hvsSdt⟩ := resetParameters_of_wf hwf
  rw [hdte] at hactive hbitSdt
  rw [hhdte] at hactiveVS hbitVsSdt
  have sdtHeld : sdt cfg (hartAfterReset cfg h) = cfg.resetSdt :=
    (congrArg₂ and hactive (hbitSdt.trans hsdt)).trans hsdt
  have vsSdtHeld : vsSdt cfg (hartAfterReset cfg h) = cfg.resetVssdt :=
    (congrArg₂ and hactiveVS (hbitVsSdt.trans hvsSdt)).trans hvsSdt
  have pcerrClear : pcerr cfg (hartAfterReset cfg h) = false :=
    (congrArg (and _) (by decide : resetDcsr.getLsbD bitPcerr = false)).trans (Bool.and_false _)
  exact ⟨hmdt, hmie, hmprv, (resetMnstatus_bits cfg).1, rfl, rfl, hpc, rfl, rfl, hactive, hactiveVS, sdtHeld,
    vsSdtHeld, hcause, bit_zero 16, bit_zero 16, pcerrClear⟩

/-- `scerr` is 0 while the Debug Module holds its reset values (R242). -/
theorem scerr_of_dm_reset {s : State} (h : s.dm = DebugModule.reset) : scerr s = false := by
  rw [scerr, h]
  exact Bool.and_false _

/-- The machine has `NHARTS` harts right after reset: the active one and the parked ones (R8, R240). -/
theorem resetIn_parked_length {cfg : Config} (hwf : cfg.wf = true) :
    (State.resetIn cfg).parked.length + 1 = cfg.nharts := by
  simp only [Config.wf, Bool.and_eq_true, decide_eq_true_eq] at hwf
  obtain ⟨⟨⟨⟨⟨_, hn⟩, _⟩, _⟩, _⟩, _⟩ := hwf
  simp only [State.resetIn, List.length_map, List.length_range]
  omega

/-- Settles O52: every reset, and the reset machine, leaves harts that `hartAfterReset` makes, and the constraints on the configuration turn what it stores into the parameters. -/
theorem resetOfAHart : Obligations.ResetOfAHart := by
  intro s rest hwf hpc hcause
  have hgood : ∀ h, holdsResetValues s.cfg (hartAfterReset s.cfg h) :=
    hartAfterReset_holdsResetValues hwf hpc hcause
  obtain ⟨hresetIn, hresetInParked⟩ := allHarts_resetIn (P := holdsResetValues) hgood
  refine ⟨fun he => ?resetHart, fun he => ?resetAll, fun he => ?resetDm, hresetIn, hresetInParked,
    resetIn_parked_length hwf, scerr_of_dm_reset rfl⟩
  case resetHart => exact ⟨_, step_of_event he, hartOnly_onHart .., hgood _, rfl⟩
  case resetAll =>
    refine ⟨_, step_of_event he, rfl, hgood _, fun h hh => ?_, rfl, List.map_map ..⟩
    obtain ⟨g, _, rfl⟩ := List.mem_map.1 hh
    exact hgood g
  case resetDm => exact ⟨_, step_of_event he, rfl, scerr_of_dm_reset rfl⟩

end Sys2Proof.Machine
